-- ==== Sys2Proof/Word.lean ====
section
/-! DEFINITION. The data shapes of QLX: the 32-bit cell, the four lanes, the four channels, and the
two containers indexed by them (spec/00_scope.md R6, R9; spec/10_state.md R20). -/

namespace Sys2Proof

/-- One lane cell: a 32-bit pattern without a type; each rule names the view it reads (R9, R20). -/
abbrev Word := BitVec 32

/-- A lane number, 0 to 3 (R6, R15). -/
abbrev Lane := Fin 4

/-- A 4-bit lane mask: bit l is lane l (R10). -/
abbrev LaneMask := BitVec 4

/-- A channel of a register: X = 0, Y = 1, Z = 2, W = 3 (R10). -/
inductive Channel where
  | x | y | z | w
deriving DecidableEq, Repr

/-- The number of a channel (R10). -/
def Channel.toNat : Channel → Nat
  | .x => 0 | .y => 1 | .z => 2 | .w => 3

/-- The four channels in the order the write-mask iteration visits them (R122). -/
def Channel.all : List Channel := [.x, .y, .z, .w]

/-- The four lanes, lane 0 first. -/
def Lane.all : List Lane := [0, 1, 2, 3]

/-- One value for each lane; `Quad Word` is a Lane Vector (R20). -/
structure Quad (α : Type) where
  l0 : α
  l1 : α
  l2 : α
  l3 : α
deriving DecidableEq, Repr

/-- The value of one lane. -/
def Quad.get {α : Type} (q : Quad α) : Lane → α
  | ⟨0, _⟩ => q.l0
  | ⟨1, _⟩ => q.l1
  | ⟨2, _⟩ => q.l2
  | ⟨_ + 3, _⟩ => q.l3

/-- The quad whose lane l holds `f l`. -/
def Quad.ofFn {α : Type} (f : Lane → α) : Quad α := ⟨f 0, f 1, f 2, f 3⟩

/-- The same value in all four lanes. -/
def Quad.splat {α : Type} (a : α) : Quad α := ⟨a, a, a, a⟩

/-- Replace the value of one lane. -/
def Quad.set {α : Type} (q : Quad α) (l : Lane) (a : α) : Quad α :=
  Quad.ofFn fun k => if k = l then a else q.get k

/-- All four lanes, if every one is present. -/
def Quad.sequence {α : Type} (q : Quad (Option α)) : Option (Quad α) :=
  match q.l0, q.l1, q.l2, q.l3 with
  | some a, some b, some c, some d => some ⟨a, b, c, d⟩
  | _, _, _, _ => none

/-- One value for each channel; `Chans (Quad Word)` is a Channel Vector (R20). -/
structure Chans (α : Type) where
  x : α
  y : α
  z : α
  w : α
deriving DecidableEq, Repr

/-- The value of one channel. -/
def Chans.get {α : Type} (v : Chans α) : Channel → α
  | .x => v.x
  | .y => v.y
  | .z => v.z
  | .w => v.w

/-- The value whose channel c holds `f c`. -/
def Chans.ofFn {α : Type} (f : Channel → α) : Chans α := ⟨f .x, f .y, f .z, f .w⟩

/-- The same value in all four channels. -/
def Chans.splat {α : Type} (a : α) : Chans α := ⟨a, a, a, a⟩

/-- Replace the value of one channel. -/
def Chans.set {α : Type} (v : Chans α) (c : Channel) (a : α) : Chans α :=
  Chans.ofFn fun k => if k = c then a else v.get k

/-- Is lane l enabled in the mask? -/
def LaneMask.has (m : LaneMask) (l : Lane) : Bool := m.getLsbD l.val

/-- The mask of the lanes for which `f` holds. -/
def LaneMask.ofLanes (f : Lane → Bool) : LaneMask :=
  BitVec.ofBool (f 3) ++ BitVec.ofBool (f 2) ++ BitVec.ofBool (f 1) ++ BitVec.ofBool (f 0)

end Sys2Proof
end

