-- ==== Sys2Proof/Config.lean ====
section
/-! DEFINITION. What an implementation fixes: the size parameters `Cfg` of spec/00_scope.md R7, the two
switches of `Num`, and the free values: opaque constants without a body for every result the
spec leaves open (spec/00_scope.md R8; spec/42_float_alu.md R191; spec/45_texture_kill.md R311). -/

namespace Sys2Proof

/-- ROUND_TIES: what ROUND does with a fraction of exactly one half (R191, R192). -/
inductive RoundTies where
  | even
  | away
  | halfUp
deriving DecidableEq, Repr

/-- The configuration record: the sizes of R7 and the two switches MAD_FUSED and ROUND_TIES of R191. -/
structure Cfg where
  /-- NUM_TEMP -/
  numTemp : Nat
  /-- NUM_INPUT -/
  numInput : Nat
  /-- NUM_OUTPUT -/
  numOutput : Nat
  /-- NUM_PRED -/
  numPred : Nat
  /-- MAX_IMM -/
  maxImm : Nat
  /-- NUM_CONST_BUFS -/
  numConstBufs : Nat
  /-- CONST_STRIDE -/
  constStride : Nat
  /-- INPUT_STRIDE -/
  inputStride : Nat
  /-- MAX_NEST -/
  maxNest : Nat
  /-- MAX_INSTR -/
  maxInstr : Nat
  /-- MAX_DECL -/
  maxDecl : Nat
  /-- NUM_SAMPLERS -/
  numSamplers : Nat
  /-- MAD_FUSED -/
  madFused : Bool
  /-- ROUND_TIES -/
  roundTies : RoundTies
deriving DecidableEq, Repr

/-- The default column of R7 and the defaults of R191. DESIGN CHOICE, unsafe: see assumption log 9. -/
def Cfg.default : Cfg where
  numTemp := 128
  numInput := 32
  numOutput := 32
  numPred := 1
  maxImm := 256
  numConstBufs := 1
  constStride := 4096
  inputStride := 32
  maxNest := 32
  maxInstr := 4096
  maxDecl := 64
  numSamplers := 16
  madFused := true
  roundTies := .even

/-- The constraint column of R7. The last clause is the model's own (DESIGN CHOICE, assumption log 17):
R7 states no upper bound, and R40 and R44 hold an instruction index, and the index after the last
instruction, in 32 bits. -/
def Cfg.wf (c : Cfg) : Bool :=
  1 ≤ c.numTemp && 1 ≤ c.numInput && 1 ≤ c.numOutput && 1 ≤ c.numConstBufs
    && 1 ≤ c.constStride && 1 ≤ c.inputStride && c.numInput % c.inputStride == 0
    && 1 ≤ c.maxNest && 1 ≤ c.maxInstr && 1 ≤ c.numSamplers && c.numSamplers ≤ 16
    && c.maxInstr < 2 ^ 32

/-- The operation tag of `nan_of`: which float operation generated the NaN (R191). -/
inductive NanOp where
  | add | sub | mul | div | sqrt | fma | floor | ceil | trunc | round
deriving DecidableEq, Repr

/-- One request on the Sampler port, the `out` rows of the table of R311. -/
structure SamplerReq where
  /-- HDR.SAMPLER -/
  unit : BitVec 4
  /-- HDR.TEX_TARGET -/
  target : BitVec 3
  s : Quad Word
  t : Quad Word
  r : Quad Word
  lodbias : Quad Word
  /-- 0: `lodbias` is a bias; 1: it is the level of detail -/
  explicitLod : Bool
deriving DecidableEq, Repr

/-- Free value: the pattern of a generated NaN before `nanOf` makes it a NaN (R191 `nan_of`, U4). -/
opaque Config.nanBits : NanOp → List Word → Word

/-- Free value: x to the power y (R191 `fpow`, U3). -/
opaque Config.fpow : Word → Word → Word

/-- Free value: 2 to the power x (R191 `fexp2`, U3). -/
opaque Config.fexp2 : Word → Word

/-- Free value: base-2 logarithm (R191 `flog2`, U3). -/
opaque Config.flog2 : Word → Word

/-- Free value: sine (R191 `fsin`, U3). -/
opaque Config.fsin : Word → Word

/-- Free value: cosine (R191 `fcos`, U3). -/
opaque Config.fcos : Word → Word

/-- Free value: F2I of an input outside the signed range (R191 `f2i_oor`, U5). -/
opaque Config.f2iOor : Word → Word

/-- Free value: F2U of an input outside the unsigned range (R191 `f2u_oor`, U5). -/
opaque Config.f2uOor : Word → Word

/-- Free value: the Sampler's response, one cell for each channel (R, G, B, A as X, Y, Z, W) and
lane. `tick` counts the requests since power-on, so that equal requests need not get equal
responses (R311, U11). Whether there is a response at all is the field `samplerSilentAt` of State
(log 13). -/
opaque Config.sampler : (tick : Nat) → SamplerReq → Channel → Lane → Word

end Sys2Proof
end

