-- ==== Sys2Proof/Machine/Float.lean ====
section
/-! DEFINITION. The float numerics of spec/42_float_alu.md R190 to R193: binary32 values, the correctly
rounded operations, rounding to an integral value, comparisons, and the conversions of
spec/43_int_bitwise_alu.md R275 to R278. Operands become exact numbers, the operation is computed
exactly, and one function rounds the result to nearest, ties to even. -/

namespace Sys2Proof.Machine

/-! ### Format (R190) -/

/-- Bit 31. -/
def fsign (x : Word) : Bool := x.getLsbD 31

/-- Bits 30:23. -/
def fexponent (x : Word) : BitVec 8 := x.extractLsb' 23 8

/-- Bits 22:0. -/
def ffraction (x : Word) : BitVec 23 := x.extractLsb' 0 23

/-- Exponent 255 with a non-zero fraction. -/
def isNaN (x : Word) : Bool := fexponent x == 255 && ffraction x != 0

/-- Exponent 255 with a zero fraction. -/
def isInf (x : Word) : Bool := fexponent x == 255 && ffraction x == 0

/-- The pattern with the given sign and the given bits 30:0. -/
def withSign (neg : Bool) (mag : Nat) : Word :=
  BitVec.ofNat 32 ((if neg then 2 ^ 31 else 0) + mag)

/-- The zero of a sign. -/
def fzero (neg : Bool) : Word := withSign neg 0

/-- The infinity of a sign. -/
def finf (neg : Bool) : Word := withSign neg 0x7F800000

/-- A float value: NaN, an infinity, or (-1)^neg * m * 2^e (a zero has m = 0 and keeps its sign). -/
inductive FloatView where
  | nan
  | inf (neg : Bool)
  | fin (neg : Bool) (m : Nat) (e : Int)
deriving DecidableEq, Repr

/-- The value of a pattern (R190); subnormals are kept. -/
def fview (x : Word) : FloatView :=
  let ex := (fexponent x).toNat
  let fr := (ffraction x).toNat
  if ex = 255 then
    if fr = 0 then .inf (fsign x) else .nan
  else if ex = 0 then .fin (fsign x) fr (-149)
  else .fin (fsign x) (2 ^ 23 + fr) ((ex : Int) - 150)

/-- The NaN that an operation generates: a free pattern of which only "it is a NaN" is known (R191
`nan_of`, U4). A free pattern that is no NaN is made one by setting the exponent and bit 22. -/
def nanOf (op : NanOp) (operands : List Word) : Word :=
  let v := Config.nanBits op operands
  if isNaN v then v else v ||| 0x7FC00000

/-- `m / 2^k` rounded to the nearest integer, ties to even. -/
def shiftRoundEven (m k : Nat) : Nat :=
  let q := m / 2 ^ k
  let r := m % 2 ^ k
  if 2 * r > 2 ^ k ∨ (2 * r = 2 ^ k ∧ q % 2 = 1) then q + 1 else q

/-- (-1)^neg * m * 2^e rounded to binary32, nearest, ties to even, with gradual underflow and
overflow to infinity (R192). -/
def froundFinite (neg : Bool) (m : Nat) (e : Int) : Word :=
  if m = 0 then fzero neg
  else
    let q : Int := max ((Nat.log2 m : Int) + e - 23) (-149)
    let sig : Nat :=
      if q ≤ e then m * 2 ^ (e - q).toNat else shiftRoundEven m (q - e).toNat
    let mag : Nat := (q + 149).toNat * 2 ^ 23 + sig
    if 0x7F800000 ≤ mag then finf neg else withSign neg mag

/-- Round an exact value to a pattern; `nan` is the pattern of a NaN. -/
def fpack (nan : Word) : FloatView → Word
  | .nan => nan
  | .inf neg => finf neg
  | .fin neg m e => froundFinite neg m e

/-! ### Exact operations on values (R192) -/

/-- (-1)^neg * n. -/
def signedInt (neg : Bool) (n : Nat) : Int := if neg then -(n : Int) else n

/-- The value with the opposite sign. -/
def FloatView.neg : FloatView → FloatView
  | .nan => .nan
  | .inf s => .inf (!s)
  | .fin s m e => .fin (!s) m e

/-- Exact sum: inf - inf is NaN, an exact zero is +0 unless both operands are negative. -/
def FloatView.add : FloatView → FloatView → FloatView
  | .nan, _ => .nan
  | _, .nan => .nan
  | .inf s, .inf t => if s = t then .inf s else .nan
  | .inf s, .fin _ _ _ => .inf s
  | .fin _ _ _, .inf t => .inf t
  | .fin s m e, .fin t n f =>
    let g := min e f
    let sum := signedInt s (m * 2 ^ (e - g).toNat) + signedInt t (n * 2 ^ (f - g).toNat)
    if sum = 0 then .fin (s && t) 0 g else .fin (sum < 0) sum.natAbs g

/-- Exact product: 0 * inf is NaN, signs are combined by exclusive-or. -/
def FloatView.mul : FloatView → FloatView → FloatView
  | .nan, _ => .nan
  | _, .nan => .nan
  | .inf s, .inf t => .inf (s != t)
  | .inf s, .fin t n _ => if n = 0 then .nan else .inf (s != t)
  | .fin s m _, .inf t => if m = 0 then .nan else .inf (s != t)
  | .fin s m e, .fin t n f => .fin (s != t) (m * n) (e + f)

/-- Quotient with 64 further bits and a sticky bit below them, enough for one correct rounding:
inf/inf and 0/0 are NaN, x/0 is an infinity. -/
def FloatView.div : FloatView → FloatView → FloatView
  | .nan, _ => .nan
  | _, .nan => .nan
  | .inf _, .inf _ => .nan
  | .inf s, .fin t _ _ => .inf (s != t)
  | .fin s _ _, .inf t => .fin (s != t) 0 0
  | .fin s m e, .fin t n f =>
    if n = 0 then (if m = 0 then .nan else .inf (s != t))
    else
      let num := m * 2 ^ 64
      let sticky := if num % n = 0 then 0 else 1
      .fin (s != t) (2 * (num / n) + sticky) (e - f - 65)

/-- The integer square root of n, for n below 4^bits, by setting bits from the top. -/
def isqrt (n : Nat) : (bits : Nat) → (root : Nat) → Nat
  | 0, root => root
  | bits + 1, root =>
    let r := root + 2 ^ bits
    isqrt n bits (if r * r ≤ n then r else root)

/-- Square root with further bits and a sticky bit: negative non-zero is NaN, -0 is -0. -/
def FloatView.sqrt : FloatView → FloatView
  | .nan => .nan
  | .inf s => if s then .nan else .inf false
  | .fin s m e =>
    if m = 0 then .fin s 0 e
    else if s then .nan
    else
      let odd : Bool := e % 2 ≠ 0
      let m' := if odd then 2 * m else m
      let e' := if odd then e - 1 else e
      let num := m' * 2 ^ 60
      let root := isqrt num 44 0
      let sticky := if root * root = num then 0 else 1
      .fin false (2 * root + sticky) (e' / 2 - 31)

/-- IEEE addition (R192). -/
def fadd (a b : Word) : Word := fpack (nanOf .add [a, b]) ((fview a).add (fview b))

/-- IEEE subtraction (R192). -/
def fsub (a b : Word) : Word := fpack (nanOf .sub [a, b]) ((fview a).add (fview b).neg)

/-- IEEE multiplication (R192). -/
def fmul (a b : Word) : Word := fpack (nanOf .mul [a, b]) ((fview a).mul (fview b))

/-- IEEE division (R192). -/
def fdiv (a b : Word) : Word := fpack (nanOf .div [a, b]) ((fview a).div (fview b))

/-- IEEE square root (R192). -/
def fsqrt (a : Word) : Word := fpack (nanOf .sqrt [a]) (fview a).sqrt

/-- IEEE fused multiply-add a*b+c with one rounding (R192). -/
def ffma (a b c : Word) : Word :=
  fpack (nanOf .fma [a, b, c]) (((fview a).mul (fview b)).add (fview c))

/-! ### Rounding to an integral value (R192) -/

/-- The four directions of FLR, CEIL, TRUNC and ROUND. -/
inductive IntegralMode where
  | floor
  | ceil
  | trunc
  | nearest (ties : RoundTies)
deriving DecidableEq, Repr

/-- Is the magnitude q + r/2^k (0 ≤ r < 2^k) of a number of sign `neg` rounded up to q + 1? -/
def roundsUp (mode : IntegralMode) (neg : Bool) (q r k : Nat) : Bool :=
  match mode with
  | .floor => neg && r != 0
  | .ceil => !neg && r != 0
  | .trunc => false
  | .nearest ties =>
    2 ^ k < 2 * r ||
      (2 * r == 2 ^ k && (match ties with
        | .even => q % 2 == 1
        | .away => true
        | .halfUp => !neg))

/-- The integral magnitude of (-1)^neg * m * 2^e. -/
def integralMag (mode : IntegralMode) (neg : Bool) (m : Nat) (e : Int) : Nat :=
  if 0 ≤ e then m * 2 ^ e.toNat
  else
    let k := (-e).toNat
    let q := m / 2 ^ k
    if roundsUp mode neg q (m % 2 ^ k) k then q + 1 else q

/-- The NaN tag of a rounding direction. -/
def IntegralMode.nanOp : IntegralMode → NanOp
  | .floor => .floor
  | .ceil => .ceil
  | .trunc => .trunc
  | .nearest _ => .round

/-- Round to an integral value: infinities are kept, a NaN gives `nan_of`, a zero result keeps the
operand's sign (R192). -/
def fintegral (mode : IntegralMode) (x : Word) : Word :=
  match fview x with
  | .nan => nanOf mode.nanOp [x]
  | .inf _ => x
  | .fin neg m e => if 0 ≤ e then x else froundFinite neg (integralMag mode neg m e) 0

/-- Toward minus infinity (R192). -/
def ffloor (x : Word) : Word := fintegral .floor x

/-- Toward plus infinity (R192). -/
def fceil (x : Word) : Word := fintegral .ceil x

/-- Toward zero (R192). -/
def ftrunc (x : Word) : Word := fintegral .trunc x

/-- To nearest, ties as ROUND_TIES says (R192). -/
def fround (ties : RoundTies) (x : Word) : Word := fintegral (.nearest ties) x

/-! ### Comparisons (R193) -/

/-- A number that orders the non-NaN patterns as their float values; both zeros give 0. -/
def forderKey (x : Word) : Int := signedInt (fsign x) (x.extractLsb' 0 31).toNat

/-- Neither operand is a NaN. -/
def fordered (a b : Word) : Bool := !isNaN a && !isNaN b

/-- a < b -/
def flt (a b : Word) : Bool := fordered a b && forderKey a < forderKey b

/-- a ≤ b -/
def fle (a b : Word) : Bool := fordered a b && forderKey a ≤ forderKey b

/-- a > b -/
def fgt (a b : Word) : Bool := flt b a

/-- a ≥ b -/
def fge (a b : Word) : Bool := fle b a

/-- a = b -/
def feq (a b : Word) : Bool := fordered a b && forderKey a == forderKey b

/-- a ≠ b, true when either is a NaN -/
def fne (a b : Word) : Bool := !feq a b

/-- a if a < b else b (R136, R213). -/
def fmin2 (a b : Word) : Word := if flt a b then a else b

/-- a if a > b else b (R136, R214). -/
def fmax2 (a b : Word) : Word := if fgt a b then a else b

/-- a*b+c, with one rounding when MAD_FUSED, else two (R211). -/
def fmad (fused : Bool) (a b c : Word) : Word :=
  if fused then ffma a b c else fadd (fmul a b) c

/-! ### Conversions (spec/43_int_bitwise_alu.md R275 to R278) -/

/-- The value of a finite pattern truncated toward zero; `none` for infinities and NaN. -/
def truncInt? (x : Word) : Option Int :=
  match fview x with
  | .nan | .inf _ => none
  | .fin neg m e => some (signedInt neg (integralMag .trunc neg m e))

/-- F2I (R275). -/
def f2i (x : Word) : Word :=
  match truncInt? x with
  | some t => if -2 ^ 31 ≤ t ∧ t ≤ 2 ^ 31 - 1 then BitVec.ofInt 32 t else Config.f2iOor x
  | none => Config.f2iOor x

/-- F2U (R276). -/
def f2u (x : Word) : Word :=
  match truncInt? x with
  | some t => if 0 ≤ t ∧ t ≤ 2 ^ 32 - 1 then BitVec.ofInt 32 t else Config.f2uOor x
  | none => Config.f2uOor x

/-- I2F (R277). -/
def i2f (a : Word) : Word := froundFinite (a.toInt < 0) a.toInt.natAbs 0

/-- U2F (R278). -/
def u2f (a : Word) : Word := froundFinite false a.toNat 0

/-! ### Named properties of the free functions (R191)

Hypotheses a statement may take; the model assumes none of them. -/

/-- The real value of a pattern; `none` for infinities and NaN (R190). -/
def fvalue (x : Word) : Option ℚ :=
  match fview x with
  | .nan | .inf _ => none
  | .fin neg m e => some ((if neg then -1 else 1) * (m : ℚ) * (2 : ℚ) ^ e)

/-- EXP2_EXACT_INT: `fexp2` of an integral x with -126 ≤ x ≤ 127 is exactly 2^x (R191). -/
def Exp2ExactInt : Prop :=
  ∀ (x z : Word) (n : Int), -126 ≤ n → n ≤ 127 → fvalue x = some (n : ℚ) →
    fvalue z = some ((2 : ℚ) ^ n) → Config.fexp2 x = z

/-- LOG2_EXACT_POW2: `flog2` of 2^n, n integral, -126 ≤ n ≤ 127, is exactly n (R191). -/
def Log2ExactPow2 : Prop :=
  ∀ (x : Word) (n : Int), -126 ≤ n → n ≤ 127 → fvalue x = some ((2 : ℚ) ^ n) →
    Config.flog2 x = i2f (BitVec.ofInt 32 n)

/-- POW_EXACT_SMALL: `fpow(x, y)` is exact when x^y is a binary32 number and x > 0 (R191). -/
def PowExactSmall : Prop :=
  ∀ (x y z : Word) (p q r : ℚ), fvalue x = some p → fvalue y = some q → fvalue z = some r →
    0 < p → ((p : ℝ) ^ (q : ℝ)) = (r : ℝ) → Config.fpow x y = z

/-- SINCOS_ZERO: `fsin(+0.0) = +0.0`, `fcos(+0.0) = 1.0` (R191). -/
def SinCosZero : Prop := Config.fsin 0 = 0 ∧ Config.fcos 0 = 0x3F800000

end Sys2Proof.Machine
end

