-- ==== Sys2Proof/Syntax.lean ====
section
/-! DEFINITION. The decoded instruction: the operand words of spec/30_encoding.md R80 to R91 as data, and
one constructor of `Instr` for each of the 87 rows of the opcode map (R100). A field that the
record can make illegal keeps its illegal values, so that the check of R102 sees them; a field that
R103 ignores is not kept. -/

namespace Sys2Proof

/-- One instruction record: ten 32-bit words W0 to W9 (R80). -/
structure Record where
  w0 : Word
  w1 : Word
  w2 : Word
  w3 : Word
  w4 : Word
  w5 : Word
  w6 : Word
  w7 : Word
  w8 : Word
  w9 : Word
deriving DecidableEq, Repr

/-- FILE codes (R86); codes 8 to 15 are unassigned and keep their low three bits. -/
inductive RegFile where
  | null | temp | input | output | addr | pred | imm | const
  | unassigned (low : BitVec 3)
deriving DecidableEq, Repr

/-- Swizzle codes (R87); codes 6 and 7 are illegal. -/
inductive Selector where
  | chan (c : Channel)
  | zero
  | one
  | illegal (low : Bool)
deriving DecidableEq, Repr

/-- SIGN codes (R88). -/
inductive SignMode where
  | keep | toggle | clear | set
deriving DecidableEq, Repr

/-- SAT codes (R89); code 3 is illegal. -/
inductive SatMode where
  | none | zeroOne | minusPlusOne | illegal
deriving DecidableEq, Repr

/-- CC_TEST codes (R90). -/
inductive CcTest where
  | gt | eq | lt | ge | le | ne | tr | fl
deriving DecidableEq, Repr

/-- TEX_TARGET codes (R91); 0 is "none", 6 and 7 are illegal. -/
inductive TexTarget where
  | none | oneD | twoD | threeD | cube | rect
  | illegal (low : Bool)
deriving DecidableEq, Repr

/-- CC_TEST and the four CC_SWZ fields, used when CC_PRED = 1 (R81, R135). -/
structure CcPredicate where
  test : CcTest
  swz : Chans Channel
deriving DecidableEq, Repr

/-- The header modifiers of an instruction with a destination (R81). -/
structure Mods where
  sat : SatMode
  ccUpdate : Bool
  /-- `none` is CC_PRED = 0; CC_TEST and CC_SWZ are then ignored (R103). -/
  ccPred : Option CcPredicate
  /-- HDR[31:30], must be 0 -/
  reserved : BitVec 2
deriving DecidableEq, Repr

/-- The second dimension of a source operand, present when DIM = 1 (R84). -/
structure DimIndex where
  /-- DIM_INDEX, 12-bit two's complement -/
  index : BitVec 12
  /-- DIM_IND_CHAN when DIM_IND = 1 -/
  ind : Option Channel
deriving DecidableEq, Repr

/-- A source operand: words SRCn.A and SRCn.B (R83, R84). -/
structure Src where
  file : RegFile
  /-- INDEX, 16-bit two's complement -/
  index : BitVec 16
  /-- IND_CHAN when IND = 1 -/
  ind : Option Channel
  /-- the second dimension when DIM = 1 -/
  dim : Option DimIndex
  swz : Chans Selector
  sign : SignMode
  complement : Bool
  /-- word A bits 31:24, must be 0 -/
  reservedA : BitVec 8
  /-- word B bits 19:18, must be 0 -/
  reservedB : BitVec 2
deriving DecidableEq, Repr

/-- The destination operand: words DST.A and DST.B (R83, R85). -/
structure Dst where
  file : RegFile
  /-- INDEX, 16-bit two's complement -/
  index : BitVec 16
  /-- IND_CHAN when IND = 1 -/
  ind : Option Channel
  /-- DIM, must be 0 on a destination -/
  dim : Bool
  /-- WRITEMASK: bit 0 is channel X -/
  writeMask : BitVec 4
  /-- word A bits 31:24, must be 0 -/
  reservedA : BitVec 8
  /-- word B bits 31:4, must be 0 -/
  reservedB : BitVec 28
deriving DecidableEq, Repr

/-- TEX_TARGET and SAMPLER of a texture instruction (R81, R91). -/
structure TexSel where
  target : TexTarget
  sampler : BitVec 4
deriving DecidableEq, Repr

/-- The two reserved header bits HDR[31:30], which every instruction checks (R102). -/
abbrev HdrReserved := BitVec 2

/-- The 87 instructions, in the order of the opcode map (R100). -/
inductive Instr where
  | nop (h : HdrReserved)
  | mov (m : Mods) (d : Dst) (a : Src)
  | add (m : Mods) (d : Dst) (a b : Src)
  | sub (m : Mods) (d : Dst) (a b : Src)
  | mul (m : Mods) (d : Dst) (a b : Src)
  | div (m : Mods) (d : Dst) (a b : Src)
  | neg (m : Mods) (d : Dst) (a : Src)
  | rcp (m : Mods) (d : Dst) (a : Src)
  | rsq (m : Mods) (d : Dst) (a : Src)
  | pow (m : Mods) (d : Dst) (a b : Src)
  | ex2 (m : Mods) (d : Dst) (a : Src)
  | lg2 (m : Mods) (d : Dst) (a : Src)
  | mad (m : Mods) (d : Dst) (a b c : Src)
  | lrp (m : Mods) (d : Dst) (a b c : Src)
  | min (m : Mods) (d : Dst) (a b : Src)
  | max (m : Mods) (d : Dst) (a b : Src)
  | flr (m : Mods) (d : Dst) (a : Src)
  | ceil (m : Mods) (d : Dst) (a : Src)
  | round (m : Mods) (d : Dst) (a : Src)
  | trunc (m : Mods) (d : Dst) (a : Src)
  | frc (m : Mods) (d : Dst) (a : Src)
  | slt (m : Mods) (d : Dst) (a b : Src)
  | sle (m : Mods) (d : Dst) (a b : Src)
  | sge (m : Mods) (d : Dst) (a b : Src)
  | seq (m : Mods) (d : Dst) (a b : Src)
  | sne (m : Mods) (d : Dst) (a b : Src)
  | cmp (m : Mods) (d : Dst) (a b c : Src)
  | movc (m : Mods) (d : Dst) (a b c : Src)
  | iadd (m : Mods) (d : Dst) (a b : Src)
  | isub (m : Mods) (d : Dst) (a b : Src)
  | imul (m : Mods) (d : Dst) (a b : Src)
  | idiv (m : Mods) (d : Dst) (a b : Src)
  | udiv (m : Mods) (d : Dst) (a b : Src)
  | imod (m : Mods) (d : Dst) (a b : Src)
  | umod (m : Mods) (d : Dst) (a b : Src)
  | imin (m : Mods) (d : Dst) (a b : Src)
  | imax (m : Mods) (d : Dst) (a b : Src)
  | umin (m : Mods) (d : Dst) (a b : Src)
  | umax (m : Mods) (d : Dst) (a b : Src)
  | islt (m : Mods) (d : Dst) (a b : Src)
  | isle (m : Mods) (d : Dst) (a b : Src)
  | isge (m : Mods) (d : Dst) (a b : Src)
  | uslt (m : Mods) (d : Dst) (a b : Src)
  | usle (m : Mods) (d : Dst) (a b : Src)
  | usge (m : Mods) (d : Dst) (a b : Src)
  | useq (m : Mods) (d : Dst) (a b : Src)
  | usne (m : Mods) (d : Dst) (a b : Src)
  | and (m : Mods) (d : Dst) (a b : Src)
  | or (m : Mods) (d : Dst) (a b : Src)
  | xor (m : Mods) (d : Dst) (a b : Src)
  | not (m : Mods) (d : Dst) (a : Src)
  | shl (m : Mods) (d : Dst) (a b : Src)
  | ishr (m : Mods) (d : Dst) (a b : Src)
  | ushr (m : Mods) (d : Dst) (a b : Src)
  | f2i (m : Mods) (d : Dst) (a : Src)
  | f2u (m : Mods) (d : Dst) (a : Src)
  | i2f (m : Mods) (d : Dst) (a : Src)
  | u2f (m : Mods) (d : Dst) (a : Src)
  | dp2 (m : Mods) (d : Dst) (a b : Src)
  | dp3 (m : Mods) (d : Dst) (a b : Src)
  | dp4 (m : Mods) (d : Dst) (a b : Src)
  | dph (m : Mods) (d : Dst) (a b : Src)
  | xpd (m : Mods) (d : Dst) (a b : Src)
  | lit (m : Mods) (d : Dst) (a : Src)
  | dst (m : Mods) (d : Dst) (a b : Src)
  | scs (m : Mods) (d : Dst) (a : Src)
  | log (m : Mods) (d : Dst) (a : Src)
  | exp (m : Mods) (d : Dst) (a : Src)
  | tex (m : Mods) (t : TexSel) (d : Dst) (a : Src)
  | txb (m : Mods) (t : TexSel) (d : Dst) (a : Src)
  | txl (m : Mods) (t : TexSel) (d : Dst) (a : Src)
  | txp (m : Mods) (t : TexSel) (d : Dst) (a : Src)
  | txd (m : Mods) (t : TexSel) (d : Dst) (a b c : Src)
  | kil (h : HdrReserved) (a : Src)
  | kilp (h : HdrReserved) (ccPred : Bool)
  | if_ (h : HdrReserved) (a : Src)
  | else_ (h : HdrReserved)
  | endif (h : HdrReserved)
  | bgnloop (h : HdrReserved)
  | endloop (h : HdrReserved) (label : Word)
  | brk (h : HdrReserved)
  | cont (h : HdrReserved)
  | cal (h : HdrReserved) (label : Word)
  | ret (h : HdrReserved)
  | end_ (h : HdrReserved)
  | bgnsub (h : HdrReserved)
  | endsub (h : HdrReserved)
deriving DecidableEq, Repr

/-- One declaration record: words DW0 and DW1 (R331). -/
structure DeclRecord where
  dw0 : Word
  dw1 : Word
deriving DecidableEq, Repr

/-- INTERP codes (R331); code 3 is illegal. -/
inductive Interp where
  | constant | linear | perspective | illegal
deriving DecidableEq, Repr

/-- A decoded declaration (R331). -/
structure Decl where
  file : RegFile
  /-- channel usage: bit 0 is channel X -/
  mask : BitVec 4
  interp : Interp
  /-- DW0 bits 31:10, must be 0 -/
  reserved : BitVec 22
  first : BitVec 16
  last : BitVec 16
deriving DecidableEq, Repr

/-- Prog.Stage (R50). -/
inductive Stage where
  | vertex | fragment | geometry
deriving DecidableEq, Repr

/-- Pseudo-instruction SGT: `SLT dst, b, a` (R111). -/
def Instr.sgt (m : Mods) (d : Dst) (a b : Src) : Instr := .slt m d b a

/-- Pseudo-instruction ABS: a MOV whose source has sign mode clear (R111). -/
def Instr.abs (m : Mods) (d : Dst) (a : Src) : Instr := .mov m d { a with sign := .clear }

end Sys2Proof
end

