-- ==== Sys2Proof/Machine/State.lean ====
section
/-! DEFINITION. The state of QLX as plain data (spec/10_state.md R20 to R55), the reasons a step can stop,
and the state after power-on. INVENTORY.md lists every field with the rule that names it. -/

namespace Sys2Proof.Machine

/-- The storage of one register file: (cell number, word) pairs, cell numbers strictly rising, no
zero word listed; a cell that is not listed reads as 0 (assumption log 5). -/
abbrev CellMap := List (Nat × Word)

/-- The four condition codes: GT = 0, EQ = 1, LT = 2, UN = 3 (R29). -/
inductive CcCode where
  | gt | eq | lt | un
deriving DecidableEq, Repr

/-- The program counter: an explicit two-state value (R40). -/
inductive Pc where
  | running (i : Nat)
  | halted
deriving DecidableEq, Repr

/-- One entry of the call stack (R44). R44 gives retPC 32 bits; here it is a number, which the
invariant keeps below 2^32 under the model's own bound on MAX_INSTR (DESIGN CHOICE, assumption log
17). -/
structure CallEntry where
  retPc : Nat
  condDepth : Nat
  loopDepth : Nat
  contDepth : Nat
deriving DecidableEq, Repr

/-- The fatal-error codes 1 to 6 (spec/60_exceptions.md R350). -/
inductive FatalCode where
  /-- 1: the OPCODE of the record reached is unassigned (R351) -/
  | unknownOpcode
  /-- 2: a register index outside its file, in any lane (R352) -/
  | indexOutOfBounds
  /-- 3: a push onto a stack that holds MAX_NEST entries (R353) -/
  | stackOverflow
  /-- 4: Bind is given more than MAX_IMM immediates (R354) -/
  | immPoolOverflow
  /-- 5: a pop or read of an empty stack (R356) -/
  | stackUnderflow
  /-- 6: an illegal field value (R357) -/
  | illegalEncoding
deriving DecidableEq, Repr

/-- Where a fatal error was raised: at an instruction, or in Bind (R47). -/
inductive FaultAt where
  | instr (i : Nat)
  | bind
deriving DecidableEq, Repr

/-- Run status (R47). -/
inductive Status where
  | idle
  | running
  | done (result : LaneMask)
  | faulted (code : FatalCode) (at_ : FaultAt)
deriving DecidableEq, Repr

/-- The bound program (R50). -/
structure Prog where
  stage : Stage
  /-- Instr[0..NumInstr-1] -/
  instrs : List Record
  /-- Decl[0..NumDecl-1] -/
  decls : List DeclRecord
  /-- ImmData[0..NumImm-1] -/
  imms : List (Chans Word)
deriving DecidableEq, Repr

/-- The empty program (R50). -/
def Prog.empty : Prog := { stage := .vertex, instrs := [], decls := [], imms := [] }

/-- The machine state. -/
structure State where
  /-- the configuration, constant in every run (R7, R8; assumption log 9) -/
  cfg : Cfg
  /-- Temporary file (R22) -/
  temp : CellMap
  /-- Input file (R23) -/
  input : CellMap
  /-- Output file (R24) -/
  output : CellMap
  /-- Address file (R25) -/
  addr : CellMap
  /-- Predicate file (R26) -/
  pred : CellMap
  /-- Constant buffers, flattened (R28) -/
  const : CellMap
  /-- condition-code register (R29) -/
  cc : Chans (Quad CcCode)
  /-- program counter (R40) -/
  pc : Pc
  /-- Cond (R41) -/
  condMask : LaneMask
  /-- Loop (R41) -/
  loopMask : LaneMask
  /-- Cont (R41) -/
  contMask : LaneMask
  /-- Func (R41) -/
  funcMask : LaneMask
  /-- CondStack, entry 0 first (R43) -/
  condStack : List LaneMask
  /-- LoopStack, entry 0 first (R43) -/
  loopStack : List LaneMask
  /-- ContStack, entry 0 first (R43) -/
  contStack : List LaneMask
  /-- FuncStack, entry 0 first (R43) -/
  funcStack : List LaneMask
  /-- CallStack, entry 0 first (R44) -/
  callStack : List CallEntry
  /-- kill accumulator (R45) -/
  kill : LaneMask
  /-- output cursor (R46) -/
  outCursor : Word
  /-- run status (R47) -/
  status : Status
  /-- bound program (R50) -/
  prog : Prog
  /-- QuadX (R51) -/
  quadX : Word
  /-- QuadY (R51) -/
  quadY : Word
  /-- QuadW[0..3] (R51) -/
  quadW : Quad Word
  /-- A0[i][c], cell number 4*i + c (R51) -/
  a0 : CellMap
  /-- DADX[i][c] (R51) -/
  dadx : CellMap
  /-- DADY[i][c] (R51) -/
  dady : CellMap
  /-- the model's own: the answered Sampler requests of the current Run, oldest first (R311, R312;
  log 12) -/
  requests : List SamplerReq
  /-- the model's own: answered Sampler requests since power-on, the index of the free response
  (log 11) -/
  samplerTick : Nat
  /-- the model's own: the request on the Sampler port that waits for an answer that never comes
  (R388; log 12) -/
  samplerPending : Option SamplerReq
  /-- the model's own: the number of the request that the Sampler never answers, if there is one
  (R388, U12; log 13) -/
  samplerSilentAt : Option Nat
deriving DecidableEq, Repr

/-- Reasons for the outcome `fault`. A fatal error of the spec is NOT one of them: it is a next state
whose Status is Faulted (assumption log 1). -/
inductive Fault where
  /-- Raised by the frame of every instruction meaning when the pc is Halted, which the step loop
  never lets happen (R333; assumption log 14). Safe: no step from any state raises it. -/
  | pcHalted
deriving DecidableEq, Repr

/-- Reasons for the outcome `refused`: a host operation is rejected and changes nothing. -/
inductive Refusal where
  /-- Raised by `exec` for an instruction without a meaning. Safe. No arm raises it. -/
  | notModelled (mnemonic : String)
  /-- Raised by a host operation while Status = Running (R330, R332, R346). Safe: the spec's own
  refusal. -/
  | hostWhileRunning
  /-- Raised by a host access to an index outside the file (R346). Safe: the spec's own refusal. -/
  | hostIndex
  /-- Raised by Bind when the program does not fit: the recoverable BindError (R330, R358). Safe: the
  spec's own result. -/
  | bindError
deriving DecidableEq, Repr

/-- The state after power-on (R55, R380). The register cells, CC, constants, quad position and
coefficients, which the spec leaves unspecified, are 0 (GT for CC): DESIGN CHOICE, unsafe, assumption
log 5, 6, 7; the configuration is the default one (log 9); the Sampler answers every request (log 13). -/
def State.reset : State where
  cfg := Cfg.default
  temp := []
  input := []
  output := []
  addr := []
  pred := []
  const := []
  cc := Chans.splat (Quad.splat .gt)
  pc := .halted
  condMask := 0xF
  loopMask := 0xF
  contMask := 0xF
  funcMask := 0xF
  condStack := []
  loopStack := []
  contStack := []
  funcStack := []
  callStack := []
  kill := 0
  outCursor := 0
  status := .idle
  prog := Prog.empty
  quadX := 0
  quadY := 0
  quadW := Quad.splat 0
  a0 := []
  dadx := []
  dady := []
  requests := []
  samplerTick := 0
  samplerPending := none
  samplerSilentAt := none

end Sys2Proof.Machine
end

