-- ==== Sys2Proof/Machine/Ops.lean ====
section
/-! DEFINITION. The operations every meaning is written over: the cells of a register file, the program
counter, the execution mask, the bounded stacks, and taking a fatal error (spec/10_state.md,
spec/41_exec_mask_flow.md R160, R161, spec/60_exceptions.md R355). -/

namespace Sys2Proof.Machine

/-! ### Interpreter constants (R30) -/

/-- 0.0 -/
def K_ZERO : Word := 0x00000000
/-- 1.0 -/
def K_ONE : Word := 0x3F800000
/-- the sign bit -/
def K_SIGN : Word := 0x80000000
/-- every bit but the sign -/
def K_NSIGN : Word := 0x7FFFFFFF
/-- all ones -/
def K_ALL : Word := 0xFFFFFFFF
/-- 128.0 -/
def K_128 : Word := 0x43000000
/-- -128.0 -/
def K_M128 : Word := 0xC3000000
/-- -1.0 -/
def K_MONE : Word := 0xBF800000

/-! ### Cell storage -/

/-- The word at cell k; an unlisted cell reads as 0 (log 5). -/
def CellMap.read : CellMap → Nat → Word
  | [], _ => 0
  | (k', v) :: rest, k => if k = k' then v else CellMap.read rest k

/-- Store v at cell k, keeping the canonical form: a zero is not listed. -/
def CellMap.write : CellMap → Nat → Word → CellMap
  | [], k, v => if v = 0 then [] else [(k, v)]
  | (k', v') :: rest, k, v =>
    if k < k' then (if v = 0 then (k', v') :: rest else (k, v) :: (k', v') :: rest)
    else if k = k' then (if v = 0 then rest else (k, v) :: rest)
    else (k', v') :: CellMap.write rest k v

/-- The canonical form: cell numbers strictly rising, no zero word listed. -/
def CellMap.wf : CellMap → Bool
  | [] => true
  | (k, v) :: rest =>
    v != 0 && (match rest with
      | [] => true
      | (k', _) :: _ => k < k') && CellMap.wf rest

/-- Every listed cell number is below n. -/
def CellMap.below (n : Nat) (m : CellMap) : Bool := m.all fun e => e.1 < n

/-- Cell number of channel c, lane l of register i (R21). -/
def cellNo (i : Nat) (c : Channel) (l : Lane) : Nat := 16 * i + 4 * c.toNat + l.val

/-- Cell number of channel c of vector i in a file without lanes (R27, R28). -/
def vectorCellNo (i : Nat) (c : Channel) : Nat := 4 * i + c.toNat

/-! ### Register files (R21) -/

/-- NumInstr (R50). -/
def State.numInstr (s : State) : Nat := s.prog.instrs.length

/-- The number of registers of a file (R128). -/
def State.fileSize (s : State) : RegFile → Nat
  | .temp => s.cfg.numTemp
  | .input => s.cfg.numInput
  | .output => s.cfg.numOutput
  | .addr => 1
  | .pred => s.cfg.numPred
  | .imm => s.prog.imms.length
  | .const => s.cfg.numConstBufs * s.cfg.constStride
  | .null | .unassigned _ => 0

/-- RF[file][i].c[l] (R21); an immediate or constant is the same in every lane (R27, R28). A register
that does not exist reads as 0; no operand reaches one (R128). -/
def State.readReg (s : State) (f : RegFile) (i : Nat) (c : Channel) (l : Lane) : Word :=
  match f with
  | .temp => s.temp.read (cellNo i c l)
  | .input => s.input.read (cellNo i c l)
  | .output => s.output.read (cellNo i c l)
  | .addr => s.addr.read (cellNo i c l)
  | .pred => s.pred.read (cellNo i c l)
  | .imm => match s.prog.imms[i]? with
    | some v => v.get c
    | none => 0
  | .const => s.const.read (vectorCellNo i c)
  | .null | .unassigned _ => 0

/-- RF[file][i].c[l] <- v, for the files that have lane cells; a write to NULL is discarded (R132)
and no instruction writes IMM or CONST (R21). -/
def State.writeReg (s : State) (f : RegFile) (i : Nat) (c : Channel) (l : Lane) (v : Word) : State :=
  match f with
  | .temp => { s with temp := s.temp.write (cellNo i c l) v }
  | .input => { s with input := s.input.write (cellNo i c l) v }
  | .output => { s with output := s.output.write (cellNo i c l) v }
  | .addr => { s with addr := s.addr.write (cellNo i c l) v }
  | .pred => { s with pred := s.pred.write (cellNo i c l) v }
  | .null | .imm | .const | .unassigned _ => s

/-! ### Sequencer -/

/-- ExecMask: always Cond & Loop & Cont & Func (R42, R160). -/
def State.execMask (s : State) : LaneMask :=
  s.condMask &&& s.loopMask &&& s.contMask &&& s.funcMask

/-- pc <- Running(t), or Halted when t is at or past NumInstr (R40, R121, R334). -/
def State.goto (s : State) (t : Nat) : State :=
  { s with pc := if t < s.numInstr then .running t else .halted }

/-- Taking a fatal error in the instruction at index i: nothing but Status changes; the pc keeps
Running(i) and the Run is over (R355). There is no return from it (R362). -/
def State.raiseFatal (s : State) (code : FatalCode) (i : Nat) : State :=
  { s with status := .faulted code (.instr i) }

/-- The stack holds MAX_NEST entries: a push raises STACK_OVERFLOW (R161). -/
def stackFull {α : Type} (s : State) (st : List α) : Bool := s.cfg.maxNest ≤ st.length

/-- The outcome of a step. -/
abbrev Out := Host.Outcome State Fault Refusal

/-- The frame of one instruction (R120): the body is given the index i of the instruction and
answers the committed state or the first fatal error found in the decode and resolve phases, which
is then taken. -/
def instrFrame (s : State) (body : Nat → Except FatalCode State) : Out :=
  match s.pc with
  | .halted => .fault .pcHalted
  | .running i =>
    match body i with
    | .ok t => .next t
    | .error code => .next (s.raiseFatal code i)

end Sys2Proof.Machine
end

