-- ==== Sys2Proof/Machine/Flags.lean ====
section
/-! DEFINITION. Saturation, the condition-code predicate and the condition-code update
(spec/40_operand_fetch_store.md R134 to R137). -/

namespace Sys2Proof.Machine

/-- Saturate (R136). -/
def saturate (m : SatMode) (x : Word) : Word :=
  match m with
  | .none => x
  | .zeroOne => fmin2 (fmax2 x K_ZERO) K_ONE
  | .minusPlusOne => fmin2 (fmax2 x K_MONE) K_ONE
  | .illegal => x

/-- The condition code of a stored value: a float comparison with 0.0 (R137). -/
def ccCode (w : Word) : CcCode :=
  if fgt w K_ZERO then .gt else if feq w K_ZERO then .eq else if flt w K_ZERO then .lt else .un

/-- Test(t, k) (R135). -/
def ccTest (t : CcTest) (k : CcCode) : Bool :=
  match t with
  | .gt => k == .gt
  | .eq => k == .eq
  | .lt => k == .lt
  | .ge => k == .gt || k == .eq
  | .le => k == .lt || k == .eq
  | .ne => k != .eq
  | .tr => true
  | .fl => false

/-- Lane l of CCP(c), read from CC as it was before the instruction (R135). -/
def State.ccPass (s : State) (m : Mods) (c : Channel) (l : Lane) : Bool :=
  match m.ccPred with
  | none => true
  | some p => ccTest p.test ((s.cc.get (p.swz.get c)).get l)

/-- Is channel c in the write mask? (R122) -/
def inWriteMask (d : Dst) (c : Channel) : Bool := d.writeMask.getLsbD c.toNat

end Sys2Proof.Machine
end

