-- ==== Sys2Proof/WellFormed.lean ====
section
/-! DEFINITION. Which decoded instructions are legal: the field checks of spec/30_encoding.md R102, one
predicate for each kind of operand and one for the whole instruction. -/

namespace Sys2Proof

/-- FILE is legal in a source slot (R86). -/
def RegFile.legalSrc : RegFile → Bool
  | .temp | .input | .output | .addr | .pred | .imm | .const => true
  | .null | .unassigned _ => false

/-- FILE is legal in the destination slot (R86). -/
def RegFile.legalDst : RegFile → Bool
  | .null | .temp | .output | .addr | .pred => true
  | .input | .imm | .const | .unassigned _ => false

/-- FILE may carry a second dimension (R83, R127). -/
def RegFile.hasDim : RegFile → Bool
  | .input | .const => true
  | .null | .temp | .output | .addr | .pred | .imm | .unassigned _ => false

/-- The swizzle code is assigned (R87). -/
def Selector.legal : Selector → Bool
  | .chan _ | .zero | .one => true
  | .illegal _ => false

/-- The checks of R102 on a used source slot. -/
def Src.wellFormed (o : Src) : Bool :=
  o.reservedA == 0 && o.file.legalSrc
    && o.swz.x.legal && o.swz.y.legal && o.swz.z.legal && o.swz.w.legal
    && o.reservedB == 0 && (o.dim.isNone || o.file.hasDim)

/-- The checks of R102 on the destination slot. -/
def Dst.wellFormed (o : Dst) : Bool :=
  o.reservedA == 0 && o.file.legalDst && !o.dim && o.reservedB == 0

/-- The header checks of R102 on an instruction with a destination: SAT = 3 is illegal there (C12). -/
def Mods.wellFormed (m : Mods) : Bool :=
  m.reserved == 0 && (match m.sat with
    | .none | .zeroOne | .minusPlusOne => true
    | .illegal => false)

/-- The header check of R102 on an instruction without a destination. -/
def hdrWellFormed (h : HdrReserved) : Bool := h == 0

/-- The checks of R102 on TEX_TARGET and SAMPLER. -/
def TexSel.wellFormed (numSamplers : Nat) (t : TexSel) : Bool :=
  (match t.target with
    | .oneD | .twoD | .threeD | .cube | .rect => true
    | .none | .illegal _ => false) && t.sampler.toNat < numSamplers

/-- The checks of R102 that a configuration and the length of the bound program complete: no
illegal field in anything the instruction uses. -/
def Instr.wellFormed (cfg : Cfg) (numInstr : Nat) : Instr → Bool
  | .nop h | .else_ h | .endif h | .bgnloop h | .brk h | .cont h | .ret h | .end_ h
  | .bgnsub h | .endsub h | .kilp h _ => hdrWellFormed h
  | .endloop h label => hdrWellFormed h && label.toNat < numInstr
  | .cal h label => hdrWellFormed h && label.toNat ≤ numInstr
  | .kil h a | .if_ h a => hdrWellFormed h && a.wellFormed
  | .mov m d a | .neg m d a | .rcp m d a | .rsq m d a | .ex2 m d a | .lg2 m d a
  | .flr m d a | .ceil m d a | .round m d a | .trunc m d a | .frc m d a
  | .not m d a | .f2i m d a | .f2u m d a | .i2f m d a | .u2f m d a
  | .lit m d a | .scs m d a | .log m d a | .exp m d a =>
    m.wellFormed && d.wellFormed && a.wellFormed
  | .add m d a b | .sub m d a b | .mul m d a b | .div m d a b | .pow m d a b
  | .min m d a b | .max m d a b | .slt m d a b | .sle m d a b | .sge m d a b
  | .seq m d a b | .sne m d a b | .iadd m d a b | .isub m d a b | .imul m d a b
  | .idiv m d a b | .udiv m d a b | .imod m d a b | .umod m d a b | .imin m d a b
  | .imax m d a b | .umin m d a b | .umax m d a b | .islt m d a b | .isle m d a b
  | .isge m d a b | .uslt m d a b | .usle m d a b | .usge m d a b | .useq m d a b
  | .usne m d a b | .and m d a b | .or m d a b | .xor m d a b | .shl m d a b
  | .ishr m d a b | .ushr m d a b | .dp2 m d a b | .dp3 m d a b | .dp4 m d a b
  | .dph m d a b | .xpd m d a b | .dst m d a b =>
    m.wellFormed && d.wellFormed && a.wellFormed && b.wellFormed
  | .mad m d a b c | .lrp m d a b c | .cmp m d a b c | .movc m d a b c =>
    m.wellFormed && d.wellFormed && a.wellFormed && b.wellFormed && c.wellFormed
  | .tex m t d a | .txb m t d a | .txl m t d a | .txp m t d a =>
    m.wellFormed && t.wellFormed cfg.numSamplers && d.wellFormed && a.wellFormed
  | .txd m t d a b c =>
    m.wellFormed && t.wellFormed cfg.numSamplers && d.wellFormed && a.wellFormed
      && b.wellFormed && c.wellFormed

end Sys2Proof
end

