-- ==== Sys2Proof/Machine/Operands.lean ====
section
/-! DEFINITION. The operand unit of spec/40_operand_fetch_store.md: legality of the operand fields (R123),
index resolution with indirect and second dimension (R126, R127, R132), the bound check (R128), and
Fetch with swizzle, sign mode and complement (R125, R129 to R131). -/

namespace Sys2Proof.Machine

/-! ### Legality (R102, R123) -/

/-- The field checks on a used source slot. -/
def srcLegal (o : Src) : Bool := o.wellFormed

/-- The field checks on the destination slot. -/
def dstLegal (o : Dst) : Bool := o.wellFormed

/-- The header checks on an instruction with a destination. -/
def modsLegal (m : Mods) : Bool := m.wellFormed

/-- The header check on an instruction without a destination. -/
def hdrLegal (h : HdrReserved) : Bool := hdrWellFormed h

/-- The checks on TEX_TARGET and SAMPLER. -/
def texLegal (s : State) (t : TexSel) : Bool := t.wellFormed s.cfg.numSamplers

/-! ### Index resolution -/

/-- The Address value added by an indirect index: ADDR[0] as a signed number, or 0 (R126). -/
def State.indirect (s : State) (ind : Option Channel) (l : Lane) : Int :=
  match ind with
  | none => 0
  | some c => (s.readReg .addr 0 c l).toInt

/-- STRIDE(file) of the second dimension (R127). -/
def State.stride (s : State) : RegFile → Nat
  | .input => s.cfg.inputStride
  | .const => s.cfg.constStride
  | .null | .temp | .output | .addr | .pred | .imm | .unassigned _ => 1

/-- i1(op)[l] (R126). -/
def State.baseIndex (s : State) (index : BitVec 16) (ind : Option Channel) (l : Lane) : Int :=
  index.toInt + s.indirect ind l

/-- The register a source operand reads in lane l, or `none` where the bound check fails (R127,
R128). -/
def State.srcIndex (s : State) (o : Src) (l : Lane) : Option Nat :=
  let i := s.baseIndex o.index o.ind l
  match o.dim with
  | none => if 0 ≤ i ∧ i < s.fileSize o.file then some i.toNat else none
  | some d =>
    let k := d.index.toInt + s.indirect d.ind l
    let stride := s.stride o.file
    if 0 ≤ i ∧ i < stride ∧ 0 ≤ k ∧ k < (s.fileSize o.file / stride : Nat) then
      some (k.toNat * stride + i.toNat)
    else none

/-- The register the destination writes in lane l; no index is computed or checked for NULL (R132). -/
def State.dstIndex (s : State) (o : Dst) (l : Lane) : Option Nat :=
  match o.file with
  | .null => some 0
  | _ =>
    let i := s.baseIndex o.index o.ind l
    if 0 ≤ i ∧ i < s.fileSize o.file then some i.toNat else none

/-- The four registers of a source operand, if the bound check passes in all four lanes (R128). -/
def State.resolveSrc (s : State) (o : Src) : Option (Quad Nat) :=
  (Quad.ofFn fun l => s.srcIndex o l).sequence

/-- The four registers of the destination, if the bound check passes in all four lanes (R128). -/
def State.resolveDst (s : State) (o : Dst) : Option (Quad Nat) :=
  (Quad.ofFn fun l => s.dstIndex o l).sequence

/-! ### Fetch -/

/-- SignMode: operations on bit 31 of the pattern (R130). -/
def applySign (m : SignMode) (x : Word) : Word :=
  match m with
  | .keep => x
  | .toggle => x ^^^ K_SIGN
  | .clear => x &&& K_NSIGN
  | .set => x ||| K_SIGN

/-- The swizzled value of channel c in lane l, before the modifiers (R129). -/
def State.select (s : State) (o : Src) (regs : Quad Nat) (c : Channel) (l : Lane) : Word :=
  match o.swz.get c with
  | .chan k => s.readReg o.file (regs.get l) k l
  | .zero => K_ZERO
  | .one => K_ONE
  | .illegal _ => K_ZERO

/-- Lane l of Fetch(src, c) (R125): swizzle, sign mode, then complement (R131). -/
def State.fetch (s : State) (o : Src) (regs : Quad Nat) (c : Channel) (l : Lane) : Word :=
  let v := applySign o.sign (s.select o regs c l)
  if o.complement then fsub K_ONE v else v

/-- The four channels of a source operand in one lane. -/
def State.fetchLane (s : State) (o : Src) (regs : Quad Nat) (l : Lane) : Chans Word :=
  Chans.ofFn fun c => s.fetch o regs c l

/-- The Lane Vector Fetch(src, c). -/
def State.fetchVec (s : State) (o : Src) (regs : Quad Nat) (c : Channel) : Quad Word :=
  Quad.ofFn fun l => s.fetch o regs c l

end Sys2Proof.Machine
end

