-- ==== Sys2Proof/Machine/Frame.lean ====
section
/-! DEFINITION. The commit phase of an instruction with a destination and the frames its meaning is
written over (spec/40_operand_fetch_store.md R120, R133; spec/42_float_alu.md R194). A micro-operation
gives, for each channel and lane, the value to store or `none` where the opcode's own lane mask m
leaves the lane out (R134). -/

namespace Sys2Proof.Machine

/-- What one instruction stores: a value, or nothing, for each channel and lane. -/
abbrev Results := Channel → Lane → Option Word

/-- The value Store writes to channel c in lane l: `none` unless c is in the write mask, l in the final
mask FM = ExecMask & CCP(c) & m, and else the saturated value (R122, R133, R134, R136). -/
def State.stored (s : State) (m : Mods) (d : Dst) (res : Results) (c : Channel) (l : Lane) :
    Option Word :=
  if inWriteMask d c && s.execMask.has l && s.ccPass m c l then
    (res c l).map (saturate m.sat)
  else none

/-- The sixteen cells of a register, channel X first, lane 0 first. -/
def regCells : List (Channel × Lane) :=
  Channel.all.flatMap fun c => Lane.all.map fun l => (c, l)

/-- Store one cell of the destination, if there is a value for it. -/
def State.storeCell (s : State) (f : RegFile) (regs : Quad Nat) (out : Results)
    (p : Channel × Lane) : State :=
  match out p.1 p.2 with
  | none => s
  | some w => s.writeReg f (regs.get p.2) p.1 p.2 w

/-- All the stores of an instruction (R133): each lane writes its own cell of its own register. -/
def State.storeAll (s : State) (f : RegFile) (regs : Quad Nat) (out : Results) : State :=
  regCells.foldl (fun t p => t.storeCell f regs out p) s

/-- The condition-code register after the stores (R137): the codes of the stored values where the
instruction requests an update, else unchanged. -/
def ccAfter (update : Bool) (cc : Chans (Quad CcCode)) (out : Results) : Chans (Quad CcCode) :=
  Chans.ofFn fun c => Quad.ofFn fun l =>
    match update, out c l with
    | true, some w => ccCode w
    | _, _ => (cc.get c).get l

/-- The commit phase: the stores, then the condition-code update. -/
def State.commit (s : State) (m : Mods) (d : Dst) (regs : Quad Nat) (res : Results) : State :=
  let out := s.stored m d res
  { s.storeAll d.file regs out with cc := ccAfter m.ccUpdate s.cc out }

/-- The frame of an instruction with a destination, after its source operands have been resolved:
`legal` is the outcome of the field checks, `srcs` the resolved sources, `res` the micro-operation. -/
def aluFrame {α : Type} (s : State) (legal : Bool) (m : Mods) (d : Dst) (srcs : Option α)
    (res : α → Results) : Out :=
  instrFrame s fun i =>
    if legal then
      match srcs, s.resolveDst d with
      | some ra, some rd => .ok ((s.commit m d rd (res ra)).goto (i + 1))
      | _, _ => .error .indexOutOfBounds
    else .error .illegalEncoding

/-- Two resolved sources. -/
def State.resolveSrc2 (s : State) (a b : Src) : Option (Quad Nat × Quad Nat) :=
  match s.resolveSrc a, s.resolveSrc b with
  | some ra, some rb => some (ra, rb)
  | _, _ => none

/-- Three resolved sources. -/
def State.resolveSrc3 (s : State) (a b c : Src) : Option (Quad Nat × Quad Nat × Quad Nat) :=
  match s.resolveSrc a, s.resolveSrc b, s.resolveSrc c with
  | some ra, some rb, some rc => some (ra, rb, rc)
  | _, _, _ => none

/-- The field checks of an instruction with one source. -/
def legal1 (m : Mods) (d : Dst) (a : Src) : Bool := modsLegal m && dstLegal d && srcLegal a

/-- The field checks of an instruction with two sources. -/
def legal2 (m : Mods) (d : Dst) (a b : Src) : Bool := legal1 m d a && srcLegal b

/-- The field checks of an instruction with three sources. -/
def legal3 (m : Mods) (d : Dst) (a b c : Src) : Bool := legal2 m d a b && srcLegal c

/-- A micro-operation on one, two or three operands: the four channels of each operand in ONE lane
go in, so no lane sees another lane's values (R68). -/
abbrev Micro1 := Chans Word → Channel → Option Word
/-- See `Micro1`. -/
abbrev Micro2 := Chans Word → Chans Word → Channel → Option Word
/-- See `Micro1`. -/
abbrev Micro3 := Chans Word → Chans Word → Chans Word → Channel → Option Word

/-- The results of a one-source micro-operation. -/
def State.results1 (s : State) (a : Src) (g : Micro1) (ra : Quad Nat) : Results :=
  fun c l => g (s.fetchLane a ra l) c

/-- The results of a two-source micro-operation. -/
def State.results2 (s : State) (a b : Src) (g : Micro2) (r : Quad Nat × Quad Nat) : Results :=
  fun c l => g (s.fetchLane a r.1 l) (s.fetchLane b r.2 l) c

/-- The results of a three-source micro-operation. -/
def State.results3 (s : State) (a b c : Src) (g : Micro3) (r : Quad Nat × Quad Nat × Quad Nat) :
    Results :=
  fun ch l => g (s.fetchLane a r.1 l) (s.fetchLane b r.2.1 l) (s.fetchLane c r.2.2 l) ch

/-- An instruction with a destination and one source. -/
def alu1 (m : Mods) (d : Dst) (a : Src) (g : Micro1) (s : State) : Out :=
  aluFrame s (legal1 m d a) m d (s.resolveSrc a) (s.results1 a g)

/-- An instruction with a destination and two sources. -/
def alu2 (m : Mods) (d : Dst) (a b : Src) (g : Micro2) (s : State) : Out :=
  aluFrame s (legal2 m d a b) m d (s.resolveSrc2 a b) (s.results2 a b g)

/-- An instruction with a destination and three sources. -/
def alu3 (m : Mods) (d : Dst) (a b c : Src) (g : Micro3) (s : State) : Out :=
  aluFrame s (legal3 m d a b c) m d (s.resolveSrc3 a b c) (s.results3 a b c g)

/-! ### The componentwise frame (R194) -/

/-- Channel c from channel c of the source. -/
def comp1 (g : Word → Word) : Micro1 := fun a c => some (g (a.get c))

/-- Channel c from channel c of both sources. -/
def comp2 (g : Word → Word → Word) : Micro2 := fun a b c => some (g (a.get c) (b.get c))

/-- Channel c from channel c of the three sources. -/
def comp3 (g : Word → Word → Word → Word) : Micro3 :=
  fun a b c ch => some (g (a.get ch) (b.get ch) (c.get ch))

/-- Componentwise with a lane mask: `none` leaves the lane out (R134). -/
def comp2Masked (g : Word → Word → Option Word) : Micro2 := fun a b c => g (a.get c) (b.get c)

/-- The divide primitive DivStore in one lane: a zero divisor leaves the lane out (R195). -/
def divLane (a b : Word) : Option Word := if feq b K_ZERO then none else some (fdiv a b)

end Sys2Proof.Machine
end

