-- ==== Sys2Proof/Machine/FloatAlu.lean ====
section
/-! DEFINITION. The float ALU: MOV, arithmetic, rounding, set on compare, CMP (spec/42_float_alu.md R200
to R225). Every instruction is componentwise (R194) but for its divisions, which leave out a lane
whose divisor is zero (R195). -/

namespace Sys2Proof.Machine

/-- The value of a float set-on-compare: 1.0 or 0.0 (R220). -/
def floatBool (b : Bool) : Word := if b then K_ONE else K_ZERO

/-! ### Move and arithmetic -/

/-- MOV (R200): a bit copy. -/
def execMov (m : Mods) (d : Dst) (a : Src) (s : State) : Out :=
  alu1 m d a (comp1 fun x => x) s

/-- ADD (R201): fadd. -/
def execAdd (m : Mods) (d : Dst) (a b : Src) (s : State) : Out :=
  alu2 m d a b (comp2 fadd) s

/-- SUB (R202): fsub. -/
def execSub (m : Mods) (d : Dst) (a b : Src) (s : State) : Out :=
  alu2 m d a b (comp2 fsub) s

/-- MUL (R203): fmul. -/
def execMul (m : Mods) (d : Dst) (a b : Src) (s : State) : Out :=
  alu2 m d a b (comp2 fmul) s

/-- DIV (R204): the divide primitive on dividend and divisor. -/
def execDiv (m : Mods) (d : Dst) (a b : Src) (s : State) : Out :=
  alu2 m d a b (comp2Masked divLane) s

/-- NEG (R205): bit 31 flipped. -/
def execNeg (m : Mods) (d : Dst) (a : Src) (s : State) : Out :=
  alu1 m d a (comp1 fun x => x ^^^ K_SIGN) s

/-- RCP (R206): the divide primitive on 1.0 and the operand. -/
def execRcp (m : Mods) (d : Dst) (a : Src) (s : State) : Out :=
  alu1 m d a (fun a c => divLane K_ONE (a.get c)) s

/-- RSQ (R207): the divide primitive on 1.0 and the square root of the operand. -/
def execRsq (m : Mods) (d : Dst) (a : Src) (s : State) : Out :=
  alu1 m d a (fun a c => divLane K_ONE (fsqrt (a.get c))) s

/-- POW (R208): the free function `fpow`. -/
def execPow (m : Mods) (d : Dst) (a b : Src) (s : State) : Out :=
  alu2 m d a b (comp2 Config.fpow) s

/-- EX2 (R209): the free function `fexp2`. -/
def execEx2 (m : Mods) (d : Dst) (a : Src) (s : State) : Out :=
  alu1 m d a (comp1 Config.fexp2) s

/-- LG2 (R210): the free function `flog2`. -/
def execLg2 (m : Mods) (d : Dst) (a : Src) (s : State) : Out :=
  alu1 m d a (comp1 Config.flog2) s

/-- MAD (R211): a*b+c, fused as MAD_FUSED says. -/
def execMad (m : Mods) (d : Dst) (a b c : Src) (s : State) : Out :=
  alu3 m d a b c (comp3 (fmad s.cfg.madFused)) s

/-- LRP (R212): a*(b-c)+c, the difference rounded first. -/
def execLrp (m : Mods) (d : Dst) (a b c : Src) (s : State) : Out :=
  alu3 m d a b c (comp3 fun x y z => fmad s.cfg.madFused x (fsub y z) z) s

/-- MIN (R213): a if a < b else b. -/
def execMin (m : Mods) (d : Dst) (a b : Src) (s : State) : Out :=
  alu2 m d a b (comp2 fmin2) s

/-- MAX (R214): a if a > b else b. -/
def execMax (m : Mods) (d : Dst) (a b : Src) (s : State) : Out :=
  alu2 m d a b (comp2 fmax2) s

/-! ### Rounding -/

/-- FLR (R215): toward minus infinity. -/
def execFlr (m : Mods) (d : Dst) (a : Src) (s : State) : Out :=
  alu1 m d a (comp1 ffloor) s

/-- CEIL (R216): toward plus infinity. -/
def execCeil (m : Mods) (d : Dst) (a : Src) (s : State) : Out :=
  alu1 m d a (comp1 fceil) s

/-- ROUND (R217): to nearest, ties as ROUND_TIES says. -/
def execRound (m : Mods) (d : Dst) (a : Src) (s : State) : Out :=
  alu1 m d a (comp1 (fround s.cfg.roundTies)) s

/-- TRUNC (R218): toward zero. -/
def execTrunc (m : Mods) (d : Dst) (a : Src) (s : State) : Out :=
  alu1 m d a (comp1 ftrunc) s

/-- FRC (R219): x - floor(x), the subtraction rounded. -/
def execFrc (m : Mods) (d : Dst) (a : Src) (s : State) : Out :=
  alu1 m d a (comp1 fun x => fsub x (ffloor x)) s

/-! ### Set on compare, and select on sign -/

/-- SLT (R220): 1.0 where flt holds, else 0.0. -/
def execSlt (m : Mods) (d : Dst) (a b : Src) (s : State) : Out :=
  alu2 m d a b (comp2 fun x y => floatBool (flt x y)) s

/-- SLE (R221): 1.0 where fle holds, else 0.0. -/
def execSle (m : Mods) (d : Dst) (a b : Src) (s : State) : Out :=
  alu2 m d a b (comp2 fun x y => floatBool (fle x y)) s

/-- SGE (R222): 1.0 where fge holds, else 0.0. -/
def execSge (m : Mods) (d : Dst) (a b : Src) (s : State) : Out :=
  alu2 m d a b (comp2 fun x y => floatBool (fge x y)) s

/-- SEQ (R223): 1.0 where feq holds, else 0.0. -/
def execSeq (m : Mods) (d : Dst) (a b : Src) (s : State) : Out :=
  alu2 m d a b (comp2 fun x y => floatBool (feq x y)) s

/-- SNE (R224): 1.0 where fne holds, else 0.0. -/
def execSne (m : Mods) (d : Dst) (a b : Src) (s : State) : Out :=
  alu2 m d a b (comp2 fun x y => floatBool (fne x y)) s

/-- CMP (R225): b where a is less than 0.0, else c. -/
def execCmp (m : Mods) (d : Dst) (a b c : Src) (s : State) : Out :=
  alu3 m d a b c (comp3 fun x y z => if flt x K_ZERO then y else z) s

end Sys2Proof.Machine
end

