-- ==== Sys2Proof/Machine/Flow.lean ====
section
/-! DEFINITION. The execution-mask stack machine and control flow: NOP, BGNSUB, ENDSUB, IF, ELSE, ENDIF,
BGNLOOP, ENDLOOP, BRK, CONT, CAL, RET, END (spec/41_exec_mask_flow.md R160 to R177). ExecMask is
computed on demand, so UpdateExec() is not written (R160). -/

namespace Sys2Proof.Machine

/-- The frame of an instruction whose only field check is HDR[31:30] (R102). -/
def flowFrame (h : HdrReserved) (s : State) (body : Nat → Except FatalCode State) : Out :=
  instrFrame s fun i => if hdrLegal h then body i else .error .illegalEncoding

/-- NOP (R162). -/
def execNop (h : HdrReserved) (s : State) : Out := flowFrame h s fun i => .ok (s.goto (i + 1))

/-- BGNSUB (R163). -/
def execBgnsub (h : HdrReserved) (s : State) : Out := flowFrame h s fun i => .ok (s.goto (i + 1))

/-- ENDSUB (R164). -/
def execEndsub (h : HdrReserved) (s : State) : Out := flowFrame h s fun i => .ok (s.goto (i + 1))

/-- The lanes in which channel X of a resolved source is not the all-zero pattern (R165). -/
def State.trueLanes (s : State) (a : Src) (ra : Quad Nat) : LaneMask :=
  LaneMask.ofLanes fun l => s.fetch a ra .x l != 0

/-- IF (R165). -/
def execIf (h : HdrReserved) (a : Src) (s : State) : Out :=
  flowFrame h s fun i =>
    if srcLegal a then
      match s.resolveSrc a with
      | none => .error .indexOutOfBounds
      | some ra =>
        if stackFull s s.condStack then .error .stackOverflow
        else
          .ok ({ s with
            condStack := s.condStack ++ [s.condMask]
            condMask := s.condMask &&& s.trueLanes a ra }.goto (i + 1))
    else .error .illegalEncoding

/-- ELSE (R166): the top of CondStack is read, not popped. -/
def execElse (h : HdrReserved) (s : State) : Out :=
  flowFrame h s fun i =>
    match s.condStack.getLast? with
    | none => .error .stackUnderflow
    | some top => .ok ({ s with condMask := ~~~s.condMask &&& top }.goto (i + 1))

/-- ENDIF (R167). -/
def execEndif (h : HdrReserved) (s : State) : Out :=
  flowFrame h s fun i =>
    match s.condStack.getLast? with
    | none => .error .stackUnderflow
    | some top =>
      .ok ({ s with condMask := top, condStack := s.condStack.dropLast }.goto (i + 1))

/-- BGNLOOP (R168): both stacks are checked before either is pushed. -/
def execBgnloop (h : HdrReserved) (s : State) : Out :=
  flowFrame h s fun i =>
    if stackFull s s.loopStack || stackFull s s.contStack then .error .stackOverflow
    else
      .ok ({ s with
        loopStack := s.loopStack ++ [s.loopMask]
        contStack := s.contStack ++ [s.contMask] }.goto (i + 1))

/-- ENDLOOP (R169): "live" is judged after Cont is restored. -/
def execEndloop (h : HdrReserved) (label : Word) (s : State) : Out :=
  flowFrame h s fun i =>
    if label.toNat < s.numInstr then
      match s.loopStack.getLast?, s.contStack.getLast? with
      | some loopTop, some contTop =>
        let restored : State := { s with contMask := contTop }
        if restored.execMask ≠ 0 then .ok (restored.goto (label.toNat + 1))
        else
          .ok ({ s with
            loopMask := loopTop
            loopStack := s.loopStack.dropLast
            contMask := contTop
            contStack := s.contStack.dropLast }.goto (i + 1))
      | _, _ => .error .stackUnderflow
    else .error .illegalEncoding

/-- BRK (R170). -/
def execBrk (h : HdrReserved) (s : State) : Out :=
  flowFrame h s fun i => .ok ({ s with loopMask := s.loopMask &&& ~~~s.execMask }.goto (i + 1))

/-- CONT (R171). -/
def execCont (h : HdrReserved) (s : State) : Out :=
  flowFrame h s fun i => .ok ({ s with contMask := s.contMask &&& ~~~s.execMask }.goto (i + 1))

/-- Some one of the five stacks is full (R175). -/
def State.anyStackFull (s : State) : Bool :=
  stackFull s s.callStack || stackFull s s.condStack || stackFull s s.loopStack
    || stackFull s s.contStack || stackFull s s.funcStack

/-- CAL (R175): the label is checked whether or not the call is taken. retPC is kept as a number; that
it fits the 32 bits of R44 is the model's bound on MAX_INSTR (DESIGN CHOICE, log 17). -/
def execCal (h : HdrReserved) (label : Word) (s : State) : Out :=
  flowFrame h s fun i =>
    if label.toNat ≤ s.numInstr then
      if s.execMask ≠ 0 then
        if s.anyStackFull then .error .stackOverflow
        else
          .ok ({ s with
            callStack := s.callStack ++ [({
              retPc := i + 1
              condDepth := s.condStack.length
              loopDepth := s.loopStack.length
              contDepth := s.contStack.length } : CallEntry)]
            condStack := s.condStack ++ [s.condMask]
            loopStack := s.loopStack ++ [s.loopMask]
            contStack := s.contStack ++ [s.contMask]
            funcStack := s.funcStack ++ [s.funcMask] }.goto label.toNat)
      else .ok (s.goto (i + 1))
    else .error .illegalEncoding

/-- The return of R176 to a popped call-stack entry: the masks the CAL saved are restored from the
recorded depths and every later entry is discarded; `none` is STACK_UNDERFLOW. -/
def State.returnTo (s : State) (e : CallEntry) : Option State :=
  match s.condStack[e.condDepth]?, s.loopStack[e.loopDepth]?, s.contStack[e.contDepth]?,
      s.funcStack.getLast? with
  | some cond, some loop, some cont, some func =>
    some ({ s with
      callStack := s.callStack.dropLast
      condMask := cond
      condStack := s.condStack.take e.condDepth
      loopMask := loop
      loopStack := s.loopStack.take e.loopDepth
      contMask := cont
      contStack := s.contStack.take e.contDepth
      funcMask := func
      funcStack := s.funcStack.dropLast }.goto e.retPc)
  | _, _, _, _ => none

/-- RET (R176): the test is on Func after the live lanes are cleared from it. -/
def execRet (h : HdrReserved) (s : State) : Out :=
  flowFrame h s fun i =>
    let func := s.funcMask &&& ~~~s.execMask
    if func ≠ 0 then .ok ({ s with funcMask := func }.goto (i + 1))
    else
      match s.callStack.getLast? with
      | none => .ok { s with funcMask := func, pc := .halted }
      | some e =>
        match s.returnTo e with
        | some t => .ok t
        | none => .error .stackUnderflow

/-- END (R177). -/
def execEnd (h : HdrReserved) (s : State) : Out := flowFrame h s fun _ => .ok { s with pc := .halted }

end Sys2Proof.Machine
end

