-- ==== Sys2Proof/Machine/IntAlu.lean ====
section
/-! DEFINITION. The integer, bitwise, shift and conversion ALU and MOVC (spec/43_int_bitwise_alu.md R240
to R280). Every instruction is componentwise (R194); a zero divisor leaves the lane out (R244). -/

namespace Sys2Proof.Machine

/-- The value of an integer set-on-compare: all ones or zero (R240). -/
def intBool (b : Bool) : Word := if b then K_ALL else K_ZERO

/-- The quotient of IDIV, truncated toward zero; -2^31 / -1 is 0x80000000 (R244). -/
def idivLane (a b : Word) : Option Word :=
  if b = 0 then none
  else if a = 0x80000000 ∧ b = 0xFFFFFFFF then some 0x80000000
  else some (BitVec.ofInt 32 (a.toInt.tdiv b.toInt))

/-- The quotient of UDIV (R245). -/
def udivLane (a b : Word) : Option Word :=
  if b = 0 then none else some (BitVec.ofNat 32 (a.toNat / b.toNat))

/-- The remainder of IMOD, with the sign of the dividend; 0 for -2^31 and -1 (R246). -/
def imodLane (a b : Word) : Option Word :=
  if b = 0 then none
  else if a = 0x80000000 ∧ b = 0xFFFFFFFF then some 0
  else some (BitVec.ofInt 32 (a.toInt - b.toInt * a.toInt.tdiv b.toInt))

/-- The remainder of UMOD (R247). -/
def umodLane (a b : Word) : Option Word :=
  if b = 0 then none else some (BitVec.ofNat 32 (a.toNat % b.toNat))

/-- The shift count: the low five bits (R269). -/
def shiftCount (b : Word) : Nat := b.toNat % 32

/-- SHL in one lane (R269). -/
def shlLane (a b : Word) : Word := BitVec.ofNat 32 (a.toNat * 2 ^ shiftCount b)

/-- ISHR in one lane: floor(s(a) / 2^count) (R270). -/
def ishrLane (a b : Word) : Word := BitVec.ofInt 32 (a.toInt / (2 ^ shiftCount b : Nat))

/-- USHR in one lane (R271). -/
def ushrLane (a b : Word) : Word := BitVec.ofNat 32 (a.toNat / 2 ^ shiftCount b)

/-! ### Integer arithmetic -/

/-- IADD (R241): sum modulo 2^32. -/
def execIadd (m : Mods) (d : Dst) (a b : Src) (s : State) : Out :=
  alu2 m d a b (comp2 fun x y => x + y) s

/-- ISUB (R242): difference modulo 2^32. -/
def execIsub (m : Mods) (d : Dst) (a b : Src) (s : State) : Out :=
  alu2 m d a b (comp2 fun x y => x - y) s

/-- IMUL (R243): the low 32 bits of the product. -/
def execImul (m : Mods) (d : Dst) (a b : Src) (s : State) : Out :=
  alu2 m d a b (comp2 fun x y => x * y) s

/-- IDIV (R244): signed quotient. -/
def execIdiv (m : Mods) (d : Dst) (a b : Src) (s : State) : Out :=
  alu2 m d a b (comp2Masked idivLane) s

/-- UDIV (R245): unsigned quotient. -/
def execUdiv (m : Mods) (d : Dst) (a b : Src) (s : State) : Out :=
  alu2 m d a b (comp2Masked udivLane) s

/-- IMOD (R246): signed remainder. -/
def execImod (m : Mods) (d : Dst) (a b : Src) (s : State) : Out :=
  alu2 m d a b (comp2Masked imodLane) s

/-- UMOD (R247): unsigned remainder. -/
def execUmod (m : Mods) (d : Dst) (a b : Src) (s : State) : Out :=
  alu2 m d a b (comp2Masked umodLane) s

/-- IMIN (R248): the smaller signed operand. -/
def execImin (m : Mods) (d : Dst) (a b : Src) (s : State) : Out :=
  alu2 m d a b (comp2 fun x y => if x.toInt < y.toInt then x else y) s

/-- IMAX (R249): the larger signed operand. -/
def execImax (m : Mods) (d : Dst) (a b : Src) (s : State) : Out :=
  alu2 m d a b (comp2 fun x y => if x.toInt > y.toInt then x else y) s

/-- UMIN (R250): the smaller unsigned operand. -/
def execUmin (m : Mods) (d : Dst) (a b : Src) (s : State) : Out :=
  alu2 m d a b (comp2 fun x y => if x.toNat < y.toNat then x else y) s

/-- UMAX (R251): the larger unsigned operand. -/
def execUmax (m : Mods) (d : Dst) (a b : Src) (s : State) : Out :=
  alu2 m d a b (comp2 fun x y => if x.toNat > y.toNat then x else y) s

/-! ### Integer set on compare -/

/-- ISLT (R255): all ones where s(a) < s(b), else 0. -/
def execIslt (m : Mods) (d : Dst) (a b : Src) (s : State) : Out :=
  alu2 m d a b (comp2 fun x y => intBool (x.toInt < y.toInt)) s

/-- ISLE (R256): all ones where s(a) ≤ s(b), else 0. -/
def execIsle (m : Mods) (d : Dst) (a b : Src) (s : State) : Out :=
  alu2 m d a b (comp2 fun x y => intBool (x.toInt ≤ y.toInt)) s

/-- ISGE (R257): all ones where s(a) ≥ s(b), else 0. -/
def execIsge (m : Mods) (d : Dst) (a b : Src) (s : State) : Out :=
  alu2 m d a b (comp2 fun x y => intBool (x.toInt ≥ y.toInt)) s

/-- USLT (R258): all ones where u(a) < u(b), else 0. -/
def execUslt (m : Mods) (d : Dst) (a b : Src) (s : State) : Out :=
  alu2 m d a b (comp2 fun x y => intBool (x.toNat < y.toNat)) s

/-- USLE (R259): all ones where u(a) ≤ u(b), else 0. -/
def execUsle (m : Mods) (d : Dst) (a b : Src) (s : State) : Out :=
  alu2 m d a b (comp2 fun x y => intBool (x.toNat ≤ y.toNat)) s

/-- USGE (R260): all ones where u(a) ≥ u(b), else 0. -/
def execUsge (m : Mods) (d : Dst) (a b : Src) (s : State) : Out :=
  alu2 m d a b (comp2 fun x y => intBool (x.toNat ≥ y.toNat)) s

/-- USEQ (R261): all ones where u(a) = u(b), else 0. -/
def execUseq (m : Mods) (d : Dst) (a b : Src) (s : State) : Out :=
  alu2 m d a b (comp2 fun x y => intBool (x.toNat = y.toNat)) s

/-- USNE (R262): all ones where u(a) ≠ u(b), else 0. -/
def execUsne (m : Mods) (d : Dst) (a b : Src) (s : State) : Out :=
  alu2 m d a b (comp2 fun x y => intBool (x.toNat ≠ y.toNat)) s

/-! ### Bitwise and shift -/

/-- AND (R265): bitwise and. -/
def execAnd (m : Mods) (d : Dst) (a b : Src) (s : State) : Out :=
  alu2 m d a b (comp2 fun x y => x &&& y) s

/-- OR (R266): bitwise or. -/
def execOr (m : Mods) (d : Dst) (a b : Src) (s : State) : Out :=
  alu2 m d a b (comp2 fun x y => x ||| y) s

/-- XOR (R267): bitwise exclusive or. -/
def execXor (m : Mods) (d : Dst) (a b : Src) (s : State) : Out :=
  alu2 m d a b (comp2 fun x y => x ^^^ y) s

/-- NOT (R268): bitwise complement. -/
def execNot (m : Mods) (d : Dst) (a : Src) (s : State) : Out :=
  alu1 m d a (comp1 fun x => ~~~x) s

/-- SHL (R269): shift left. -/
def execShl (m : Mods) (d : Dst) (a b : Src) (s : State) : Out :=
  alu2 m d a b (comp2 shlLane) s

/-- ISHR (R270): arithmetic shift right. -/
def execIshr (m : Mods) (d : Dst) (a b : Src) (s : State) : Out :=
  alu2 m d a b (comp2 ishrLane) s

/-- USHR (R271): logical shift right. -/
def execUshr (m : Mods) (d : Dst) (a b : Src) (s : State) : Out :=
  alu2 m d a b (comp2 ushrLane) s

/-! ### Conversions and select on truth -/

/-- F2I (R275): float to signed integer, toward zero. -/
def execF2i (m : Mods) (d : Dst) (a : Src) (s : State) : Out :=
  alu1 m d a (comp1 f2i) s

/-- F2U (R276): float to unsigned integer, toward zero. -/
def execF2u (m : Mods) (d : Dst) (a : Src) (s : State) : Out :=
  alu1 m d a (comp1 f2u) s

/-- I2F (R277): the nearest float, ties to even. -/
def execI2f (m : Mods) (d : Dst) (a : Src) (s : State) : Out :=
  alu1 m d a (comp1 i2f) s

/-- U2F (R278): the nearest float, ties to even. -/
def execU2f (m : Mods) (d : Dst) (a : Src) (s : State) : Out :=
  alu1 m d a (comp1 u2f) s

/-- MOVC (R280): b where the pattern a is not zero, else c. -/
def execMovc (m : Mods) (d : Dst) (a b c : Src) (s : State) : Out :=
  alu3 m d a b c (comp3 fun x y z => if x ≠ 0 then y else z) s

end Sys2Proof.Machine
end

