-- ==== Sys2Proof/Decode.lean ====
section
/-! DEFINITION. The binary layer: bit fields and code tables of spec/30_encoding.md R80 to R91, the
decoder of an instruction record, the encoder beside it, the declaration record of
spec/46_run_interp.md R331, and the little-endian byte layout of a record (R63, R106). -/

namespace Sys2Proof

/-! ### Code tables -/

/-- FILE (R86). -/
def RegFile.ofBits (b : BitVec 4) : RegFile :=
  match b.toNat with
  | 0 => .null
  | 1 => .temp
  | 2 => .input
  | 3 => .output
  | 4 => .addr
  | 5 => .pred
  | 6 => .imm
  | 7 => .const
  | _ => .unassigned (b.extractLsb' 0 3)

/-- The FILE code of a file (R86). -/
def RegFile.toBits : RegFile → BitVec 4
  | .null => 0
  | .temp => 1
  | .input => 2
  | .output => 3
  | .addr => 4
  | .pred => 5
  | .imm => 6
  | .const => 7
  | .unassigned low => 1#1 ++ low

/-- A two-bit channel number (R81, R83, R84). -/
def Channel.ofBits (b : BitVec 2) : Channel :=
  match b.toNat with
  | 0 => .x
  | 1 => .y
  | 2 => .z
  | _ => .w

/-- The two-bit number of a channel. -/
def Channel.toBits : Channel → BitVec 2
  | .x => 0
  | .y => 1
  | .z => 2
  | .w => 3

/-- Swizzle codes (R87). -/
def Selector.ofBits (b : BitVec 3) : Selector :=
  match b.toNat with
  | 0 => .chan .x
  | 1 => .chan .y
  | 2 => .chan .z
  | 3 => .chan .w
  | 4 => .zero
  | 5 => .one
  | _ => .illegal (b.getLsbD 0)

/-- The code of a selector (R87). -/
def Selector.toBits : Selector → BitVec 3
  | .chan c => 0#1 ++ c.toBits
  | .zero => 4
  | .one => 5
  | .illegal low => 3#2 ++ BitVec.ofBool low

/-- SIGN codes (R88). -/
def SignMode.ofBits (b : BitVec 2) : SignMode :=
  match b.toNat with
  | 0 => .keep
  | 1 => .toggle
  | 2 => .clear
  | _ => .set

/-- The code of a sign mode (R88). -/
def SignMode.toBits : SignMode → BitVec 2
  | .keep => 0
  | .toggle => 1
  | .clear => 2
  | .set => 3

/-- SAT codes (R89). -/
def SatMode.ofBits (b : BitVec 2) : SatMode :=
  match b.toNat with
  | 0 => .none
  | 1 => .zeroOne
  | 2 => .minusPlusOne
  | _ => .illegal

/-- The code of a saturation mode (R89). -/
def SatMode.toBits : SatMode → BitVec 2
  | .none => 0
  | .zeroOne => 1
  | .minusPlusOne => 2
  | .illegal => 3

/-- CC_TEST codes (R90). -/
def CcTest.ofBits (b : BitVec 3) : CcTest :=
  match b.toNat with
  | 0 => .gt
  | 1 => .eq
  | 2 => .lt
  | 3 => .ge
  | 4 => .le
  | 5 => .ne
  | 6 => .tr
  | _ => .fl

/-- The code of a condition test (R90). -/
def CcTest.toBits : CcTest → BitVec 3
  | .gt => 0
  | .eq => 1
  | .lt => 2
  | .ge => 3
  | .le => 4
  | .ne => 5
  | .tr => 6
  | .fl => 7

/-- TEX_TARGET codes (R91). -/
def TexTarget.ofBits (b : BitVec 3) : TexTarget :=
  match b.toNat with
  | 0 => .none
  | 1 => .oneD
  | 2 => .twoD
  | 3 => .threeD
  | 4 => .cube
  | 5 => .rect
  | _ => .illegal (b.getLsbD 0)

/-- The code of a texture target (R91). -/
def TexTarget.toBits : TexTarget → BitVec 3
  | .none => 0
  | .oneD => 1
  | .twoD => 2
  | .threeD => 3
  | .cube => 4
  | .rect => 5
  | .illegal low => 3#2 ++ BitVec.ofBool low

/-- A channel number that counts only when its enable bit is 1 (IND with IND_CHAN, DIM_IND with
DIM_IND_CHAN; otherwise ignored, R103). -/
def optChannel (enable : Bool) (b : BitVec 2) : Option Channel :=
  if enable then some (Channel.ofBits b) else none

/-! ### Fields of a record -/

/-- The destination operand from its words A and B (R83, R85). -/
def decodeDst (a b : Word) : Dst where
  file := RegFile.ofBits (a.extractLsb' 0 4)
  index := a.extractLsb' 8 16
  ind := optChannel (a.getLsbD 4) (a.extractLsb' 6 2)
  dim := a.getLsbD 5
  writeMask := b.extractLsb' 0 4
  reservedA := a.extractLsb' 24 8
  reservedB := b.extractLsb' 4 28

/-- A source operand from its words A and B (R83, R84). -/
def decodeSrc (a b : Word) : Src where
  file := RegFile.ofBits (a.extractLsb' 0 4)
  index := a.extractLsb' 8 16
  ind := optChannel (a.getLsbD 4) (a.extractLsb' 6 2)
  dim := if a.getLsbD 5 then
      some { index := b.extractLsb' 20 12,
             ind := optChannel (b.getLsbD 15) (b.extractLsb' 16 2) }
    else none
  swz := { x := Selector.ofBits (b.extractLsb' 0 3),
           y := Selector.ofBits (b.extractLsb' 3 3),
           z := Selector.ofBits (b.extractLsb' 6 3),
           w := Selector.ofBits (b.extractLsb' 9 3) }
  sign := SignMode.ofBits (b.extractLsb' 12 2)
  complement := b.getLsbD 14
  reservedA := a.extractLsb' 24 8
  reservedB := b.extractLsb' 18 2

/-- The header modifiers of an instruction with a destination (R81). -/
def decodeMods (w0 : Word) : Mods where
  sat := SatMode.ofBits (w0.extractLsb' 8 2)
  ccUpdate := w0.getLsbD 10
  ccPred := if w0.getLsbD 11 then
      some { test := CcTest.ofBits (w0.extractLsb' 12 3),
             swz := { x := Channel.ofBits (w0.extractLsb' 15 2),
                      y := Channel.ofBits (w0.extractLsb' 17 2),
                      z := Channel.ofBits (w0.extractLsb' 19 2),
                      w := Channel.ofBits (w0.extractLsb' 21 2) } }
    else none
  reserved := w0.extractLsb' 30 2

/-- TEX_TARGET and SAMPLER (R81). -/
def decodeTexSel (w0 : Word) : TexSel where
  target := TexTarget.ofBits (w0.extractLsb' 23 3)
  sampler := w0.extractLsb' 26 4

/-- OPCODE, HDR[7:0] (R81). -/
def Record.opcode (r : Record) : BitVec 8 := r.w0.extractLsb' 0 8

/-- HDR[31:30] (R81). -/
def Record.hdrReserved (r : Record) : HdrReserved := r.w0.extractLsb' 30 2

/-- CC_PRED, HDR[11] (R81). -/
def Record.ccPredBit (r : Record) : Bool := r.w0.getLsbD 11

/-- The header modifiers of the record. -/
def Record.mods (r : Record) : Mods := decodeMods r.w0

/-- The texture selection of the record. -/
def Record.texSel (r : Record) : TexSel := decodeTexSel r.w0

/-- The destination slot (R80). -/
def Record.dst (r : Record) : Dst := decodeDst r.w2 r.w3

/-- Source slot 0 (R80). -/
def Record.src0 (r : Record) : Src := decodeSrc r.w4 r.w5

/-- Source slot 1 (R80). -/
def Record.src1 (r : Record) : Src := decodeSrc r.w6 r.w7

/-- Source slot 2 (R80). -/
def Record.src2 (r : Record) : Src := decodeSrc r.w8 r.w9

/-! ### The decoder -/

/-- Why a record or a byte string is no instruction. -/
inductive DecodeReject where
  /-- OPCODE is not one of the 87 assigned values (R101) -/
  | unknownOpcode (opcode : BitVec 8)
  /-- fewer than the 40 bytes of a record were given (R106) -/
  | tooFewBytes
deriving DecidableEq, Repr

/-- The instruction a record stands for: selected by OPCODE alone (R100), fields that the opcode does
not use are ignored (R103), an unassigned OPCODE is rejected (R101). -/
def decode (r : Record) : Except DecodeReject Instr :=
  match r.opcode.toNat with
  | 0x00 => .ok (.nop r.hdrReserved)
  | 0x01 => .ok (.mov r.mods r.dst r.src0)
  | 0x10 => .ok (.add r.mods r.dst r.src0 r.src1)
  | 0x11 => .ok (.sub r.mods r.dst r.src0 r.src1)
  | 0x12 => .ok (.mul r.mods r.dst r.src0 r.src1)
  | 0x13 => .ok (.div r.mods r.dst r.src0 r.src1)
  | 0x14 => .ok (.neg r.mods r.dst r.src0)
  | 0x15 => .ok (.rcp r.mods r.dst r.src0)
  | 0x16 => .ok (.rsq r.mods r.dst r.src0)
  | 0x17 => .ok (.pow r.mods r.dst r.src0 r.src1)
  | 0x18 => .ok (.ex2 r.mods r.dst r.src0)
  | 0x19 => .ok (.lg2 r.mods r.dst r.src0)
  | 0x1A => .ok (.mad r.mods r.dst r.src0 r.src1 r.src2)
  | 0x1B => .ok (.lrp r.mods r.dst r.src0 r.src1 r.src2)
  | 0x1C => .ok (.min r.mods r.dst r.src0 r.src1)
  | 0x1D => .ok (.max r.mods r.dst r.src0 r.src1)
  | 0x20 => .ok (.flr r.mods r.dst r.src0)
  | 0x21 => .ok (.ceil r.mods r.dst r.src0)
  | 0x22 => .ok (.round r.mods r.dst r.src0)
  | 0x23 => .ok (.trunc r.mods r.dst r.src0)
  | 0x24 => .ok (.frc r.mods r.dst r.src0)
  | 0x28 => .ok (.slt r.mods r.dst r.src0 r.src1)
  | 0x29 => .ok (.sle r.mods r.dst r.src0 r.src1)
  | 0x2A => .ok (.sge r.mods r.dst r.src0 r.src1)
  | 0x2B => .ok (.seq r.mods r.dst r.src0 r.src1)
  | 0x2C => .ok (.sne r.mods r.dst r.src0 r.src1)
  | 0x2E => .ok (.cmp r.mods r.dst r.src0 r.src1 r.src2)
  | 0x2F => .ok (.movc r.mods r.dst r.src0 r.src1 r.src2)
  | 0x30 => .ok (.iadd r.mods r.dst r.src0 r.src1)
  | 0x31 => .ok (.isub r.mods r.dst r.src0 r.src1)
  | 0x32 => .ok (.imul r.mods r.dst r.src0 r.src1)
  | 0x33 => .ok (.idiv r.mods r.dst r.src0 r.src1)
  | 0x34 => .ok (.udiv r.mods r.dst r.src0 r.src1)
  | 0x35 => .ok (.imod r.mods r.dst r.src0 r.src1)
  | 0x36 => .ok (.umod r.mods r.dst r.src0 r.src1)
  | 0x37 => .ok (.imin r.mods r.dst r.src0 r.src1)
  | 0x38 => .ok (.imax r.mods r.dst r.src0 r.src1)
  | 0x39 => .ok (.umin r.mods r.dst r.src0 r.src1)
  | 0x3A => .ok (.umax r.mods r.dst r.src0 r.src1)
  | 0x40 => .ok (.islt r.mods r.dst r.src0 r.src1)
  | 0x41 => .ok (.isle r.mods r.dst r.src0 r.src1)
  | 0x42 => .ok (.isge r.mods r.dst r.src0 r.src1)
  | 0x43 => .ok (.uslt r.mods r.dst r.src0 r.src1)
  | 0x44 => .ok (.usle r.mods r.dst r.src0 r.src1)
  | 0x45 => .ok (.usge r.mods r.dst r.src0 r.src1)
  | 0x46 => .ok (.useq r.mods r.dst r.src0 r.src1)
  | 0x47 => .ok (.usne r.mods r.dst r.src0 r.src1)
  | 0x48 => .ok (.and r.mods r.dst r.src0 r.src1)
  | 0x49 => .ok (.or r.mods r.dst r.src0 r.src1)
  | 0x4A => .ok (.xor r.mods r.dst r.src0 r.src1)
  | 0x4B => .ok (.not r.mods r.dst r.src0)
  | 0x4C => .ok (.shl r.mods r.dst r.src0 r.src1)
  | 0x4D => .ok (.ishr r.mods r.dst r.src0 r.src1)
  | 0x4E => .ok (.ushr r.mods r.dst r.src0 r.src1)
  | 0x50 => .ok (.f2i r.mods r.dst r.src0)
  | 0x51 => .ok (.f2u r.mods r.dst r.src0)
  | 0x52 => .ok (.i2f r.mods r.dst r.src0)
  | 0x53 => .ok (.u2f r.mods r.dst r.src0)
  | 0x58 => .ok (.dp2 r.mods r.dst r.src0 r.src1)
  | 0x59 => .ok (.dp3 r.mods r.dst r.src0 r.src1)
  | 0x5A => .ok (.dp4 r.mods r.dst r.src0 r.src1)
  | 0x5B => .ok (.dph r.mods r.dst r.src0 r.src1)
  | 0x5C => .ok (.xpd r.mods r.dst r.src0 r.src1)
  | 0x60 => .ok (.lit r.mods r.dst r.src0)
  | 0x61 => .ok (.dst r.mods r.dst r.src0 r.src1)
  | 0x62 => .ok (.scs r.mods r.dst r.src0)
  | 0x63 => .ok (.log r.mods r.dst r.src0)
  | 0x64 => .ok (.exp r.mods r.dst r.src0)
  | 0x68 => .ok (.tex r.mods r.texSel r.dst r.src0)
  | 0x69 => .ok (.txb r.mods r.texSel r.dst r.src0)
  | 0x6A => .ok (.txl r.mods r.texSel r.dst r.src0)
  | 0x6B => .ok (.txp r.mods r.texSel r.dst r.src0)
  | 0x6C => .ok (.txd r.mods r.texSel r.dst r.src0 r.src1 r.src2)
  | 0x70 => .ok (.kil r.hdrReserved r.src0)
  | 0x71 => .ok (.kilp r.hdrReserved r.ccPredBit)
  | 0x78 => .ok (.if_ r.hdrReserved r.src0)
  | 0x79 => .ok (.else_ r.hdrReserved)
  | 0x7A => .ok (.endif r.hdrReserved)
  | 0x7B => .ok (.bgnloop r.hdrReserved)
  | 0x7C => .ok (.endloop r.hdrReserved r.w1)
  | 0x7D => .ok (.brk r.hdrReserved)
  | 0x7E => .ok (.cont r.hdrReserved)
  | 0x7F => .ok (.cal r.hdrReserved r.w1)
  | 0x80 => .ok (.ret r.hdrReserved)
  | 0x81 => .ok (.end_ r.hdrReserved)
  | 0x82 => .ok (.bgnsub r.hdrReserved)
  | 0x83 => .ok (.endsub r.hdrReserved)
  | _ => .error (.unknownOpcode r.opcode)

/-! ### The encoder -/

/-- Operand word A (R83). -/
def encodeA (file : RegFile) (index : BitVec 16) (ind : Option Channel) (dim : Bool)
    (reserved : BitVec 8) : Word :=
  reserved ++ index ++ (ind.getD .x).toBits ++ BitVec.ofBool dim ++ BitVec.ofBool ind.isSome
    ++ file.toBits

/-- Source operand word B (R84). -/
def encodeSrcB (o : Src) : Word :=
  let dim := o.dim.getD { index := 0, ind := none }
  dim.index ++ o.reservedB ++ (dim.ind.getD .x).toBits ++ BitVec.ofBool dim.ind.isSome
    ++ BitVec.ofBool o.complement ++ o.sign.toBits ++ o.swz.w.toBits ++ o.swz.z.toBits
    ++ o.swz.y.toBits ++ o.swz.x.toBits

/-- Word A of a source operand. -/
def encodeSrcA (o : Src) : Word := encodeA o.file o.index o.ind o.dim.isSome o.reservedA

/-- Word A of the destination operand. -/
def encodeDstA (o : Dst) : Word := encodeA o.file o.index o.ind o.dim o.reservedA

/-- Destination operand word B (R85). -/
def encodeDstB (o : Dst) : Word := o.reservedB ++ o.writeMask

/-- No texture selection: the fields of an instruction that ignores them (R103). -/
def noTex : TexSel := { target := .none, sampler := 0 }

/-- HDR of an instruction with a destination (R81). -/
def encodeHdr (op : BitVec 8) (t : TexSel) (m : Mods) : Word :=
  let p := m.ccPred.getD { test := .gt, swz := Chans.splat .x }
  m.reserved ++ t.sampler ++ t.target.toBits ++ p.swz.w.toBits ++ p.swz.z.toBits
    ++ p.swz.y.toBits ++ p.swz.x.toBits ++ p.test.toBits ++ BitVec.ofBool m.ccPred.isSome
    ++ BitVec.ofBool m.ccUpdate ++ m.sat.toBits ++ op

/-- HDR of an instruction without a destination (R81); only KILP uses CC_PRED. -/
def encodeHdrPlain (op : BitVec 8) (h : HdrReserved) (ccPred : Bool) : Word :=
  h ++ 0#18 ++ BitVec.ofBool ccPred ++ 0#3 ++ op

/-- The record of an instruction without operands; ignored words are 0 (R93). -/
def encodeFlow (op : BitVec 8) (h : HdrReserved) (ccPred : Bool) (label : Word) : Record :=
  ⟨encodeHdrPlain op h ccPred, label, 0, 0, 0, 0, 0, 0, 0, 0⟩

/-- The record of an instruction with one source and no destination. -/
def encodeSrcOnly (op : BitVec 8) (h : HdrReserved) (a : Src) : Record :=
  ⟨encodeHdrPlain op h false, 0, 0, 0, encodeSrcA a, encodeSrcB a, 0, 0, 0, 0⟩

/-- The record of an instruction with a destination and one source. -/
def encodeAlu1 (op : BitVec 8) (t : TexSel) (m : Mods) (d : Dst) (a : Src) : Record :=
  ⟨encodeHdr op t m, 0, encodeDstA d, encodeDstB d, encodeSrcA a, encodeSrcB a, 0, 0, 0, 0⟩

/-- The record of an instruction with a destination and two sources. -/
def encodeAlu2 (op : BitVec 8) (t : TexSel) (m : Mods) (d : Dst) (a b : Src) : Record :=
  ⟨encodeHdr op t m, 0, encodeDstA d, encodeDstB d, encodeSrcA a, encodeSrcB a,
    encodeSrcA b, encodeSrcB b, 0, 0⟩

/-- The record of an instruction with a destination and three sources. -/
def encodeAlu3 (op : BitVec 8) (t : TexSel) (m : Mods) (d : Dst) (a b c : Src) : Record :=
  ⟨encodeHdr op t m, 0, encodeDstA d, encodeDstB d, encodeSrcA a, encodeSrcB a,
    encodeSrcA b, encodeSrcB b, encodeSrcA c, encodeSrcB c⟩

/-- The record of an instruction (R80, R100), with 0 in every ignored field (R93). -/
def encode : Instr → Record
  | .nop h => encodeFlow 0x00 h false 0
  | .mov m d a => encodeAlu1 0x01 noTex m d a
  | .add m d a b => encodeAlu2 0x10 noTex m d a b
  | .sub m d a b => encodeAlu2 0x11 noTex m d a b
  | .mul m d a b => encodeAlu2 0x12 noTex m d a b
  | .div m d a b => encodeAlu2 0x13 noTex m d a b
  | .neg m d a => encodeAlu1 0x14 noTex m d a
  | .rcp m d a => encodeAlu1 0x15 noTex m d a
  | .rsq m d a => encodeAlu1 0x16 noTex m d a
  | .pow m d a b => encodeAlu2 0x17 noTex m d a b
  | .ex2 m d a => encodeAlu1 0x18 noTex m d a
  | .lg2 m d a => encodeAlu1 0x19 noTex m d a
  | .mad m d a b c => encodeAlu3 0x1A noTex m d a b c
  | .lrp m d a b c => encodeAlu3 0x1B noTex m d a b c
  | .min m d a b => encodeAlu2 0x1C noTex m d a b
  | .max m d a b => encodeAlu2 0x1D noTex m d a b
  | .flr m d a => encodeAlu1 0x20 noTex m d a
  | .ceil m d a => encodeAlu1 0x21 noTex m d a
  | .round m d a => encodeAlu1 0x22 noTex m d a
  | .trunc m d a => encodeAlu1 0x23 noTex m d a
  | .frc m d a => encodeAlu1 0x24 noTex m d a
  | .slt m d a b => encodeAlu2 0x28 noTex m d a b
  | .sle m d a b => encodeAlu2 0x29 noTex m d a b
  | .sge m d a b => encodeAlu2 0x2A noTex m d a b
  | .seq m d a b => encodeAlu2 0x2B noTex m d a b
  | .sne m d a b => encodeAlu2 0x2C noTex m d a b
  | .cmp m d a b c => encodeAlu3 0x2E noTex m d a b c
  | .movc m d a b c => encodeAlu3 0x2F noTex m d a b c
  | .iadd m d a b => encodeAlu2 0x30 noTex m d a b
  | .isub m d a b => encodeAlu2 0x31 noTex m d a b
  | .imul m d a b => encodeAlu2 0x32 noTex m d a b
  | .idiv m d a b => encodeAlu2 0x33 noTex m d a b
  | .udiv m d a b => encodeAlu2 0x34 noTex m d a b
  | .imod m d a b => encodeAlu2 0x35 noTex m d a b
  | .umod m d a b => encodeAlu2 0x36 noTex m d a b
  | .imin m d a b => encodeAlu2 0x37 noTex m d a b
  | .imax m d a b => encodeAlu2 0x38 noTex m d a b
  | .umin m d a b => encodeAlu2 0x39 noTex m d a b
  | .umax m d a b => encodeAlu2 0x3A noTex m d a b
  | .islt m d a b => encodeAlu2 0x40 noTex m d a b
  | .isle m d a b => encodeAlu2 0x41 noTex m d a b
  | .isge m d a b => encodeAlu2 0x42 noTex m d a b
  | .uslt m d a b => encodeAlu2 0x43 noTex m d a b
  | .usle m d a b => encodeAlu2 0x44 noTex m d a b
  | .usge m d a b => encodeAlu2 0x45 noTex m d a b
  | .useq m d a b => encodeAlu2 0x46 noTex m d a b
  | .usne m d a b => encodeAlu2 0x47 noTex m d a b
  | .and m d a b => encodeAlu2 0x48 noTex m d a b
  | .or m d a b => encodeAlu2 0x49 noTex m d a b
  | .xor m d a b => encodeAlu2 0x4A noTex m d a b
  | .not m d a => encodeAlu1 0x4B noTex m d a
  | .shl m d a b => encodeAlu2 0x4C noTex m d a b
  | .ishr m d a b => encodeAlu2 0x4D noTex m d a b
  | .ushr m d a b => encodeAlu2 0x4E noTex m d a b
  | .f2i m d a => encodeAlu1 0x50 noTex m d a
  | .f2u m d a => encodeAlu1 0x51 noTex m d a
  | .i2f m d a => encodeAlu1 0x52 noTex m d a
  | .u2f m d a => encodeAlu1 0x53 noTex m d a
  | .dp2 m d a b => encodeAlu2 0x58 noTex m d a b
  | .dp3 m d a b => encodeAlu2 0x59 noTex m d a b
  | .dp4 m d a b => encodeAlu2 0x5A noTex m d a b
  | .dph m d a b => encodeAlu2 0x5B noTex m d a b
  | .xpd m d a b => encodeAlu2 0x5C noTex m d a b
  | .lit m d a => encodeAlu1 0x60 noTex m d a
  | .dst m d a b => encodeAlu2 0x61 noTex m d a b
  | .scs m d a => encodeAlu1 0x62 noTex m d a
  | .log m d a => encodeAlu1 0x63 noTex m d a
  | .exp m d a => encodeAlu1 0x64 noTex m d a
  | .tex m t d a => encodeAlu1 0x68 t m d a
  | .txb m t d a => encodeAlu1 0x69 t m d a
  | .txl m t d a => encodeAlu1 0x6A t m d a
  | .txp m t d a => encodeAlu1 0x6B t m d a
  | .txd m t d a b c => encodeAlu3 0x6C t m d a b c
  | .kil h a => encodeSrcOnly 0x70 h a
  | .kilp h p => encodeFlow 0x71 h p 0
  | .if_ h a => encodeSrcOnly 0x78 h a
  | .else_ h => encodeFlow 0x79 h false 0
  | .endif h => encodeFlow 0x7A h false 0
  | .bgnloop h => encodeFlow 0x7B h false 0
  | .endloop h label => encodeFlow 0x7C h false label
  | .brk h => encodeFlow 0x7D h false 0
  | .cont h => encodeFlow 0x7E h false 0
  | .cal h label => encodeFlow 0x7F h false label
  | .ret h => encodeFlow 0x80 h false 0
  | .end_ h => encodeFlow 0x81 h false 0
  | .bgnsub h => encodeFlow 0x82 h false 0
  | .endsub h => encodeFlow 0x83 h false 0

/-! ### Declarations -/

/-- INTERP codes (R331). -/
def Interp.ofBits (b : BitVec 2) : Interp :=
  match b.toNat with
  | 0 => .constant
  | 1 => .linear
  | 2 => .perspective
  | _ => .illegal

/-- The declaration a pair of words stands for (R331). -/
def decodeDecl (r : DeclRecord) : Decl where
  file := RegFile.ofBits (r.dw0.extractLsb' 0 4)
  mask := r.dw0.extractLsb' 4 4
  interp := Interp.ofBits (r.dw0.extractLsb' 8 2)
  reserved := r.dw0.extractLsb' 10 22
  first := r.dw1.extractLsb' 0 16
  last := r.dw1.extractLsb' 16 16

/-- The code of an interpolation mode (R331). -/
def Interp.toBits : Interp → BitVec 2
  | .constant => 0
  | .linear => 1
  | .perspective => 2
  | .illegal => 3

/-- The pair of words of a declaration (R331). -/
def encodeDecl (d : Decl) : DeclRecord where
  dw0 := d.reserved ++ d.interp.toBits ++ d.mask ++ d.file.toBits
  dw1 := d.last ++ d.first

/-! ### Bytes -/

/-- The first word of a little-endian byte string, and the bytes after it (R63). -/
def takeWord : List (BitVec 8) → Option (Word × List (BitVec 8))
  | b0 :: b1 :: b2 :: b3 :: rest => some (b3 ++ b2 ++ b1 ++ b0, rest)
  | _ => none

/-- The record at the front of a serialised program, and the bytes after it (R106). -/
def takeRecord (bs : List (BitVec 8)) : Option (Record × List (BitVec 8)) := do
  let (w0, bs) ← takeWord bs
  let (w1, bs) ← takeWord bs
  let (w2, bs) ← takeWord bs
  let (w3, bs) ← takeWord bs
  let (w4, bs) ← takeWord bs
  let (w5, bs) ← takeWord bs
  let (w6, bs) ← takeWord bs
  let (w7, bs) ← takeWord bs
  let (w8, bs) ← takeWord bs
  let (w9, bs) ← takeWord bs
  pure (⟨w0, w1, w2, w3, w4, w5, w6, w7, w8, w9⟩, bs)

/-- The instruction at the front of a serialised program, and the bytes after it. -/
def decodeBytes (bs : List (BitVec 8)) : Except DecodeReject (Instr × List (BitVec 8)) :=
  match takeRecord bs with
  | none => .error .tooFewBytes
  | some (r, rest) =>
    match decode r with
    | .ok i => .ok (i, rest)
    | .error e => .error e

/-- The four bytes of a word, least significant first (R63). -/
def wordBytes (w : Word) : List (BitVec 8) :=
  [w.extractLsb' 0 8, w.extractLsb' 8 8, w.extractLsb' 16 8, w.extractLsb' 24 8]

/-- The forty bytes of a record, W0 first (R106). -/
def Record.bytes (r : Record) : List (BitVec 8) :=
  wordBytes r.w0 ++ wordBytes r.w1 ++ wordBytes r.w2 ++ wordBytes r.w3 ++ wordBytes r.w4
    ++ wordBytes r.w5 ++ wordBytes r.w6 ++ wordBytes r.w7 ++ wordBytes r.w8 ++ wordBytes r.w9

/-- Word k of a record given as one number whose bits 31 to 0 are W0 (spec/opcode_table.json's
numbering). -/
def numberWord (n k : Nat) : Word := BitVec.ofNat 32 (n >>> (32 * k))

/-- The record whose lowest `nbits` bits are those of `w` and whose other bits are 0. -/
def recordOfNumber (nbits w : Nat) : Record :=
  let n := w % 2 ^ nbits
  ⟨numberWord n 0, numberWord n 1, numberWord n 2, numberWord n 3, numberWord n 4,
    numberWord n 5, numberWord n 6, numberWord n 7, numberWord n 8, numberWord n 9⟩

/-- The instruction the decoder reads from the bytes of an instruction given as a number. -/
def decodeTableWord (nbits w : Nat) : Option Instr :=
  match decodeBytes (recordOfNumber nbits w).bytes with
  | .ok (i, _) => some i
  | .error _ => none

end Sys2Proof
end

