-- ==== Sys2Proof/Machine/Texture.lean ====
section
/-! DEFINITION. Texture requests and lane discard: TEX, TXB, TXL, TXP, TXD, KIL, KILP
(spec/45_texture_kill.md R310 to R321). -/

namespace Sys2Proof.Machine

/-! ### The Sampler port -/

/-- The coordinates (s, t, r) a target uses, from channels X, Y, Z; an unused one is +0.0 (R310). -/
def texCoords (t : TexTarget) (v : Chans Word) : Word × Word × Word :=
  match t with
  | .oneD => (v.x, K_ZERO, K_ZERO)
  | .twoD | .rect => (v.x, v.y, K_ZERO)
  | .threeD | .cube => (v.x, v.y, v.z)
  | .none | .illegal _ => (K_ZERO, K_ZERO, K_ZERO)

/-- The request of R311 from the four channels in each lane, the bias or level of detail, and the
control flag. -/
def texRequest (t : TexSel) (v : Lane → Chans Word) (lod : Lane → Word) (explicitLod : Bool) :
    SamplerReq where
  unit := t.sampler
  target := t.target.toBits
  s := Quad.ofFn fun l => (texCoords t.target (v l)).1
  t := Quad.ofFn fun l => (texCoords t.target (v l)).2.1
  r := Quad.ofFn fun l => (texCoords t.target (v l)).2.2
  lodbias := Quad.ofFn lod
  explicitLod := explicitLod

/-- Issue one request on the port and get its answer (R312). -/
def State.issue (s : State) (req : SamplerReq) : State :=
  { s with
    requests := s.requests ++ [req], samplerTick := s.samplerTick + 1, samplerPending := none }

/-- Issue one request that is never answered: the request stands on the port and nothing else changes,
so the Run is stuck in the instruction (R388, U12; log 13). -/
def State.await (s : State) (req : SamplerReq) : State := { s with samplerPending := some req }

/-- The response to the request issued next: a free value (R311, U11). -/
def State.response (s : State) (req : SamplerReq) : Results :=
  fun c l => some (Config.sampler s.samplerTick req c l)

/-- The texture frame (R310): one request whatever the masks, then the stores of the response, unless
the Sampler never answers this request (R388). -/
def texFrame {α : Type} (s : State) (legal : Bool) (m : Mods) (d : Dst) (srcs : Option α)
    (req : α → SamplerReq) : Out :=
  instrFrame s fun i =>
    if legal then
      match srcs, s.resolveDst d with
      | some ra, some rd =>
        if s.samplerSilentAt = some s.samplerTick then .ok (s.await (req ra))
        else .ok (((s.issue (req ra)).commit m d rd (s.response (req ra))).goto (i + 1))
      | _, _ => .error .indexOutOfBounds
    else .error .illegalEncoding

/-- Projective division of X, Y, Z by W in one lane; a zero W leaves them undivided (R316). -/
def projectLane (v : Chans Word) : Chans Word :=
  if feq v.w K_ZERO then v
  else { x := fdiv v.x v.w, y := fdiv v.y v.w, z := fdiv v.z v.w, w := v.w }

/-! ### Texture instructions -/

/-- TEX (R313): zero bias. -/
def execTex (m : Mods) (t : TexSel) (d : Dst) (a : Src) (s : State) : Out :=
  texFrame s (legal1 m d a && texLegal s t) m d (s.resolveSrc a) fun ra =>
    texRequest t (s.fetchLane a ra) (fun _ => K_ZERO) false

/-- TXB (R314): the bias is channel W. -/
def execTxb (m : Mods) (t : TexSel) (d : Dst) (a : Src) (s : State) : Out :=
  texFrame s (legal1 m d a && texLegal s t) m d (s.resolveSrc a) fun ra =>
    texRequest t (s.fetchLane a ra) (fun l => (s.fetchLane a ra l).w) false

/-- TXL (R315): the explicit level of detail is channel W. -/
def execTxl (m : Mods) (t : TexSel) (d : Dst) (a : Src) (s : State) : Out :=
  texFrame s (legal1 m d a && texLegal s t) m d (s.resolveSrc a) fun ra =>
    texRequest t (s.fetchLane a ra) (fun l => (s.fetchLane a ra l).w) true

/-- TXP (R316): coordinates divided by W, zero bias. -/
def execTxp (m : Mods) (t : TexSel) (d : Dst) (a : Src) (s : State) : Out :=
  texFrame s (legal1 m d a && texLegal s t) m d (s.resolveSrc a) fun ra =>
    texRequest t (fun l => projectLane (s.fetchLane a ra l)) (fun _ => K_ZERO) false

/-- TXD (R317): the derivatives in `b` and `c` are validated and not sent. -/
def execTxd (m : Mods) (t : TexSel) (d : Dst) (a b c : Src) (s : State) : Out :=
  texFrame s (legal3 m d a b c && texLegal s t) m d (s.resolveSrc3 a b c) fun r =>
    texRequest t (s.fetchLane a r.1) (fun _ => K_ZERO) false

/-! ### Discard -/

/-- Does a lane with these four components ask to be killed? Any of them is less than zero (R320). -/
def killLane (v : Chans Word) : Bool :=
  flt v.x K_ZERO || flt v.y K_ZERO || flt v.z K_ZERO || flt v.w K_ZERO

/-- KIL (R320). -/
def execKil (h : HdrReserved) (a : Src) (s : State) : Out :=
  instrFrame s fun i =>
    if hdrLegal h && srcLegal a then
      match s.resolveSrc a with
      | some ra =>
        let k := LaneMask.ofLanes fun l => killLane (s.fetchLane a ra l)
        .ok ({ s with kill := s.kill ||| (k &&& s.execMask) }.goto (i + 1))
      | none => .error .indexOutOfBounds
    else .error .illegalEncoding

/-- KILP (R321): with CC_PRED = 1 it kills nothing and CC is not read. -/
def execKilp (h : HdrReserved) (ccPred : Bool) (s : State) : Out :=
  instrFrame s fun i =>
    if hdrLegal h then
      let k : LaneMask := if ccPred then 0 else s.execMask
      .ok ({ s with kill := s.kill ||| k }.goto (i + 1))
    else .error .illegalEncoding

end Sys2Proof.Machine
end

