-- ==== Sys2Proof/Machine/Vector.lean ====
section
/-! DEFINITION. Dot products, cross product and the composite opcodes: the instructions whose destination
channel is computed from several source channels of the same lane (spec/44_vector_composite.md R290
to R300). -/

namespace Sys2Proof.Machine

/-- The same scalar in every channel (R291). -/
def scalar (w : Word) : Channel → Option Word := fun _ => some w

/-- x*x' + y*y', each step rounded (R291). -/
def dot2 (a b : Chans Word) : Word := fadd (fmul a.x b.x) (fmul a.y b.y)

/-- (x*x' + y*y') + z*z' (R292). -/
def dot3 (a b : Chans Word) : Word := fadd (dot2 a b) (fmul a.z b.z)

/-- ((x*x' + y*y') + z*z') + w*w' (R293). -/
def dot4 (a b : Chans Word) : Word := fadd (dot3 a b) (fmul a.w b.w)

/-- dot3 plus the W of the second operand (R294). -/
def dotH (a b : Chans Word) : Word := fadd (dot3 a b) b.w

/-- The cross product, W forced to 1.0 (R295). -/
def crossLane (a b : Chans Word) : Chans Word where
  x := fsub (fmul a.y b.z) (fmul a.z b.y)
  y := fsub (fmul a.z b.x) (fmul a.x b.z)
  z := fsub (fmul a.x b.y) (fmul a.y b.x)
  w := K_ONE

/-- Lighting coefficients (R296). -/
def litLane (a : Chans Word) : Chans Word where
  x := K_ONE
  y := fmax2 a.x K_ZERO
  z := if fgt a.x K_ZERO then
      Config.fpow (fmax2 a.y K_ZERO) (fmin2 (fmax2 a.w K_M128) K_128)
    else K_ZERO
  w := K_ONE

/-- Distance vector (R297). -/
def dstLane (a b : Chans Word) : Chans Word where
  x := K_ONE
  y := fmul a.y b.y
  z := a.z
  w := b.w

/-- Cosine and sine of X (R298). -/
def scsLane (a : Chans Word) : Chans Word where
  x := Config.fcos a.x
  y := Config.fsin a.x
  z := K_ZERO
  w := K_ONE

/-- Pieces of the logarithm of |X|; channel Y is a division (R299). -/
def logLane (a : Chans Word) (c : Channel) : Option Word :=
  let v := a.x &&& K_NSIGN
  let lg := Config.flog2 v
  let fl := ffloor lg
  match c with
  | .x => some fl
  | .y => divLane v (Config.fexp2 fl)
  | .z => some lg
  | .w => some K_ONE

/-- Pieces of the exponential of X (R300). -/
def expLane (a : Chans Word) : Chans Word :=
  let fl := ffloor a.x
  { x := Config.fexp2 fl, y := fsub a.x fl, z := Config.fexp2 a.x, w := K_ONE }

/-- DP2 (R291): the scalar in every channel of the write mask. -/
def execDp2 (m : Mods) (d : Dst) (a b : Src) (s : State) : Out :=
  alu2 m d a b (fun x y => scalar (dot2 x y)) s

/-- DP3 (R292): the scalar in every channel of the write mask. -/
def execDp3 (m : Mods) (d : Dst) (a b : Src) (s : State) : Out :=
  alu2 m d a b (fun x y => scalar (dot3 x y)) s

/-- DP4 (R293): the scalar in every channel of the write mask. -/
def execDp4 (m : Mods) (d : Dst) (a b : Src) (s : State) : Out :=
  alu2 m d a b (fun x y => scalar (dot4 x y)) s

/-- DPH (R294): the scalar in every channel of the write mask. -/
def execDph (m : Mods) (d : Dst) (a b : Src) (s : State) : Out :=
  alu2 m d a b (fun x y => scalar (dotH x y)) s

/-- XPD (R295): cross product. -/
def execXpd (m : Mods) (d : Dst) (a b : Src) (s : State) : Out :=
  alu2 m d a b (fun x y ch => some ((crossLane x y).get ch)) s

/-- LIT (R296): lighting coefficients. -/
def execLit (m : Mods) (d : Dst) (a : Src) (s : State) : Out :=
  alu1 m d a (fun x ch => some ((litLane x).get ch)) s

/-- DST (R297): distance vector. -/
def execDst (m : Mods) (d : Dst) (a b : Src) (s : State) : Out :=
  alu2 m d a b (fun x y ch => some ((dstLane x y).get ch)) s

/-- SCS (R298): sine and cosine. -/
def execScs (m : Mods) (d : Dst) (a : Src) (s : State) : Out :=
  alu1 m d a (fun x ch => some ((scsLane x).get ch)) s

/-- LOG (R299): logarithm pieces. -/
def execLog (m : Mods) (d : Dst) (a : Src) (s : State) : Out :=
  alu1 m d a logLane s

/-- EXP (R300): exponential pieces. -/
def execExp (m : Mods) (d : Dst) (a : Src) (s : State) : Out :=
  alu1 m d a (fun x ch => some ((expLane x).get ch)) s

end Sys2Proof.Machine
end

