-- ==== Sys2Proof/Machine/Dispatch.lean ====
section
/-! DEFINITION. One arm per instruction of the opcode map (spec/30_encoding.md R100). -/

namespace Sys2Proof.Machine

def exec (i : Instr) (s : State) : Host.Outcome State Fault Refusal :=
  match i with
  | .nop h => Sys2Proof.Machine.execNop h s
  | .mov m d a => Sys2Proof.Machine.execMov m d a s
  | .add m d a b => Sys2Proof.Machine.execAdd m d a b s
  | .sub m d a b => Sys2Proof.Machine.execSub m d a b s
  | .mul m d a b => Sys2Proof.Machine.execMul m d a b s
  | .div m d a b => Sys2Proof.Machine.execDiv m d a b s
  | .neg m d a => Sys2Proof.Machine.execNeg m d a s
  | .rcp m d a => Sys2Proof.Machine.execRcp m d a s
  | .rsq m d a => Sys2Proof.Machine.execRsq m d a s
  | .pow m d a b => Sys2Proof.Machine.execPow m d a b s
  | .ex2 m d a => Sys2Proof.Machine.execEx2 m d a s
  | .lg2 m d a => Sys2Proof.Machine.execLg2 m d a s
  | .mad m d a b c => Sys2Proof.Machine.execMad m d a b c s
  | .lrp m d a b c => Sys2Proof.Machine.execLrp m d a b c s
  | .min m d a b => Sys2Proof.Machine.execMin m d a b s
  | .max m d a b => Sys2Proof.Machine.execMax m d a b s
  | .flr m d a => Sys2Proof.Machine.execFlr m d a s
  | .ceil m d a => Sys2Proof.Machine.execCeil m d a s
  | .round m d a => Sys2Proof.Machine.execRound m d a s
  | .trunc m d a => Sys2Proof.Machine.execTrunc m d a s
  | .frc m d a => Sys2Proof.Machine.execFrc m d a s
  | .slt m d a b => Sys2Proof.Machine.execSlt m d a b s
  | .sle m d a b => Sys2Proof.Machine.execSle m d a b s
  | .sge m d a b => Sys2Proof.Machine.execSge m d a b s
  | .seq m d a b => Sys2Proof.Machine.execSeq m d a b s
  | .sne m d a b => Sys2Proof.Machine.execSne m d a b s
  | .cmp m d a b c => Sys2Proof.Machine.execCmp m d a b c s
  | .movc m d a b c => Sys2Proof.Machine.execMovc m d a b c s
  | .iadd m d a b => Sys2Proof.Machine.execIadd m d a b s
  | .isub m d a b => Sys2Proof.Machine.execIsub m d a b s
  | .imul m d a b => Sys2Proof.Machine.execImul m d a b s
  | .idiv m d a b => Sys2Proof.Machine.execIdiv m d a b s
  | .udiv m d a b => Sys2Proof.Machine.execUdiv m d a b s
  | .imod m d a b => Sys2Proof.Machine.execImod m d a b s
  | .umod m d a b => Sys2Proof.Machine.execUmod m d a b s
  | .imin m d a b => Sys2Proof.Machine.execImin m d a b s
  | .imax m d a b => Sys2Proof.Machine.execImax m d a b s
  | .umin m d a b => Sys2Proof.Machine.execUmin m d a b s
  | .umax m d a b => Sys2Proof.Machine.execUmax m d a b s
  | .islt m d a b => Sys2Proof.Machine.execIslt m d a b s
  | .isle m d a b => Sys2Proof.Machine.execIsle m d a b s
  | .isge m d a b => Sys2Proof.Machine.execIsge m d a b s
  | .uslt m d a b => Sys2Proof.Machine.execUslt m d a b s
  | .usle m d a b => Sys2Proof.Machine.execUsle m d a b s
  | .usge m d a b => Sys2Proof.Machine.execUsge m d a b s
  | .useq m d a b => Sys2Proof.Machine.execUseq m d a b s
  | .usne m d a b => Sys2Proof.Machine.execUsne m d a b s
  | .and m d a b => Sys2Proof.Machine.execAnd m d a b s
  | .or m d a b => Sys2Proof.Machine.execOr m d a b s
  | .xor m d a b => Sys2Proof.Machine.execXor m d a b s
  | .not m d a => Sys2Proof.Machine.execNot m d a s
  | .shl m d a b => Sys2Proof.Machine.execShl m d a b s
  | .ishr m d a b => Sys2Proof.Machine.execIshr m d a b s
  | .ushr m d a b => Sys2Proof.Machine.execUshr m d a b s
  | .f2i m d a => Sys2Proof.Machine.execF2i m d a s
  | .f2u m d a => Sys2Proof.Machine.execF2u m d a s
  | .i2f m d a => Sys2Proof.Machine.execI2f m d a s
  | .u2f m d a => Sys2Proof.Machine.execU2f m d a s
  | .dp2 m d a b => Sys2Proof.Machine.execDp2 m d a b s
  | .dp3 m d a b => Sys2Proof.Machine.execDp3 m d a b s
  | .dp4 m d a b => Sys2Proof.Machine.execDp4 m d a b s
  | .dph m d a b => Sys2Proof.Machine.execDph m d a b s
  | .xpd m d a b => Sys2Proof.Machine.execXpd m d a b s
  | .lit m d a => Sys2Proof.Machine.execLit m d a s
  | .dst m d a b => Sys2Proof.Machine.execDst m d a b s
  | .scs m d a => Sys2Proof.Machine.execScs m d a s
  | .log m d a => Sys2Proof.Machine.execLog m d a s
  | .exp m d a => Sys2Proof.Machine.execExp m d a s
  | .tex m t d a => Sys2Proof.Machine.execTex m t d a s
  | .txb m t d a => Sys2Proof.Machine.execTxb m t d a s
  | .txl m t d a => Sys2Proof.Machine.execTxl m t d a s
  | .txp m t d a => Sys2Proof.Machine.execTxp m t d a s
  | .txd m t d a b c => Sys2Proof.Machine.execTxd m t d a b c s
  | .kil h a => Sys2Proof.Machine.execKil h a s
  | .kilp h p => Sys2Proof.Machine.execKilp h p s
  | .if_ h a => Sys2Proof.Machine.execIf h a s
  | .else_ h => Sys2Proof.Machine.execElse h s
  | .endif h => Sys2Proof.Machine.execEndif h s
  | .bgnloop h => Sys2Proof.Machine.execBgnloop h s
  | .endloop h label => Sys2Proof.Machine.execEndloop h label s
  | .brk h => Sys2Proof.Machine.execBrk h s
  | .cont h => Sys2Proof.Machine.execCont h s
  | .cal h label => Sys2Proof.Machine.execCal h label s
  | .ret h => Sys2Proof.Machine.execRet h s
  | .end_ h => Sys2Proof.Machine.execEnd h s
  | .bgnsub h => Sys2Proof.Machine.execBgnsub h s
  | .endsub h => Sys2Proof.Machine.execEndsub h s

end Sys2Proof.Machine
end

