-- ==== Sys2Proof/Machine/HostPort.lean ====
section
/-! DEFINITION. The host port: Bind, Run with its reset and the interpolation set-up, and the register,
constant, condition-code, quad and coefficient accesses (spec/46_run_interp.md R330 to R347,
spec/70_reset_and_hazards.md R381, R385). A host operation answers the state after it, or is refused
and changes nothing. -/

namespace Sys2Proof.Machine

/-- Every host operation but ReadStatus is refused while Status = Running (R346, R385). -/
def whenNotRunning {α : Type} (s : State) (r : Host.Outcome α Fault Refusal) :
    Host.Outcome α Fault Refusal :=
  if s.status = .running then .refused .hostWhileRunning else r

/-! ### Bind -/

/-- The fatal error of a declaration at Bind, if it has one: its encoding is checked first, then the
range of an Input declaration (R330 step 3). -/
def declFault (cfg : Cfg) (r : DeclRecord) : Option FatalCode :=
  let d := decodeDecl r
  let badFile : Bool := match d.file with
    | .unassigned _ => true
    | .null | .temp | .input | .output | .addr | .pred | .imm | .const => false
  if d.reserved ≠ 0 ∨ d.interp = .illegal ∨ badFile then some .illegalEncoding
  else if d.file = .input ∧ (d.last.toNat < d.first.toNat ∨ cfg.numInput ≤ d.last.toNat) then
    some .indexOutOfBounds
  else none

/-- The fatal error of a program at Bind (R330 steps 2 and 3), declarations in their order (log 15). -/
def bindFault (cfg : Cfg) (p : Prog) : Option FatalCode :=
  if cfg.maxImm < p.imms.length then some .immPoolOverflow
  else p.decls.findSome? (declFault cfg)

/-- Bind (R330): BindError changes nothing, a fatal error is recorded in Status and keeps the program,
success replaces the program as a whole. -/
def hostBind (p : Prog) (s : State) : Out :=
  whenNotRunning s <|
    if s.cfg.maxInstr < p.instrs.length ∨ s.cfg.maxDecl < p.decls.length then .refused .bindError
    else
      match bindFault s.cfg p with
      | some code => .next { s with status := .faulted code .bind }
      | none => .next { s with prog := p, pc := .halted, status := .idle }

/-! ### Interpolation set-up (R336 to R339) -/

/-- lin[l] of R338: the plane at the pixel of lane l, each step rounded. -/
def State.linear (s : State) (i : Nat) (c : Channel) (l : Lane) : Word :=
  let k := vectorCellNo i c
  let dx := s.dadx.read k
  let dy := s.dady.read k
  let base := fadd (fadd (s.a0.read k) (fmul dx s.quadX)) (fmul dy s.quadY)
  match l with
  | ⟨0, _⟩ => base
  | ⟨1, _⟩ => fadd base dx
  | ⟨2, _⟩ => fadd base dy
  | ⟨_ + 3, _⟩ => fadd (fadd base dx) dy

/-- The interpolated value of IN[i].c[l] (R337 to R339); an illegal mode is refused at Bind. -/
def State.interp (s : State) (mode : Interp) (i : Nat) (c : Channel) (l : Lane) : Word :=
  match mode with
  | .constant | .illegal => s.a0.read (vectorCellNo i c)
  | .linear => s.linear i c l
  | .perspective => fdiv (s.linear i c l) (s.quadW.get l)

/-- Set up the declared channels of one Input register (R336). -/
def setupRegister (d : Decl) (s : State) (i : Nat) : State :=
  Channel.all.foldl (fun s c =>
    if d.mask.getLsbD c.toNat then
      Lane.all.foldl (fun s l => s.writeReg .input i c l (s.interp d.interp i c l)) s
    else s) s

/-- Set up one declaration: only Input declarations have an effect (R331, R336). -/
def setupDecl (s : State) (r : DeclRecord) : State :=
  let d := decodeDecl r
  if d.file = .input then
    (List.range' d.first.toNat (d.last.toNat + 1 - d.first.toNat)).foldl (setupRegister d) s
  else s

/-- Interpolation set-up: only for the Fragment stage, declarations in order (R336, R340). -/
def State.interpSetup (s : State) : State :=
  if s.prog.stage = .fragment then s.prog.decls.foldl setupDecl s else s

/-! ### Run -/

/-- The Run reset: masks live, stacks empty, Kill and OutCursor zero; the request count of the Sampler
port starts again; everything else is kept (R332 step 1, R381). -/
def State.runReset (s : State) : State :=
  { s with
    condMask := 0xF, loopMask := 0xF, contMask := 0xF, funcMask := 0xF
    condStack := [], loopStack := [], contStack := [], funcStack := [], callStack := []
    kill := 0, outCursor := 0, requests := [], samplerPending := none }

/-- Run up to the step loop: the Run reset, Status Running, the interpolation set-up, and pc at the
first instruction (R332 steps 1 to 4). The step loop itself is `step`. -/
def hostRun (s : State) : Out :=
  whenNotRunning s <| .next (({ s.runReset with status := .running }.interpSetup).goto 0)

/-! ### Register and data accesses (R346) -/

/-- The files a host may read and write cell by cell. -/
def hostFile : RegFile → Bool
  | .temp | .input | .output | .addr | .pred => true
  | .null | .imm | .const | .unassigned _ => false

/-- WriteReg: one cell; an index outside the file is refused. -/
def hostWriteReg (f : RegFile) (i : Nat) (c : Channel) (l : Lane) (v : Word) (s : State) : Out :=
  whenNotRunning s <|
    if hostFile f && i < s.fileSize f then .next (s.writeReg f i c l v) else .refused .hostIndex

/-- ReadReg: one cell; an index outside the file is refused. -/
def hostReadReg (f : RegFile) (i : Nat) (c : Channel) (l : Lane) (s : State) :
    Host.Outcome Word Fault Refusal :=
  whenNotRunning s <|
    if hostFile f && i < s.fileSize f then .next (s.readReg f i c l) else .refused .hostIndex

/-- WriteConst: one constant cell, seen by all lanes. -/
def hostWriteConst (i : Nat) (c : Channel) (v : Word) (s : State) : Out :=
  whenNotRunning s <|
    if i < s.fileSize .const then .next { s with const := s.const.write (vectorCellNo i c) v }
    else .refused .hostIndex

/-- The 2-bit codes of the condition-code register (R29). -/
def CcCode.ofBits (b : BitVec 2) : CcCode :=
  match b.toNat with
  | 0 => .gt
  | 1 => .eq
  | 2 => .lt
  | _ => .un

/-- The code of a condition (R29). -/
def CcCode.toBits : CcCode → BitVec 2
  | .gt => 0
  | .eq => 1
  | .lt => 2
  | .un => 3

/-- WriteCC: one condition-code cell. -/
def hostWriteCc (c : Channel) (l : Lane) (code : BitVec 2) (s : State) : Out :=
  whenNotRunning s <|
    .next { s with cc := s.cc.set c ((s.cc.get c).set l (CcCode.ofBits code)) }

/-- ReadCC: one condition-code cell. -/
def hostReadCc (c : Channel) (l : Lane) (s : State) : Host.Outcome (BitVec 2) Fault Refusal :=
  whenNotRunning s <| .next ((s.cc.get c).get l).toBits

/-- WriteQuad (R51). -/
def hostWriteQuad (x y : Word) (w : Quad Word) (s : State) : Out :=
  whenNotRunning s <| .next { s with quadX := x, quadY := y, quadW := w }

/-- WriteCoef: A0, DADX and DADY of one Input channel; an index outside the Input file is refused
(DESIGN CHOICE, log 16). -/
def hostWriteCoef (i : Nat) (c : Channel) (a dx dy : Word) (s : State) : Out :=
  whenNotRunning s <|
    if i < s.cfg.numInput then
      .next { s with
        a0 := s.a0.write (vectorCellNo i c) a
        dadx := s.dadx.write (vectorCellNo i c) dx
        dady := s.dady.write (vectorCellNo i c) dy }
    else .refused .hostIndex

/-- ReadStatus: accepted always (R346). -/
def hostReadStatus (s : State) : Status := s.status

/-- The number of a fatal-error code (R350). -/
def FatalCode.number : FatalCode → Nat
  | .unknownOpcode => 1
  | .indexOutOfBounds => 2
  | .stackOverflow => 3
  | .immPoolOverflow => 4
  | .stackUnderflow => 5
  | .illegalEncoding => 6

end Sys2Proof.Machine
end

