-- ==== Sys2Proof/Machine/Sequencer.lean ====
section
/-! DEFINITION. The pieces of the step loop around the execution of one instruction (spec/46_run_interp.md
R332 step 6, R333 to R335), and how a record is placed where the next fetch reads it. -/

namespace Sys2Proof.Machine

/-- The Run result: the complement of the kill accumulator (R335). -/
def State.runResult (s : State) : LaneMask := ~~~s.kill

/-- Leaving the loop with pc = Halted: Status <- Done(result) (R332 step 6). -/
def State.finish (s : State) : State := { s with status := .done s.runResult }

/-- The record at the pc (R120). -/
def State.fetchRecord (s : State) (i : Nat) : Option Record := s.prog.instrs[i]?

/-- The fatal error of a record that the decoder rejects (R351). -/
def rejectCode : DecodeReject → FatalCode
  | .unknownOpcode _ | .tooFewBytes => .unknownOpcode

/-- One iteration of the step loop (R333), with `run` the meaning of an instruction. While no Run is in
progress the core holds its state (R369; log 2). -/
def stepLoop (run : Instr → State → Out) (s : State) : Out :=
  match s.status with
  | .idle | .done _ | .faulted _ _ => .next s
  | .running =>
    match s.pc with
    | .halted => .next s.finish
    | .running i =>
      match s.fetchRecord i with
      | none => .next { s with pc := .halted }
      | some r =>
        match decode r with
        | .ok ins => run ins s
        | .error e => .next (s.raiseFatal (rejectCode e) i)

/-- Put a record where the next step fetches: at the pc of a Run that has an instruction there, else
as the one instruction of a program at whose start the Run stands (log 4). -/
def State.placeRecord (s : State) (r : Record) : State :=
  let one : State :=
    { s with prog := { s.prog with instrs := [r] }, pc := .running 0, status := .running }
  match s.pc with
  | .halted => one
  | .running i =>
    if i < s.numInstr then
      { s with prog := { s.prog with instrs := s.prog.instrs.set i r }, status := .running }
    else one

end Sys2Proof.Machine
end

