-- ==== Sys2Proof/Machine/Step.lean ====
section
/-! DEFINITION. One step of the machine: one iteration of the loop of spec/46_run_interp.md R333. -/

namespace Sys2Proof.Machine

/-- One step: one iteration of the step loop (R333). -/
def step (s : State) : Host.Outcome State Fault Refusal := stepLoop exec s

/-- The state with the instruction whose low `nbits` bits are those of `w` (the others 0) stored where
`step` fetches next. It stands for the host's Bind and Run (log 4). -/
def State.withFetchWord (s : State) (nbits w : Nat) : State :=
  s.placeRecord (recordOfNumber nbits w)

end Sys2Proof.Machine
end

