-- ==== Sys2Proof/Machine/Assembly.lean ====
section
/-! DEFINITION. The assembly of spec/30_encoding.md R110 to R112: the spelling of an instruction, and the
assembler that turns lines of instructions, labels, pseudo-instructions and directives into a
program. Lines are given as data; cutting a text into them is not modelled (assumption log 22). The
machine does not depend on this file. -/

namespace Sys2Proof.Machine

/-! ### The spelling of an instruction (R110)

A field value that R102 makes illegal has no spelling; the answer is then `none`. -/

/-- The letter of a channel. -/
def channelLetter : Channel → String
  | .x => "x"
  | .y => "y"
  | .z => "z"
  | .w => "w"

/-- The name of a register file. -/
def fileText : RegFile → Option String
  | .null => some "NULL"
  | .temp => some "TEMP"
  | .input => some "IN"
  | .output => some "OUT"
  | .addr => some "ADDR"
  | .pred => some "PRED"
  | .imm => some "IMM"
  | .const => some "CONST"
  | .unassigned _ => none

/-- One index: `index`, `ADDR.c + index` or `ADDR.c - index`. -/
def indexText (index : Int) : Option Channel → String
  | none => if index < 0 then "-" ++ Nat.repr index.natAbs else Nat.repr index.natAbs
  | some c =>
    "ADDR." ++ channelLetter c ++ (if index < 0 then " - " else " + ") ++ Nat.repr index.natAbs

/-- A register with its second dimension, if any, written first. -/
def registerText (file : RegFile) (index : BitVec 16) (ind : Option Channel)
    (dim : Option DimIndex) : Option String := do
  let name ← fileText file
  let second := match dim with
    | none => ""
    | some d => "[" ++ indexText d.index.toInt d.ind ++ "]"
  if file = .null then some name
  else some (name ++ second ++ "[" ++ indexText index.toInt ind ++ "]")

/-- The destination mask: the letters of WRITEMASK in order, absent for all four. -/
def maskText (mask : BitVec 4) : String :=
  if mask = 0xF then ""
  else "." ++ String.join ((Channel.all.filter fun c => mask.getLsbD c.toNat).map channelLetter)

/-- The character of a selector. -/
def selectorText : Selector → Option String
  | .chan c => some (channelLetter c)
  | .zero => some "0"
  | .one => some "1"
  | .illegal _ => none

/-- A source swizzle: absent for the identity, one character for four equal ones. -/
def swizzleText (s : Chans Selector) : Option String := do
  let x ← selectorText s.x
  let y ← selectorText s.y
  let z ← selectorText s.z
  let w ← selectorText s.w
  if s = ⟨.chan .x, .chan .y, .chan .z, .chan .w⟩ then some ""
  else if s.x = s.y ∧ s.y = s.z ∧ s.z = s.w then some ("." ++ x)
  else some ("." ++ x ++ y ++ z ++ w)

/-- A source operand: `1-` for the complement, outermost, then the sign mode. -/
def srcText (o : Src) : Option String := do
  if !o.wellFormed then none
  else
    let body := (← registerText o.file o.index o.ind o.dim) ++ (← swizzleText o.swz)
    let signed := match o.sign with
      | .keep => body
      | .toggle => "-" ++ body
      | .clear => "|" ++ body ++ "|"
      | .set => "-|" ++ body ++ "|"
    some (if o.complement then "1-" ++ signed else signed)

/-- A destination operand. -/
def dstText (o : Dst) : Option String := do
  if !o.wellFormed then none
  else some ((← registerText o.file o.index o.ind none) ++ maskText o.writeMask)

/-- The name of a condition test. -/
def ccTestText : CcTest → String
  | .gt => "GT"
  | .eq => "EQ"
  | .lt => "LT"
  | .ge => "GE"
  | .le => "LE"
  | .ne => "NE"
  | .tr => "TR"
  | .fl => "FL"

/-- The predicate `(TEST.swz)`: no suffix for the identity, one letter for four equal ones. -/
def predicateText (p : CcPredicate) : String :=
  let letters :=
    if p.swz = ⟨.x, .y, .z, .w⟩ then ""
    else if p.swz = Chans.splat p.swz.x then "." ++ channelLetter p.swz.x
    else "." ++ String.join (Channel.all.map fun c => channelLetter (p.swz.get c))
  " (" ++ ccTestText p.test ++ letters ++ ")"

/-- The suffixes of the mnemonic and the predicate. -/
def modsText (m : Mods) : Option String := do
  let sat ← match m.sat with
    | .none => some ""
    | .zeroOne => some "_SAT"
    | .minusPlusOne => some "_SSAT"
    | .illegal => none
  let cc := if m.ccUpdate then ".CC" else ""
  let pred := match m.ccPred with
    | none => ""
    | some p => predicateText p
  if m.reserved ≠ 0 then none else some (sat ++ cc ++ pred)

/-- The texture target and the sampler. -/
def texText (t : TexSel) : Option String := do
  let target ← match t.target with
    | .oneD => some "1D"
    | .twoD => some "2D"
    | .threeD => some "3D"
    | .cube => some "CUBE"
    | .rect => some "RECT"
    | .none | .illegal _ => none
  some (", " ++ target ++ ", SAMP[" ++ Nat.repr t.sampler.toNat ++ "]")

/-- The operands after the destination. -/
def srcsText : List Src → Option String
  | [] => some ""
  | o :: rest => do some (", " ++ (← srcText o) ++ (← srcsText rest))

/-- A line with a destination. -/
def aluText (name : String) (m : Mods) (d : Dst) (srcs : List Src) (last : Option String) :
    Option String := do
  some (name ++ (← modsText m) ++ " " ++ (← dstText d) ++ (← srcsText srcs) ++ (← last))

/-- A line without a destination. -/
def plainText (name : String) (h : HdrReserved) (rest : String) : Option String :=
  if hdrWellFormed h then some (name ++ rest) else none

/-- The line of an instruction (R110). A label is written as the instruction index it stands for. -/
def asmText : Instr → Option String
  | .nop h => plainText "NOP" h ""
  | .mov m d a => aluText "MOV" m d [a] (some "")
  | .add m d a b => aluText "ADD" m d [a, b] (some "")
  | .sub m d a b => aluText "SUB" m d [a, b] (some "")
  | .mul m d a b => aluText "MUL" m d [a, b] (some "")
  | .div m d a b => aluText "DIV" m d [a, b] (some "")
  | .neg m d a => aluText "NEG" m d [a] (some "")
  | .rcp m d a => aluText "RCP" m d [a] (some "")
  | .rsq m d a => aluText "RSQ" m d [a] (some "")
  | .pow m d a b => aluText "POW" m d [a, b] (some "")
  | .ex2 m d a => aluText "EX2" m d [a] (some "")
  | .lg2 m d a => aluText "LG2" m d [a] (some "")
  | .mad m d a b c => aluText "MAD" m d [a, b, c] (some "")
  | .lrp m d a b c => aluText "LRP" m d [a, b, c] (some "")
  | .min m d a b => aluText "MIN" m d [a, b] (some "")
  | .max m d a b => aluText "MAX" m d [a, b] (some "")
  | .flr m d a => aluText "FLR" m d [a] (some "")
  | .ceil m d a => aluText "CEIL" m d [a] (some "")
  | .round m d a => aluText "ROUND" m d [a] (some "")
  | .trunc m d a => aluText "TRUNC" m d [a] (some "")
  | .frc m d a => aluText "FRC" m d [a] (some "")
  | .slt m d a b => aluText "SLT" m d [a, b] (some "")
  | .sle m d a b => aluText "SLE" m d [a, b] (some "")
  | .sge m d a b => aluText "SGE" m d [a, b] (some "")
  | .seq m d a b => aluText "SEQ" m d [a, b] (some "")
  | .sne m d a b => aluText "SNE" m d [a, b] (some "")
  | .cmp m d a b c => aluText "CMP" m d [a, b, c] (some "")
  | .movc m d a b c => aluText "MOVC" m d [a, b, c] (some "")
  | .iadd m d a b => aluText "IADD" m d [a, b] (some "")
  | .isub m d a b => aluText "ISUB" m d [a, b] (some "")
  | .imul m d a b => aluText "IMUL" m d [a, b] (some "")
  | .idiv m d a b => aluText "IDIV" m d [a, b] (some "")
  | .udiv m d a b => aluText "UDIV" m d [a, b] (some "")
  | .imod m d a b => aluText "IMOD" m d [a, b] (some "")
  | .umod m d a b => aluText "UMOD" m d [a, b] (some "")
  | .imin m d a b => aluText "IMIN" m d [a, b] (some "")
  | .imax m d a b => aluText "IMAX" m d [a, b] (some "")
  | .umin m d a b => aluText "UMIN" m d [a, b] (some "")
  | .umax m d a b => aluText "UMAX" m d [a, b] (some "")
  | .islt m d a b => aluText "ISLT" m d [a, b] (some "")
  | .isle m d a b => aluText "ISLE" m d [a, b] (some "")
  | .isge m d a b => aluText "ISGE" m d [a, b] (some "")
  | .uslt m d a b => aluText "USLT" m d [a, b] (some "")
  | .usle m d a b => aluText "USLE" m d [a, b] (some "")
  | .usge m d a b => aluText "USGE" m d [a, b] (some "")
  | .useq m d a b => aluText "USEQ" m d [a, b] (some "")
  | .usne m d a b => aluText "USNE" m d [a, b] (some "")
  | .and m d a b => aluText "AND" m d [a, b] (some "")
  | .or m d a b => aluText "OR" m d [a, b] (some "")
  | .xor m d a b => aluText "XOR" m d [a, b] (some "")
  | .not m d a => aluText "NOT" m d [a] (some "")
  | .shl m d a b => aluText "SHL" m d [a, b] (some "")
  | .ishr m d a b => aluText "ISHR" m d [a, b] (some "")
  | .ushr m d a b => aluText "USHR" m d [a, b] (some "")
  | .f2i m d a => aluText "F2I" m d [a] (some "")
  | .f2u m d a => aluText "F2U" m d [a] (some "")
  | .i2f m d a => aluText "I2F" m d [a] (some "")
  | .u2f m d a => aluText "U2F" m d [a] (some "")
  | .dp2 m d a b => aluText "DP2" m d [a, b] (some "")
  | .dp3 m d a b => aluText "DP3" m d [a, b] (some "")
  | .dp4 m d a b => aluText "DP4" m d [a, b] (some "")
  | .dph m d a b => aluText "DPH" m d [a, b] (some "")
  | .xpd m d a b => aluText "XPD" m d [a, b] (some "")
  | .lit m d a => aluText "LIT" m d [a] (some "")
  | .dst m d a b => aluText "DST" m d [a, b] (some "")
  | .scs m d a => aluText "SCS" m d [a] (some "")
  | .log m d a => aluText "LOG" m d [a] (some "")
  | .exp m d a => aluText "EXP" m d [a] (some "")
  | .tex m t d a => aluText "TEX" m d [a] (texText t)
  | .txb m t d a => aluText "TXB" m d [a] (texText t)
  | .txl m t d a => aluText "TXL" m d [a] (texText t)
  | .txp m t d a => aluText "TXP" m d [a] (texText t)
  | .txd m t d a b c => aluText "TXD" m d [a, b, c] (texText t)
  | .kil h a => do plainText "KIL" h (" " ++ (← srcText a))
  | .kilp h p => plainText "KILP" h (if p then " (TR)" else "")
  | .if_ h a => do plainText "IF" h (" " ++ (← srcText a))
  | .else_ h => plainText "ELSE" h ""
  | .endif h => plainText "ENDIF" h ""
  | .bgnloop h => plainText "BGNLOOP" h ""
  | .endloop h label => plainText "ENDLOOP" h (" -> " ++ Nat.repr label.toNat)
  | .brk h => plainText "BRK" h ""
  | .cont h => plainText "CONT" h ""
  | .cal h label => plainText "CAL" h (" -> " ++ Nat.repr label.toNat)
  | .ret h => plainText "RET" h ""
  | .end_ h => plainText "END" h ""
  | .bgnsub h => plainText "BGNSUB" h ""
  | .endsub h => plainText "ENDSUB" h ""

/-! ### Literals and directives (R112) -/

/-- The literal of one immediate component. -/
inductive Literal where
  /-- (-1)^neg * digits * 10^exp10 -/
  | float (neg : Bool) (digits : Nat) (exp10 : Int)
  /-- a raw pattern, written in hexadecimal -/
  | pattern (w : Word)
  /-- an integer, suffixed `i` -/
  | int (n : Int)
deriving DecidableEq, Repr

/-- num / den, den not 0, rounded to binary32, to nearest with ties to even: a quotient with at least
64 bits and a sticky bit below them. -/
def ratioToFloat (neg : Bool) (num den : Nat) : Word :=
  let s := Nat.log2 den + 65
  let q := num * 2 ^ s / den
  let sticky := if num * 2 ^ s % den = 0 then 0 else 1
  froundFinite neg (2 * q + sticky) (-(s : Int) - 1)

/-- The pattern of a literal (R112). -/
def Literal.word : Literal → Word
  | .float neg m e =>
    if 0 ≤ e then froundFinite neg (m * 10 ^ e.toNat) 0 else ratioToFloat neg m (10 ^ (-e).toNat)
  | .pattern w => w
  | .int n => BitVec.ofInt 32 n

/-! ### The assembler -/

/-- One line of a program (R110 to R112). -/
inductive AsmLine where
  /-- an instruction, or `CAL` and `ENDLOOP` with the index of their label -/
  | instr (i : Instr)
  /-- `name:` names the index of the next instruction -/
  | label (name : String)
  /-- `CAL -> name` -/
  | cal (name : String)
  /-- `ENDLOOP -> name`, or without a label -/
  | endloop (name : Option String)
  /-- the pseudo-instruction SGT (R111) -/
  | sgt (m : Mods) (d : Dst) (a b : Src)
  /-- the pseudo-instruction ABS (R111) -/
  | abs (m : Mods) (d : Dst) (a : Src)
  /-- `STAGE` -/
  | stage (s : Stage)
  /-- `IMM k = ...` -/
  | imm (k : Nat) (v : Chans Literal)
  /-- `DCL IN[first..last].mask, mode` -/
  | dcl (first last : BitVec 16) (mask : BitVec 4) (mode : Interp)
deriving DecidableEq, Repr

/-- Does the line put an instruction into the program? -/
def AsmLine.emits : AsmLine → Bool
  | .instr _ | .cal _ | .endloop _ | .sgt _ _ _ _ | .abs _ _ _ => true
  | .label _ | .stage _ | .imm _ _ | .dcl _ _ _ _ => false

/-- The labels with the indices they name; `n` instructions come before. -/
def labelTable (n : Nat) : List AsmLine → List (String × Nat)
  | [] => []
  | .label name :: rest => (name, n) :: labelTable n rest
  | line :: rest => labelTable (if line.emits then n + 1 else n) rest

/-- The index a label names, if exactly one line defines it. -/
def findLabel (table : List (String × Nat)) (name : String) : Option Word :=
  match table.filter fun e => e.1 = name with
  | [e] => some (BitVec.ofNat 32 e.2)
  | _ => none

/-- The instructions of the lines; `n` come before and `loops` are the indices of the BGNLOOPs still
open, the innermost first. -/
def emitInstrs (table : List (String × Nat)) (n : Nat) (loops : List Nat) :
    List AsmLine → Option (List Instr)
  | [] => some []
  | .instr i :: rest => do
    let loops' := match i with
      | .bgnloop _ => n :: loops
      | .endloop _ _ => loops.tail
      | _ => loops
    some (i :: (← emitInstrs table (n + 1) loops' rest))
  | .cal name :: rest => do
    some (.cal 0 (← findLabel table name) :: (← emitInstrs table (n + 1) loops rest))
  | .endloop (some name) :: rest => do
    some (.endloop 0 (← findLabel table name) :: (← emitInstrs table (n + 1) loops.tail rest))
  | .endloop none :: rest => do
    some (.endloop 0 (BitVec.ofNat 32 (← loops.head?)) ::
      (← emitInstrs table (n + 1) loops.tail rest))
  | .sgt m d a b :: rest => do
    some (Instr.sgt m d a b :: (← emitInstrs table (n + 1) loops rest))
  | .abs m d a :: rest => do some (Instr.abs m d a :: (← emitInstrs table (n + 1) loops rest))
  | .label _ :: rest | .stage _ :: rest | .imm _ _ :: rest | .dcl _ _ _ _ :: rest =>
    emitInstrs table n loops rest

/-- One directive line applied to the program so far. Immediates are defined in rising order without a
gap, since R112 gives no value to one left out. -/
def directive (p : Prog) : AsmLine → Option Prog
  | .stage s => some { p with stage := s }
  | .imm k v =>
    if k = p.imms.length then
      some { p with imms := p.imms ++ [Chans.ofFn fun c => (v.get c).word] }
    else none
  | .dcl first last mask mode =>
    some { p with decls := p.decls ++ [encodeDecl
      { file := .input, mask := mask, interp := mode, reserved := 0, first := first, last := last }] }
  | .instr _ | .label _ | .cal _ | .endloop _ | .sgt _ _ _ _ | .abs _ _ _ => some p

/-- The program of the lines, or `none` where a label is not defined once, an ENDLOOP without a label
has no BGNLOOP, or an immediate is out of order. -/
def assemble (lines : List AsmLine) : Option Prog := do
  let p ← lines.foldlM directive Prog.empty
  let instrs ← emitInstrs (labelTable 0 lines) 0 [] lines
  some { p with instrs := instrs.map encode }

end Sys2Proof.Machine
end

