-- ==== Sys2Proof/Safety.lean ====
section
/-! DEFINITION. What the statements are written in: the invariant of the machine, the effect of an
instruction with a destination, what it means that an opcode computes a formula, agreement of two
states in one lane, and correct rounding as a property of real numbers. -/

namespace Sys2Proof

/-- p is a submask of q. -/
def LaneMask.sub (p q : LaneMask) : Prop := p &&& q = p

/-! ### Operands of an instruction -/

/-- The used source operands, SRC0 first (R93, R100). -/
def Instr.srcs : Instr → List Src
  | .nop _ | .else_ _ | .endif _ | .bgnloop _ | .brk _ | .cont _ | .ret _ | .end_ _
  | .bgnsub _ | .endsub _ | .kilp _ _ | .endloop _ _ | .cal _ _ => []
  | .kil _ a | .if_ _ a => [a]
  | .mov _ _ a | .neg _ _ a | .rcp _ _ a | .rsq _ _ a | .ex2 _ _ a | .lg2 _ _ a
  | .flr _ _ a | .ceil _ _ a | .round _ _ a | .trunc _ _ a | .frc _ _ a
  | .not _ _ a | .f2i _ _ a | .f2u _ _ a | .i2f _ _ a | .u2f _ _ a
  | .lit _ _ a | .scs _ _ a | .log _ _ a | .exp _ _ a => [a]
  | .add _ _ a b | .sub _ _ a b | .mul _ _ a b | .div _ _ a b | .pow _ _ a b
  | .min _ _ a b | .max _ _ a b | .slt _ _ a b | .sle _ _ a b | .sge _ _ a b
  | .seq _ _ a b | .sne _ _ a b | .iadd _ _ a b | .isub _ _ a b | .imul _ _ a b
  | .idiv _ _ a b | .udiv _ _ a b | .imod _ _ a b | .umod _ _ a b | .imin _ _ a b
  | .imax _ _ a b | .umin _ _ a b | .umax _ _ a b | .islt _ _ a b | .isle _ _ a b
  | .isge _ _ a b | .uslt _ _ a b | .usle _ _ a b | .usge _ _ a b | .useq _ _ a b
  | .usne _ _ a b | .and _ _ a b | .or _ _ a b | .xor _ _ a b | .shl _ _ a b
  | .ishr _ _ a b | .ushr _ _ a b | .dp2 _ _ a b | .dp3 _ _ a b | .dp4 _ _ a b
  | .dph _ _ a b | .xpd _ _ a b | .dst _ _ a b => [a, b]
  | .mad _ _ a b c | .lrp _ _ a b c | .cmp _ _ a b c | .movc _ _ a b c => [a, b, c]
  | .tex _ _ _ a | .txb _ _ _ a | .txl _ _ _ a | .txp _ _ _ a => [a]
  | .txd _ _ _ a b c => [a, b, c]

/-- The destination operand, if the opcode has one (R93, R100). -/
def Instr.dst? : Instr → Option Dst
  | .nop _ | .else_ _ | .endif _ | .bgnloop _ | .brk _ | .cont _ | .ret _ | .end_ _
  | .bgnsub _ | .endsub _ | .kilp _ _ | .endloop _ _ | .cal _ _ | .kil _ _ | .if_ _ _ => none
  | .mov _ d _ | .neg _ d _ | .rcp _ d _ | .rsq _ d _ | .ex2 _ d _ | .lg2 _ d _
  | .flr _ d _ | .ceil _ d _ | .round _ d _ | .trunc _ d _ | .frc _ d _
  | .not _ d _ | .f2i _ d _ | .f2u _ d _ | .i2f _ d _ | .u2f _ d _
  | .lit _ d _ | .scs _ d _ | .log _ d _ | .exp _ d _ => some d
  | .add _ d _ _ | .sub _ d _ _ | .mul _ d _ _ | .div _ d _ _ | .pow _ d _ _
  | .min _ d _ _ | .max _ d _ _ | .slt _ d _ _ | .sle _ d _ _ | .sge _ d _ _
  | .seq _ d _ _ | .sne _ d _ _ | .iadd _ d _ _ | .isub _ d _ _ | .imul _ d _ _
  | .idiv _ d _ _ | .udiv _ d _ _ | .imod _ d _ _ | .umod _ d _ _ | .imin _ d _ _
  | .imax _ d _ _ | .umin _ d _ _ | .umax _ d _ _ | .islt _ d _ _ | .isle _ d _ _
  | .isge _ d _ _ | .uslt _ d _ _ | .usle _ d _ _ | .usge _ d _ _ | .useq _ d _ _
  | .usne _ d _ _ | .and _ d _ _ | .or _ d _ _ | .xor _ d _ _ | .shl _ d _ _
  | .ishr _ d _ _ | .ushr _ d _ _ | .dp2 _ d _ _ | .dp3 _ d _ _ | .dp4 _ d _ _
  | .dph _ d _ _ | .xpd _ d _ _ | .dst _ d _ _ => some d
  | .mad _ d _ _ _ | .lrp _ d _ _ _ | .cmp _ d _ _ _ | .movc _ d _ _ _ => some d
  | .tex _ _ d _ | .txb _ _ d _ | .txl _ _ d _ | .txp _ _ d _ => some d
  | .txd _ _ d _ _ _ => some d

/-- TEX, TXB, TXL, TXP and TXD: the instructions that reach the Sampler port (R310). -/
def Instr.isTexture : Instr → Bool
  | .tex _ _ _ _ | .txb _ _ _ _ | .txl _ _ _ _ | .txp _ _ _ _ | .txd _ _ _ _ _ _ => true
  | _ => false

/-- The thirteen control-flow instructions of spec/41_exec_mask_flow.md. -/
def Instr.isFlow : Instr → Bool
  | .nop _ | .if_ _ _ | .else_ _ | .endif _ | .bgnloop _ | .endloop _ _ | .brk _ | .cont _
  | .cal _ _ | .ret _ | .end_ _ | .bgnsub _ | .endsub _ => true
  | _ => false

end Sys2Proof

namespace Sys2Proof.Machine

/-! ### The invariant -/

/-- Every store is in canonical form. -/
def State.storageWf (s : State) : Bool :=
  s.temp.wf && s.input.wf && s.output.wf && s.addr.wf && s.pred.wf && s.const.wf
    && s.a0.wf && s.dadx.wf && s.dady.wf

/-- No store lists a cell outside its file (R21, R51). -/
def State.storageBounded (s : State) : Bool :=
  s.temp.below (16 * s.cfg.numTemp) && s.input.below (16 * s.cfg.numInput)
    && s.output.below (16 * s.cfg.numOutput) && s.addr.below 16
    && s.pred.below (16 * s.cfg.numPred)
    && s.const.below (4 * (s.cfg.numConstBufs * s.cfg.constStride))
    && s.a0.below (4 * s.cfg.numInput) && s.dadx.below (4 * s.cfg.numInput)
    && s.dady.below (4 * s.cfg.numInput)

/-- The bound program fits and its declarations passed Bind (R330). -/
def State.progFits (s : State) : Bool :=
  s.prog.instrs.length ≤ s.cfg.maxInstr && s.prog.decls.length ≤ s.cfg.maxDecl
    && (bindFault s.cfg s.prog).isNone

/-- Status and pc agree: a Run that has not started or is done is Halted, a fault recorded at an
instruction leaves the pc there (R332, R355), and the result is the complement of Kill (R335). -/
def State.statusAgrees (s : State) : Bool :=
  match s.status with
  | .idle => s.pc == .halted
  | .running => true
  | .done result => s.pc == .halted && result == ~~~s.kill
  | .faulted _ (.instr i) => s.pc == .running i
  | .faulted _ .bind => true

/-- The invariant of the machine: it holds after power-on and is kept by every step and by every
host operation. -/
structure State.Inv (s : State) : Prop where
  cfg_wf : s.cfg.wf = true
  storage_wf : s.storageWf = true
  storage_bounded : s.storageBounded = true
  prog_fits : s.progFits = true
  /-- R40: the index of a running pc is below NumInstr -/
  pc_in_range : ∀ i, s.pc = .running i → i < s.numInstr
  status_agrees : s.statusAgrees = true
  /-- R43, R44: no stack holds more than MAX_NEST entries -/
  cond_depth : s.condStack.length ≤ s.cfg.maxNest
  loop_depth : s.loopStack.length ≤ s.cfg.maxNest
  cont_depth : s.contStack.length ≤ s.cfg.maxNest
  call_depth : s.callStack.length ≤ s.cfg.maxNest
  /-- R176: FuncStack is pushed only by CAL and popped only by RET -/
  func_depth : s.funcStack.length = s.callStack.length
  /-- R44: retPC fits its 32 bits (the bound on MAX_INSTR is the model's, assumption log 17) -/
  ret_pc : ∀ e ∈ s.callStack, e.retPc < 2 ^ 32
  /-- R46: the output cursor is 0 -/
  out_cursor : s.outCursor = 0

/-- The saved masks of a stack (entry 0 first) only shrink from each entry to the next, and the
current mask is a submask of the last. -/
def nested (stack : List LaneMask) (current : LaneMask) : Prop :=
  (stack ++ [current]).Pairwise fun outer inner => LaneMask.sub inner outer

/-- Each of the four masks is nested in its stack: no lane that an enclosing construct saved as dead
is live inside it. -/
structure State.MasksNested (s : State) : Prop where
  cond : nested s.condStack s.condMask
  loop : nested s.loopStack s.loopMask
  cont : nested s.contStack s.contMask
  func : nested s.funcStack s.funcMask

/-! ### The effect of an instruction with a destination -/

/-- pc after a transfer to index t (R121, R334). -/
def State.pcAt (s : State) (t : Nat) : Pc := if t < s.numInstr then .running t else .halted

/-- The final mask FM of the store to channel c, before the opcode's own lane mask: the channel is in
the write mask and the lane in ExecMask and in the condition-code predicate (R122, R134). -/
def State.covers (s : State) (m : Mods) (d : Dst) (c : Channel) (l : Lane) : Bool :=
  inWriteMask d c && s.execMask.has l && s.ccPass m c l

/-- The effect of the instruction at index i with modifiers m and destination d, resolved to the
registers rd, that computes `res`: which cells and condition codes take which new value, that every
other cell reads as before, that pc advances by one, and that nothing else changes. -/
structure StoreEffect (s t : State) (i : Nat) (m : Mods) (d : Dst) (rd : Quad Nat)
    (res : Channel → Lane → Option Word) : Prop where
  cell : ∀ f r c l, t.readReg f r c l =
    if d.file ≠ .null ∧ f = d.file ∧ r = rd.get l ∧ s.covers m d c l = true then
      match res c l with
      | some w => saturate m.sat w
      | none => s.readReg f r c l
    else s.readReg f r c l
  code : ∀ c l, (t.cc.get c).get l =
    if m.ccUpdate = true ∧ s.covers m d c l = true then
      match res c l with
      | some w => ccCode (saturate m.sat w)
      | none => (s.cc.get c).get l
    else (s.cc.get c).get l
  rest : t = { s with
    temp := t.temp, output := t.output, addr := t.addr, pred := t.pred, cc := t.cc
    pc := s.pcAt (i + 1) }

/-- The instruction at index i may execute: the operand fields are legal (R102) and every operand
lies inside its file in all four lanes (R128). `rd` and `ops` name the registers. -/
structure State.Ready (s : State) (i : Nat) (m : Mods) (d : Dst) (rd : Quad Nat)
    (ops : List (Src × Quad Nat)) : Prop where
  inv : s.Inv
  pc : s.pc = .running i
  mods : m.wellFormed = true
  dst : d.wellFormed = true
  dst_regs : ∀ l, s.dstIndex d l = some (rd.get l)
  srcs : ∀ o ∈ ops, o.1.wellFormed = true
  src_regs : ∀ o ∈ ops, ∀ l, s.srcIndex o.1 l = some (o.2.get l)

/-- Opcode `op` decodes to `mk`, and where it may execute, it stores `g` of the four channels of its
source operand in the same lane. -/
def Computes1 (op : BitVec 8) (mk : Mods → Dst → Src → Instr)
    (g : Cfg → Chans Word → Channel → Option Word) : Prop :=
  (∀ r : Record, r.opcode = op → decode r = .ok (mk r.mods r.dst r.src0)) ∧
  ∀ s i m d a rd ra, s.Ready i m d rd [(a, ra)] →
    ∃ t, exec (mk m d a) s = .next t ∧
      StoreEffect s t i m d rd fun c l => g s.cfg (s.fetchLane a ra l) c

/-- The same with two source operands. -/
def Computes2 (op : BitVec 8) (mk : Mods → Dst → Src → Src → Instr)
    (g : Cfg → Chans Word → Chans Word → Channel → Option Word) : Prop :=
  (∀ r : Record, r.opcode = op → decode r = .ok (mk r.mods r.dst r.src0 r.src1)) ∧
  ∀ s i m d a b rd ra rb, s.Ready i m d rd [(a, ra), (b, rb)] →
    ∃ t, exec (mk m d a b) s = .next t ∧
      StoreEffect s t i m d rd fun c l =>
        g s.cfg (s.fetchLane a ra l) (s.fetchLane b rb l) c

/-- The same with three source operands. -/
def Computes3 (op : BitVec 8) (mk : Mods → Dst → Src → Src → Src → Instr)
    (g : Cfg → Chans Word → Chans Word → Chans Word → Channel → Option Word) : Prop :=
  (∀ r : Record, r.opcode = op → decode r = .ok (mk r.mods r.dst r.src0 r.src1 r.src2)) ∧
  ∀ s i m d a b e rd ra rb re, s.Ready i m d rd [(a, ra), (b, rb), (e, re)] →
    ∃ t, exec (mk m d a b e) s = .next t ∧
      StoreEffect s t i m d rd fun c l =>
        g s.cfg (s.fetchLane a ra l) (s.fetchLane b rb l) (s.fetchLane e re l) c

/-- Channel c of the result from channel c of the source (R194). -/
def each1 (g : Word → Word) : Cfg → Chans Word → Channel → Option Word :=
  fun _ a c => some (g (a.get c))

/-- Channel c of the result from channel c of both sources (R194). -/
def each2 (g : Word → Word → Word) : Cfg → Chans Word → Chans Word → Channel → Option Word :=
  fun _ a b c => some (g (a.get c) (b.get c))

/-- As `each2`, but a lane in which `skip` holds is left out of the store (R195, R244). -/
def each2Unless (skip : Word → Word → Prop) [DecidableRel skip] (g : Word → Word → Word) :
    Cfg → Chans Word → Chans Word → Channel → Option Word :=
  fun _ a b c => if skip (a.get c) (b.get c) then none else some (g (a.get c) (b.get c))

/-- The channel values x, y, z, w, one for each destination channel. -/
def perChannel (x y z w : Option Word) : Channel → Option Word
  | .x => x
  | .y => y
  | .z => z
  | .w => w

/-- Some operand lies outside its file in some lane (R128). -/
def State.operandOutside (s : State) (ins : Instr) : Prop :=
  (∃ o ∈ ins.srcs, ∃ l, s.srcIndex o l = none) ∨ ∃ d, ins.dst? = some d ∧ ∃ l, s.dstIndex d l = none

/-! ### Texture requests (R310, R311) -/

/-- The second coordinate: channel Y where the target has one, else +0.0. -/
def coordT (t : TexTarget) (y : Word) : Word :=
  if t = .twoD ∨ t = .threeD ∨ t = .cube ∨ t = .rect then y else 0

/-- The third coordinate: channel Z for 3D and CUBE, else +0.0. -/
def coordR (t : TexTarget) (z : Word) : Word :=
  if t = .threeD ∨ t = .cube then z else 0

/-- The request with the coordinates of `v` and the given bias or level of detail. -/
def requestOf (tx : TexSel) (v : Lane → Chans Word) (lod : Lane → Word) (explicitLod : Bool) :
    SamplerReq where
  unit := tx.sampler
  target := tx.target.toBits
  s := Quad.ofFn fun l => (v l).x
  t := Quad.ofFn fun l => coordT tx.target (v l).y
  r := Quad.ofFn fun l => coordR tx.target (v l).z
  lodbias := Quad.ofFn lod
  explicitLod := explicitLod

/-- One request has been issued and answered and nothing else has happened. -/
def State.requested (s : State) (req : SamplerReq) : State :=
  { s with
    requests := s.requests ++ [req], samplerTick := s.samplerTick + 1, samplerPending := none }

/-- One request stands on the port without an answer and nothing else has happened (R388). -/
def State.stuckOn (s : State) (req : SamplerReq) : State := { s with samplerPending := some req }

/-- The request issued next is one that the Sampler never answers (R388, U12; assumption log 13). -/
def State.silent (s : State) : Prop := s.samplerSilentAt = some s.samplerTick

/-- Opcode `op` decodes to `mk`, and where it may execute, it issues the request `req` and stores the
response, or where the Sampler never answers, waits for ever. -/
def Samples1 (op : BitVec 8) (mk : Mods → TexSel → Dst → Src → Instr)
    (req : TexSel → (Lane → Chans Word) → SamplerReq) : Prop :=
  (∀ r : Record, r.opcode = op → decode r = .ok (mk r.mods r.texSel r.dst r.src0)) ∧
  ∀ s i m tx d a rd ra, s.Ready i m d rd [(a, ra)] → tx.wellFormed s.cfg.numSamplers = true →
    (¬s.silent → ∃ t, exec (mk m tx d a) s = .next t ∧
      StoreEffect (s.requested (req tx (s.fetchLane a ra))) t i m d rd fun c l =>
        some (Config.sampler s.samplerTick (req tx (s.fetchLane a ra)) c l)) ∧
    (s.silent → exec (mk m tx d a) s = .next (s.stuckOn (req tx (s.fetchLane a ra))))

/-- The same with three source operands, of which only the first enters the request. -/
def Samples3 (op : BitVec 8) (mk : Mods → TexSel → Dst → Src → Src → Src → Instr)
    (req : TexSel → (Lane → Chans Word) → SamplerReq) : Prop :=
  (∀ r : Record, r.opcode = op →
    decode r = .ok (mk r.mods r.texSel r.dst r.src0 r.src1 r.src2)) ∧
  ∀ s i m tx d a b e rd ra rb re, s.Ready i m d rd [(a, ra), (b, rb), (e, re)] →
    tx.wellFormed s.cfg.numSamplers = true →
    (¬s.silent → ∃ t, exec (mk m tx d a b e) s = .next t ∧
      StoreEffect (s.requested (req tx (s.fetchLane a ra))) t i m d rd fun c l =>
        some (Config.sampler s.samplerTick (req tx (s.fetchLane a ra)) c l)) ∧
    (s.silent → exec (mk m tx d a b e) s = .next (s.stuckOn (req tx (s.fetchLane a ra))))

/-! ### The bits of a record that an instruction uses (R103) -/

/-- Word A of an operand without IND_CHAN when IND = 0. -/
def relevantA (a : Word) : Word := if a.getLsbD 4 then a else a &&& 0xFFFFFF3F

/-- Word B of a source operand without the second-dimension fields when DIM = 0 and without
DIM_IND_CHAN when DIM_IND = 0. -/
def relevantB (a b : Word) : Word :=
  if a.getLsbD 5 then (if b.getLsbD 15 then b else b &&& 0xFFFCFFFF) else b &&& 0x000C7FFF

/-- HDR of an instruction with a destination: without CC_TEST and CC_SWZ when CC_PRED = 0, and
without TEX_TARGET and SAMPLER unless it is a texture instruction. -/
def relevantHdr (texture : Bool) (w : Word) : Word :=
  w &&& (if w.getLsbD 11 then 0xC07FFFFF else 0xC0000FFF) ||| (if texture then w &&& 0x3F800000 else 0)

/-- The record with 0 in every field that instruction `i` ignores. -/
def relevantRecord (r : Record) (i : Instr) : Record where
  w0 := match i with
    | .kilp _ _ => r.w0 &&& 0xC00008FF
    | _ => if i.dst?.isSome then relevantHdr i.isTexture r.w0 else r.w0 &&& 0xC00000FF
  w1 := match i with
    | .endloop _ _ | .cal _ _ => r.w1
    | _ => 0
  w2 := if i.dst?.isSome then relevantA r.w2 else 0
  w3 := if i.dst?.isSome then r.w3 else 0
  w4 := if 0 < i.srcs.length then relevantA r.w4 else 0
  w5 := if 0 < i.srcs.length then relevantB r.w4 r.w5 else 0
  w6 := if 1 < i.srcs.length then relevantA r.w6 else 0
  w7 := if 1 < i.srcs.length then relevantB r.w6 r.w7 else 0
  w8 := if 2 < i.srcs.length then relevantA r.w8 else 0
  w9 := if 2 < i.srcs.length then relevantB r.w8 r.w9 else 0

/-! ### The field checks of R102 on the bits of a record -/

/-- An illegal source operand with words A and B: reserved bits, FILE NULL or 8 to 15, a second
dimension on a file other than IN and CONST, a swizzle code 6 or 7 (R83, R84, R86, R87). -/
def illegalSource (a b : Word) : Prop :=
  let file := (a.extractLsb' 0 4).toNat
  a.extractLsb' 24 8 ≠ 0 ∨ file = 0 ∨ 8 ≤ file ∨ (a.getLsbD 5 = true ∧ file ≠ 2 ∧ file ≠ 7) ∨
    b.extractLsb' 18 2 ≠ 0 ∨
    6 ≤ (b.extractLsb' 0 3).toNat ∨ 6 ≤ (b.extractLsb' 3 3).toNat ∨
    6 ≤ (b.extractLsb' 6 3).toNat ∨ 6 ≤ (b.extractLsb' 9 3).toNat

/-- An illegal destination with words A and B: reserved bits, FILE IN, IMM, CONST or 8 to 15, a second
dimension (R83, R85, R86). -/
def illegalDestination (a b : Word) : Prop :=
  let file := (a.extractLsb' 0 4).toNat
  a.extractLsb' 24 8 ≠ 0 ∨ file = 2 ∨ 6 ≤ file ∨ a.getLsbD 5 = true ∨ b.extractLsb' 4 28 ≠ 0

/-- One of the field checks of R102 fails on the record of instruction `ins`, with NUM_SAMPLERS and
NumInstr as given. Opcode 0x7C is ENDLOOP and 0x7F is CAL. -/
def illegalRecord (numSamplers numInstr : Nat) (r : Record) (ins : Instr) : Prop :=
  r.w0.extractLsb' 30 2 ≠ 0 ∨
  (ins.dst?.isSome = true ∧ (r.w0.extractLsb' 8 2 = 3 ∨ illegalDestination r.w2 r.w3)) ∨
  (0 < ins.srcs.length ∧ illegalSource r.w4 r.w5) ∨
  (1 < ins.srcs.length ∧ illegalSource r.w6 r.w7) ∨
  (2 < ins.srcs.length ∧ illegalSource r.w8 r.w9) ∨
  (ins.isTexture = true ∧
    (r.w0.extractLsb' 23 3 = 0 ∨ 6 ≤ (r.w0.extractLsb' 23 3).toNat ∨
      numSamplers ≤ (r.w0.extractLsb' 26 4).toNat)) ∨
  (r.w0.extractLsb' 0 8 = 0x7C ∧ numInstr ≤ r.w1.toNat) ∨
  (r.w0.extractLsb' 0 8 = 0x7F ∧ numInstr < r.w1.toNat)

/-! ### Two states that agree in one lane -/

/-- Two states with the same program and sizes whose registers, condition codes and masks agree in
lane l (R68). Nothing is said of the other lanes. -/
structure AgreeInLane (l : Lane) (s t : State) : Prop where
  cfg : s.cfg = t.cfg
  prog : s.prog = t.prog
  pc : s.pc = t.pc
  cell : ∀ f r c, s.readReg f r c l = t.readReg f r c l
  code : ∀ c, (s.cc.get c).get l = (t.cc.get c).get l
  live : s.execMask.has l = t.execMask.has l
  kill : s.kill.has l = t.kill.has l

/-! ### Float values (R190) and correct rounding (R192) -/

/-- v is the float value of the pattern x among the extended reals; a NaN has none. -/
def HasValue (x : Word) (v : EReal) : Prop :=
  match fview x with
  | .nan => False
  | .inf neg => v = if neg then ⊥ else ⊤
  | .fin neg m e => v = (((if neg then -1 else 1) * (m : ℝ) * (2 : ℝ) ^ e : ℝ) : EReal)

/-- The magnitude at which rounding to nearest overflows: half a unit above the largest finite
binary32 number. -/
def overflowBound : ℝ := 2 ^ 128 - 2 ^ 103

/-- w is the real x rounded to binary32, to nearest with ties to even: an exact zero has the sign
`negZero`, an overflow is the infinity of the sign of x, and else no finite pattern is nearer to x,
and one that is as near has the same value unless w is the even one. -/
def RoundsTo (x : ℝ) (negZero : Bool) (w : Word) : Prop :=
  if x = 0 then w = fzero negZero
  else
    fsign w = decide (x < 0) ∧
    if overflowBound ≤ |x| then w = finf (decide (x < 0))
    else
      ∃ v : ℚ, fvalue w = some v ∧
        ∀ w' v', fvalue w' = some v' → |x - v| < |x - v'| ∨
          (|x - v| = |x - v'| ∧ (v' = v ∨ w.getLsbD 0 = false))

end Sys2Proof.Machine
end

