-- ==== Sys2Proof/Certificates/Slice0/Obligations.lean ====
section
/-! DEFINITION. The statements for the provers, one for each rule or group of rules of the spec. The
vocabulary is that of Sys2Proof/Safety.lean. -/

open Sys2Proof Sys2Proof.Machine

/-! ### Encoding -/

/-- Decoding the encoding of any instruction gives it back (R80 to R91, R100). -/
def Obligations.DecodeEncodeRoundTrip : Prop := ∀ i : Instr, decode (encode i) = .ok i

/-- A record that decodes is, in every bit its instruction uses, the encoding of that instruction:
the decoder drops no bit but those R103 ignores. -/
def Obligations.DecoderKeepsUsedBits : Prop :=
  ∀ (r : Record) (i : Instr), decode r = .ok i → encode i = relevantRecord r i

/-- A serialised record is forty bytes, byte 4*k + j being bits 8*j+7 to 8*j of word k (W0 first, least
significant byte first), and reading the record of an instruction back gives the instruction and the
bytes after it (R63, R106). -/
def Obligations.SerialisedRecordRoundTrip : Prop :=
  (∀ r : Record, r.bytes.length = 40 ∧ ∀ (k j : Nat) (w : Word), j < 4 →
    [r.w0, r.w1, r.w2, r.w3, r.w4, r.w5, r.w6, r.w7, r.w8, r.w9][k]? = some w →
    r.bytes[4 * k + j]? = some (w.extractLsb' (8 * j) 8)) ∧
  ∀ (i : Instr) (rest : List (BitVec 8)), decodeBytes ((encode i).bytes ++ rest) = .ok (i, rest)

/-- The decoder rejects exactly the opcodes of the list of R101, and reaching one is the fatal error
UNKNOWN_OPCODE, whatever the masks (R351). -/
def Obligations.UnassignedOpcodeFaults : Prop :=
  ∀ r : Record,
    let n := r.opcode.toNat
    let unassigned := (0x02 ≤ n ∧ n ≤ 0x0F) ∨ n = 0x1E ∨ n = 0x1F ∨ (0x25 ≤ n ∧ n ≤ 0x27) ∨ n = 0x2D ∨
      (0x3B ≤ n ∧ n ≤ 0x3F) ∨ n = 0x4F ∨ (0x54 ≤ n ∧ n ≤ 0x57) ∨ (0x5D ≤ n ∧ n ≤ 0x5F) ∨
      (0x65 ≤ n ∧ n ≤ 0x67) ∨ (0x6D ≤ n ∧ n ≤ 0x6F) ∨ (0x72 ≤ n ∧ n ≤ 0x77) ∨ 0x84 ≤ n
    (unassigned → decode r = .error (.unknownOpcode r.opcode)) ∧
    (¬unassigned → ∃ i, decode r = .ok i) ∧
    ∀ (s : State) (i : Nat), s.status = .running → s.pc = .running i → s.prog.instrs[i]? = some r →
      unassigned → step s = .next { s with status := .faulted .unknownOpcode (.instr i) }

/-- Four records of spec/95_test_vectors.md, word by word, decode to the instructions they list. -/
def Obligations.SpecWordsDecode : Prop :=
  decode ⟨0x00000001, 0, 0x00000101, 0xF, 0x00000001, 0x00000053, 0, 0, 0, 0⟩ =
    .ok (.mov { sat := .none, ccUpdate := false, ccPred := none, reserved := 0 }
      { file := .temp, index := 1, ind := none, dim := false, writeMask := 0xF,
        reservedA := 0, reservedB := 0 }
      { file := .temp, index := 0, ind := none, dim := none,
        swz := ⟨.chan .w, .chan .z, .chan .y, .chan .x⟩, sign := .keep, complement := false,
        reservedA := 0, reservedB := 0 }) ∧
  decode ⟨0x0000007C, 1, 0, 0, 0, 0, 0, 0, 0, 0⟩ = .ok (.endloop 0 1) ∧
  decode ⟨0x00000081, 0, 0, 0, 0, 0, 0, 0, 0, 0⟩ = .ok (.end_ 0) ∧
  decode ⟨0x00002871, 0, 0, 0, 0, 0, 0, 0, 0, 0⟩ = .ok (.kilp 0 true)

/-! ### The step loop -/

/-- A step of a Run runs the instruction that the record at the pc decodes to (R120, R333). -/
def Obligations.StepRunsDecodedInstruction : Prop :=
  ∀ (s : State) (i : Nat) (r : Record) (ins : Instr), s.status = .running → s.pc = .running i →
    s.prog.instrs[i]? = some r → decode r = .ok ins → step s = exec ins s

/-- Around the instructions the step loop does only this: a Run whose pc is Halted ends with the
complement of Kill (R332 step 6, R335), a pc at or past NumInstr becomes Halted (R334), and without a
Run in progress the core holds its state (R369). That the end of the Run is a step of its own and that
an idle core has a step at all are the model's choices (assumption log 2, 3). -/
def Obligations.StepLoopAroundInstructions : Prop :=
  ∀ s : State,
    (s.status = .running → s.pc = .halted → step s = .next { s with status := .done (~~~s.kill) }) ∧
    (∀ i, s.status = .running → s.pc = .running i → s.numInstr ≤ i →
      step s = .next { s with pc := .halted }) ∧
    (s.status ≠ .running → step s = .next s)

/-- Every step from every state answers a next state. That a fatal error is a state (assumption log 1),
that an idle core has a step (log 2), and that a texture instruction whose request is never answered
answers the state in which it waits (log 13), are the model's choices. -/
def Obligations.StepAlwaysAnswersNext : Prop := ∀ s : State, ∃ t, step s = .next t

/-- A record placed where the next step fetches is the one it runs. Placing it changes nothing but the
instruction store, the pc and Status: at a pc inside the program the record takes the place of the one
there, else it becomes the whole program, with the pc at its start (assumption log 4). -/
def Obligations.PlacedRecordRunsNext : Prop :=
  ∀ (s : State) (r : Record),
    (∀ i, s.pc = .running i → i < s.numInstr → s.placeRecord r = { s with
      prog := { s.prog with instrs := s.prog.instrs.set i r }, status := .running }) ∧
    ((s.pc = .halted ∨ ∃ i, s.pc = .running i ∧ s.numInstr ≤ i) → s.placeRecord r = { s with
      prog := { s.prog with instrs := [r] }, pc := .running 0, status := .running }) ∧
    (∃ i, (s.placeRecord r).pc = .running i ∧ (s.placeRecord r).prog.instrs[i]? = some r) ∧
    ∀ ins, decode r = .ok ins → step (s.placeRecord r) = exec ins (s.placeRecord r)

/-! ### Move, float arithmetic, select -/

/-- One-source float instructions store their formula of the source channel (R194 and the rule of
each). -/
def Obligations.FloatUnaryResults : Prop :=
  Computes1 0x01 .mov (each1 fun x => x) ∧
  Computes1 0x14 .neg (each1 fun x => x ^^^ 0x80000000) ∧
  Computes1 0x18 .ex2 (each1 Config.fexp2) ∧
  Computes1 0x19 .lg2 (each1 Config.flog2) ∧
  Computes1 0x20 .flr (each1 ffloor) ∧
  Computes1 0x21 .ceil (each1 fceil) ∧
  Computes1 0x22 .round (fun cfg a c => some (fround cfg.roundTies (a.get c))) ∧
  Computes1 0x23 .trunc (each1 ftrunc) ∧
  Computes1 0x24 .frc (each1 fun x => fsub x (ffloor x))

/-- Float instructions with two and three sources store their formula of the source channels; MAD and
LRP are fused or not as the configuration says (R201 to R203, R208, R211 to R214). -/
def Obligations.FloatArithmeticResults : Prop :=
  Computes2 0x10 .add (each2 fadd) ∧
  Computes2 0x11 .sub (each2 fsub) ∧
  Computes2 0x12 .mul (each2 fmul) ∧
  Computes2 0x17 .pow (each2 Config.fpow) ∧
  Computes2 0x1C .min (each2 fun a b => if flt a b then a else b) ∧
  Computes2 0x1D .max (each2 fun a b => if fgt a b then a else b) ∧
  Computes3 0x1A .mad (fun cfg a b e c => some
    (if cfg.madFused then ffma (a.get c) (b.get c) (e.get c)
      else fadd (fmul (a.get c) (b.get c)) (e.get c))) ∧
  Computes3 0x1B .lrp (fun cfg a b e c => some
    (if cfg.madFused then ffma (a.get c) (fsub (b.get c) (e.get c)) (e.get c)
      else fadd (fmul (a.get c) (fsub (b.get c) (e.get c))) (e.get c)))

/-- DIV, RCP and RSQ: a lane whose divisor is a zero is left out of the store, so that it keeps its
old cell and its old condition code (R195, R204, R206, R207). -/
def Obligations.FloatDivisionResults : Prop :=
  Computes2 0x13 .div (each2Unless (fun _ b => feq b 0 = true) fdiv) ∧
  Computes1 0x15 .rcp (fun _ a c =>
    if feq (a.get c) 0 then none else some (fdiv 0x3F800000 (a.get c))) ∧
  Computes1 0x16 .rsq (fun _ a c =>
    if feq (fsqrt (a.get c)) 0 then none else some (fdiv 0x3F800000 (fsqrt (a.get c))))

/-- The float set-on-compare instructions store 1.0 or 0.0; CMP selects on the sign of a float, MOVC on
the truth of a pattern (R220 to R225, R280). -/
def Obligations.CompareAndSelectResults : Prop :=
  Computes2 0x28 .slt (each2 fun a b => if flt a b then 0x3F800000 else 0) ∧
  Computes2 0x29 .sle (each2 fun a b => if fle a b then 0x3F800000 else 0) ∧
  Computes2 0x2A .sge (each2 fun a b => if fge a b then 0x3F800000 else 0) ∧
  Computes2 0x2B .seq (each2 fun a b => if feq a b then 0x3F800000 else 0) ∧
  Computes2 0x2C .sne (each2 fun a b => if fne a b then 0x3F800000 else 0) ∧
  Computes3 0x2E .cmp (fun _ a b e c =>
    some (if flt (a.get c) 0 then b.get c else e.get c)) ∧
  Computes3 0x2F .movc (fun _ a b e c =>
    some (if (a.get c).toNat ≠ 0 then b.get c else e.get c))

/-! ### Integer, bitwise, shift, conversion -/

/-- Integer arithmetic modulo 2^32 and the integer minima and maxima (R241 to R243, R248 to R251). -/
def Obligations.IntegerArithmeticResults : Prop :=
  Computes2 0x30 .iadd (each2 fun a b => BitVec.ofNat 32 (a.toNat + b.toNat)) ∧
  Computes2 0x31 .isub (each2 fun a b => BitVec.ofInt 32 ((a.toNat : Int) - b.toNat)) ∧
  Computes2 0x32 .imul (each2 fun a b => BitVec.ofNat 32 (a.toNat * b.toNat)) ∧
  Computes2 0x37 .imin (each2 fun a b => if a.toInt < b.toInt then a else b) ∧
  Computes2 0x38 .imax (each2 fun a b => if b.toInt < a.toInt then a else b) ∧
  Computes2 0x39 .umin (each2 fun a b => if a.toNat < b.toNat then a else b) ∧
  Computes2 0x3A .umax (each2 fun a b => if b.toNat < a.toNat then a else b)

/-- Integer division and remainder: truncated toward zero, no trap on -2^31 / -1, and a zero divisor
leaves the lane out of the store (R244 to R247). -/
def Obligations.IntegerDivisionResults : Prop :=
  Computes2 0x33 .idiv (each2Unless (fun _ b => b = 0) BitVec.sdiv) ∧
  Computes2 0x34 .udiv (each2Unless (fun _ b => b = 0) BitVec.udiv) ∧
  Computes2 0x35 .imod (each2Unless (fun _ b => b = 0) BitVec.srem) ∧
  Computes2 0x36 .umod (each2Unless (fun _ b => b = 0) BitVec.umod)

/-- The integer set-on-compare instructions store all ones or zero (R255 to R262). -/
def Obligations.IntegerCompareResults : Prop :=
  Computes2 0x40 .islt (each2 fun a b => if a.toInt < b.toInt then 0xFFFFFFFF else 0) ∧
  Computes2 0x41 .isle (each2 fun a b => if a.toInt ≤ b.toInt then 0xFFFFFFFF else 0) ∧
  Computes2 0x42 .isge (each2 fun a b => if b.toInt ≤ a.toInt then 0xFFFFFFFF else 0) ∧
  Computes2 0x43 .uslt (each2 fun a b => if a.toNat < b.toNat then 0xFFFFFFFF else 0) ∧
  Computes2 0x44 .usle (each2 fun a b => if a.toNat ≤ b.toNat then 0xFFFFFFFF else 0) ∧
  Computes2 0x45 .usge (each2 fun a b => if b.toNat ≤ a.toNat then 0xFFFFFFFF else 0) ∧
  Computes2 0x46 .useq (each2 fun a b => if a = b then 0xFFFFFFFF else 0) ∧
  Computes2 0x47 .usne (each2 fun a b => if a ≠ b then 0xFFFFFFFF else 0)

/-- The bitwise instructions and the shifts, whose count is the low five bits (R265 to R271). -/
def Obligations.BitwiseAndShiftResults : Prop :=
  Computes2 0x48 .and (each2 fun a b => a &&& b) ∧
  Computes2 0x49 .or (each2 fun a b => a ||| b) ∧
  Computes2 0x4A .xor (each2 fun a b => a ^^^ b) ∧
  Computes1 0x4B .not (each1 fun a => ~~~a) ∧
  Computes2 0x4C .shl (each2 fun a b => a <<< (b &&& 31)) ∧
  Computes2 0x4D .ishr (each2 fun a b => a.sshiftRight (b &&& 31).toNat) ∧
  Computes2 0x4E .ushr (each2 fun a b => a >>> (b &&& 31))

/-- The four conversions store their function of the source channel; what the functions are is
`ConversionsByValue` (R275 to R278). -/
def Obligations.ConversionResults : Prop :=
  Computes1 0x50 .f2i (each1 f2i) ∧
  Computes1 0x51 .f2u (each1 f2u) ∧
  Computes1 0x52 .i2f (each1 i2f) ∧
  Computes1 0x53 .u2f (each1 u2f)

/-! ### Vector and composite instructions -/

/-- The dot products store one scalar in every channel of the write mask, every product and sum rounded
from left to right; XPD, LIT, DST, SCS, LOG and EXP follow their own formula in each channel (R291 to
R300). 0x3F800000 is 1.0, 0x43000000 is 128.0, 0xC3000000 is -128.0. -/
def Obligations.VectorAndCompositeResults : Prop :=
  Computes2 0x58 .dp2 (fun _ a b _ => some (fadd (fmul a.x b.x) (fmul a.y b.y))) ∧
  Computes2 0x59 .dp3 (fun _ a b _ =>
    some (fadd (fadd (fmul a.x b.x) (fmul a.y b.y)) (fmul a.z b.z))) ∧
  Computes2 0x5A .dp4 (fun _ a b _ =>
    some (fadd (fadd (fadd (fmul a.x b.x) (fmul a.y b.y)) (fmul a.z b.z)) (fmul a.w b.w))) ∧
  Computes2 0x5B .dph (fun _ a b _ =>
    some (fadd (fadd (fadd (fmul a.x b.x) (fmul a.y b.y)) (fmul a.z b.z)) b.w)) ∧
  Computes2 0x5C .xpd (fun _ a b => perChannel
    (some (fsub (fmul a.y b.z) (fmul a.z b.y))) (some (fsub (fmul a.z b.x) (fmul a.x b.z)))
    (some (fsub (fmul a.x b.y) (fmul a.y b.x))) (some 0x3F800000)) ∧
  Computes1 0x60 .lit (fun _ a => perChannel
    (some 0x3F800000) (some (fmax2 a.x 0))
    (some (if fgt a.x 0 then Config.fpow (fmax2 a.y 0) (fmin2 (fmax2 a.w 0xC3000000) 0x43000000)
      else 0)) (some 0x3F800000)) ∧
  Computes2 0x61 .dst (fun _ a b => perChannel
    (some 0x3F800000) (some (fmul a.y b.y)) (some a.z) (some b.w)) ∧
  Computes1 0x62 .scs (fun _ a => perChannel
    (some (Config.fcos a.x)) (some (Config.fsin a.x)) (some 0) (some 0x3F800000)) ∧
  Computes1 0x63 .log (fun _ a =>
    let lg := Config.flog2 (a.x &&& 0x7FFFFFFF)
    perChannel (some (ffloor lg))
      (if feq (Config.fexp2 (ffloor lg)) 0 then none
        else some (fdiv (a.x &&& 0x7FFFFFFF) (Config.fexp2 (ffloor lg))))
      (some lg) (some 0x3F800000)) ∧
  Computes1 0x64 .exp (fun _ a => perChannel
    (some (Config.fexp2 (ffloor a.x))) (some (fsub a.x (ffloor a.x)))
    (some (Config.fexp2 a.x)) (some 0x3F800000))

/-! ### Texture and discard -/

/-- The five texture instructions: the request each sends, the store of the response, and the wait for
one that never comes (R310, R311, R313 to R317, R388). The response is a free value (assumption log
11); the record of the requests (log 12) and which request is never answered (log 13) are fields of
the model's own. -/
def Obligations.TextureResults : Prop :=
  Samples1 0x68 .tex (fun tx v => requestOf tx v (fun _ => 0) false) ∧
  Samples1 0x69 .txb (fun tx v => requestOf tx v (fun l => (v l).w) false) ∧
  Samples1 0x6A .txl (fun tx v => requestOf tx v (fun l => (v l).w) true) ∧
  Samples1 0x6B .txp (fun tx v => requestOf tx
    (fun l => if feq (v l).w 0 then v l
      else ⟨fdiv (v l).x (v l).w, fdiv (v l).y (v l).w, fdiv (v l).z (v l).w, (v l).w⟩)
    (fun _ => 0) false) ∧
  Samples3 0x6C .txd (fun tx v => requestOf tx v (fun _ => 0) false)

/-- Executing a texture instruction issues exactly one request, whatever the masks; a faulting one
and every other instruction issues none (R312). A request that is never answered leaves the Run stuck
in the instruction (R388). The fields that record the requests and say which one is never answered
are the model's own (assumption log 11, 12, 13). -/
def Obligations.OneSamplerRequestEach : Prop :=
  ∀ (s t : State) (i : Nat) (ins : Instr), s.status = .running → s.pc = .running i →
    exec ins s = .next t →
    (ins.isTexture = true → t.status = .running →
      (¬s.silent → (∃ req, t.requests = s.requests ++ [req]) ∧
        t.samplerTick = s.samplerTick + 1 ∧ t.samplerPending = none) ∧
      (s.silent → (∃ req, t = s.stuckOn req) ∧ exec ins t = .next t)) ∧
    (ins.isTexture = false ∨ t.status ≠ .running → t.requests = s.requests ∧
      t.samplerTick = s.samplerTick ∧ t.samplerPending = s.samplerPending)

/-- KIL adds to Kill the live lanes with a component less than zero; KILP adds the live lanes, or none
with CC_PRED = 1 (R320, R321). -/
def Obligations.DiscardResults : Prop :=
  ((∀ r : Record, r.opcode = 0x70 → decode r = .ok (.kil r.hdrReserved r.src0)) ∧
   ∀ (s : State) (i : Nat) (h : HdrReserved) (a : Src), s.pc = .running i →
     (h ≠ 0 ∨ a.wellFormed = false → exec (.kil h a) s = .next (s.raiseFatal .illegalEncoding i)) ∧
     (h = 0 → a.wellFormed = true →
       ((∃ l, s.srcIndex a l = none) →
         exec (.kil h a) s = .next (s.raiseFatal .indexOutOfBounds i)) ∧
       ∀ ra : Quad Nat, (∀ l, s.srcIndex a l = some (ra.get l)) →
         exec (.kil h a) s = .next { s with
           kill := LaneMask.ofLanes fun l => s.kill.has l || (s.execMask.has l &&
             (flt (s.fetch a ra .x l) 0 || flt (s.fetch a ra .y l) 0 ||
               flt (s.fetch a ra .z l) 0 || flt (s.fetch a ra .w l) 0))
           pc := s.pcAt (i + 1) })) ∧
  ((∀ r : Record, r.opcode = 0x71 → decode r = .ok (.kilp r.hdrReserved r.ccPredBit)) ∧
   ∀ (s : State) (i : Nat) (h : HdrReserved), s.pc = .running i →
     (h ≠ 0 → ∀ p, exec (.kilp h p) s = .next (s.raiseFatal .illegalEncoding i)) ∧
     exec (.kilp 0 true) s = .next { s with pc := s.pcAt (i + 1) } ∧
     exec (.kilp 0 false) s = .next { s with
       kill := s.kill ||| (s.condMask &&& s.loopMask &&& s.contMask &&& s.funcMask)
       pc := s.pcAt (i + 1) })

/-- Kill only grows inside a Run, and only KIL and KILP change it (R45). -/
def Obligations.KillOnlyGrows : Prop :=
  ∀ (s t : State) (i : Nat) (ins : Instr), s.pc = .running i → exec ins s = .next t →
    (∀ l, s.kill.has l = true → t.kill.has l = true) ∧
    ((∀ h a, ins ≠ .kil h a) → (∀ h p, ins ≠ .kilp h p) → t.kill = s.kill)

/-! ### Control flow -/

/-- NOP, BGNSUB and ENDSUB only advance the pc and END only halts, whatever ExecMask is; masks and
stacks stay as they are (R162 to R164, R177). -/
def Obligations.NopMarkersAndEnd : Prop :=
  (∀ r : Record, (r.opcode = 0x00 → decode r = .ok (.nop r.hdrReserved)) ∧
    (r.opcode = 0x82 → decode r = .ok (.bgnsub r.hdrReserved)) ∧
    (r.opcode = 0x83 → decode r = .ok (.endsub r.hdrReserved)) ∧
    (r.opcode = 0x81 → decode r = .ok (.end_ r.hdrReserved))) ∧
  ∀ (s : State) (i : Nat), s.pc = .running i →
    exec (.nop 0) s = .next { s with pc := s.pcAt (i + 1) } ∧
    exec (.bgnsub 0) s = .next { s with pc := s.pcAt (i + 1) } ∧
    exec (.endsub 0) s = .next { s with pc := s.pcAt (i + 1) } ∧
    exec (.end_ 0) s = .next { s with pc := .halted } ∧
    ∀ h : HdrReserved, h ≠ 0 →
      exec (.nop h) s = .next (s.raiseFatal .illegalEncoding i) ∧
      exec (.bgnsub h) s = .next (s.raiseFatal .illegalEncoding i) ∧
      exec (.endsub h) s = .next (s.raiseFatal .illegalEncoding i) ∧
      exec (.end_ h) s = .next (s.raiseFatal .illegalEncoding i)

/-- IF pushes Cond and clears it in the lanes whose operand is the all-zero pattern (R165). -/
def Obligations.IfResult : Prop :=
  (∀ r : Record, r.opcode = 0x78 → decode r = .ok (.if_ r.hdrReserved r.src0)) ∧
  ∀ (s : State) (i : Nat) (h : HdrReserved) (a : Src), s.pc = .running i →
    (h ≠ 0 ∨ a.wellFormed = false → exec (.if_ h a) s = .next (s.raiseFatal .illegalEncoding i)) ∧
    (h = 0 → a.wellFormed = true →
      ((∃ l, s.srcIndex a l = none) →
        exec (.if_ h a) s = .next (s.raiseFatal .indexOutOfBounds i)) ∧
      ∀ ra : Quad Nat, (∀ l, s.srcIndex a l = some (ra.get l)) →
        (s.cfg.maxNest ≤ s.condStack.length →
          exec (.if_ h a) s = .next (s.raiseFatal .stackOverflow i)) ∧
        (s.condStack.length < s.cfg.maxNest →
          exec (.if_ h a) s = .next { s with
            condStack := s.condStack ++ [s.condMask]
            condMask := LaneMask.ofLanes fun l => s.condMask.has l && s.fetch a ra .x l != 0
            pc := s.pcAt (i + 1) }))

/-- ELSE flips Cond within the top of CondStack, ENDIF pops it; on an empty CondStack both are
STACK_UNDERFLOW (R166, R167). -/
def Obligations.ElseEndifResult : Prop :=
  (∀ r : Record, (r.opcode = 0x79 → decode r = .ok (.else_ r.hdrReserved)) ∧
    (r.opcode = 0x7A → decode r = .ok (.endif r.hdrReserved))) ∧
  ∀ (s : State) (i : Nat), s.pc = .running i →
    (∀ h : HdrReserved, h ≠ 0 → exec (.else_ h) s = .next (s.raiseFatal .illegalEncoding i) ∧
      exec (.endif h) s = .next (s.raiseFatal .illegalEncoding i)) ∧
    (s.condStack = [] → exec (.else_ 0) s = .next (s.raiseFatal .stackUnderflow i) ∧
      exec (.endif 0) s = .next (s.raiseFatal .stackUnderflow i)) ∧
    ∀ below top, s.condStack = below ++ [top] →
      exec (.else_ 0) s = .next { s with
        condMask := ~~~s.condMask &&& top, pc := s.pcAt (i + 1) } ∧
      exec (.endif 0) s = .next { s with
        condMask := top, condStack := below, pc := s.pcAt (i + 1) }

/-- BGNLOOP pushes Loop and Cont and changes no mask; both stacks are checked before either is pushed
(R168). -/
def Obligations.BgnloopResult : Prop :=
  (∀ r : Record, r.opcode = 0x7B → decode r = .ok (.bgnloop r.hdrReserved)) ∧
  ∀ (s : State) (i : Nat), s.pc = .running i →
    (∀ h : HdrReserved, h ≠ 0 →
      exec (.bgnloop h) s = .next (s.raiseFatal .illegalEncoding i)) ∧
    (s.cfg.maxNest ≤ s.loopStack.length ∨ s.cfg.maxNest ≤ s.contStack.length →
      exec (.bgnloop 0) s = .next (s.raiseFatal .stackOverflow i)) ∧
    (s.loopStack.length < s.cfg.maxNest → s.contStack.length < s.cfg.maxNest →
      exec (.bgnloop 0) s = .next { s with
        loopStack := s.loopStack ++ [s.loopMask], contStack := s.contStack ++ [s.contMask]
        pc := s.pcAt (i + 1) })

/-- ENDLOOP restores Cont and goes back while a lane is live, else pops both stacks and falls
through (R169). -/
def Obligations.EndloopResult : Prop :=
  (∀ r : Record, r.opcode = 0x7C → decode r = .ok (.endloop r.hdrReserved r.w1)) ∧
  ∀ (s : State) (i : Nat) (h : HdrReserved) (label : Word), s.pc = .running i →
    (h ≠ 0 ∨ s.numInstr ≤ label.toNat →
      exec (.endloop h label) s = .next (s.raiseFatal .illegalEncoding i)) ∧
    (h = 0 → label.toNat < s.numInstr →
      (s.loopStack = [] ∨ s.contStack = [] →
        exec (.endloop h label) s = .next (s.raiseFatal .stackUnderflow i)) ∧
      ∀ loops loopTop conts contTop, s.loopStack = loops ++ [loopTop] →
        s.contStack = conts ++ [contTop] →
        (s.condMask &&& s.loopMask &&& contTop &&& s.funcMask ≠ 0 →
          exec (.endloop h label) s = .next { s with
            contMask := contTop, pc := s.pcAt (label.toNat + 1) }) ∧
        (s.condMask &&& s.loopMask &&& contTop &&& s.funcMask = 0 →
          exec (.endloop h label) s = .next { s with
            loopMask := loopTop, loopStack := loops, contMask := contTop, contStack := conts
            pc := s.pcAt (i + 1) }))

/-- BRK and CONT clear the live lanes from Loop and from Cont (R170, R171). -/
def Obligations.BrkContResult : Prop :=
  (∀ r : Record, (r.opcode = 0x7D → decode r = .ok (.brk r.hdrReserved)) ∧
    (r.opcode = 0x7E → decode r = .ok (.cont r.hdrReserved))) ∧
  ∀ (s : State) (i : Nat), s.pc = .running i →
    let live := s.condMask &&& s.loopMask &&& s.contMask &&& s.funcMask
    (∀ h : HdrReserved, h ≠ 0 → exec (.brk h) s = .next (s.raiseFatal .illegalEncoding i) ∧
      exec (.cont h) s = .next (s.raiseFatal .illegalEncoding i)) ∧
    exec (.brk 0) s = .next { s with
      loopMask := s.loopMask &&& ~~~live, pc := s.pcAt (i + 1) } ∧
    exec (.cont 0) s = .next { s with
      contMask := s.contMask &&& ~~~live, pc := s.pcAt (i + 1) }

/-- CAL with a live lane pushes the return entry and the four masks and jumps; without one it
advances; its label is checked either way and its five stacks only when the call is taken (R175). -/
def Obligations.CalResult : Prop :=
  (∀ r : Record, r.opcode = 0x7F → decode r = .ok (.cal r.hdrReserved r.w1)) ∧
  ∀ (s : State) (i : Nat) (h : HdrReserved) (label : Word), s.pc = .running i →
    let live := s.condMask &&& s.loopMask &&& s.contMask &&& s.funcMask
    let full := s.cfg.maxNest ≤ s.callStack.length ∨ s.cfg.maxNest ≤ s.condStack.length ∨
      s.cfg.maxNest ≤ s.loopStack.length ∨ s.cfg.maxNest ≤ s.contStack.length ∨
      s.cfg.maxNest ≤ s.funcStack.length
    (h ≠ 0 ∨ s.numInstr < label.toNat →
      exec (.cal h label) s = .next (s.raiseFatal .illegalEncoding i)) ∧
    (h = 0 → label.toNat ≤ s.numInstr →
      (live = 0 → exec (.cal h label) s = .next { s with pc := s.pcAt (i + 1) }) ∧
      (live ≠ 0 → full → exec (.cal h label) s = .next (s.raiseFatal .stackOverflow i)) ∧
      (live ≠ 0 → ¬full → exec (.cal h label) s = .next { s with
        callStack := s.callStack ++
          [⟨i + 1, s.condStack.length, s.loopStack.length, s.contStack.length⟩]
        condStack := s.condStack ++ [s.condMask], loopStack := s.loopStack ++ [s.loopMask]
        contStack := s.contStack ++ [s.contMask], funcStack := s.funcStack ++ [s.funcMask]
        pc := s.pcAt label.toNat }))

/-- RET clears the live lanes from Func; when none is left it halts outside a call, and inside one it
restores the masks the CAL saved, or is STACK_UNDERFLOW where the callee popped them (R176). -/
def Obligations.RetResult : Prop :=
  (∀ r : Record, r.opcode = 0x80 → decode r = .ok (.ret r.hdrReserved)) ∧
  ∀ (s : State) (i : Nat), s.pc = .running i →
    let func := s.funcMask &&& ~~~(s.condMask &&& s.loopMask &&& s.contMask &&& s.funcMask)
    (∀ h : HdrReserved, h ≠ 0 → exec (.ret h) s = .next (s.raiseFatal .illegalEncoding i)) ∧
    (func ≠ 0 → exec (.ret 0) s = .next { s with funcMask := func, pc := s.pcAt (i + 1) }) ∧
    (func = 0 → s.callStack = [] →
      exec (.ret 0) s = .next { s with funcMask := func, pc := .halted }) ∧
    (func = 0 → ∀ calls e funcs funcTop, s.callStack = calls ++ [e] →
      s.funcStack = funcs ++ [funcTop] →
      (s.condStack.length ≤ e.condDepth ∨ s.loopStack.length ≤ e.loopDepth ∨
        s.contStack.length ≤ e.contDepth →
        exec (.ret 0) s = .next (s.raiseFatal .stackUnderflow i)) ∧
      ∀ cond loop cont, s.condStack[e.condDepth]? = some cond →
        s.loopStack[e.loopDepth]? = some loop → s.contStack[e.contDepth]? = some cont →
        exec (.ret 0) s = .next { s with
          callStack := calls, funcMask := funcTop, funcStack := funcs
          condMask := cond, condStack := s.condStack.take e.condDepth
          loopMask := loop, loopStack := s.loopStack.take e.loopDepth
          contMask := cont, contStack := s.contStack.take e.contDepth
          pc := s.pcAt e.retPc })

/-- The lanes an IF leaves live and those its ELSE makes live are disjoint and together the lanes
live before the IF, a second ELSE flips back, and the ENDIF restores Cond and CondStack (R166, R167,
R178). The states u, v, w stand anywhere in the bodies, where Cond and CondStack are as the IF or the
ELSE left them. -/
def Obligations.IfElseEndifLaw : Prop :=
  ∀ (s t u u' v v' w w' : State) (i j k n : Nat) (a : Src), s.pc = .running i →
    exec (.if_ 0 a) s = .next t → t.status = .running → s.status = .running →
    u.pc = .running j → u.condMask = t.condMask → u.condStack = t.condStack →
    exec (.else_ 0) u = .next u' →
    v.pc = .running k → v.condMask = u'.condMask → v.condStack = u'.condStack →
    exec (.else_ 0) v = .next v' →
    w.pc = .running n → w.condStack = t.condStack → exec (.endif 0) w = .next w' →
    t.condMask &&& u'.condMask = 0 ∧ t.condMask ||| u'.condMask = s.condMask ∧
    u'.condStack = t.condStack ∧ v'.condMask = t.condMask ∧
    w'.condMask = s.condMask ∧ w'.condStack = s.condStack

/-! ### Fatal errors -/

/-- An instruction raises ILLEGAL_ENCODING exactly when one of the field checks of R102 fails: those of
`wellFormed` on the instruction, and on the bits of any record it is decoded from, those of
`illegalRecord`. -/
def Obligations.IllegalEncodingExactly : Prop :=
  ∀ (s : State) (i : Nat) (ins : Instr), s.status = .running → s.pc = .running i →
    (exec ins s = .next (s.raiseFatal .illegalEncoding i) ↔
      ins.wellFormed s.cfg s.numInstr = false) ∧
    ∀ r : Record, decode r = .ok ins →
      (exec ins s = .next (s.raiseFatal .illegalEncoding i) ↔
        illegalRecord s.cfg.numSamplers s.numInstr r ins)

/-- A legal instruction with an operand outside its file in any lane, live or not, raises
INDEX_OUT_OF_BOUNDS, whatever the write mask, the swizzles and the stacks (R128, R352, R361). -/
def Obligations.OperandOutsideFaults : Prop :=
  ∀ (s : State) (i : Nat) (ins : Instr), s.pc = .running i →
    ins.wellFormed s.cfg s.numInstr = true → s.operandOutside ins →
    exec ins s = .next { s with status := .faulted .indexOutOfBounds (.instr i) }

/-- The register an operand names in lane l: INDEX plus the indirect term, a mathematical integer,
with the second dimension times the stride of R127, and the bound check against the sizes of R128: IMM
has the NumImm registers of the bound program (R126, R127, R128, R132). That NULL and an unassigned FILE
have no register, and that a file without a second dimension has the stride 1, is the model's choice for
operands that are refused before (R102; assumption log 20). -/
def Obligations.OperandIndexRule : Prop :=
  ∀ (s : State) (l : Lane),
    let term (ind : Option Channel) : Int := match ind with
      | none => 0
      | some c => (s.readReg .addr 0 c l).toInt
    let size (f : RegFile) : Nat := match f with
      | .temp => s.cfg.numTemp
      | .input => s.cfg.numInput
      | .output => s.cfg.numOutput
      | .addr => 1
      | .pred => s.cfg.numPred
      | .imm => s.prog.imms.length
      | .const => s.cfg.numConstBufs * s.cfg.constStride
      | .null | .unassigned _ => 0
    let stride (f : RegFile) : Nat := match f with
      | .input => s.cfg.inputStride
      | .const => s.cfg.constStride
      | .null | .temp | .output | .addr | .pred | .imm | .unassigned _ => 1
    (∀ (o : Src) (r : Nat), o.dim = none →
      (s.srcIndex o l = some r ↔
        (r : Int) = o.index.toInt + term o.ind ∧ r < size o.file)) ∧
    (∀ (o : Src) (d : DimIndex) (r : Nat), o.dim = some d →
      (s.srcIndex o l = some r ↔ ∃ i k : Nat,
        (i : Int) = o.index.toInt + term o.ind ∧ (k : Int) = d.index.toInt + term d.ind ∧
        i < stride o.file ∧ k < size o.file / stride o.file ∧ r = k * stride o.file + i)) ∧
    (∀ (o : Dst) (r : Nat), o.file ≠ .null →
      (s.dstIndex o l = some r ↔
        (r : Int) = o.index.toInt + term o.ind ∧ r < size o.file)) ∧
    (∀ o : Dst, o.file = .null → s.dstIndex o l ≠ none)

/-- A fatal error is precise and final: the step that raises it changes nothing but Status, which
records the instruction the pc still points at, and no later step changes anything (R355, R362). -/
def Obligations.FatalErrorIsPrecise : Prop :=
  ∀ (s t : State) (code : FatalCode) (place : FaultAt), s.status = .running → step s = .next t →
    t.status = .faulted code place →
    ∃ i, s.pc = .running i ∧ place = .instr i ∧
      t = { s with status := .faulted code (.instr i) } ∧ step t = .next t

/-! ### Invariants -/

/-- Every step keeps the invariant: canonical bounded storage, stacks within MAX_NEST, the call and
function stacks of one depth, return indices of 32 bits, a running pc inside the program, and a Status
that agrees with the pc and Kill (R40, R43, R44, R46, R47). That MAX_INSTR is below 2^32 is the
model's choice (assumption log 17). -/
def Obligations.StepKeepsInvariant : Prop :=
  ∀ s t : State, s.Inv → step s = .next t → t.Inv

/-- The state after power-on satisfies the invariant and has its masks nested, and in it is what the
spec fixes: nothing runs, no program is bound, the masks are fully live and the stacks empty (R55,
R380). -/
def Obligations.PowerOnStateAndInvariant : Prop :=
  State.reset.Inv ∧ State.reset.MasksNested ∧
  State.reset.pc = .halted ∧ State.reset.status = .idle ∧
  State.reset.prog = { stage := .vertex, instrs := [], decls := [], imms := [] } ∧
  State.reset.condMask = 0xF ∧ State.reset.loopMask = 0xF ∧ State.reset.contMask = 0xF ∧
  State.reset.funcMask = 0xF ∧ State.reset.execMask = 0xF ∧ State.reset.condStack = [] ∧
  State.reset.loopStack = [] ∧ State.reset.contStack = [] ∧ State.reset.funcStack = [] ∧
  State.reset.callStack = [] ∧ State.reset.kill = 0 ∧ State.reset.outCursor = 0

/-- Every host operation that is accepted keeps the invariant (R330, R332, R346). -/
def Obligations.HostOperationsKeepInvariant : Prop :=
  ∀ s t : State, s.Inv →
    (∀ p, hostBind p s = .next t → t.Inv) ∧
    (hostRun s = .next t → t.Inv) ∧
    (∀ f i c l v, hostWriteReg f i c l v s = .next t → t.Inv) ∧
    (∀ i c v, hostWriteConst i c v s = .next t → t.Inv) ∧
    (∀ c l code, hostWriteCc c l code s = .next t → t.Inv) ∧
    (∀ x y w, hostWriteQuad x y w s = .next t → t.Inv) ∧
    (∀ i c a dx dy, hostWriteCoef i c a dx dy s = .next t → t.Inv)

/-- Every step keeps each of the four masks nested in its stack: no instruction makes a lane live
that an enclosing construct saved as dead (R165 to R176). -/
def Obligations.StepKeepsMasksNested : Prop :=
  ∀ s t : State, s.MasksNested → step s = .next t → t.MasksNested

/-- No step changes the program, the immediates, the configuration, the Input file, the constants,
the quad position, the coefficients or the output cursor (R21, R23, R28, R46, R50, R51, R72), nor the
model's own field that says which request is never answered (assumption log 13). -/
def Obligations.StepKeepsReadOnlyState : Prop :=
  ∀ s t : State, step s = .next t →
    t.cfg = s.cfg ∧ t.prog = s.prog ∧ t.input = s.input ∧ t.const = s.const ∧
    t.quadX = s.quadX ∧ t.quadY = s.quadY ∧ t.quadW = s.quadW ∧
    t.a0 = s.a0 ∧ t.dadx = s.dadx ∧ t.dady = s.dady ∧ t.outCursor = s.outCursor ∧
    t.samplerSilentAt = s.samplerSilentAt

/-- An instruction outside the control-flow group leaves the masks and the stacks as they are and,
unless it faults, advances the pc by one (R41, R121); a texture instruction whose request is never
answered stays where it is (R388; assumption log 13). -/
def Obligations.OnlyFlowChangesMasksAndPc : Prop :=
  ∀ (s t : State) (i : Nat) (ins : Instr), s.status = .running → s.pc = .running i →
    ins.isFlow = false → exec ins s = .next t →
    t.condMask = s.condMask ∧ t.loopMask = s.loopMask ∧ t.contMask = s.contMask ∧
    t.funcMask = s.funcMask ∧ t.condStack = s.condStack ∧ t.loopStack = s.loopStack ∧
    t.contStack = s.contStack ∧ t.funcStack = s.funcStack ∧ t.callStack = s.callStack ∧
    (ins.isTexture = true ∧ s.silent → t.status = .running → t.pc = s.pc) ∧
    (¬(ins.isTexture = true ∧ s.silent) → t.status = .running → t.pc = s.pcAt (i + 1))

/-- No instruction changes a register cell, a condition code or the Kill bit of a lane that is not
in ExecMask (R134, R137, R320, R321). -/
def Obligations.DeadLanesUnchanged : Prop :=
  ∀ (s t : State) (i : Nat) (ins : Instr) (l : Lane), s.Inv → s.pc = .running i →
    exec ins s = .next t → s.execMask.has l = false →
    (∀ f r c, t.readReg f r c l = s.readReg f r c l) ∧
    (∀ c, (t.cc.get c).get l = (s.cc.get c).get l) ∧ t.kill.has l = s.kill.has l

/-- The lanes of one instruction do not observe each other: for every instruction but the texture
and control-flow ones, two states that agree in lane l, whatever their other lanes hold, agree in
lane l after it, unless one of them faults (R68). -/
def Obligations.LanesDoNotObserveEachOther : Prop :=
  ∀ (s s' t t' : State) (i : Nat) (ins : Instr) (l : Lane), s.Inv → s'.Inv →
    s.status = .running → s'.status = .running → s.pc = .running i →
    ins.isTexture = false → ins.isFlow = false → AgreeInLane l s s' →
    exec ins s = .next t → exec ins s' = .next t' → t.status = .running → t'.status = .running →
    AgreeInLane l t t'

/-- After a MOV without saturation or predicate, with the full write mask and all lanes live, a fetch
of the destination with the identity swizzle gives what the fetch of the source gave (R138). -/
def Obligations.MovRoundTrip : Prop :=
  ∀ (s : State) (i : Nat) (m : Mods) (d : Dst) (a o : Src) (rd ra : Quad Nat),
    s.Ready i m d rd [(a, ra)] → m.sat = .none → m.ccPred = none → d.writeMask = 0xF →
    s.execMask = 0xF → d.file ≠ .null → o.file = d.file →
    o.swz = ⟨.chan .x, .chan .y, .chan .z, .chan .w⟩ → o.sign = .keep → o.complement = false →
    ∃ t, exec (.mov m d a) s = .next t ∧ ∀ c l, t.fetch o rd c l = s.fetch a ra c l

/-! ### Modifiers and condition codes -/

/-- The sign modes act on bit 31 alone, and on a float value, infinities included, as absolute value,
negation and the negated absolute value (R130). Fetch delivers the register channel that the selector
names in the lane's register, or 0.0 or 1.0 (R129), then applies the sign mode, and then takes it from
1.0 where the operand carries COMPLEMENT (R125, R131). A channel of IMM[k] is that channel of vector k
of the bound program's immediates, in every lane (R27). -/
def Obligations.SignModeRule : Prop :=
  (∀ x : Word,
    (applySign .keep x = x ∧ applySign .toggle x = x ^^^ 0x80000000 ∧
      applySign .clear x = x &&& 0x7FFFFFFF ∧ applySign .set x = x ||| 0x80000000) ∧
    ∀ v : EReal, HasValue x v →
      HasValue (applySign .toggle x) (-v) ∧ HasValue (applySign .clear x) (max v (-v)) ∧
      HasValue (applySign .set x) (-max v (-v))) ∧
  (∀ (s : State) (k : Nat) (v : Chans Word), s.prog.imms[k]? = some v → ∀ l : Lane,
    s.readReg .imm k .x l = v.x ∧ s.readReg .imm k .y l = v.y ∧
    s.readReg .imm k .z l = v.z ∧ s.readReg .imm k .w l = v.w) ∧
  ∀ (s : State) (o : Src) (ra : Quad Nat) (c : Channel) (l : Lane) (v : Word),
    ((∃ k, o.swz.get c = .chan k ∧ v = s.readReg o.file (ra.get l) k l) ∨
      (o.swz.get c = .zero ∧ v = 0) ∨ (o.swz.get c = .one ∧ v = 0x3F800000)) →
    let w := match o.sign with
      | .keep => v
      | .toggle => v ^^^ 0x80000000
      | .clear => v &&& 0x7FFFFFFF
      | .set => v ||| 0x80000000
    s.fetch o ra c l = (if o.complement then fsub 0x3F800000 w else w) ∧
      (s.fetchLane o ra l).get c = s.fetch o ra c l

/-- Saturation clamps to [0,1] or to [-1,1]: a NaN goes to the lower bound, a value inside is
unchanged bit for bit (R136). -/
def Obligations.SaturationRule : Prop :=
  ∀ x : Word, saturate .none x = x ∧
    (isNaN x = true → saturate .zeroOne x = 0 ∧ saturate .minusPlusOne x = 0xBF800000) ∧
    ∀ v : EReal, HasValue x v →
      (v ≤ 0 → saturate .zeroOne x = 0) ∧ (0 < v → v < 1 → saturate .zeroOne x = x) ∧
      (1 ≤ v → saturate .zeroOne x = 0x3F800000) ∧
      (v ≤ -1 → saturate .minusPlusOne x = 0xBF800000) ∧
      (-1 < v → v < 1 → saturate .minusPlusOne x = x) ∧
      (1 ≤ v → saturate .minusPlusOne x = 0x3F800000)

/-- The condition code of a stored value is its sign as a float, and the tests of a predicate read
the four codes as the table of R135 says (R135, R137). A store covers channel c in lane l exactly where
bit c of the write mask is set, bit 0 for X (R122), the lane is in all four masks, and the predicate, if
there is one, passes the code of the channel that CC_SWZ selects for c in that lane (R134, R135). -/
def Obligations.ConditionCodeRule : Prop :=
  (∀ w : Word, (isNaN w = true → ccCode w = .un) ∧
    ∀ v : EReal, HasValue w v →
      (0 < v → ccCode w = .gt) ∧ (v = 0 → ccCode w = .eq) ∧ (v < 0 → ccCode w = .lt)) ∧
  (∀ k : CcCode,
    (ccTest .gt k = true ↔ k = .gt) ∧ (ccTest .eq k = true ↔ k = .eq) ∧
    (ccTest .lt k = true ↔ k = .lt) ∧ (ccTest .ge k = true ↔ k = .gt ∨ k = .eq) ∧
    (ccTest .le k = true ↔ k = .lt ∨ k = .eq) ∧ (ccTest .ne k = true ↔ k ≠ .eq) ∧
    ccTest .tr k = true ∧ ccTest .fl k = false) ∧
  ∀ (s : State) (m : Mods) (d : Dst) (c : Channel) (l : Lane),
    s.covers m d c l = true ↔
      d.writeMask.getLsbD (match c with | .x => 0 | .y => 1 | .z => 2 | .w => 3) = true ∧
      (s.condMask &&& s.loopMask &&& s.contMask &&& s.funcMask).getLsbD l.val = true ∧
      ∀ p, m.ccPred = some p → ccTest p.test ((s.cc.get (p.swz.get c)).get l) = true

/-! ### Float numerics -/

/-- The value of a pattern read as binary32, from its sign bit, exponent field and fraction field
(R190). -/
def Obligations.FloatFormat : Prop :=
  ∀ x : Word,
    let e := (x.extractLsb' 23 8).toNat
    let f := (x.extractLsb' 0 23).toNat
    let sign : ℚ := if x.getLsbD 31 then -1 else 1
    (isNaN x = true ↔ e = 255 ∧ f ≠ 0) ∧
    (e = 255 → f = 0 → HasValue x (if x.getLsbD 31 then ⊥ else ⊤)) ∧
    (e = 0 → fvalue x = some (sign * (f : ℚ) / 2 ^ 149)) ∧
    (0 < e → e < 255 → fvalue x = some (sign * (1 + (f : ℚ) / 2 ^ 23) * (2 : ℚ) ^ ((e : Int) - 127)))

/-- The comparisons compare float values, infinities included; a NaN is different from everything
and in no order with anything (R193). -/
def Obligations.ComparisonsByValue : Prop :=
  ∀ a b : Word,
    (isNaN a = true ∨ isNaN b = true → fne a b = true ∧ flt a b = false ∧ fle a b = false ∧
      fgt a b = false ∧ fge a b = false ∧ feq a b = false) ∧
    ∀ p q : EReal, HasValue a p → HasValue b q →
      (flt a b = true ↔ p < q) ∧ (fle a b = true ↔ p ≤ q) ∧ (fgt a b = true ↔ q < p) ∧
      (fge a b = true ↔ q ≤ p) ∧ (feq a b = true ↔ p = q) ∧ (fne a b = true ↔ p ≠ q)

/-- Addition, subtraction, multiplication and fused multiply-add of finite operands are the exact
result rounded to nearest, ties to even, with the IEEE sign of an exact zero (R192). -/
def Obligations.ArithmeticCorrectlyRounded : Prop :=
  ∀ (a b c : Word) (p q r : ℚ), fvalue a = some p → fvalue b = some q → fvalue c = some r →
    RoundsTo ((p + q : ℚ) : ℝ) (fsign a && fsign b) (fadd a b) ∧
    RoundsTo ((p - q : ℚ) : ℝ) (fsign a && !fsign b) (fsub a b) ∧
    RoundsTo ((p * q : ℚ) : ℝ) (fsign a != fsign b) (fmul a b) ∧
    RoundsTo ((p * q + r : ℚ) : ℝ) ((fsign a != fsign b) && fsign c) (ffma a b c)

/-- Division by a non-zero number and the square root of a number that is not negative are the exact
result rounded to nearest, ties to even (R192). -/
def Obligations.DivisionAndRootCorrectlyRounded : Prop :=
  ∀ (a b : Word) (p q : ℚ), fvalue a = some p → fvalue b = some q →
    (q ≠ 0 → RoundsTo ((p / q : ℚ) : ℝ) (fsign a != fsign b) (fdiv a b)) ∧
    (0 ≤ p → RoundsTo (Real.sqrt (p : ℝ)) (fsign a) (fsqrt a))

/-- The special cases: a NaN operand gives a NaN, and so do inf - inf, 0 * inf, 0/0, inf/inf and the
root of a negative number; a finite non-zero number over zero is an infinity; and an infinity with a
finite operand, or with another infinity, gives what IEEE 754 says, in the fused multiply-add too
(R192). Which NaN is a free value. -/
def Obligations.FloatSpecialCases : Prop :=
  ∀ a b : Word,
    (isNaN a = true ∨ isNaN b = true → isNaN (fadd a b) = true ∧ isNaN (fsub a b) = true ∧
      isNaN (fmul a b) = true ∧ isNaN (fdiv a b) = true ∧
      (∀ c, isNaN (ffma a b c) = true ∧ isNaN (ffma c a b) = true)) ∧
    (isNaN a = true → isNaN (fsqrt a) = true ∧ isNaN (ffloor a) = true ∧ isNaN (fceil a) = true ∧
      isNaN (ftrunc a) = true ∧ ∀ ties, isNaN (fround ties a) = true) ∧
    (isInf a = true → isInf b = true → (fsign a ≠ fsign b → isNaN (fadd a b) = true) ∧
      (fsign a = fsign b → isNaN (fsub a b) = true ∧ fadd a b = a) ∧ isNaN (fdiv a b) = true) ∧
    (isInf a = true → fvalue b = some 0 → isNaN (fmul a b) = true ∧ isNaN (fmul b a) = true) ∧
    (fvalue a = some 0 → fvalue b = some 0 → isNaN (fdiv a b) = true) ∧
    (∀ p, fvalue a = some p → p ≠ 0 → fvalue b = some 0 →
      fdiv a b = finf (fsign a != fsign b)) ∧
    (∀ p, fvalue a = some p → p < 0 → isNaN (fsqrt a) = true) ∧
    (isInf a = true → isInf b = true → fsign a ≠ fsign b → fsub a b = a) ∧
    (isInf a = true → ∀ q, fvalue b = some q →
      fadd a b = a ∧ fadd b a = a ∧ fsub a b = a ∧ fsub b a = finf (!fsign a) ∧
      fdiv a b = finf (fsign a != fsign b) ∧ fdiv b a = fzero (fsign b != fsign a)) ∧
    (isInf a = true → (isInf b = true ∨ ∃ q, fvalue b = some q ∧ q ≠ 0) →
      fmul a b = finf (fsign a != fsign b) ∧ fmul b a = finf (fsign b != fsign a) ∧
      ∀ c, isInf c = true ∨ (∃ r, fvalue c = some r) →
        if isInf c = true ∧ fsign c ≠ (fsign a != fsign b)
        then isNaN (ffma a b c) = true ∧ isNaN (ffma b a c) = true
        else ffma a b c = finf (fsign a != fsign b) ∧ ffma b a c = finf (fsign b != fsign a)) ∧
    (isInf a = true → fvalue b = some 0 → ∀ c,
      isNaN (ffma a b c) = true ∧ isNaN (ffma b a c) = true) ∧
    (∀ p q, fvalue a = some p → fvalue b = some q → ∀ c, isInf c = true → ffma a b c = c) ∧
    (isInf a = true →
      (fsign a = false → fsqrt a = a) ∧ (fsign a = true → isNaN (fsqrt a) = true))

/-- The rounding instructions' functions, by value: floor, ceiling, truncation and nearest with the
configured ties, exact, with the operand's sign on a zero, and infinities kept (R192). -/
def Obligations.IntegralRoundingByValue : Prop :=
  ∀ x : Word,
    (isInf x = true → ffloor x = x ∧ fceil x = x ∧ ftrunc x = x ∧ ∀ ties, fround ties x = x) ∧
    ∀ p : ℚ, fvalue x = some p →
      fvalue (ffloor x) = some (⌊p⌋ : ℚ) ∧ fvalue (fceil x) = some (⌈p⌉ : ℚ) ∧
      fvalue (ftrunc x) = some ((if 0 ≤ p then ⌊p⌋ else ⌈p⌉ : ℤ) : ℚ) ∧
      fsign (ffloor x) = fsign x ∧ fsign (fceil x) = fsign x ∧ fsign (ftrunc x) = fsign x ∧
      ∀ ties, ∃ n : ℤ, fvalue (fround ties x) = some (n : ℚ) ∧ fsign (fround ties x) = fsign x ∧
        |p - n| ≤ 1 / 2 ∧ (|p - n| = 1 / 2 → match ties with
          | .even => Even n
          | .away => |p| < |(n : ℚ)|
          | .halfUp => p < n)

/-- The conversions by value: truncation toward zero where the result is in range, else the free
value; and the nearest binary32 number, ties to even (R275 to R278). -/
def Obligations.ConversionsByValue : Prop :=
  (∀ (x : Word) (p : ℚ), fvalue x = some p →
    let t : ℤ := if 0 ≤ p then ⌊p⌋ else ⌈p⌉
    f2i x = (if -2 ^ 31 ≤ t ∧ t ≤ 2 ^ 31 - 1 then BitVec.ofInt 32 t else Config.f2iOor x) ∧
    f2u x = (if 0 ≤ t ∧ t ≤ 2 ^ 32 - 1 then BitVec.ofInt 32 t else Config.f2uOor x)) ∧
  (∀ x : Word, isNaN x = true ∨ isInf x = true →
    f2i x = Config.f2iOor x ∧ f2u x = Config.f2uOor x) ∧
  ∀ a : Word, RoundsTo (a.toInt : ℝ) false (i2f a) ∧ RoundsTo (a.toNat : ℝ) false (u2f a)

/-- A float literal of the assembly is the binary32 number nearest to the decimal number it writes, ties
to even (R112). That literals are data is the model's choice (assumption log 22). -/
def Obligations.LiteralCorrectlyRounded : Prop :=
  ∀ (neg : Bool) (digits : Nat) (exp10 : Int),
    RoundsTo ((if neg then -1 else 1) * (digits : ℝ) * (10 : ℝ) ^ exp10) neg
      (Literal.float neg digits exp10).word

/-! ### Bind, Run, the host port -/

/-- Bind: a program that does not fit is refused without a change, a fatal error is recorded in
Status and keeps the program, and success replaces the program and nothing else but pc and Status;
a declaration is an ILLEGAL_ENCODING where a reserved bit is set, INTERP is 3 or FILE is 8 to 15, and
else an INDEX_OUT_OF_BOUNDS where it is an Input range outside the file (R330, R331, R354, R358). The
order among several bad declarations is the model's choice (assumption log 15). -/
def Obligations.BindRule : Prop :=
  (∀ (s : State) (p : Prog),
     (s.status = .running → hostBind p s = .refused .hostWhileRunning) ∧
     (s.status ≠ .running →
       (s.cfg.maxInstr < p.instrs.length ∨ s.cfg.maxDecl < p.decls.length →
         hostBind p s = .refused .bindError) ∧
       (p.instrs.length ≤ s.cfg.maxInstr → p.decls.length ≤ s.cfg.maxDecl →
         (s.cfg.maxImm < p.imms.length →
           hostBind p s = .next { s with status := .faulted .immPoolOverflow .bind }) ∧
         (p.imms.length ≤ s.cfg.maxImm →
           ((∀ r ∈ p.decls, declFault s.cfg r = none) →
             hostBind p s = .next { s with prog := p, pc := .halted, status := .idle }) ∧
           ∀ before r after code, p.decls = before ++ r :: after →
             (∀ q ∈ before, declFault s.cfg q = none) → declFault s.cfg r = some code →
             hostBind p s = .next { s with status := .faulted code .bind })))) ∧
  ∀ (cfg : Cfg) (r : DeclRecord),
    let bad := 1024 ≤ r.dw0.toNat ∨ r.dw0.extractLsb' 8 2 = 3 ∨ 8 ≤ (r.dw0.extractLsb' 0 4).toNat
    let first := r.dw1.toNat % 65536
    let last := r.dw1.toNat / 65536
    declFault cfg r =
      if bad then some .illegalEncoding
      else if r.dw0.extractLsb' 0 4 = 2 ∧ (last < first ∨ cfg.numInput ≤ last) then
        some .indexOutOfBounds
      else none

/-- Run up to its first instruction: the Run reset, Status Running, interpolation, and pc at index 0;
the program, the register files but IN, CC, the constants and the host's data are kept; a Run while
Running is refused (R332, R381). -/
def Obligations.RunStartRule : Prop :=
  ∀ s : State,
    (s.status = .running → hostRun s = .refused .hostWhileRunning) ∧
    (s.status ≠ .running → hostRun s = .next { s with
      condMask := 0xF, loopMask := 0xF, contMask := 0xF, funcMask := 0xF
      condStack := [], loopStack := [], contStack := [], funcStack := [], callStack := []
      kill := 0, outCursor := 0, requests := [], samplerPending := none, status := .running
      input := s.interpSetup.input, pc := s.pcAt 0 })

/-- Interpolation set-up writes exactly the declared channels of the declared Input registers, the
last declaration winning, with the constant, linear or perspective value of the lane, and only for
the Fragment stage (R336 to R340). The fields of a declaration are read from its bits: FILE is DW0[3:0],
MASK DW0[7:4] with bit 4 for X, INTERP DW0[9:8], FIRST DW1[15:0], LAST DW1[31:16] (R331). INTERP = 3,
which no bound program has, counts as constant: the model's choice (assumption log 20). -/
def Obligations.InterpolationRule : Prop :=
  ∀ (s : State), s.storageWf = true →
    (s.prog.stage ≠ .fragment → s.interpSetup = s) ∧
    (s.prog.decls = [] → s.interpSetup = s) ∧
    ∀ (before : List DeclRecord) (r : DeclRecord), s.prog.stage = .fragment →
      s.prog.decls = before ++ [r] →
      ∀ (i : Nat) (c : Channel) (l : Lane),
        let first := r.dw1.toNat % 65536
        let last := r.dw1.toNat / 65536
        let maskBit := match c with | .x => 4 | .y => 5 | .z => 6 | .w => 7
        let earlier := { s with prog := { s.prog with decls := before } }.interpSetup
        let a := s.a0.read (vectorCellNo i c)
        let dx := s.dadx.read (vectorCellNo i c)
        let dy := s.dady.read (vectorCellNo i c)
        let base := fadd (fadd a (fmul dx s.quadX)) (fmul dy s.quadY)
        let lin : Quad Word := ⟨base, fadd base dx, fadd base dy, fadd (fadd base dx) dy⟩
        s.interpSetup.readReg .input i c l =
          if r.dw0.extractLsb' 0 4 = 2 ∧ first ≤ i ∧ i ≤ last ∧ r.dw0.getLsbD maskBit = true
          then
            if r.dw0.extractLsb' 8 2 = 1 then lin.get l
            else if r.dw0.extractLsb' 8 2 = 2 then fdiv (lin.get l) (s.quadW.get l)
            else a
          else earlier.readReg .input i c l

/-- The host's accesses: those to the five register files and to CC read and write one cell, WriteConst
one constant that every lane sees, WriteQuad the quad position, WriteCoef the three coefficients of
one Input channel, and nothing else; an index outside its range is refused, and so is every access but
ReadStatus while a Run is in progress (R29, R51, R346, R385). That WriteConst and WriteCoef refuse an
index is the model's choice (assumption log 16). -/
def Obligations.HostRegisterAccess : Prop :=
  (∀ (s : State) (f : RegFile) (i : Nat) (c : Channel) (l : Lane) (v : Word), s.Inv →
    let reachable := (f = .temp ∨ f = .input ∨ f = .output ∨ f = .addr ∨ f = .pred) ∧
      i < s.fileSize f
    (s.status = .running → hostWriteReg f i c l v s = .refused .hostWhileRunning ∧
      hostReadReg f i c l s = .refused .hostWhileRunning) ∧
    (s.status ≠ .running →
      (¬reachable → hostWriteReg f i c l v s = .refused .hostIndex ∧
        hostReadReg f i c l s = .refused .hostIndex) ∧
      (reachable → hostReadReg f i c l s = .next (s.readReg f i c l) ∧
        ∃ t, hostWriteReg f i c l v s = .next t ∧ hostReadReg f i c l t = .next v ∧
          (∀ g j e k, (g, j, e, k) ≠ (f, i, c, l) → t.readReg g j e k = s.readReg g j e k) ∧
          t = { s with temp := t.temp, input := t.input, output := t.output, addr := t.addr,
                       pred := t.pred }))) ∧
  ∀ (s : State) (i : Nat) (c : Channel) (l : Lane) (v a dx dy x y : Word) (w : Quad Word)
    (code : BitVec 2), s.Inv →
    hostReadStatus s = s.status ∧
    (s.status = .running →
      hostWriteConst i c v s = .refused .hostWhileRunning ∧
      hostWriteCc c l code s = .refused .hostWhileRunning ∧
      hostReadCc c l s = .refused .hostWhileRunning ∧
      hostWriteQuad x y w s = .refused .hostWhileRunning ∧
      hostWriteCoef i c a dx dy s = .refused .hostWhileRunning) ∧
    (s.status ≠ .running →
      (s.cfg.numConstBufs * s.cfg.constStride ≤ i →
        hostWriteConst i c v s = .refused .hostIndex) ∧
      (i < s.cfg.numConstBufs * s.cfg.constStride → ∃ t, hostWriteConst i c v s = .next t ∧
        t = { s with const := t.const } ∧ ∀ j e k, t.readReg .const j e k =
          if j = i ∧ e = c then v else s.readReg .const j e k) ∧
      hostReadCc c l s = .next (match (s.cc.get c).get l with
        | .gt => 0 | .eq => 1 | .lt => 2 | .un => 3) ∧
      (∃ t, hostWriteCc c l code s = .next t ∧ t = { s with cc := t.cc } ∧
        hostReadCc c l t = .next code ∧
        ∀ e k, (e, k) ≠ (c, l) → (t.cc.get e).get k = (s.cc.get e).get k) ∧
      hostWriteQuad x y w s = .next { s with quadX := x, quadY := y, quadW := w } ∧
      (s.cfg.numInput ≤ i → hostWriteCoef i c a dx dy s = .refused .hostIndex) ∧
      (i < s.cfg.numInput → ∃ t, hostWriteCoef i c a dx dy s = .next t ∧
        t = { s with a0 := t.a0, dadx := t.dadx, dady := t.dady } ∧ ∀ j e,
          t.a0.read (vectorCellNo j e) =
            (if j = i ∧ e = c then a else s.a0.read (vectorCellNo j e)) ∧
          t.dadx.read (vectorCellNo j e) =
            (if j = i ∧ e = c then dx else s.dadx.read (vectorCellNo j e)) ∧
          t.dady.read (vectorCellNo j e) =
            (if j = i ∧ e = c then dy else s.dady.read (vectorCellNo j e))))
end

