-- ==== Sys2Proof/Laws/Data.lean ====
section
/-! SUPPORT. The small lemmas of the containers of Word.lean. -/

namespace Sys2Proof

@[simp] theorem Quad.get_ofFn {α : Type} (f : Lane → α) (l : Lane) : (Quad.ofFn f).get l = f l := by
  fin_cases l <;> rfl

@[simp] theorem Quad.get_splat {α : Type} (a : α) (l : Lane) : (Quad.splat a).get l = a := by
  fin_cases l <;> rfl

@[simp] theorem Chans.get_ofFn {α : Type} (f : Channel → α) (c : Channel) :
    (Chans.ofFn f).get c = f c := by
  cases c <;> rfl

@[simp] theorem Chans.get_splat {α : Type} (a : α) (c : Channel) : (Chans.splat a).get c = a := by
  cases c <;> rfl

@[simp] theorem Chans.ofFn_x {α : Type} (f : Channel → α) : (Chans.ofFn f).x = f .x := rfl
@[simp] theorem Chans.ofFn_y {α : Type} (f : Channel → α) : (Chans.ofFn f).y = f .y := rfl
@[simp] theorem Chans.ofFn_z {α : Type} (f : Channel → α) : (Chans.ofFn f).z = f .z := rfl
@[simp] theorem Chans.ofFn_w {α : Type} (f : Channel → α) : (Chans.ofFn f).w = f .w := rfl

/-- Two quads that agree in every lane are equal. -/
theorem Quad.ext_get {α : Type} {p q : Quad α} (h : ∀ l, p.get l = q.get l) : p = q := by
  cases p; cases q
  have h0 := h 0; have h1 := h 1; have h2 := h 2; have h3 := h 3
  simp only [Quad.get] at h0 h1 h2 h3
  simp_all

/-- Two channel values that agree in every channel are equal. -/
theorem Chans.ext_get {α : Type} {p q : Chans α} (h : ∀ c, p.get c = q.get c) : p = q := by
  cases p; cases q
  have h0 := h .x; have h1 := h .y; have h2 := h .z; have h3 := h .w
  simp only [Chans.get] at h0 h1 h2 h3
  simp_all

@[simp] theorem Quad.get_set {α : Type} (q : Quad α) (k l : Lane) (a : α) :
    (q.set k a).get l = if l = k then a else q.get l := by
  simp [Quad.set]

@[simp] theorem Chans.get_set {α : Type} (v : Chans α) (k c : Channel) (a : α) :
    (v.set k a).get c = if c = k then a else v.get c := by
  simp [Chans.set]

/-- All four lanes are present exactly when each one is. -/
theorem Quad.sequence_eq_some_iff {α : Type} (q : Quad (Option α)) (r : Quad α) :
    q.sequence = some r ↔ ∀ l, q.get l = some (r.get l) := by
  obtain ⟨a, b, c, d⟩ := q
  obtain ⟨a', b', c', d'⟩ := r
  constructor
  · intro h l
    cases a <;> cases b <;> cases c <;> cases d <;> simp [Quad.sequence] at h
    obtain ⟨rfl, rfl, rfl, rfl⟩ := h
    fin_cases l <;> rfl
  · intro h
    have h0 := h 0; have h1 := h 1; have h2 := h 2; have h3 := h 3
    simp only [Quad.get] at h0 h1 h2 h3
    simp_all [Quad.sequence]

/-- Some lane is missing exactly when the whole is. -/
theorem Quad.sequence_eq_none_iff {α : Type} (q : Quad (Option α)) :
    q.sequence = none ↔ ∃ l, q.get l = none := by
  constructor
  · intro h
    by_contra hn
    push Not at hn
    have hs : ∀ l, ∃ a, q.get l = some a := fun l => Option.ne_none_iff_exists'.mp (hn l)
    choose f hf using hs
    have : q.sequence = some (Quad.ofFn f) :=
      (Quad.sequence_eq_some_iff q _).mpr fun l => by simp [hf]
    simp [this] at h
  · rintro ⟨l, hl⟩
    cases hq : q.sequence with
    | none => rfl
    | some r => simp [(Quad.sequence_eq_some_iff q r).mp hq l] at hl

@[simp] theorem LaneMask.has_ofLanes (f : Lane → Bool) (l : Lane) :
    (LaneMask.ofLanes f).has l = f l := by
  have h : ∀ a b c d : Bool, ∀ k : Lane,
      (BitVec.ofBool d ++ BitVec.ofBool c ++ BitVec.ofBool b ++ BitVec.ofBool a).getLsbD k.val
        = (Quad.mk a b c d).get k := by decide
  rw [LaneMask.ofLanes, LaneMask.has, h]
  exact Quad.get_ofFn f l

/-- Two masks that agree in every lane are equal. -/
theorem LaneMask.ext_has {p q : LaneMask} (h : ∀ l, p.has l = q.has l) : p = q := by
  apply BitVec.eq_of_getLsbD_eq
  intro i hi
  exact h ⟨i, hi⟩

@[simp] theorem LaneMask.has_and (p q : LaneMask) (l : Lane) :
    LaneMask.has (p &&& q) l = (p.has l && q.has l) := by
  simp [LaneMask.has]

@[simp] theorem LaneMask.has_or (p q : LaneMask) (l : Lane) :
    LaneMask.has (p ||| q) l = (p.has l || q.has l) := by
  simp [LaneMask.has]

@[simp] theorem LaneMask.has_not (p : LaneMask) (l : Lane) :
    LaneMask.has (~~~p) l = !p.has l := by
  simp [LaneMask.has]

@[simp] theorem LaneMask.has_zero (l : Lane) : LaneMask.has 0#4 l = false := by
  simp [LaneMask.has]

/-- A channel is one of the four visited by the write-mask iteration. -/
@[simp] theorem Channel.mem_all (c : Channel) : c ∈ Channel.all := by cases c <;> decide

/-- A lane is one of the four. -/
@[simp] theorem Lane.mem_all (l : Lane) : l ∈ Lane.all := by fin_cases l <;> decide

theorem Channel.toNat_lt (c : Channel) : c.toNat < 4 := by cases c <;> decide

theorem Channel.toNat_injective {c c' : Channel} (h : c.toNat = c'.toNat) : c = c' := by
  cases c <;> cases c' <;> first | rfl | (exact absurd h (by decide))

end Sys2Proof
end

