-- ==== Sys2Proof/Laws/Cells.lean ====
section
/-! SUPPORT. The laws of cell storage: a read after a write, other cells kept, and the canonical form
kept by every write. -/

namespace Sys2Proof.Machine

@[simp] theorem CellMap.read_nil (k : Nat) : CellMap.read [] k = 0 := rfl

theorem CellMap.read_cons (k' : Nat) (v : Word) (rest : CellMap) (k : Nat) :
    CellMap.read ((k', v) :: rest) k = if k = k' then v else CellMap.read rest k := rfl

/-- The canonical form says that the listed cell numbers rise and no listed word is zero. -/
theorem CellMap.wf_iff (m : CellMap) :
    m.wf = true ↔ m.Pairwise (fun a b => a.1 < b.1) ∧ ∀ e ∈ m, e.2 ≠ 0 := by
  induction m with
  | nil => simp [CellMap.wf]
  | cons e rest ih =>
    obtain ⟨k, v⟩ := e
    simp only [CellMap.wf, Bool.and_eq_true, bne_iff_ne, ne_eq, ih, List.pairwise_cons,
      List.mem_cons, forall_eq_or_imp]
    constructor
    · rintro ⟨⟨hv, hh⟩, hp, hz⟩
      refine ⟨⟨?_, hp⟩, hv, hz⟩
      cases rest with
      | nil => simp
      | cons f tail =>
        intro b hb
        have hkf : k < f.1 := by simpa using hh
        rcases List.mem_cons.mp hb with rfl | hb
        · exact hkf
        · exact lt_trans hkf ((List.pairwise_cons.mp hp).1 b hb)
    · rintro ⟨⟨hk, hp⟩, hv, hz⟩
      refine ⟨⟨hv, ?_⟩, hp, hz⟩
      cases rest with
      | nil => rfl
      | cons f tail => simpa using hk f (by simp)

/-- A cell below every listed one reads as 0. -/
theorem CellMap.read_eq_zero (m : CellMap) (k : Nat) (h : ∀ e ∈ m, k < e.1) : m.read k = 0 := by
  induction m with
  | nil => rfl
  | cons e rest ih =>
    obtain ⟨k', v⟩ := e
    have hk : k < k' := h (k', v) (by simp)
    rw [CellMap.read_cons, if_neg (by omega)]
    exact ih fun f hf => h f (by simp [hf])

/-- What a cell reads as after a write, in a store in canonical form. -/
theorem CellMap.read_write (m : CellMap) (h : m.wf = true) (k : Nat) (v : Word) (k' : Nat) :
    (m.write k v).read k' = if k' = k then v else m.read k' := by
  rw [CellMap.wf_iff] at h
  induction m with
  | nil =>
    by_cases hv : v = 0
    · simp [CellMap.write, hv]
    · rw [CellMap.write, if_neg hv]; rfl
  | cons e rest ih =>
    obtain ⟨k₀, v₀⟩ := e
    obtain ⟨hp, hz⟩ := h
    rw [List.pairwise_cons] at hp
    have ih := ih ⟨hp.2, fun e he => hz e (by simp [he])⟩
    have hlow : ∀ j, j ≤ k₀ → CellMap.read rest j = 0 := fun j hj =>
      CellMap.read_eq_zero rest j fun f hf => lt_of_le_of_lt hj (hp.1 f hf)
    simp only [CellMap.write]
    by_cases h1 : k < k₀
    · by_cases hv : v = 0
      · simp only [h1, hv, if_true, CellMap.read_cons]
        by_cases hk : k' = k
        · subst hk; simp [Nat.ne_of_lt h1, hlow _ h1.le]
        · simp [hk]
      · rw [if_pos h1, if_neg hv]; simp only [CellMap.read_cons]
    · by_cases h2 : k = k₀
      · subst h2
        by_cases hv : v = 0
        · simp only [lt_irrefl, if_false, if_true, hv, CellMap.read_cons]
          by_cases hk : k' = k
          · subst hk; simp [hlow]
          · simp [hk]
        · simp only [lt_irrefl, if_false, if_true, hv, CellMap.read_cons]
          by_cases hk : k' = k <;> simp [hk]
      · simp only [h1, h2, if_false, CellMap.read_cons, ih]
        by_cases hk : k' = k₀
        · subst hk; simp [Ne.symm h2]
        · simp [hk]

/-- The cells listed after a write are the written one and earlier ones. -/
theorem CellMap.mem_write (m : CellMap) (k : Nat) (v : Word) (e : Nat × Word)
    (h : e ∈ m.write k v) : (e = (k, v) ∧ v ≠ 0) ∨ e ∈ m := by
  induction m with
  | nil =>
    rw [CellMap.write] at h
    split_ifs at h with hv
    · exact absurd h (by simp)
    · exact .inl ⟨List.mem_singleton.mp h, hv⟩
  | cons f rest ih =>
    obtain ⟨k₀, v₀⟩ := f
    simp only [CellMap.write] at h
    split_ifs at h with h1 hv h2 hv
    · exact .inr h
    · rcases List.mem_cons.mp h with rfl | h
      · exact .inl ⟨rfl, hv⟩
      · exact .inr h
    · exact .inr (by simp [h])
    · rcases List.mem_cons.mp h with rfl | h
      · exact .inl ⟨rfl, hv⟩
      · exact .inr (by simp [h])
    · rcases List.mem_cons.mp h with rfl | h
      · exact .inr (by simp)
      · rcases ih h with h | h
        · exact .inl h
        · exact .inr (by simp [h])

/-- A write keeps the canonical form. -/
theorem CellMap.write_wf (m : CellMap) (h : m.wf = true) (k : Nat) (v : Word) :
    (m.write k v).wf = true := by
  rw [CellMap.wf_iff] at h ⊢
  refine ⟨?_, fun e he => ?_⟩
  · induction m with
    | nil => rw [CellMap.write]; split_ifs <;> simp
    | cons f rest ih =>
      obtain ⟨k₀, v₀⟩ := f
      obtain ⟨hp, hz⟩ := h
      have hp' := List.pairwise_cons.mp hp
      have ih := ih ⟨hp'.2, fun e he => hz e (by simp [he])⟩
      simp only [CellMap.write]
      split_ifs with h1 hv h2 hv
      · exact hp
      · refine List.pairwise_cons.mpr ⟨fun b hb => ?_, hp⟩
        rcases List.mem_cons.mp hb with rfl | hb
        · exact h1
        · exact lt_trans h1 (hp'.1 b hb)
      · exact hp'.2
      · subst h2; exact List.pairwise_cons.mpr ⟨hp'.1, hp'.2⟩
      · refine List.pairwise_cons.mpr ⟨fun b hb => ?_, ih⟩
        rcases CellMap.mem_write rest k v b hb with ⟨rfl, -⟩ | hb
        · show k₀ < k; omega
        · exact hp'.1 b hb
  · rcases CellMap.mem_write m k v e he with ⟨rfl, hv⟩ | he
    · exact hv
    · exact h.2 e he

/-- A write below a bound keeps every listed cell below it. -/
theorem CellMap.write_below (m : CellMap) (n k : Nat) (v : Word) (hk : k < n)
    (h : m.below n = true) : (m.write k v).below n = true := by
  simp only [CellMap.below, List.all_eq_true, decide_eq_true_eq] at h ⊢
  intro e he
  rcases CellMap.mem_write m k v e he with ⟨rfl, -⟩ | he
  · exact hk
  · exact h e he

/-- Two canonical stores that read the same everywhere are equal data. -/
theorem CellMap.eq_of_read_eq (m n : CellMap) (hm : m.wf = true) (hn : n.wf = true)
    (h : ∀ k, m.read k = n.read k) : m = n := by
  rw [CellMap.wf_iff] at hm hn
  induction m generalizing n with
  | nil =>
    cases n with
    | nil => rfl
    | cons f rest =>
      have := h f.1
      obtain ⟨k, v⟩ := f
      simp only [CellMap.read_nil, CellMap.read_cons, if_true] at this
      exact absurd this.symm (hn.2 (k, v) (by simp))
  | cons e rest ih =>
    obtain ⟨k, v⟩ := e
    have hv : v ≠ 0 := hm.2 (k, v) (by simp)
    cases n with
    | nil =>
      have := h k
      simp only [CellMap.read_nil, CellMap.read_cons, if_true] at this
      exact absurd this hv
    | cons f tail =>
      obtain ⟨k', v'⟩ := f
      have hv' : v' ≠ 0 := hn.2 (k', v') (by simp)
      have hm' := List.pairwise_cons.mp hm.1
      have hn' := List.pairwise_cons.mp hn.1
      have lowm : ∀ j, j ≤ k → CellMap.read rest j = 0 := fun j hj =>
        CellMap.read_eq_zero rest j fun f hf => lt_of_le_of_lt hj (hm'.1 f hf)
      have lown : ∀ j, j ≤ k' → CellMap.read tail j = 0 := fun j hj =>
        CellMap.read_eq_zero tail j fun f hf => lt_of_le_of_lt hj (hn'.1 f hf)
      have hkk : k = k' := by
        by_contra hne
        rcases Nat.lt_or_gt_of_ne hne with hlt | hlt
        · have := h k
          simp [CellMap.read_cons, hne, lown k hlt.le] at this
          exact hv this
        · have := h k'
          simp [CellMap.read_cons, Ne.symm hne, lowm k' hlt.le] at this
          exact hv' this.symm
      subst hkk
      have hvv : v = v' := by simpa [CellMap.read_cons] using h k
      subst hvv
      congr 1
      refine ih tail ⟨hm'.2, fun e he => hm.2 e (by simp [he])⟩
        ⟨hn'.2, fun e he => hn.2 e (by simp [he])⟩ fun j => ?_
      by_cases hj : j = k
      · subst hj; rw [lowm _ le_rfl, lown _ le_rfl]
      · simpa [CellMap.read_cons, hj] using h j

/-- Cell numbers are distinct: a cell number fixes register, channel and lane. -/
theorem cellNo_inj {i j : Nat} {c e : Channel} {l k : Lane} :
    cellNo i c l = cellNo j e k ↔ i = j ∧ c = e ∧ l = k := by
  constructor
  · intro h
    simp only [cellNo] at h
    have hc := c.toNat_lt; have he := e.toNat_lt; have hl := l.isLt; have hk := k.isLt
    have h1 : i = j := by omega
    have h2 : c.toNat = e.toNat := by omega
    have h3 : l.val = k.val := by omega
    exact ⟨h1, Channel.toNat_injective h2, Fin.ext h3⟩
  · rintro ⟨rfl, rfl, rfl⟩; rfl

/-- The cells of a register of a file of n registers are below 16 n. -/
theorem cellNo_lt {i n : Nat} (h : i < n) (c : Channel) (l : Lane) : cellNo i c l < 16 * n := by
  have hc := c.toNat_lt; have hl := l.isLt
  simp only [cellNo]; omega

/-- Vector cell numbers are distinct. -/
theorem vectorCellNo_inj {i j : Nat} {c e : Channel} :
    vectorCellNo i c = vectorCellNo j e ↔ i = j ∧ c = e := by
  constructor
  · intro h
    simp only [vectorCellNo] at h
    have hc := c.toNat_lt; have he := e.toNat_lt
    exact ⟨by omega, Channel.toNat_injective (by omega)⟩
  · rintro ⟨rfl, rfl⟩; rfl

/-- The cells of a vector of a file of n vectors are below 4 n. -/
theorem vectorCellNo_lt {i n : Nat} (h : i < n) (c : Channel) : vectorCellNo i c < 4 * n := by
  have hc := c.toNat_lt
  simp only [vectorCellNo]; omega

end Sys2Proof.Machine
end

