-- ==== Sys2Proof/Laws/Decode.lean ====
section
/-! SUPPORT. The encoder's fields read back: each code table, each operand word, each shape of record,
and the forty bytes of a record. -/

namespace Sys2Proof

/-! ### Code tables -/

@[simp] theorem RegFile.ofBits_toBits (f : RegFile) : RegFile.ofBits f.toBits = f := by
  cases f with
  | unassigned low => revert low; decide
  | _ => rfl

@[simp] theorem Channel.ofBits_toBits (c : Channel) : Channel.ofBits c.toBits = c := by
  cases c <;> rfl

@[simp] theorem Selector.ofBits_toBits (c : Selector) : Selector.ofBits c.toBits = c := by
  cases c with
  | chan c => cases c <;> rfl
  | illegal low => cases low <;> rfl
  | _ => rfl

@[simp] theorem SignMode.ofBits_toBits (m : SignMode) : SignMode.ofBits m.toBits = m := by
  cases m <;> rfl

@[simp] theorem SatMode.ofBits_toBits (m : SatMode) : SatMode.ofBits m.toBits = m := by
  cases m <;> rfl

@[simp] theorem CcTest.ofBits_toBits (t : CcTest) : CcTest.ofBits t.toBits = t := by
  cases t <;> rfl

@[simp] theorem TexTarget.ofBits_toBits (t : TexTarget) : TexTarget.ofBits t.toBits = t := by
  cases t with
  | illegal low => cases low <;> rfl
  | _ => rfl

@[simp] theorem optChannel_isSome (i : Option Channel) :
    optChannel i.isSome (i.getD .x).toBits = i := by
  cases i <;> simp [optChannel]

/-! ### Fields of a concatenation -/

theorem slice_hi {v w s n : Nat} {hi : BitVec v} {lo : BitVec w} (h : w ≤ s) :
    (hi ++ lo).extractLsb' s n = hi.extractLsb' (s - w) n :=
  BitVec.extractLsb'_append_eq_of_le h

theorem slice_lo {v w s n : Nat} {hi : BitVec v} {lo : BitVec w} (h : s + n ≤ w) :
    (hi ++ lo).extractLsb' s n = lo.extractLsb' s n :=
  BitVec.extractLsb'_append_eq_of_add_le h

/-- A field of one bit, read as a Bool. -/
theorem bit_of_slice {w k : Nat} {x : BitVec w} {b : Bool}
    (h : x.extractLsb' k 1 = BitVec.ofBool b) : x.getLsbD k = b := by
  have := congrArg (fun y => y.getLsbD 0) h
  simpa using this

/-- The fields of operand word A (R83). -/
theorem catA_fields (r : BitVec 8) (x : BitVec 16) (c : BitVec 2) (d : BitVec 1) (i : BitVec 1)
    (f : BitVec 4) :
    (r ++ x ++ c ++ d ++ i ++ f).extractLsb' 0 4 = f ∧
    (r ++ x ++ c ++ d ++ i ++ f).extractLsb' 4 1 = i ∧
    (r ++ x ++ c ++ d ++ i ++ f).extractLsb' 5 1 = d ∧
    (r ++ x ++ c ++ d ++ i ++ f).extractLsb' 6 2 = c ∧
    (r ++ x ++ c ++ d ++ i ++ f).extractLsb' 8 16 = x ∧
    (r ++ x ++ c ++ d ++ i ++ f).extractLsb' 24 8 = r := by
  refine ⟨?_, ?_, ?_, ?_, ?_, ?_⟩ <;>
    (repeat first | rw [slice_lo (by decide)] | rw [slice_hi (by decide)]) <;>
    exact BitVec.extractLsb'_eq_self

/-- The fields of source word B (R84). -/
theorem catB_fields (x : BitVec 12) (r : BitVec 2) (c : BitVec 2) (i : BitVec 1) (n : BitVec 1)
    (g : BitVec 2) (sw : BitVec 3) (sz : BitVec 3) (sy : BitVec 3) (sx : BitVec 3) :
    (x ++ r ++ c ++ i ++ n ++ g ++ sw ++ sz ++ sy ++ sx).extractLsb' 0 3 = sx ∧
    (x ++ r ++ c ++ i ++ n ++ g ++ sw ++ sz ++ sy ++ sx).extractLsb' 3 3 = sy ∧
    (x ++ r ++ c ++ i ++ n ++ g ++ sw ++ sz ++ sy ++ sx).extractLsb' 6 3 = sz ∧
    (x ++ r ++ c ++ i ++ n ++ g ++ sw ++ sz ++ sy ++ sx).extractLsb' 9 3 = sw ∧
    (x ++ r ++ c ++ i ++ n ++ g ++ sw ++ sz ++ sy ++ sx).extractLsb' 12 2 = g ∧
    (x ++ r ++ c ++ i ++ n ++ g ++ sw ++ sz ++ sy ++ sx).extractLsb' 14 1 = n ∧
    (x ++ r ++ c ++ i ++ n ++ g ++ sw ++ sz ++ sy ++ sx).extractLsb' 15 1 = i ∧
    (x ++ r ++ c ++ i ++ n ++ g ++ sw ++ sz ++ sy ++ sx).extractLsb' 16 2 = c ∧
    (x ++ r ++ c ++ i ++ n ++ g ++ sw ++ sz ++ sy ++ sx).extractLsb' 18 2 = r ∧
    (x ++ r ++ c ++ i ++ n ++ g ++ sw ++ sz ++ sy ++ sx).extractLsb' 20 12 = x := by
  refine ⟨?_, ?_, ?_, ?_, ?_, ?_, ?_, ?_, ?_, ?_⟩ <;>
    (repeat first | rw [slice_lo (by decide)] | rw [slice_hi (by decide)]) <;>
    exact BitVec.extractLsb'_eq_self

/-- The fields of the header word (R81). -/
theorem catHdr_fields (r : BitVec 2) (u : BitVec 4) (t : BitVec 3) (pw : BitVec 2) (pz : BitVec
    2) (py : BitVec 2) (px : BitVec 2) (e : BitVec 3) (p : BitVec 1) (k : BitVec 1) (a : BitVec 2)
    (op : BitVec 8) :
    (r ++ u ++ t ++ pw ++ pz ++ py ++ px ++ e ++ p ++ k ++ a ++ op).extractLsb' 0 8 = op ∧
    (r ++ u ++ t ++ pw ++ pz ++ py ++ px ++ e ++ p ++ k ++ a ++ op).extractLsb' 8 2 = a ∧
    (r ++ u ++ t ++ pw ++ pz ++ py ++ px ++ e ++ p ++ k ++ a ++ op).extractLsb' 10 1 = k ∧
    (r ++ u ++ t ++ pw ++ pz ++ py ++ px ++ e ++ p ++ k ++ a ++ op).extractLsb' 11 1 = p ∧
    (r ++ u ++ t ++ pw ++ pz ++ py ++ px ++ e ++ p ++ k ++ a ++ op).extractLsb' 12 3 = e ∧
    (r ++ u ++ t ++ pw ++ pz ++ py ++ px ++ e ++ p ++ k ++ a ++ op).extractLsb' 15 2 = px ∧
    (r ++ u ++ t ++ pw ++ pz ++ py ++ px ++ e ++ p ++ k ++ a ++ op).extractLsb' 17 2 = py ∧
    (r ++ u ++ t ++ pw ++ pz ++ py ++ px ++ e ++ p ++ k ++ a ++ op).extractLsb' 19 2 = pz ∧
    (r ++ u ++ t ++ pw ++ pz ++ py ++ px ++ e ++ p ++ k ++ a ++ op).extractLsb' 21 2 = pw ∧
    (r ++ u ++ t ++ pw ++ pz ++ py ++ px ++ e ++ p ++ k ++ a ++ op).extractLsb' 23 3 = t ∧
    (r ++ u ++ t ++ pw ++ pz ++ py ++ px ++ e ++ p ++ k ++ a ++ op).extractLsb' 26 4 = u ∧
    (r ++ u ++ t ++ pw ++ pz ++ py ++ px ++ e ++ p ++ k ++ a ++ op).extractLsb' 30 2 = r := by
  refine ⟨?_, ?_, ?_, ?_, ?_, ?_, ?_, ?_, ?_, ?_, ?_, ?_⟩ <;>
    (repeat first | rw [slice_lo (by decide)] | rw [slice_hi (by decide)]) <;>
    exact BitVec.extractLsb'_eq_self

/-- The fields of the header word of an instruction without a destination. -/
theorem catPlain_fields (h : BitVec 2) (z : BitVec 18) (p : BitVec 1) (y : BitVec 3) (op :
    BitVec 8) :
    (h ++ z ++ p ++ y ++ op).extractLsb' 0 8 = op ∧
    (h ++ z ++ p ++ y ++ op).extractLsb' 8 3 = y ∧
    (h ++ z ++ p ++ y ++ op).extractLsb' 11 1 = p ∧
    (h ++ z ++ p ++ y ++ op).extractLsb' 12 18 = z ∧
    (h ++ z ++ p ++ y ++ op).extractLsb' 30 2 = h := by
  refine ⟨?_, ?_, ?_, ?_, ?_⟩ <;>
    (repeat first | rw [slice_lo (by decide)] | rw [slice_hi (by decide)]) <;>
    exact BitVec.extractLsb'_eq_self

/-! ### Operands -/

theorem decodeSrc_encode (o : Src) : decodeSrc (encodeSrcA o) (encodeSrcB o) = o := by
  obtain ⟨a1, a2, a3, a4, a5, a6⟩ := catA_fields o.reservedA o.index (o.ind.getD .x).toBits
    (BitVec.ofBool o.dim.isSome) (BitVec.ofBool o.ind.isSome) o.file.toBits
  obtain ⟨b1, b2, b3, b4, b5, b6, b7, b8, b9, b10⟩ := catB_fields (o.dim.getD ⟨0, none⟩).index
    o.reservedB ((o.dim.getD ⟨0, none⟩).ind.getD .x).toBits
    (BitVec.ofBool (o.dim.getD ⟨0, none⟩).ind.isSome) (BitVec.ofBool o.complement) o.sign.toBits
    o.swz.w.toBits o.swz.z.toBits o.swz.y.toBits o.swz.x.toBits
  have h : decodeSrc (encodeSrcA o) (encodeSrcB o) =
      { o with dim := if o.dim.isSome then some (o.dim.getD ⟨0, none⟩) else none } := by
    simp only [decodeSrc, Src.mk.injEq]
    refine ⟨?_, a5, ?_, ?_, ?_, ?_, bit_of_slice b6, a6, b9⟩
    · exact (congrArg RegFile.ofBits a1).trans (RegFile.ofBits_toBits _)
    · exact (congrArg₂ optChannel (bit_of_slice a2) a4).trans (optChannel_isSome _)
    · have e1 : (encodeSrcA o).getLsbD 5 = o.dim.isSome := bit_of_slice a3
      have e2 := (congrArg₂ optChannel (bit_of_slice b7) b8).trans (optChannel_isSome _)
      have e3 : (encodeSrcB o).extractLsb' 20 12 = (o.dim.getD ⟨0, none⟩).index := b10
      rw [e1, e3]
      exact congrArg (fun c => if o.dim.isSome = true then
        some ({ index := (o.dim.getD ⟨0, none⟩).index, ind := c } : DimIndex) else none) e2
    · rw [show o.swz = ⟨o.swz.x, o.swz.y, o.swz.z, o.swz.w⟩ from rfl, Chans.mk.injEq]
      exact ⟨(congrArg Selector.ofBits b1).trans (Selector.ofBits_toBits _),
        (congrArg Selector.ofBits b2).trans (Selector.ofBits_toBits _),
        (congrArg Selector.ofBits b3).trans (Selector.ofBits_toBits _),
        (congrArg Selector.ofBits b4).trans (Selector.ofBits_toBits _)⟩
    · exact (congrArg SignMode.ofBits b5).trans (SignMode.ofBits_toBits _)
  rw [h]
  cases o with | mk f x i d s g c ra rb => cases d <;> rfl

theorem decodeDst_encode (o : Dst) : decodeDst (encodeDstA o) (encodeDstB o) = o := by
  obtain ⟨a1, a2, a3, a4, a5, a6⟩ := catA_fields o.reservedA o.index (o.ind.getD .x).toBits
    (BitVec.ofBool o.dim) (BitVec.ofBool o.ind.isSome) o.file.toBits
  have b1 : (o.reservedB ++ o.writeMask).extractLsb' 0 4 = o.writeMask :=
    (slice_lo (by decide)).trans BitVec.extractLsb'_eq_self
  have b2 : (o.reservedB ++ o.writeMask).extractLsb' 4 28 = o.reservedB :=
    (slice_hi (by decide)).trans BitVec.extractLsb'_eq_self
  simp only [decodeDst]
  rw [show o = ⟨o.file, o.index, o.ind, o.dim, o.writeMask, o.reservedA, o.reservedB⟩ from rfl,
    Dst.mk.injEq]
  exact ⟨(congrArg RegFile.ofBits a1).trans (RegFile.ofBits_toBits _), a5,
    (congrArg₂ optChannel (bit_of_slice a2) a4).trans (optChannel_isSome _), bit_of_slice a3, b1,
    a6, b2⟩

/-! ### Headers -/

theorem encodeHdr_fields (op : BitVec 8) (t : TexSel) (m : Mods) :
    (encodeHdr op t m).extractLsb' 0 8 = op ∧ decodeMods (encodeHdr op t m) = m ∧
      decodeTexSel (encodeHdr op t m) = t := by
  generalize hp : m.ccPred.getD { test := .gt, swz := Chans.splat .x } = p
  obtain ⟨h1, h2, h3, h4, h5, h6, h7, h8, h9, h10, h11, h12⟩ := catHdr_fields m.reserved t.sampler
    t.target.toBits p.swz.w.toBits p.swz.z.toBits p.swz.y.toBits p.swz.x.toBits p.test.toBits
    (BitVec.ofBool m.ccPred.isSome) (BitVec.ofBool m.ccUpdate) m.sat.toBits op
  have e : encodeHdr op t m = m.reserved ++ t.sampler ++ t.target.toBits ++ p.swz.w.toBits
      ++ p.swz.z.toBits ++ p.swz.y.toBits ++ p.swz.x.toBits ++ p.test.toBits
      ++ BitVec.ofBool m.ccPred.isSome ++ BitVec.ofBool m.ccUpdate ++ m.sat.toBits ++ op := by
    rw [← hp]; rfl
  generalize encodeHdr op t m = w at *
  subst e
  refine ⟨h1, ?_, ?_⟩
  · have k4 := bit_of_slice h4
    have k5 := (congrArg CcTest.ofBits h5).trans (CcTest.ofBits_toBits _)
    have k6 := (congrArg Channel.ofBits h6).trans (Channel.ofBits_toBits _)
    have k7 := (congrArg Channel.ofBits h7).trans (Channel.ofBits_toBits _)
    have k8 := (congrArg Channel.ofBits h8).trans (Channel.ofBits_toBits _)
    have k9 := (congrArg Channel.ofBits h9).trans (Channel.ofBits_toBits _)
    have hm : m = { m with
        ccPred := if m.ccPred.isSome
          then some ⟨p.test, ⟨p.swz.x, p.swz.y, p.swz.z, p.swz.w⟩⟩
          else none } := by
      cases m with | mk s u q r => cases q <;> subst hp <;> rfl
    refine Eq.trans ?_ hm.symm
    simp only [decodeMods, Mods.mk.injEq]
    refine ⟨(congrArg SatMode.ofBits h2).trans (SatMode.ofBits_toBits _), bit_of_slice h3, ?_, h12⟩
    exact ite_congr (congrArg (· = true) k4) (fun _ => congrArg some (by
      rw [CcPredicate.mk.injEq, Chans.mk.injEq]
      exact ⟨k5, k6, k7, k8, k9⟩)) fun _ => rfl
  · refine Eq.trans ?_ (show (⟨t.target, t.sampler⟩ : TexSel) = t from rfl)
    simp only [decodeTexSel, TexSel.mk.injEq]
    exact ⟨(congrArg TexTarget.ofBits h10).trans (TexTarget.ofBits_toBits _), h11⟩

theorem encodeHdrPlain_fields (op : BitVec 8) (h : HdrReserved) (p : Bool) :
    (encodeHdrPlain op h p).extractLsb' 0 8 = op ∧
      (encodeHdrPlain op h p).extractLsb' 30 2 = h ∧ (encodeHdrPlain op h p).getLsbD 11 = p := by
  obtain ⟨h1, -, h3, -, h5⟩ := catPlain_fields h 0 (BitVec.ofBool p) 0 op
  exact ⟨h1, h5, bit_of_slice h3⟩

/-! ### Records -/

theorem encodeAlu1_fields (op : BitVec 8) (t : TexSel) (m : Mods) (d : Dst) (a : Src) :
    let r := encodeAlu1 op t m d a
    r.opcode = op ∧ r.mods = m ∧ r.texSel = t ∧ r.dst = d ∧ r.src0 = a :=
  ⟨(encodeHdr_fields _ _ _).1, (encodeHdr_fields _ _ _).2.1, (encodeHdr_fields _ _ _).2.2,
    decodeDst_encode _, decodeSrc_encode _⟩

theorem encodeAlu2_fields (op : BitVec 8) (t : TexSel) (m : Mods) (d : Dst) (a b : Src) :
    let r := encodeAlu2 op t m d a b
    r.opcode = op ∧ r.mods = m ∧ r.texSel = t ∧ r.dst = d ∧ r.src0 = a ∧ r.src1 = b :=
  ⟨(encodeHdr_fields _ _ _).1, (encodeHdr_fields _ _ _).2.1, (encodeHdr_fields _ _ _).2.2,
    decodeDst_encode _, decodeSrc_encode _, decodeSrc_encode _⟩

theorem encodeAlu3_fields (op : BitVec 8) (t : TexSel) (m : Mods) (d : Dst) (a b c : Src) :
    let r := encodeAlu3 op t m d a b c
    r.opcode = op ∧ r.mods = m ∧ r.texSel = t ∧ r.dst = d ∧ r.src0 = a ∧ r.src1 = b ∧ r.src2 = c :=
  ⟨(encodeHdr_fields _ _ _).1, (encodeHdr_fields _ _ _).2.1, (encodeHdr_fields _ _ _).2.2,
    decodeDst_encode _, decodeSrc_encode _, decodeSrc_encode _, decodeSrc_encode _⟩

theorem encodeFlow_fields (op : BitVec 8) (h : HdrReserved) (p : Bool) (label : Word) :
    let r := encodeFlow op h p label
    r.opcode = op ∧ r.hdrReserved = h ∧ r.ccPredBit = p ∧ r.w1 = label :=
  ⟨(encodeHdrPlain_fields _ _ _).1, (encodeHdrPlain_fields _ _ _).2.1,
    (encodeHdrPlain_fields _ _ _).2.2, rfl⟩

theorem encodeSrcOnly_fields (op : BitVec 8) (h : HdrReserved) (a : Src) :
    let r := encodeSrcOnly op h a
    r.opcode = op ∧ r.hdrReserved = h ∧ r.src0 = a :=
  ⟨(encodeHdrPlain_fields _ _ _).1, (encodeHdrPlain_fields _ _ _).2.1, decodeSrc_encode _⟩

/-! ### Declarations -/

@[simp] theorem Interp.ofBits_toBits (m : Interp) : Interp.ofBits m.toBits = m := by
  cases m <;> rfl

/-- The fields of DW0 (R331). -/
theorem catDecl_fields (r : BitVec 22) (i : BitVec 2) (m : BitVec 4) (f : BitVec 4) :
    (r ++ i ++ m ++ f).extractLsb' 0 4 = f ∧ (r ++ i ++ m ++ f).extractLsb' 4 4 = m ∧
    (r ++ i ++ m ++ f).extractLsb' 8 2 = i ∧ (r ++ i ++ m ++ f).extractLsb' 10 22 = r := by
  refine ⟨?_, ?_, ?_, ?_⟩ <;>
    (repeat first | rw [slice_lo (by decide)] | rw [slice_hi (by decide)]) <;>
    exact BitVec.extractLsb'_eq_self

theorem decodeDecl_encode (d : Decl) : decodeDecl (encodeDecl d) = d := by
  obtain ⟨h1, h2, h3, h4⟩ := catDecl_fields d.reserved d.interp.toBits d.mask d.file.toBits
  cases d
  simp only [decodeDecl, encodeDecl, Decl.mk.injEq]
  refine ⟨(congrArg RegFile.ofBits h1).trans (RegFile.ofBits_toBits _), h2,
    (congrArg Interp.ofBits h3).trans (Interp.ofBits_toBits _), h4, ?_, ?_⟩
  · rw [slice_lo (by decide)]
    exact BitVec.extractLsb'_eq_self
  · rw [slice_hi (by decide)]
    exact BitVec.extractLsb'_eq_self

/-! ### Bytes -/

theorem takeWord_bytes (w : Word) (rest : List (BitVec 8)) :
    takeWord (wordBytes w ++ rest) = some (w, rest) := by
  have h : w = w.extractLsb' 24 8 ++ w.extractLsb' 16 8 ++ w.extractLsb' 8 8
      ++ w.extractLsb' 0 8 := by
    rw [BitVec.extractLsb'_append_extractLsb'_eq_extractLsb' (by decide),
      BitVec.extractLsb'_append_extractLsb'_eq_extractLsb' (by decide),
      BitVec.extractLsb'_append_extractLsb'_eq_extractLsb' (by decide)]
    exact BitVec.extractLsb'_eq_self.symm
  simp only [wordBytes, takeWord, List.cons_append, List.nil_append, Option.some.injEq,
    Prod.mk.injEq, and_true]
  exact h.symm

/-- Reading back the bytes of a record (R63, R106). -/
theorem takeRecord_bytes (r : Record) (rest : List (BitVec 8)) :
    takeRecord (r.bytes ++ rest) = some (r, rest) := by
  simp only [takeRecord, Record.bytes, List.append_assoc, takeWord_bytes, Option.bind_eq_bind,
    Option.bind_some, Option.pure_def]

end Sys2Proof
end

