-- ==== Sys2Proof/Laws/State.lean ====
section
/-! SUPPORT. One lemma per field per update of the state: what `goto`, `raiseFatal`, `issue`, `await`,
`finish`, `runReset` and `writeReg` leave as it was, and what the derived reads see through them. -/

namespace Sys2Proof.Machine

/-! ### goto -/

@[simp] theorem State.goto_cfg (s : State) (t : Nat) :
    (s.goto t).cfg = s.cfg := rfl

@[simp] theorem State.goto_temp (s : State) (t : Nat) :
    (s.goto t).temp = s.temp := rfl

@[simp] theorem State.goto_input (s : State) (t : Nat) :
    (s.goto t).input = s.input := rfl

@[simp] theorem State.goto_output (s : State) (t : Nat) :
    (s.goto t).output = s.output := rfl

@[simp] theorem State.goto_addr (s : State) (t : Nat) :
    (s.goto t).addr = s.addr := rfl

@[simp] theorem State.goto_pred (s : State) (t : Nat) :
    (s.goto t).pred = s.pred := rfl

@[simp] theorem State.goto_const (s : State) (t : Nat) :
    (s.goto t).const = s.const := rfl

@[simp] theorem State.goto_cc (s : State) (t : Nat) :
    (s.goto t).cc = s.cc := rfl

@[simp] theorem State.goto_condMask (s : State) (t : Nat) :
    (s.goto t).condMask = s.condMask := rfl

@[simp] theorem State.goto_loopMask (s : State) (t : Nat) :
    (s.goto t).loopMask = s.loopMask := rfl

@[simp] theorem State.goto_contMask (s : State) (t : Nat) :
    (s.goto t).contMask = s.contMask := rfl

@[simp] theorem State.goto_funcMask (s : State) (t : Nat) :
    (s.goto t).funcMask = s.funcMask := rfl

@[simp] theorem State.goto_condStack (s : State) (t : Nat) :
    (s.goto t).condStack = s.condStack := rfl

@[simp] theorem State.goto_loopStack (s : State) (t : Nat) :
    (s.goto t).loopStack = s.loopStack := rfl

@[simp] theorem State.goto_contStack (s : State) (t : Nat) :
    (s.goto t).contStack = s.contStack := rfl

@[simp] theorem State.goto_funcStack (s : State) (t : Nat) :
    (s.goto t).funcStack = s.funcStack := rfl

@[simp] theorem State.goto_callStack (s : State) (t : Nat) :
    (s.goto t).callStack = s.callStack := rfl

@[simp] theorem State.goto_kill (s : State) (t : Nat) :
    (s.goto t).kill = s.kill := rfl

@[simp] theorem State.goto_outCursor (s : State) (t : Nat) :
    (s.goto t).outCursor = s.outCursor := rfl

@[simp] theorem State.goto_status (s : State) (t : Nat) :
    (s.goto t).status = s.status := rfl

@[simp] theorem State.goto_prog (s : State) (t : Nat) :
    (s.goto t).prog = s.prog := rfl

@[simp] theorem State.goto_quadX (s : State) (t : Nat) :
    (s.goto t).quadX = s.quadX := rfl

@[simp] theorem State.goto_quadY (s : State) (t : Nat) :
    (s.goto t).quadY = s.quadY := rfl

@[simp] theorem State.goto_quadW (s : State) (t : Nat) :
    (s.goto t).quadW = s.quadW := rfl

@[simp] theorem State.goto_a0 (s : State) (t : Nat) :
    (s.goto t).a0 = s.a0 := rfl

@[simp] theorem State.goto_dadx (s : State) (t : Nat) :
    (s.goto t).dadx = s.dadx := rfl

@[simp] theorem State.goto_dady (s : State) (t : Nat) :
    (s.goto t).dady = s.dady := rfl

@[simp] theorem State.goto_requests (s : State) (t : Nat) :
    (s.goto t).requests = s.requests := rfl

@[simp] theorem State.goto_samplerTick (s : State) (t : Nat) :
    (s.goto t).samplerTick = s.samplerTick := rfl

@[simp] theorem State.goto_samplerPending (s : State) (t : Nat) :
    (s.goto t).samplerPending = s.samplerPending := rfl

@[simp] theorem State.goto_samplerSilentAt (s : State) (t : Nat) :
    (s.goto t).samplerSilentAt = s.samplerSilentAt := rfl

/-! ### raiseFatal -/

@[simp] theorem State.raiseFatal_cfg (s : State) (code : FatalCode) (i : Nat) :
    (s.raiseFatal code i).cfg = s.cfg := rfl

@[simp] theorem State.raiseFatal_temp (s : State) (code : FatalCode) (i : Nat) :
    (s.raiseFatal code i).temp = s.temp := rfl

@[simp] theorem State.raiseFatal_input (s : State) (code : FatalCode) (i : Nat) :
    (s.raiseFatal code i).input = s.input := rfl

@[simp] theorem State.raiseFatal_output (s : State) (code : FatalCode) (i : Nat) :
    (s.raiseFatal code i).output = s.output := rfl

@[simp] theorem State.raiseFatal_addr (s : State) (code : FatalCode) (i : Nat) :
    (s.raiseFatal code i).addr = s.addr := rfl

@[simp] theorem State.raiseFatal_pred (s : State) (code : FatalCode) (i : Nat) :
    (s.raiseFatal code i).pred = s.pred := rfl

@[simp] theorem State.raiseFatal_const (s : State) (code : FatalCode) (i : Nat) :
    (s.raiseFatal code i).const = s.const := rfl

@[simp] theorem State.raiseFatal_cc (s : State) (code : FatalCode) (i : Nat) :
    (s.raiseFatal code i).cc = s.cc := rfl

@[simp] theorem State.raiseFatal_pc (s : State) (code : FatalCode) (i : Nat) :
    (s.raiseFatal code i).pc = s.pc := rfl

@[simp] theorem State.raiseFatal_condMask (s : State) (code : FatalCode) (i : Nat) :
    (s.raiseFatal code i).condMask = s.condMask := rfl

@[simp] theorem State.raiseFatal_loopMask (s : State) (code : FatalCode) (i : Nat) :
    (s.raiseFatal code i).loopMask = s.loopMask := rfl

@[simp] theorem State.raiseFatal_contMask (s : State) (code : FatalCode) (i : Nat) :
    (s.raiseFatal code i).contMask = s.contMask := rfl

@[simp] theorem State.raiseFatal_funcMask (s : State) (code : FatalCode) (i : Nat) :
    (s.raiseFatal code i).funcMask = s.funcMask := rfl

@[simp] theorem State.raiseFatal_condStack (s : State) (code : FatalCode) (i : Nat) :
    (s.raiseFatal code i).condStack = s.condStack := rfl

@[simp] theorem State.raiseFatal_loopStack (s : State) (code : FatalCode) (i : Nat) :
    (s.raiseFatal code i).loopStack = s.loopStack := rfl

@[simp] theorem State.raiseFatal_contStack (s : State) (code : FatalCode) (i : Nat) :
    (s.raiseFatal code i).contStack = s.contStack := rfl

@[simp] theorem State.raiseFatal_funcStack (s : State) (code : FatalCode) (i : Nat) :
    (s.raiseFatal code i).funcStack = s.funcStack := rfl

@[simp] theorem State.raiseFatal_callStack (s : State) (code : FatalCode) (i : Nat) :
    (s.raiseFatal code i).callStack = s.callStack := rfl

@[simp] theorem State.raiseFatal_kill (s : State) (code : FatalCode) (i : Nat) :
    (s.raiseFatal code i).kill = s.kill := rfl

@[simp] theorem State.raiseFatal_outCursor (s : State) (code : FatalCode) (i : Nat) :
    (s.raiseFatal code i).outCursor = s.outCursor := rfl

@[simp] theorem State.raiseFatal_prog (s : State) (code : FatalCode) (i : Nat) :
    (s.raiseFatal code i).prog = s.prog := rfl

@[simp] theorem State.raiseFatal_quadX (s : State) (code : FatalCode) (i : Nat) :
    (s.raiseFatal code i).quadX = s.quadX := rfl

@[simp] theorem State.raiseFatal_quadY (s : State) (code : FatalCode) (i : Nat) :
    (s.raiseFatal code i).quadY = s.quadY := rfl

@[simp] theorem State.raiseFatal_quadW (s : State) (code : FatalCode) (i : Nat) :
    (s.raiseFatal code i).quadW = s.quadW := rfl

@[simp] theorem State.raiseFatal_a0 (s : State) (code : FatalCode) (i : Nat) :
    (s.raiseFatal code i).a0 = s.a0 := rfl

@[simp] theorem State.raiseFatal_dadx (s : State) (code : FatalCode) (i : Nat) :
    (s.raiseFatal code i).dadx = s.dadx := rfl

@[simp] theorem State.raiseFatal_dady (s : State) (code : FatalCode) (i : Nat) :
    (s.raiseFatal code i).dady = s.dady := rfl

@[simp] theorem State.raiseFatal_requests (s : State) (code : FatalCode) (i : Nat) :
    (s.raiseFatal code i).requests = s.requests := rfl

@[simp] theorem State.raiseFatal_samplerTick (s : State) (code : FatalCode) (i : Nat) :
    (s.raiseFatal code i).samplerTick = s.samplerTick := rfl

@[simp] theorem State.raiseFatal_samplerPending (s : State) (code : FatalCode) (i : Nat) :
    (s.raiseFatal code i).samplerPending = s.samplerPending := rfl

@[simp] theorem State.raiseFatal_samplerSilentAt (s : State) (code : FatalCode) (i : Nat) :
    (s.raiseFatal code i).samplerSilentAt = s.samplerSilentAt := rfl

/-! ### issue -/

@[simp] theorem State.issue_cfg (s : State) (req : SamplerReq) :
    (s.issue req).cfg = s.cfg := rfl

@[simp] theorem State.issue_temp (s : State) (req : SamplerReq) :
    (s.issue req).temp = s.temp := rfl

@[simp] theorem State.issue_input (s : State) (req : SamplerReq) :
    (s.issue req).input = s.input := rfl

@[simp] theorem State.issue_output (s : State) (req : SamplerReq) :
    (s.issue req).output = s.output := rfl

@[simp] theorem State.issue_addr (s : State) (req : SamplerReq) :
    (s.issue req).addr = s.addr := rfl

@[simp] theorem State.issue_pred (s : State) (req : SamplerReq) :
    (s.issue req).pred = s.pred := rfl

@[simp] theorem State.issue_const (s : State) (req : SamplerReq) :
    (s.issue req).const = s.const := rfl

@[simp] theorem State.issue_cc (s : State) (req : SamplerReq) :
    (s.issue req).cc = s.cc := rfl

@[simp] theorem State.issue_pc (s : State) (req : SamplerReq) :
    (s.issue req).pc = s.pc := rfl

@[simp] theorem State.issue_condMask (s : State) (req : SamplerReq) :
    (s.issue req).condMask = s.condMask := rfl

@[simp] theorem State.issue_loopMask (s : State) (req : SamplerReq) :
    (s.issue req).loopMask = s.loopMask := rfl

@[simp] theorem State.issue_contMask (s : State) (req : SamplerReq) :
    (s.issue req).contMask = s.contMask := rfl

@[simp] theorem State.issue_funcMask (s : State) (req : SamplerReq) :
    (s.issue req).funcMask = s.funcMask := rfl

@[simp] theorem State.issue_condStack (s : State) (req : SamplerReq) :
    (s.issue req).condStack = s.condStack := rfl

@[simp] theorem State.issue_loopStack (s : State) (req : SamplerReq) :
    (s.issue req).loopStack = s.loopStack := rfl

@[simp] theorem State.issue_contStack (s : State) (req : SamplerReq) :
    (s.issue req).contStack = s.contStack := rfl

@[simp] theorem State.issue_funcStack (s : State) (req : SamplerReq) :
    (s.issue req).funcStack = s.funcStack := rfl

@[simp] theorem State.issue_callStack (s : State) (req : SamplerReq) :
    (s.issue req).callStack = s.callStack := rfl

@[simp] theorem State.issue_kill (s : State) (req : SamplerReq) :
    (s.issue req).kill = s.kill := rfl

@[simp] theorem State.issue_outCursor (s : State) (req : SamplerReq) :
    (s.issue req).outCursor = s.outCursor := rfl

@[simp] theorem State.issue_status (s : State) (req : SamplerReq) :
    (s.issue req).status = s.status := rfl

@[simp] theorem State.issue_prog (s : State) (req : SamplerReq) :
    (s.issue req).prog = s.prog := rfl

@[simp] theorem State.issue_quadX (s : State) (req : SamplerReq) :
    (s.issue req).quadX = s.quadX := rfl

@[simp] theorem State.issue_quadY (s : State) (req : SamplerReq) :
    (s.issue req).quadY = s.quadY := rfl

@[simp] theorem State.issue_quadW (s : State) (req : SamplerReq) :
    (s.issue req).quadW = s.quadW := rfl

@[simp] theorem State.issue_a0 (s : State) (req : SamplerReq) :
    (s.issue req).a0 = s.a0 := rfl

@[simp] theorem State.issue_dadx (s : State) (req : SamplerReq) :
    (s.issue req).dadx = s.dadx := rfl

@[simp] theorem State.issue_dady (s : State) (req : SamplerReq) :
    (s.issue req).dady = s.dady := rfl

@[simp] theorem State.issue_samplerSilentAt (s : State) (req : SamplerReq) :
    (s.issue req).samplerSilentAt = s.samplerSilentAt := rfl

/-! ### await -/

@[simp] theorem State.await_cfg (s : State) (req : SamplerReq) :
    (s.await req).cfg = s.cfg := rfl

@[simp] theorem State.await_temp (s : State) (req : SamplerReq) :
    (s.await req).temp = s.temp := rfl

@[simp] theorem State.await_input (s : State) (req : SamplerReq) :
    (s.await req).input = s.input := rfl

@[simp] theorem State.await_output (s : State) (req : SamplerReq) :
    (s.await req).output = s.output := rfl

@[simp] theorem State.await_addr (s : State) (req : SamplerReq) :
    (s.await req).addr = s.addr := rfl

@[simp] theorem State.await_pred (s : State) (req : SamplerReq) :
    (s.await req).pred = s.pred := rfl

@[simp] theorem State.await_const (s : State) (req : SamplerReq) :
    (s.await req).const = s.const := rfl

@[simp] theorem State.await_cc (s : State) (req : SamplerReq) :
    (s.await req).cc = s.cc := rfl

@[simp] theorem State.await_pc (s : State) (req : SamplerReq) :
    (s.await req).pc = s.pc := rfl

@[simp] theorem State.await_condMask (s : State) (req : SamplerReq) :
    (s.await req).condMask = s.condMask := rfl

@[simp] theorem State.await_loopMask (s : State) (req : SamplerReq) :
    (s.await req).loopMask = s.loopMask := rfl

@[simp] theorem State.await_contMask (s : State) (req : SamplerReq) :
    (s.await req).contMask = s.contMask := rfl

@[simp] theorem State.await_funcMask (s : State) (req : SamplerReq) :
    (s.await req).funcMask = s.funcMask := rfl

@[simp] theorem State.await_condStack (s : State) (req : SamplerReq) :
    (s.await req).condStack = s.condStack := rfl

@[simp] theorem State.await_loopStack (s : State) (req : SamplerReq) :
    (s.await req).loopStack = s.loopStack := rfl

@[simp] theorem State.await_contStack (s : State) (req : SamplerReq) :
    (s.await req).contStack = s.contStack := rfl

@[simp] theorem State.await_funcStack (s : State) (req : SamplerReq) :
    (s.await req).funcStack = s.funcStack := rfl

@[simp] theorem State.await_callStack (s : State) (req : SamplerReq) :
    (s.await req).callStack = s.callStack := rfl

@[simp] theorem State.await_kill (s : State) (req : SamplerReq) :
    (s.await req).kill = s.kill := rfl

@[simp] theorem State.await_outCursor (s : State) (req : SamplerReq) :
    (s.await req).outCursor = s.outCursor := rfl

@[simp] theorem State.await_status (s : State) (req : SamplerReq) :
    (s.await req).status = s.status := rfl

@[simp] theorem State.await_prog (s : State) (req : SamplerReq) :
    (s.await req).prog = s.prog := rfl

@[simp] theorem State.await_quadX (s : State) (req : SamplerReq) :
    (s.await req).quadX = s.quadX := rfl

@[simp] theorem State.await_quadY (s : State) (req : SamplerReq) :
    (s.await req).quadY = s.quadY := rfl

@[simp] theorem State.await_quadW (s : State) (req : SamplerReq) :
    (s.await req).quadW = s.quadW := rfl

@[simp] theorem State.await_a0 (s : State) (req : SamplerReq) :
    (s.await req).a0 = s.a0 := rfl

@[simp] theorem State.await_dadx (s : State) (req : SamplerReq) :
    (s.await req).dadx = s.dadx := rfl

@[simp] theorem State.await_dady (s : State) (req : SamplerReq) :
    (s.await req).dady = s.dady := rfl

@[simp] theorem State.await_requests (s : State) (req : SamplerReq) :
    (s.await req).requests = s.requests := rfl

@[simp] theorem State.await_samplerTick (s : State) (req : SamplerReq) :
    (s.await req).samplerTick = s.samplerTick := rfl

@[simp] theorem State.await_samplerSilentAt (s : State) (req : SamplerReq) :
    (s.await req).samplerSilentAt = s.samplerSilentAt := rfl

/-! ### finish -/

@[simp] theorem State.finish_cfg (s : State)  :
    (s.finish).cfg = s.cfg := rfl

@[simp] theorem State.finish_temp (s : State)  :
    (s.finish).temp = s.temp := rfl

@[simp] theorem State.finish_input (s : State)  :
    (s.finish).input = s.input := rfl

@[simp] theorem State.finish_output (s : State)  :
    (s.finish).output = s.output := rfl

@[simp] theorem State.finish_addr (s : State)  :
    (s.finish).addr = s.addr := rfl

@[simp] theorem State.finish_pred (s : State)  :
    (s.finish).pred = s.pred := rfl

@[simp] theorem State.finish_const (s : State)  :
    (s.finish).const = s.const := rfl

@[simp] theorem State.finish_cc (s : State)  :
    (s.finish).cc = s.cc := rfl

@[simp] theorem State.finish_pc (s : State)  :
    (s.finish).pc = s.pc := rfl

@[simp] theorem State.finish_condMask (s : State)  :
    (s.finish).condMask = s.condMask := rfl

@[simp] theorem State.finish_loopMask (s : State)  :
    (s.finish).loopMask = s.loopMask := rfl

@[simp] theorem State.finish_contMask (s : State)  :
    (s.finish).contMask = s.contMask := rfl

@[simp] theorem State.finish_funcMask (s : State)  :
    (s.finish).funcMask = s.funcMask := rfl

@[simp] theorem State.finish_condStack (s : State)  :
    (s.finish).condStack = s.condStack := rfl

@[simp] theorem State.finish_loopStack (s : State)  :
    (s.finish).loopStack = s.loopStack := rfl

@[simp] theorem State.finish_contStack (s : State)  :
    (s.finish).contStack = s.contStack := rfl

@[simp] theorem State.finish_funcStack (s : State)  :
    (s.finish).funcStack = s.funcStack := rfl

@[simp] theorem State.finish_callStack (s : State)  :
    (s.finish).callStack = s.callStack := rfl

@[simp] theorem State.finish_kill (s : State)  :
    (s.finish).kill = s.kill := rfl

@[simp] theorem State.finish_outCursor (s : State)  :
    (s.finish).outCursor = s.outCursor := rfl

@[simp] theorem State.finish_prog (s : State)  :
    (s.finish).prog = s.prog := rfl

@[simp] theorem State.finish_quadX (s : State)  :
    (s.finish).quadX = s.quadX := rfl

@[simp] theorem State.finish_quadY (s : State)  :
    (s.finish).quadY = s.quadY := rfl

@[simp] theorem State.finish_quadW (s : State)  :
    (s.finish).quadW = s.quadW := rfl

@[simp] theorem State.finish_a0 (s : State)  :
    (s.finish).a0 = s.a0 := rfl

@[simp] theorem State.finish_dadx (s : State)  :
    (s.finish).dadx = s.dadx := rfl

@[simp] theorem State.finish_dady (s : State)  :
    (s.finish).dady = s.dady := rfl

@[simp] theorem State.finish_requests (s : State)  :
    (s.finish).requests = s.requests := rfl

@[simp] theorem State.finish_samplerTick (s : State)  :
    (s.finish).samplerTick = s.samplerTick := rfl

@[simp] theorem State.finish_samplerPending (s : State)  :
    (s.finish).samplerPending = s.samplerPending := rfl

@[simp] theorem State.finish_samplerSilentAt (s : State)  :
    (s.finish).samplerSilentAt = s.samplerSilentAt := rfl

/-! ### runReset -/

@[simp] theorem State.runReset_cfg (s : State)  :
    (s.runReset).cfg = s.cfg := rfl

@[simp] theorem State.runReset_temp (s : State)  :
    (s.runReset).temp = s.temp := rfl

@[simp] theorem State.runReset_input (s : State)  :
    (s.runReset).input = s.input := rfl

@[simp] theorem State.runReset_output (s : State)  :
    (s.runReset).output = s.output := rfl

@[simp] theorem State.runReset_addr (s : State)  :
    (s.runReset).addr = s.addr := rfl

@[simp] theorem State.runReset_pred (s : State)  :
    (s.runReset).pred = s.pred := rfl

@[simp] theorem State.runReset_const (s : State)  :
    (s.runReset).const = s.const := rfl

@[simp] theorem State.runReset_cc (s : State)  :
    (s.runReset).cc = s.cc := rfl

@[simp] theorem State.runReset_pc (s : State)  :
    (s.runReset).pc = s.pc := rfl

@[simp] theorem State.runReset_status (s : State)  :
    (s.runReset).status = s.status := rfl

@[simp] theorem State.runReset_prog (s : State)  :
    (s.runReset).prog = s.prog := rfl

@[simp] theorem State.runReset_quadX (s : State)  :
    (s.runReset).quadX = s.quadX := rfl

@[simp] theorem State.runReset_quadY (s : State)  :
    (s.runReset).quadY = s.quadY := rfl

@[simp] theorem State.runReset_quadW (s : State)  :
    (s.runReset).quadW = s.quadW := rfl

@[simp] theorem State.runReset_a0 (s : State)  :
    (s.runReset).a0 = s.a0 := rfl

@[simp] theorem State.runReset_dadx (s : State)  :
    (s.runReset).dadx = s.dadx := rfl

@[simp] theorem State.runReset_dady (s : State)  :
    (s.runReset).dady = s.dady := rfl

@[simp] theorem State.runReset_samplerTick (s : State)  :
    (s.runReset).samplerTick = s.samplerTick := rfl

@[simp] theorem State.runReset_samplerSilentAt (s : State)  :
    (s.runReset).samplerSilentAt = s.samplerSilentAt := rfl

/-! ### writeReg -/

@[simp] theorem State.writeReg_cfg (s : State) (f : RegFile) (i : Nat) (c : Channel) (l : Lane) (v : Word) :
    (s.writeReg f i c l v).cfg = s.cfg := by cases f <;> rfl

@[simp] theorem State.writeReg_const (s : State) (f : RegFile) (i : Nat) (c : Channel) (l : Lane) (v : Word) :
    (s.writeReg f i c l v).const = s.const := by cases f <;> rfl

@[simp] theorem State.writeReg_cc (s : State) (f : RegFile) (i : Nat) (c : Channel) (l : Lane) (v : Word) :
    (s.writeReg f i c l v).cc = s.cc := by cases f <;> rfl

@[simp] theorem State.writeReg_pc (s : State) (f : RegFile) (i : Nat) (c : Channel) (l : Lane) (v : Word) :
    (s.writeReg f i c l v).pc = s.pc := by cases f <;> rfl

@[simp] theorem State.writeReg_condMask (s : State) (f : RegFile) (i : Nat) (c : Channel) (l : Lane) (v : Word) :
    (s.writeReg f i c l v).condMask = s.condMask := by cases f <;> rfl

@[simp] theorem State.writeReg_loopMask (s : State) (f : RegFile) (i : Nat) (c : Channel) (l : Lane) (v : Word) :
    (s.writeReg f i c l v).loopMask = s.loopMask := by cases f <;> rfl

@[simp] theorem State.writeReg_contMask (s : State) (f : RegFile) (i : Nat) (c : Channel) (l : Lane) (v : Word) :
    (s.writeReg f i c l v).contMask = s.contMask := by cases f <;> rfl

@[simp] theorem State.writeReg_funcMask (s : State) (f : RegFile) (i : Nat) (c : Channel) (l : Lane) (v : Word) :
    (s.writeReg f i c l v).funcMask = s.funcMask := by cases f <;> rfl

@[simp] theorem State.writeReg_condStack (s : State) (f : RegFile) (i : Nat) (c : Channel) (l : Lane) (v : Word) :
    (s.writeReg f i c l v).condStack = s.condStack := by cases f <;> rfl

@[simp] theorem State.writeReg_loopStack (s : State) (f : RegFile) (i : Nat) (c : Channel) (l : Lane) (v : Word) :
    (s.writeReg f i c l v).loopStack = s.loopStack := by cases f <;> rfl

@[simp] theorem State.writeReg_contStack (s : State) (f : RegFile) (i : Nat) (c : Channel) (l : Lane) (v : Word) :
    (s.writeReg f i c l v).contStack = s.contStack := by cases f <;> rfl

@[simp] theorem State.writeReg_funcStack (s : State) (f : RegFile) (i : Nat) (c : Channel) (l : Lane) (v : Word) :
    (s.writeReg f i c l v).funcStack = s.funcStack := by cases f <;> rfl

@[simp] theorem State.writeReg_callStack (s : State) (f : RegFile) (i : Nat) (c : Channel) (l : Lane) (v : Word) :
    (s.writeReg f i c l v).callStack = s.callStack := by cases f <;> rfl

@[simp] theorem State.writeReg_kill (s : State) (f : RegFile) (i : Nat) (c : Channel) (l : Lane) (v : Word) :
    (s.writeReg f i c l v).kill = s.kill := by cases f <;> rfl

@[simp] theorem State.writeReg_outCursor (s : State) (f : RegFile) (i : Nat) (c : Channel) (l : Lane) (v : Word) :
    (s.writeReg f i c l v).outCursor = s.outCursor := by cases f <;> rfl

@[simp] theorem State.writeReg_status (s : State) (f : RegFile) (i : Nat) (c : Channel) (l : Lane) (v : Word) :
    (s.writeReg f i c l v).status = s.status := by cases f <;> rfl

@[simp] theorem State.writeReg_prog (s : State) (f : RegFile) (i : Nat) (c : Channel) (l : Lane) (v : Word) :
    (s.writeReg f i c l v).prog = s.prog := by cases f <;> rfl

@[simp] theorem State.writeReg_quadX (s : State) (f : RegFile) (i : Nat) (c : Channel) (l : Lane) (v : Word) :
    (s.writeReg f i c l v).quadX = s.quadX := by cases f <;> rfl

@[simp] theorem State.writeReg_quadY (s : State) (f : RegFile) (i : Nat) (c : Channel) (l : Lane) (v : Word) :
    (s.writeReg f i c l v).quadY = s.quadY := by cases f <;> rfl

@[simp] theorem State.writeReg_quadW (s : State) (f : RegFile) (i : Nat) (c : Channel) (l : Lane) (v : Word) :
    (s.writeReg f i c l v).quadW = s.quadW := by cases f <;> rfl

@[simp] theorem State.writeReg_a0 (s : State) (f : RegFile) (i : Nat) (c : Channel) (l : Lane) (v : Word) :
    (s.writeReg f i c l v).a0 = s.a0 := by cases f <;> rfl

@[simp] theorem State.writeReg_dadx (s : State) (f : RegFile) (i : Nat) (c : Channel) (l : Lane) (v : Word) :
    (s.writeReg f i c l v).dadx = s.dadx := by cases f <;> rfl

@[simp] theorem State.writeReg_dady (s : State) (f : RegFile) (i : Nat) (c : Channel) (l : Lane) (v : Word) :
    (s.writeReg f i c l v).dady = s.dady := by cases f <;> rfl

@[simp] theorem State.writeReg_requests (s : State) (f : RegFile) (i : Nat) (c : Channel) (l : Lane) (v : Word) :
    (s.writeReg f i c l v).requests = s.requests := by cases f <;> rfl

@[simp] theorem State.writeReg_samplerTick (s : State) (f : RegFile) (i : Nat) (c : Channel) (l : Lane) (v : Word) :
    (s.writeReg f i c l v).samplerTick = s.samplerTick := by cases f <;> rfl

@[simp] theorem State.writeReg_samplerPending (s : State) (f : RegFile) (i : Nat) (c : Channel) (l : Lane) (v : Word) :
    (s.writeReg f i c l v).samplerPending = s.samplerPending := by cases f <;> rfl

@[simp] theorem State.writeReg_samplerSilentAt (s : State) (f : RegFile) (i : Nat) (c : Channel) (l : Lane) (v : Word) :
    (s.writeReg f i c l v).samplerSilentAt = s.samplerSilentAt := by cases f <;> rfl

/-! ### Derived reads -/

@[simp] theorem State.goto_execMask (s : State) (t : Nat) :
    (s.goto t).execMask = s.execMask := rfl

@[simp] theorem State.goto_numInstr (s : State) (t : Nat) :
    (s.goto t).numInstr = s.numInstr := rfl

@[simp] theorem State.goto_readReg (s : State) (t : Nat) :
    (s.goto t).readReg = s.readReg := by
  funext f r c l; cases f <;> rfl

@[simp] theorem State.raiseFatal_execMask (s : State) (code : FatalCode) (i : Nat) :
    (s.raiseFatal code i).execMask = s.execMask := rfl

@[simp] theorem State.raiseFatal_numInstr (s : State) (code : FatalCode) (i : Nat) :
    (s.raiseFatal code i).numInstr = s.numInstr := rfl

@[simp] theorem State.raiseFatal_readReg (s : State) (code : FatalCode) (i : Nat) :
    (s.raiseFatal code i).readReg = s.readReg := by
  funext f r c l; cases f <;> rfl

@[simp] theorem State.issue_execMask (s : State) (req : SamplerReq) :
    (s.issue req).execMask = s.execMask := rfl

@[simp] theorem State.issue_numInstr (s : State) (req : SamplerReq) :
    (s.issue req).numInstr = s.numInstr := rfl

@[simp] theorem State.issue_readReg (s : State) (req : SamplerReq) :
    (s.issue req).readReg = s.readReg := by
  funext f r c l; cases f <;> rfl

@[simp] theorem State.await_execMask (s : State) (req : SamplerReq) :
    (s.await req).execMask = s.execMask := rfl

@[simp] theorem State.await_numInstr (s : State) (req : SamplerReq) :
    (s.await req).numInstr = s.numInstr := rfl

@[simp] theorem State.await_readReg (s : State) (req : SamplerReq) :
    (s.await req).readReg = s.readReg := by
  funext f r c l; cases f <;> rfl

/-- The pc after a transfer (R121, R334). -/
theorem State.goto_pc (s : State) (t : Nat) :
    (s.goto t).pc = if t < s.numInstr then .running t else .halted := rfl

@[simp] theorem State.raiseFatal_status (s : State) (code : FatalCode) (i : Nat) :
    (s.raiseFatal code i).status = .faulted code (.instr i) := rfl

@[simp] theorem State.issue_requests (s : State) (req : SamplerReq) :
    (s.issue req).requests = s.requests ++ [req] := rfl

@[simp] theorem State.issue_samplerTick (s : State) (req : SamplerReq) :
    (s.issue req).samplerTick = s.samplerTick + 1 := rfl

@[simp] theorem State.issue_samplerPending (s : State) (req : SamplerReq) :
    (s.issue req).samplerPending = none := rfl

@[simp] theorem State.await_samplerPending (s : State) (req : SamplerReq) :
    (s.await req).samplerPending = some req := rfl

@[simp] theorem State.finish_status (s : State) : s.finish.status = .done (~~~s.kill) := rfl

/-- The size of a file depends only on the configuration and the bound program. -/
theorem State.fileSize_congr {s t : State} (hc : s.cfg = t.cfg) (hp : s.prog = t.prog)
    (f : RegFile) : s.fileSize f = t.fileSize f := by
  cases f <;> simp [State.fileSize, hc, hp]

/-- NumInstr depends only on the bound program. -/
theorem State.numInstr_congr {s t : State} (hp : s.prog = t.prog) : s.numInstr = t.numInstr := by
  simp [State.numInstr, hp]

end Sys2Proof.Machine
end

