-- ==== Sys2Proof/Laws/Operands.lean ====
section
/-! SUPPORT. Operand resolution: when an operand resolves, when it does not, that a resolved register
lies inside its file, and what resolution and Fetch depend on. -/

namespace Sys2Proof.Machine

theorem State.resolveSrc_eq_some_iff (s : State) (o : Src) (r : Quad Nat) :
    s.resolveSrc o = some r ↔ ∀ l, s.srcIndex o l = some (r.get l) := by
  simp [State.resolveSrc, Quad.sequence_eq_some_iff]

theorem State.resolveSrc_eq_none_iff (s : State) (o : Src) :
    s.resolveSrc o = none ↔ ∃ l, s.srcIndex o l = none := by
  simp [State.resolveSrc, Quad.sequence_eq_none_iff]

theorem State.resolveDst_eq_some_iff (s : State) (o : Dst) (r : Quad Nat) :
    s.resolveDst o = some r ↔ ∀ l, s.dstIndex o l = some (r.get l) := by
  simp [State.resolveDst, Quad.sequence_eq_some_iff]

theorem State.resolveDst_eq_none_iff (s : State) (o : Dst) :
    s.resolveDst o = none ↔ ∃ l, s.dstIndex o l = none := by
  simp [State.resolveDst, Quad.sequence_eq_none_iff]

theorem State.resolveSrc2_eq_some_iff (s : State) (a b : Src) (r : Quad Nat × Quad Nat) :
    s.resolveSrc2 a b = some r ↔ s.resolveSrc a = some r.1 ∧ s.resolveSrc b = some r.2 := by
  unfold State.resolveSrc2
  cases s.resolveSrc a <;> cases s.resolveSrc b <;> simp [Prod.ext_iff]

theorem State.resolveSrc2_eq_none_iff (s : State) (a b : Src) :
    s.resolveSrc2 a b = none ↔ s.resolveSrc a = none ∨ s.resolveSrc b = none := by
  unfold State.resolveSrc2
  cases s.resolveSrc a <;> cases s.resolveSrc b <;> simp

theorem State.resolveSrc3_eq_some_iff (s : State) (a b c : Src)
    (r : Quad Nat × Quad Nat × Quad Nat) :
    s.resolveSrc3 a b c = some r ↔
      s.resolveSrc a = some r.1 ∧ s.resolveSrc b = some r.2.1 ∧ s.resolveSrc c = some r.2.2 := by
  unfold State.resolveSrc3
  cases s.resolveSrc a <;> cases s.resolveSrc b <;> cases s.resolveSrc c <;> simp [Prod.ext_iff]

theorem State.resolveSrc3_eq_none_iff (s : State) (a b c : Src) :
    s.resolveSrc3 a b c = none ↔
      s.resolveSrc a = none ∨ s.resolveSrc b = none ∨ s.resolveSrc c = none := by
  unfold State.resolveSrc3
  cases s.resolveSrc a <;> cases s.resolveSrc b <;> cases s.resolveSrc c <;> simp

/-- A resolved source register lies inside its file (R128). -/
theorem State.srcIndex_lt {s : State} {o : Src} {l : Lane} {r : Nat}
    (h : s.srcIndex o l = some r) : r < s.fileSize o.file := by
  unfold State.srcIndex at h
  simp only at h
  split at h
  · split_ifs at h with hb
    simp only [Option.some.injEq] at h
    omega
  · split_ifs at h with hb
    simp only [Option.some.injEq] at h
    obtain ⟨h0, h1, h2, h3⟩ := hb
    generalize s.baseIndex o.index o.ind l = i at *
    rename_i d _
    generalize d.index.toInt + s.indirect d.ind l = k at *
    generalize s.stride o.file = n at *
    generalize s.fileSize o.file = z at *
    obtain ⟨i', rfl⟩ := Int.eq_ofNat_of_zero_le h0
    obtain ⟨k', rfl⟩ := Int.eq_ofNat_of_zero_le h2
    simp only [Int.toNat_natCast] at h
    have hk : k' + 1 ≤ z / n := by omega
    have hi : i' < n := by omega
    have hz : (k' + 1) * n ≤ z := le_trans (Nat.mul_le_mul_right n hk) (Nat.div_mul_le_self z n)
    have : (k' + 1) * n = k' * n + n := by ring
    omega

/-- A resolved destination register lies inside its file unless it is NULL (R128, R132). -/
theorem State.dstIndex_lt {s : State} {o : Dst} {l : Lane} {r : Nat} (hf : o.file ≠ .null)
    (h : s.dstIndex o l = some r) : r < s.fileSize o.file := by
  unfold State.dstIndex at h
  split at h
  · contradiction
  · simp only at h
    split_ifs at h with hb
    simp only [Option.some.injEq] at h
    omega

/-- A destination on NULL resolves in every lane (R132). -/
theorem State.dstIndex_null {s : State} {o : Dst} (hf : o.file = .null) (l : Lane) :
    s.dstIndex o l = some 0 := by
  simp [State.dstIndex, hf]

/-- Two states with the same sizes that read alike in lane l resolve a source alike there. -/
theorem State.srcIndex_congr {s t : State} (hc : s.cfg = t.cfg) (hp : s.prog = t.prog) {l : Lane}
    (hr : ∀ c, s.readReg .addr 0 c l = t.readReg .addr 0 c l) (o : Src) :
    s.srcIndex o l = t.srcIndex o l := by
  have hi : ∀ ind, s.indirect ind l = t.indirect ind l := by
    intro ind; cases ind <;> simp [State.indirect, hr]
  have hs : s.stride o.file = t.stride o.file := by cases o.file <;> simp [State.stride, hc]
  unfold State.srcIndex State.baseIndex
  simp only [hi, hs, State.fileSize_congr hc hp]

/-- Two states with the same sizes that read alike in lane l resolve a destination alike there. -/
theorem State.dstIndex_congr {s t : State} (hc : s.cfg = t.cfg) (hp : s.prog = t.prog) {l : Lane}
    (hr : ∀ c, s.readReg .addr 0 c l = t.readReg .addr 0 c l) (o : Dst) :
    s.dstIndex o l = t.dstIndex o l := by
  have hi : ∀ ind, s.indirect ind l = t.indirect ind l := by
    intro ind; cases ind <;> simp [State.indirect, hr]
  unfold State.dstIndex State.baseIndex
  simp only [hi, State.fileSize_congr hc hp]

/-- Fetch in lane l depends only on what lane l reads (R125, R68). -/
theorem State.fetch_congr {s t : State} {l : Lane}
    (hr : ∀ f i c, s.readReg f i c l = t.readReg f i c l) (o : Src) {ra rb : Quad Nat}
    (hab : ra.get l = rb.get l) (c : Channel) : s.fetch o ra c l = t.fetch o rb c l := by
  have : s.select o ra c l = t.select o rb c l := by
    unfold State.select; rw [hab]; split <;> simp [hr]
  simp only [State.fetch, this]

/-- The four channels of one lane depend only on what that lane reads. -/
theorem State.fetchLane_congr {s t : State} {l : Lane}
    (hr : ∀ f i c, s.readReg f i c l = t.readReg f i c l) (o : Src) {ra rb : Quad Nat}
    (hab : ra.get l = rb.get l) : s.fetchLane o ra l = t.fetchLane o rb l := by
  simp only [State.fetchLane, State.fetch_congr hr o hab]

@[simp] theorem State.fetchLane_get (s : State) (o : Src) (ra : Quad Nat) (l : Lane) (c : Channel) :
    (s.fetchLane o ra l).get c = s.fetch o ra c l := by
  simp [State.fetchLane]

end Sys2Proof.Machine
end

