-- ==== Sys2Proof/Laws/Store.lean ====
section
/-! SUPPORT. What the stores of an instruction do: one cell, all sixteen cells, and the commit phase;
what they read as afterwards, what they leave alone, and that they keep the stores canonical and
bounded. -/

namespace Sys2Proof.Machine

/-- The five files with lane cells that an instruction or the host can write. -/
def RegFile.hasCells : RegFile → Bool
  | .temp | .input | .output | .addr | .pred => true
  | .null | .imm | .const | .unassigned _ => false

/-- A write to a file changes only that file's store. -/
theorem State.writeReg_frame (s : State) (f : RegFile) (i : Nat) (c : Channel) (l : Lane) (v : Word) :
    s.writeReg f i c l v = { s with
      temp := (s.writeReg f i c l v).temp, input := (s.writeReg f i c l v).input
      output := (s.writeReg f i c l v).output, addr := (s.writeReg f i c l v).addr
      pred := (s.writeReg f i c l v).pred } := by
  cases f <;> rfl

/-- The nine parts of `storageWf`. -/
theorem State.storageWf_iff (s : State) : s.storageWf = true ↔
    s.temp.wf = true ∧ s.input.wf = true ∧ s.output.wf = true ∧ s.addr.wf = true ∧
    s.pred.wf = true ∧ s.const.wf = true ∧ s.a0.wf = true ∧ s.dadx.wf = true ∧
    s.dady.wf = true := by
  simp [State.storageWf, and_assoc]

/-- The nine parts of `storageBounded`. -/
theorem State.storageBounded_iff (s : State) : s.storageBounded = true ↔
    s.temp.below (16 * s.cfg.numTemp) = true ∧ s.input.below (16 * s.cfg.numInput) = true ∧
    s.output.below (16 * s.cfg.numOutput) = true ∧ s.addr.below 16 = true ∧
    s.pred.below (16 * s.cfg.numPred) = true ∧
    s.const.below (4 * (s.cfg.numConstBufs * s.cfg.constStride)) = true ∧
    s.a0.below (4 * s.cfg.numInput) = true ∧ s.dadx.below (4 * s.cfg.numInput) = true ∧
    s.dady.below (4 * s.cfg.numInput) = true := by
  simp [State.storageBounded, and_assoc]

/-- What any cell reads as after a write of one cell. -/
theorem State.readReg_writeReg (s : State) (h : s.storageWf = true) (f : RegFile) (i : Nat)
    (c : Channel) (l : Lane) (v : Word) (g : RegFile) (j : Nat) (e : Channel) (k : Lane) :
    (s.writeReg f i c l v).readReg g j e k =
      if RegFile.hasCells f = true ∧ g = f ∧ j = i ∧ e = c ∧ k = l then v
      else s.readReg g j e k := by
  obtain ⟨h1, h2, h3, h4, h5, -⟩ := (State.storageWf_iff s).mp h
  cases f <;> cases g <;>
    simp [State.writeReg, State.readReg, RegFile.hasCells, CellMap.read_write, cellNo_inj, *]

/-- A write keeps every store canonical. -/
theorem State.writeReg_storageWf (s : State) (h : s.storageWf = true) (f : RegFile) (i : Nat)
    (c : Channel) (l : Lane) (v : Word) : (s.writeReg f i c l v).storageWf = true := by
  rw [State.storageWf_iff] at h ⊢
  obtain ⟨h1, h2, h3, h4, h5, h6⟩ := h
  cases f <;> simp [State.writeReg, CellMap.write_wf, *]

/-- A write inside the file keeps every store bounded. -/
theorem State.writeReg_storageBounded (s : State) (h : s.storageBounded = true) (f : RegFile)
    (i : Nat) (hi : RegFile.hasCells f = true → i < s.fileSize f) (c : Channel) (l : Lane)
    (v : Word) : (s.writeReg f i c l v).storageBounded = true := by
  rw [State.storageBounded_iff] at h ⊢
  obtain ⟨h1, h2, h3, h4, h5, h6⟩ := h
  cases f <;> simp [State.writeReg, *] <;>
    exact CellMap.write_below _ _ _ _
      (cellNo_lt (n := s.fileSize _) (hi rfl) c l) (by simpa [State.fileSize])

/-! ### All the stores of an instruction -/

/-- Storing one cell changes only register files. -/
theorem State.storeCell_frame (s : State) (f : RegFile) (regs : Quad Nat) (out : Results)
    (p : Channel × Lane) : ∃ t i o a q, s.storeCell f regs out p =
      { s with temp := t, input := i, output := o, addr := a, pred := q } := by
  unfold State.storeCell
  split
  · exact ⟨_, _, _, _, _, rfl⟩
  · exact ⟨_, _, _, _, _, State.writeReg_frame ..⟩

/-- Storing the cells `ps`, in order, changes only register files. -/
theorem State.foldl_storeCell_frame (ps : List (Channel × Lane)) (s : State) (f : RegFile)
    (regs : Quad Nat) (out : Results) : ∃ t i o a q,
      ps.foldl (fun t p => t.storeCell f regs out p) s =
        { s with temp := t, input := i, output := o, addr := a, pred := q } := by
  induction ps generalizing s with
  | nil => exact ⟨_, _, _, _, _, rfl⟩
  | cons p ps ih =>
    obtain ⟨t, i, o, a, q, h⟩ := s.storeCell_frame f regs out p
    obtain ⟨t', i', o', a', q', h'⟩ := ih (s.storeCell f regs out p)
    exact ⟨t', i', o', a', q', by rw [List.foldl_cons, h', h]⟩

/-- The stores of an instruction change only register files. -/
theorem State.storeAll_frame (s : State) (f : RegFile) (regs : Quad Nat) (out : Results) :
    s.storeAll f regs out = { s with
      temp := (s.storeAll f regs out).temp, input := (s.storeAll f regs out).input
      output := (s.storeAll f regs out).output, addr := (s.storeAll f regs out).addr
      pred := (s.storeAll f regs out).pred } := by
  obtain ⟨t, i, o, a, q, h⟩ := State.foldl_storeCell_frame regCells s f regs out
  rw [State.storeAll, h]

/-- The Input file is kept unless it is the destination, which no legal instruction has. -/
theorem State.storeAll_input (s : State) (f : RegFile) (hf : f ≠ .input) (regs : Quad Nat)
    (out : Results) : (s.storeAll f regs out).input = s.input := by
  unfold State.storeAll
  generalize regCells = ps
  induction ps generalizing s with
  | nil => rfl
  | cons p ps ih =>
    rw [List.foldl_cons, ih]
    unfold State.storeCell
    split
    · rfl
    · cases f <;> first | rfl | exact absurd rfl hf

/-- The stores keep every store canonical. -/
theorem State.storeAll_storageWf (s : State) (h : s.storageWf = true) (f : RegFile)
    (regs : Quad Nat) (out : Results) : (s.storeAll f regs out).storageWf = true := by
  unfold State.storeAll
  generalize regCells = ps
  induction ps generalizing s with
  | nil => exact h
  | cons p ps ih =>
    rw [List.foldl_cons]
    refine ih _ ?_
    unfold State.storeCell
    split
    · exact h
    · exact s.writeReg_storageWf h f _ _ _ _

/-- The stores keep every store bounded, when the registers lie inside the file. -/
theorem State.storeAll_storageBounded (s : State) (h : s.storageBounded = true) (f : RegFile)
    (regs : Quad Nat) (hr : ∀ l, RegFile.hasCells f = true → regs.get l < s.fileSize f)
    (out : Results) : (s.storeAll f regs out).storageBounded = true := by
  unfold State.storeAll
  generalize regCells = ps
  induction ps generalizing s with
  | nil => exact h
  | cons p ps ih =>
    rw [List.foldl_cons]
    unfold State.storeCell
    split
    · exact ih s h hr
    · refine ih _ (s.writeReg_storageBounded h f _ (hr _) _ _ _) fun l hf => ?_
      rw [State.fileSize_congr (t := s) (by simp) (by simp)]
      exact hr l hf

/-- What any cell reads as after the stores of the cells `ps`. -/
theorem State.readReg_foldl_storeCell (ps : List (Channel × Lane)) (s : State)
    (h : s.storageWf = true) (f : RegFile) (regs : Quad Nat) (out : Results) (g : RegFile)
    (j : Nat) (c : Channel) (l : Lane) :
    (ps.foldl (fun t p => t.storeCell f regs out p) s).readReg g j c l =
      if RegFile.hasCells f = true ∧ g = f ∧ j = regs.get l ∧ (c, l) ∈ ps then
        (out c l).getD (s.readReg g j c l)
      else s.readReg g j c l := by
  induction ps generalizing s with
  | nil => simp
  | cons p ps ih =>
    obtain ⟨e, k⟩ := p
    rw [List.foldl_cons]
    have hstep : (s.storeCell f regs out (e, k)).storageWf = true := by
      unfold State.storeCell
      split
      · exact h
      · exact s.writeReg_storageWf h f _ _ _ _
    have hread : (s.storeCell f regs out (e, k)).readReg g j c l =
        if RegFile.hasCells f = true ∧ g = f ∧ j = regs.get l ∧ c = e ∧ l = k then
          (out c l).getD (s.readReg g j c l)
        else s.readReg g j c l := by
      unfold State.storeCell
      cases ho : out e k with
      | none =>
        simp only
        split
        · rename_i hc; obtain ⟨-, -, -, rfl, rfl⟩ := hc; simp [ho]
        · rfl
      | some w =>
        simp only
        rw [s.readReg_writeReg h]
        by_cases hce : c = e ∧ l = k
        · obtain ⟨rfl, rfl⟩ := hce; simp [ho]
        · rw [if_neg (by tauto), if_neg (by tauto)]
    rw [ih _ hstep, hread]
    by_cases hmem : (c, l) ∈ ps
    · by_cases hck : c = e ∧ l = k
      · by_cases hx : RegFile.hasCells f = true ∧ g = f ∧ j = regs.get l
        · obtain ⟨hx1, hx2, hx3⟩ := hx
          simp only [hx1, hx2, hx3, hck, List.mem_cons, true_and, and_true, true_or, if_true]
          cases out e k <;> simp
        · rw [if_neg (by tauto), if_neg (by tauto), if_neg (by tauto)]
      · rw [if_neg (show ¬(RegFile.hasCells f = true ∧ g = f ∧ j = regs.get l ∧ c = e ∧ l = k)
          by tauto)]
        simp [hmem]
    · by_cases hck : c = e ∧ l = k
      · obtain ⟨rfl, rfl⟩ := hck; simp [hmem]
      · have : ¬(c, l) ∈ (e, k) :: ps := by simp [hmem]; tauto
        rw [if_neg (by tauto), if_neg (by tauto), if_neg (by tauto)]

/-- Every cell of a register is among the stored ones. -/
theorem mem_regCells (c : Channel) (l : Lane) : (c, l) ∈ regCells := by
  simp [regCells, List.mem_flatMap]

/-- What any cell reads as after all the stores of an instruction (R133). -/
theorem State.readReg_storeAll (s : State) (h : s.storageWf = true) (f : RegFile)
    (regs : Quad Nat) (out : Results) (g : RegFile) (j : Nat) (c : Channel) (l : Lane) :
    (s.storeAll f regs out).readReg g j c l =
      if RegFile.hasCells f = true ∧ g = f ∧ j = regs.get l then
        (out c l).getD (s.readReg g j c l)
      else s.readReg g j c l := by
  rw [State.storeAll, State.readReg_foldl_storeCell _ s h]
  simp [mem_regCells]

/-! ### The commit phase -/

/-- The codes after the condition-code update (R137). -/
theorem ccAfter_get (update : Bool) (cc : Chans (Quad CcCode)) (out : Results) (c : Channel)
    (l : Lane) : ((ccAfter update cc out).get c).get l =
      if update = true then ((out c l).map ccCode).getD ((cc.get c).get l)
      else (cc.get c).get l := by
  simp only [ccAfter, Chans.get_ofFn, Quad.get_ofFn]
  cases update <;> cases out c l <;> simp

/-- What `stored` gives (R122, R134, R136). -/
theorem State.stored_eq (s : State) (m : Mods) (d : Dst) (res : Results) (c : Channel) (l : Lane) :
    s.stored m d res c l =
      if s.covers m d c l = true then (res c l).map (saturate m.sat) else none := rfl

/-- Reads see through the condition-code update of the commit. -/
theorem State.commit_readReg (s : State) (m : Mods) (d : Dst) (regs : Quad Nat) (res : Results) :
    (s.commit m d regs res).readReg = (s.storeAll d.file regs (s.stored m d res)).readReg := by
  funext f r c l; cases f <;> rfl

/-- The commit changes only register files and CC. -/
theorem State.commit_frame (s : State) (m : Mods) (d : Dst) (hd : d.file ≠ .input)
    (regs : Quad Nat) (res : Results) :
    s.commit m d regs res = { s with
      temp := (s.commit m d regs res).temp, output := (s.commit m d regs res).output
      addr := (s.commit m d regs res).addr, pred := (s.commit m d regs res).pred
      cc := (s.commit m d regs res).cc } := by
  have h := s.storeAll_frame d.file regs (s.stored m d res)
  have hi := s.storeAll_input d.file hd regs (s.stored m d res)
  unfold State.commit
  simp only
  rw [h, hi]

/-- The commit keeps every store canonical. -/
theorem State.commit_storageWf (s : State) (h : s.storageWf = true) (m : Mods) (d : Dst)
    (regs : Quad Nat) (res : Results) : (s.commit m d regs res).storageWf = true :=
  s.storeAll_storageWf h d.file regs (s.stored m d res)

/-- The commit keeps every store bounded, when the registers lie inside the file. -/
theorem State.commit_storageBounded (s : State) (h : s.storageBounded = true) (m : Mods) (d : Dst)
    (regs : Quad Nat) (hr : ∀ l, RegFile.hasCells d.file = true → regs.get l < s.fileSize d.file)
    (res : Results) : (s.commit m d regs res).storageBounded = true := by
  have := s.storeAll_storageBounded h d.file regs hr (s.stored m d res)
  rw [State.storageBounded_iff] at this ⊢
  exact this

/-- A legal destination is NULL or a file with cells. -/
theorem Dst.wellFormed_file {d : Dst} (h : d.wellFormed = true) :
    d.file = .null ∨ RegFile.hasCells d.file = true ∧ d.file ≠ .input := by
  unfold Dst.wellFormed RegFile.legalDst at h
  cases hf : d.file <;> simp_all [RegFile.hasCells]

/-! ### The fields that the commit leaves alone -/

@[simp] theorem State.commit_cfg (s : State) (m : Mods) (d : Dst) (regs : Quad Nat)
    (res : Results) : (s.commit m d regs res).cfg = s.cfg := by
  show (s.storeAll d.file regs (s.stored m d res)).cfg = s.cfg
  rw [State.storeAll_frame]

@[simp] theorem State.commit_const (s : State) (m : Mods) (d : Dst) (regs : Quad Nat)
    (res : Results) : (s.commit m d regs res).const = s.const := by
  show (s.storeAll d.file regs (s.stored m d res)).const = s.const
  rw [State.storeAll_frame]

@[simp] theorem State.commit_pc (s : State) (m : Mods) (d : Dst) (regs : Quad Nat)
    (res : Results) : (s.commit m d regs res).pc = s.pc := by
  show (s.storeAll d.file regs (s.stored m d res)).pc = s.pc
  rw [State.storeAll_frame]

@[simp] theorem State.commit_condMask (s : State) (m : Mods) (d : Dst) (regs : Quad Nat)
    (res : Results) : (s.commit m d regs res).condMask = s.condMask := by
  show (s.storeAll d.file regs (s.stored m d res)).condMask = s.condMask
  rw [State.storeAll_frame]

@[simp] theorem State.commit_loopMask (s : State) (m : Mods) (d : Dst) (regs : Quad Nat)
    (res : Results) : (s.commit m d regs res).loopMask = s.loopMask := by
  show (s.storeAll d.file regs (s.stored m d res)).loopMask = s.loopMask
  rw [State.storeAll_frame]

@[simp] theorem State.commit_contMask (s : State) (m : Mods) (d : Dst) (regs : Quad Nat)
    (res : Results) : (s.commit m d regs res).contMask = s.contMask := by
  show (s.storeAll d.file regs (s.stored m d res)).contMask = s.contMask
  rw [State.storeAll_frame]

@[simp] theorem State.commit_funcMask (s : State) (m : Mods) (d : Dst) (regs : Quad Nat)
    (res : Results) : (s.commit m d regs res).funcMask = s.funcMask := by
  show (s.storeAll d.file regs (s.stored m d res)).funcMask = s.funcMask
  rw [State.storeAll_frame]

@[simp] theorem State.commit_condStack (s : State) (m : Mods) (d : Dst) (regs : Quad Nat)
    (res : Results) : (s.commit m d regs res).condStack = s.condStack := by
  show (s.storeAll d.file regs (s.stored m d res)).condStack = s.condStack
  rw [State.storeAll_frame]

@[simp] theorem State.commit_loopStack (s : State) (m : Mods) (d : Dst) (regs : Quad Nat)
    (res : Results) : (s.commit m d regs res).loopStack = s.loopStack := by
  show (s.storeAll d.file regs (s.stored m d res)).loopStack = s.loopStack
  rw [State.storeAll_frame]

@[simp] theorem State.commit_contStack (s : State) (m : Mods) (d : Dst) (regs : Quad Nat)
    (res : Results) : (s.commit m d regs res).contStack = s.contStack := by
  show (s.storeAll d.file regs (s.stored m d res)).contStack = s.contStack
  rw [State.storeAll_frame]

@[simp] theorem State.commit_funcStack (s : State) (m : Mods) (d : Dst) (regs : Quad Nat)
    (res : Results) : (s.commit m d regs res).funcStack = s.funcStack := by
  show (s.storeAll d.file regs (s.stored m d res)).funcStack = s.funcStack
  rw [State.storeAll_frame]

@[simp] theorem State.commit_callStack (s : State) (m : Mods) (d : Dst) (regs : Quad Nat)
    (res : Results) : (s.commit m d regs res).callStack = s.callStack := by
  show (s.storeAll d.file regs (s.stored m d res)).callStack = s.callStack
  rw [State.storeAll_frame]

@[simp] theorem State.commit_kill (s : State) (m : Mods) (d : Dst) (regs : Quad Nat)
    (res : Results) : (s.commit m d regs res).kill = s.kill := by
  show (s.storeAll d.file regs (s.stored m d res)).kill = s.kill
  rw [State.storeAll_frame]

@[simp] theorem State.commit_outCursor (s : State) (m : Mods) (d : Dst) (regs : Quad Nat)
    (res : Results) : (s.commit m d regs res).outCursor = s.outCursor := by
  show (s.storeAll d.file regs (s.stored m d res)).outCursor = s.outCursor
  rw [State.storeAll_frame]

@[simp] theorem State.commit_status (s : State) (m : Mods) (d : Dst) (regs : Quad Nat)
    (res : Results) : (s.commit m d regs res).status = s.status := by
  show (s.storeAll d.file regs (s.stored m d res)).status = s.status
  rw [State.storeAll_frame]

@[simp] theorem State.commit_prog (s : State) (m : Mods) (d : Dst) (regs : Quad Nat)
    (res : Results) : (s.commit m d regs res).prog = s.prog := by
  show (s.storeAll d.file regs (s.stored m d res)).prog = s.prog
  rw [State.storeAll_frame]

@[simp] theorem State.commit_quadX (s : State) (m : Mods) (d : Dst) (regs : Quad Nat)
    (res : Results) : (s.commit m d regs res).quadX = s.quadX := by
  show (s.storeAll d.file regs (s.stored m d res)).quadX = s.quadX
  rw [State.storeAll_frame]

@[simp] theorem State.commit_quadY (s : State) (m : Mods) (d : Dst) (regs : Quad Nat)
    (res : Results) : (s.commit m d regs res).quadY = s.quadY := by
  show (s.storeAll d.file regs (s.stored m d res)).quadY = s.quadY
  rw [State.storeAll_frame]

@[simp] theorem State.commit_quadW (s : State) (m : Mods) (d : Dst) (regs : Quad Nat)
    (res : Results) : (s.commit m d regs res).quadW = s.quadW := by
  show (s.storeAll d.file regs (s.stored m d res)).quadW = s.quadW
  rw [State.storeAll_frame]

@[simp] theorem State.commit_a0 (s : State) (m : Mods) (d : Dst) (regs : Quad Nat)
    (res : Results) : (s.commit m d regs res).a0 = s.a0 := by
  show (s.storeAll d.file regs (s.stored m d res)).a0 = s.a0
  rw [State.storeAll_frame]

@[simp] theorem State.commit_dadx (s : State) (m : Mods) (d : Dst) (regs : Quad Nat)
    (res : Results) : (s.commit m d regs res).dadx = s.dadx := by
  show (s.storeAll d.file regs (s.stored m d res)).dadx = s.dadx
  rw [State.storeAll_frame]

@[simp] theorem State.commit_dady (s : State) (m : Mods) (d : Dst) (regs : Quad Nat)
    (res : Results) : (s.commit m d regs res).dady = s.dady := by
  show (s.storeAll d.file regs (s.stored m d res)).dady = s.dady
  rw [State.storeAll_frame]

@[simp] theorem State.commit_requests (s : State) (m : Mods) (d : Dst) (regs : Quad Nat)
    (res : Results) : (s.commit m d regs res).requests = s.requests := by
  show (s.storeAll d.file regs (s.stored m d res)).requests = s.requests
  rw [State.storeAll_frame]

@[simp] theorem State.commit_samplerTick (s : State) (m : Mods) (d : Dst) (regs : Quad Nat)
    (res : Results) : (s.commit m d regs res).samplerTick = s.samplerTick := by
  show (s.storeAll d.file regs (s.stored m d res)).samplerTick = s.samplerTick
  rw [State.storeAll_frame]

@[simp] theorem State.commit_samplerPending (s : State) (m : Mods) (d : Dst) (regs : Quad Nat)
    (res : Results) : (s.commit m d regs res).samplerPending = s.samplerPending := by
  show (s.storeAll d.file regs (s.stored m d res)).samplerPending = s.samplerPending
  rw [State.storeAll_frame]

@[simp] theorem State.commit_samplerSilentAt (s : State) (m : Mods) (d : Dst) (regs : Quad Nat)
    (res : Results) : (s.commit m d regs res).samplerSilentAt = s.samplerSilentAt := by
  show (s.storeAll d.file regs (s.stored m d res)).samplerSilentAt = s.samplerSilentAt
  rw [State.storeAll_frame]

theorem State.commit_input (s : State) (m : Mods) (d : Dst) (hd : d.wellFormed = true)
    (regs : Quad Nat) (res : Results) : (s.commit m d regs res).input = s.input := by
  refine s.storeAll_input d.file ?_ regs (s.stored m d res)
  rcases Dst.wellFormed_file hd with hn | ⟨-, h⟩
  · simp [hn]
  · exact h

/-- The effect of the commit phase followed by the advance of pc, on any state `u` that agrees with
`s` on what the masks and the predicate read. -/
theorem State.commit_effect (s : State) (h : s.storageWf = true) (i : Nat) (m : Mods) (d : Dst)
    (hd : d.wellFormed = true) (rd : Quad Nat) (res : Results) :
    StoreEffect s ((s.commit m d rd res).goto (i + 1)) i m d rd res where
  cell f r c l := by
    rw [State.goto_readReg, State.commit_readReg, State.readReg_storeAll s h, State.stored_eq]
    rcases Dst.wellFormed_file hd with hn | ⟨hc, -⟩
    · simp [hn, RegFile.hasCells]
    · have hne : d.file ≠ .null := by intro he; simp [he, RegFile.hasCells] at hc
      by_cases hx : f = d.file ∧ r = rd.get l
      · by_cases hcov : s.covers m d c l = true
        · simp only [hc, hx, hcov, hne, ne_eq, not_false_eq_true, and_self, if_true]
          cases res c l <;> simp
        · simp [hc, hx, hcov]
      · rw [if_neg (by tauto), if_neg (by tauto)]
  code c l := by
    have : ((s.commit m d rd res).goto (i + 1)).cc = ccAfter m.ccUpdate s.cc (s.stored m d res) := rfl
    rw [this, ccAfter_get, State.stored_eq]
    by_cases hu : m.ccUpdate = true
    · by_cases hcov : s.covers m d c l = true
      · simp only [hu, hcov, and_self, if_true]
        cases res c l <;> simp
      · simp [hcov]
    · simp [hu]
  rest := by
    have hf : d.file ≠ .input := by
      rcases Dst.wellFormed_file hd with hn | ⟨-, h⟩
      · simp [hn]
      · exact h
    conv_lhs => rw [State.goto, s.commit_frame m d hf rd res]
    rfl

end Sys2Proof.Machine
end

