-- ==== Sys2Proof/Laws/Frames.lean ====
section
/-! SUPPORT. What the instruction frames can do: with a running pc they commit, or they take exactly one
fatal error; one lemma for each of the ways and one inversion lemma for each frame. -/

namespace Sys2Proof.Machine

theorem instrFrame_ok {s : State} {i : Nat} {body : Nat → Except FatalCode State} {t : State}
    (hpc : s.pc = .running i) (h : body i = .ok t) : instrFrame s body = .next t := by
  simp [instrFrame, hpc, h]

theorem instrFrame_error {s : State} {i : Nat} {body : Nat → Except FatalCode State}
    {code : FatalCode} (hpc : s.pc = .running i) (h : body i = .error code) :
    instrFrame s body = .next (s.raiseFatal code i) := by
  simp [instrFrame, hpc, h]

/-- Everything a frame can do when it answers a next state. -/
theorem instrFrame_cases {s t : State} {i : Nat} {body : Nat → Except FatalCode State}
    (hpc : s.pc = .running i) (h : instrFrame s body = .next t) :
    body i = .ok t ∨ ∃ code, body i = .error code ∧ t = s.raiseFatal code i := by
  simp only [instrFrame, hpc] at h
  split at h
  · rename_i heq
    simp only [Host.Outcome.next.injEq] at h
    exact .inl (h ▸ heq)
  · rename_i code heq
    simp only [Host.Outcome.next.injEq] at h
    exact .inr ⟨code, heq, h.symm⟩

/-- With a running pc a frame always answers a next state. -/
theorem instrFrame_next {s : State} {i : Nat} (body : Nat → Except FatalCode State)
    (hpc : s.pc = .running i) : ∃ t, instrFrame s body = .next t := by
  cases hb : body i with
  | ok t => exact ⟨t, instrFrame_ok hpc hb⟩
  | error code => exact ⟨_, instrFrame_error hpc hb⟩

section alu
variable {α : Type} {s : State} {i : Nat} {legal : Bool} {m : Mods} {d : Dst} {srcs : Option α}
  {res : α → Results}

theorem aluFrame_next (hpc : s.pc = .running i) (hl : legal = true) {ra : α} (hs : srcs = some ra)
    {rd : Quad Nat} (hd : s.resolveDst d = some rd) :
    aluFrame s legal m d srcs res = .next ((s.commit m d rd (res ra)).goto (i + 1)) := by
  unfold aluFrame
  exact instrFrame_ok hpc (by simp [hl, hs, hd])

theorem aluFrame_illegal (hpc : s.pc = .running i) (hl : legal = false) :
    aluFrame s legal m d srcs res = .next (s.raiseFatal .illegalEncoding i) := by
  unfold aluFrame
  exact instrFrame_error hpc (by simp [hl])

theorem aluFrame_outside (hpc : s.pc = .running i) (hl : legal = true)
    (h : srcs = none ∨ s.resolveDst d = none) :
    aluFrame s legal m d srcs res = .next (s.raiseFatal .indexOutOfBounds i) := by
  unfold aluFrame
  refine instrFrame_error hpc ?_
  rcases h with h | h
  · simp [hl, h]
  · cases srcs <;> simp [hl, h]

/-- Everything an instruction with a destination can do. -/
theorem aluFrame_cases (hpc : s.pc = .running i) {t : State}
    (h : aluFrame s legal m d srcs res = .next t) :
    (legal = true ∧ ∃ ra rd, srcs = some ra ∧ s.resolveDst d = some rd ∧
      t = (s.commit m d rd (res ra)).goto (i + 1)) ∨
    (legal = false ∧ t = s.raiseFatal .illegalEncoding i) ∨
    (legal = true ∧ (srcs = none ∨ s.resolveDst d = none) ∧
      t = s.raiseFatal .indexOutOfBounds i) := by
  cases hl : legal with
  | false =>
    rw [hl, aluFrame_illegal hpc rfl] at h
    exact .inr (.inl ⟨rfl, by simpa using h.symm⟩)
  | true =>
    by_cases hn : srcs = none ∨ s.resolveDst d = none
    · rw [aluFrame_outside hpc hl hn] at h
      exact .inr (.inr ⟨rfl, hn, by simpa using h.symm⟩)
    · push Not at hn
      obtain ⟨ra, hra⟩ := Option.ne_none_iff_exists'.mp hn.1
      obtain ⟨rd, hrd⟩ := Option.ne_none_iff_exists'.mp hn.2
      rw [aluFrame_next hpc hl hra hrd] at h
      exact .inl ⟨rfl, ra, rd, hra, hrd, by simpa using h.symm⟩

end alu

section tex
variable {α : Type} {s : State} {i : Nat} {legal : Bool} {m : Mods} {d : Dst} {srcs : Option α}
  {req : α → SamplerReq}

theorem texFrame_next (hpc : s.pc = .running i) (hl : legal = true) {ra : α} (hs : srcs = some ra)
    {rd : Quad Nat} (hd : s.resolveDst d = some rd)
    (ha : s.samplerSilentAt ≠ some s.samplerTick) :
    texFrame s legal m d srcs req =
      .next (((s.issue (req ra)).commit m d rd (s.response (req ra))).goto (i + 1)) := by
  unfold texFrame
  exact instrFrame_ok hpc (by simp [hl, hs, hd, ha])

theorem texFrame_await (hpc : s.pc = .running i) (hl : legal = true) {ra : α} (hs : srcs = some ra)
    {rd : Quad Nat} (hd : s.resolveDst d = some rd)
    (ha : s.samplerSilentAt = some s.samplerTick) :
    texFrame s legal m d srcs req = .next (s.await (req ra)) := by
  unfold texFrame
  exact instrFrame_ok hpc (by simp [hl, hs, hd, ha])

theorem texFrame_illegal (hpc : s.pc = .running i) (hl : legal = false) :
    texFrame s legal m d srcs req = .next (s.raiseFatal .illegalEncoding i) := by
  unfold texFrame
  exact instrFrame_error hpc (by simp [hl])

theorem texFrame_outside (hpc : s.pc = .running i) (hl : legal = true)
    (h : srcs = none ∨ s.resolveDst d = none) :
    texFrame s legal m d srcs req = .next (s.raiseFatal .indexOutOfBounds i) := by
  unfold texFrame
  refine instrFrame_error hpc ?_
  rcases h with h | h
  · simp [hl, h]
  · cases srcs <;> simp [hl, h]

/-- Everything a texture instruction can do. -/
theorem texFrame_cases (hpc : s.pc = .running i) {t : State}
    (h : texFrame s legal m d srcs req = .next t) :
    (legal = true ∧ ∃ ra rd, srcs = some ra ∧ s.resolveDst d = some rd ∧
      ((s.samplerSilentAt ≠ some s.samplerTick ∧
          t = ((s.issue (req ra)).commit m d rd (s.response (req ra))).goto (i + 1)) ∨
        (s.samplerSilentAt = some s.samplerTick ∧ t = s.await (req ra)))) ∨
    (legal = false ∧ t = s.raiseFatal .illegalEncoding i) ∨
    (legal = true ∧ (srcs = none ∨ s.resolveDst d = none) ∧
      t = s.raiseFatal .indexOutOfBounds i) := by
  cases hl : legal with
  | false =>
    rw [hl, texFrame_illegal hpc rfl] at h
    exact .inr (.inl ⟨rfl, by simpa using h.symm⟩)
  | true =>
    by_cases hn : srcs = none ∨ s.resolveDst d = none
    · rw [texFrame_outside hpc hl hn] at h
      exact .inr (.inr ⟨rfl, hn, by simpa using h.symm⟩)
    · push Not at hn
      obtain ⟨ra, hra⟩ := Option.ne_none_iff_exists'.mp hn.1
      obtain ⟨rd, hrd⟩ := Option.ne_none_iff_exists'.mp hn.2
      by_cases ha : s.samplerSilentAt = some s.samplerTick
      · rw [texFrame_await hpc hl hra hrd ha] at h
        exact .inl ⟨rfl, ra, rd, hra, hrd, .inr ⟨ha, by simpa using h.symm⟩⟩
      · rw [texFrame_next hpc hl hra hrd ha] at h
        exact .inl ⟨rfl, ra, rd, hra, hrd, .inl ⟨ha, by simpa using h.symm⟩⟩

end tex

theorem flowFrame_ok {h : HdrReserved} {s : State} {i : Nat} {body : Nat → Except FatalCode State}
    {t : State} (hpc : s.pc = .running i) (hh : h = 0) (hb : body i = .ok t) :
    flowFrame h s body = .next t := by
  unfold flowFrame
  exact instrFrame_ok hpc (by simp [hh, hdrLegal, hdrWellFormed, hb])

theorem flowFrame_error {h : HdrReserved} {s : State} {i : Nat}
    {body : Nat → Except FatalCode State} {code : FatalCode} (hpc : s.pc = .running i) (hh : h = 0)
    (hb : body i = .error code) : flowFrame h s body = .next (s.raiseFatal code i) := by
  unfold flowFrame
  exact instrFrame_error hpc (by simp [hh, hdrLegal, hdrWellFormed, hb])

theorem flowFrame_illegal {h : HdrReserved} {s : State} {i : Nat}
    {body : Nat → Except FatalCode State} (hpc : s.pc = .running i) (hh : h ≠ 0) :
    flowFrame h s body = .next (s.raiseFatal .illegalEncoding i) := by
  unfold flowFrame
  exact instrFrame_error hpc (by
    have : ¬h = 0#2 := hh
    simp [this, hdrLegal, hdrWellFormed])

/-- Everything a control-flow instruction can do. -/
theorem flowFrame_cases {h : HdrReserved} {s : State} {i : Nat}
    {body : Nat → Except FatalCode State} {t : State} (hpc : s.pc = .running i)
    (hx : flowFrame h s body = .next t) :
    (h = 0 ∧ body i = .ok t) ∨ ∃ code, t = s.raiseFatal code i := by
  by_cases hh : h = 0
  · cases hb : body i with
    | ok u =>
      rw [flowFrame_ok hpc hh hb] at hx
      exact .inl ⟨hh, by simpa using hx⟩
    | error code =>
      rw [flowFrame_error hpc hh hb] at hx
      exact .inr ⟨code, by simpa using hx.symm⟩
  · rw [flowFrame_illegal hpc hh] at hx
    exact .inr ⟨_, by simpa using hx.symm⟩

/-! ### Completion of the three shapes of instruction with a destination -/

/-- One source: where it may execute, it stores its results. -/
theorem alu1_effect {s : State} {i : Nat} {m : Mods} {d : Dst} {a : Src} {rd ra : Quad Nat}
    (h : s.Ready i m d rd [(a, ra)]) (g : Micro1) :
    ∃ t, alu1 m d a g s = .next t ∧
      StoreEffect s t i m d rd fun c l => g (s.fetchLane a ra l) c := by
  have ha := h.srcs (a, ra) (by simp)
  have hra := (s.resolveSrc_eq_some_iff a ra).mpr (h.src_regs (a, ra) (by simp))
  have hrd := (s.resolveDst_eq_some_iff d rd).mpr h.dst_regs
  refine ⟨_, aluFrame_next h.pc ?_ hra hrd, s.commit_effect h.inv.storage_wf i m d h.dst rd _⟩
  simp_all [legal1, modsLegal, dstLegal, srcLegal, h.mods, h.dst]

/-- Two sources: where it may execute, it stores its results. -/
theorem alu2_effect {s : State} {i : Nat} {m : Mods} {d : Dst} {a b : Src} {rd ra rb : Quad Nat}
    (h : s.Ready i m d rd [(a, ra), (b, rb)]) (g : Micro2) :
    ∃ t, alu2 m d a b g s = .next t ∧
      StoreEffect s t i m d rd fun c l => g (s.fetchLane a ra l) (s.fetchLane b rb l) c := by
  have ha := h.srcs (a, ra) (by simp)
  have hb := h.srcs (b, rb) (by simp)
  have hra := (s.resolveSrc_eq_some_iff a ra).mpr (h.src_regs (a, ra) (by simp))
  have hrb := (s.resolveSrc_eq_some_iff b rb).mpr (h.src_regs (b, rb) (by simp))
  have hrd := (s.resolveDst_eq_some_iff d rd).mpr h.dst_regs
  refine ⟨_, aluFrame_next h.pc ?_
    ((s.resolveSrc2_eq_some_iff a b (ra, rb)).mpr ⟨hra, hrb⟩) hrd,
    s.commit_effect h.inv.storage_wf i m d h.dst rd _⟩
  simp_all [legal2, legal1, modsLegal, dstLegal, srcLegal, h.mods, h.dst]

/-- Three sources: where it may execute, it stores its results. -/
theorem alu3_effect {s : State} {i : Nat} {m : Mods} {d : Dst} {a b e : Src}
    {rd ra rb re : Quad Nat} (h : s.Ready i m d rd [(a, ra), (b, rb), (e, re)]) (g : Micro3) :
    ∃ t, alu3 m d a b e g s = .next t ∧
      StoreEffect s t i m d rd fun c l =>
        g (s.fetchLane a ra l) (s.fetchLane b rb l) (s.fetchLane e re l) c := by
  have ha := h.srcs (a, ra) (by simp)
  have hb := h.srcs (b, rb) (by simp)
  have he := h.srcs (e, re) (by simp)
  have hra := (s.resolveSrc_eq_some_iff a ra).mpr (h.src_regs (a, ra) (by simp))
  have hrb := (s.resolveSrc_eq_some_iff b rb).mpr (h.src_regs (b, rb) (by simp))
  have hre := (s.resolveSrc_eq_some_iff e re).mpr (h.src_regs (e, re) (by simp))
  have hrd := (s.resolveDst_eq_some_iff d rd).mpr h.dst_regs
  refine ⟨_, aluFrame_next h.pc ?_
    ((s.resolveSrc3_eq_some_iff a b e (ra, rb, re)).mpr ⟨hra, hrb, hre⟩) hrd,
    s.commit_effect h.inv.storage_wf i m d h.dst rd _⟩
  simp_all [legal3, legal2, legal1, modsLegal, dstLegal, srcLegal, h.mods, h.dst]

end Sys2Proof.Machine
end

