-- ==== Sys2Proof/Laws/Exec.lean ====
section
/-! SUPPORT. Once and for all, what executing one instruction can do: it takes one fatal error, or it
commits the stores of a destination, or it waits for an answer of the Sampler that never comes, or it
adds lanes to Kill, or it makes one of the moves of the control-flow instructions. Every invariant is
derived from this inversion. -/

namespace Sys2Proof.Machine

/-- The moves of the control-flow instructions at index i. -/
inductive FlowEffect (s : State) (i : Nat) : State → Prop
  /-- NOP, BGNSUB, ENDSUB, and CAL without a live lane -/
  | advance : FlowEffect s i (s.goto (i + 1))
  /-- IF -/
  | enterIf (cond : LaneMask) (hroom : s.condStack.length < s.cfg.maxNest) :
    FlowEffect s i ({ s with
      condStack := s.condStack ++ [s.condMask], condMask := s.condMask &&& cond }.goto (i + 1))
  /-- ELSE -/
  | flip (top : LaneMask) (htop : s.condStack.getLast? = some top) :
    FlowEffect s i ({ s with condMask := ~~~s.condMask &&& top }.goto (i + 1))
  /-- ENDIF -/
  | leaveIf (top : LaneMask) (htop : s.condStack.getLast? = some top) :
    FlowEffect s i
      ({ s with condMask := top, condStack := s.condStack.dropLast }.goto (i + 1))
  /-- BGNLOOP -/
  | enterLoop (hloop : s.loopStack.length < s.cfg.maxNest)
    (hcont : s.contStack.length < s.cfg.maxNest) :
    FlowEffect s i ({ s with
      loopStack := s.loopStack ++ [s.loopMask]
      contStack := s.contStack ++ [s.contMask] }.goto (i + 1))
  /-- ENDLOOP with a live lane -/
  | again (label : Nat) (top : LaneMask) (htop : s.contStack.getLast? = some top) :
    FlowEffect s i ({ s with contMask := top }.goto (label + 1))
  /-- ENDLOOP without a live lane -/
  | leaveLoop (loopTop contTop : LaneMask) (hloop : s.loopStack.getLast? = some loopTop)
    (hcont : s.contStack.getLast? = some contTop) :
    FlowEffect s i ({ s with
      loopMask := loopTop, loopStack := s.loopStack.dropLast
      contMask := contTop, contStack := s.contStack.dropLast }.goto (i + 1))
  /-- BRK -/
  | breakLanes : FlowEffect s i ({ s with loopMask := s.loopMask &&& ~~~s.execMask }.goto (i + 1))
  /-- CONT -/
  | continueLanes :
    FlowEffect s i ({ s with contMask := s.contMask &&& ~~~s.execMask }.goto (i + 1))
  /-- CAL with a live lane -/
  | call (label : Nat) (hcall : s.callStack.length < s.cfg.maxNest)
    (hcond : s.condStack.length < s.cfg.maxNest) (hloop : s.loopStack.length < s.cfg.maxNest)
    (hcont : s.contStack.length < s.cfg.maxNest) (hfunc : s.funcStack.length < s.cfg.maxNest) :
    FlowEffect s i ({ s with
      callStack := s.callStack ++ [({
        retPc := i + 1, condDepth := s.condStack.length, loopDepth := s.loopStack.length
        contDepth := s.contStack.length } : CallEntry)]
      condStack := s.condStack ++ [s.condMask], loopStack := s.loopStack ++ [s.loopMask]
      contStack := s.contStack ++ [s.contMask]
      funcStack := s.funcStack ++ [s.funcMask] }.goto label)
  /-- RET with lanes left in Func -/
  | returnLanes (hfunc : s.funcMask &&& ~~~s.execMask ≠ 0) :
    FlowEffect s i ({ s with funcMask := s.funcMask &&& ~~~s.execMask }.goto (i + 1))
  /-- RET of the last lanes outside a call -/
  | returnHalt (hfunc : s.funcMask &&& ~~~s.execMask = 0) (hcall : s.callStack = []) :
    FlowEffect s i { s with funcMask := s.funcMask &&& ~~~s.execMask, pc := .halted }
  /-- RET of the last lanes of a call -/
  | returnCall (hfunc : s.funcMask &&& ~~~s.execMask = 0) (e : CallEntry)
    (hcall : s.callStack.getLast? = some e) (cond loop cont func : LaneMask)
    (hcond : s.condStack[e.condDepth]? = some cond) (hloop : s.loopStack[e.loopDepth]? = some loop)
    (hcont : s.contStack[e.contDepth]? = some cont) (hf : s.funcStack.getLast? = some func) :
    FlowEffect s i ({ s with
      callStack := s.callStack.dropLast
      condMask := cond, condStack := s.condStack.take e.condDepth
      loopMask := loop, loopStack := s.loopStack.take e.loopDepth
      contMask := cont, contStack := s.contStack.take e.contDepth
      funcMask := func, funcStack := s.funcStack.dropLast }.goto e.retPc)
  /-- END -/
  | halt : FlowEffect s i { s with pc := .halted }

/-- Everything the instruction `ins` at index i can do. -/
inductive ExecEffect (s : State) (i : Nat) (ins : Instr) : State → Prop
  | fatal (code : FatalCode) : ExecEffect s i ins (s.raiseFatal code i)
  | store (m : Mods) (d : Dst) (rd : Quad Nat) (res : Results) (hdst : ins.dst? = some d)
    (htex : ins.isTexture = false) (hd : d.wellFormed = true)
    (hrd : ∀ l, s.dstIndex d l = some (rd.get l)) :
    ExecEffect s i ins ((s.commit m d rd res).goto (i + 1))
  | texture (m : Mods) (d : Dst) (rd : Quad Nat) (req : SamplerReq) (hdst : ins.dst? = some d)
    (htex : ins.isTexture = true) (hd : d.wellFormed = true)
    (hrd : ∀ l, s.dstIndex d l = some (rd.get l))
    (hsilent : s.samplerSilentAt ≠ some s.samplerTick) :
    ExecEffect s i ins (((s.issue req).commit m d rd (s.response req)).goto (i + 1))
  | await (req : SamplerReq) (htex : ins.isTexture = true)
    (hsilent : s.samplerSilentAt = some s.samplerTick) : ExecEffect s i ins (s.await req)
  | kill (k : LaneMask) (hdst : ins.dst? = none) (hflow : ins.isFlow = false)
    (hk : ∀ l, k.has l = true → s.execMask.has l = true) :
    ExecEffect s i ins ({ s with kill := s.kill ||| k }.goto (i + 1))
  | flow (hflow : ins.isFlow = true) (t : State) (ht : FlowEffect s i t) : ExecEffect s i ins t

section shapes
variable {s t : State} {i : Nat} {ins : Instr} {m : Mods} {d : Dst}

theorem aluFrame_execEffect {α : Type} {legal : Bool} {srcs : Option α} {res : α → Results}
    (hpc : s.pc = .running i) (h : aluFrame s legal m d srcs res = .next t)
    (hl : legal = true → d.wellFormed = true) (hdst : ins.dst? = some d)
    (htex : ins.isTexture = false) : ExecEffect s i ins t := by
  rcases aluFrame_cases hpc h with ⟨hl', ra, rd, -, hrd, rfl⟩ | ⟨-, rfl⟩ | ⟨-, -, rfl⟩
  · exact .store m d rd _ hdst htex (hl hl') ((s.resolveDst_eq_some_iff d rd).mp hrd)
  · exact .fatal _
  · exact .fatal _

theorem alu1_execEffect {a : Src} {g : Micro1} (hpc : s.pc = .running i)
    (h : alu1 m d a g s = .next t) (hdst : ins.dst? = some d) (htex : ins.isTexture = false) :
    ExecEffect s i ins t :=
  aluFrame_execEffect hpc h (by simp [legal1, dstLegal]; tauto) hdst htex

theorem alu2_execEffect {a b : Src} {g : Micro2} (hpc : s.pc = .running i)
    (h : alu2 m d a b g s = .next t) (hdst : ins.dst? = some d) (htex : ins.isTexture = false) :
    ExecEffect s i ins t :=
  aluFrame_execEffect hpc h (by simp [legal2, legal1, dstLegal]; tauto) hdst htex

theorem alu3_execEffect {a b c : Src} {g : Micro3} (hpc : s.pc = .running i)
    (h : alu3 m d a b c g s = .next t) (hdst : ins.dst? = some d) (htex : ins.isTexture = false) :
    ExecEffect s i ins t :=
  aluFrame_execEffect hpc h (by simp [legal3, legal2, legal1, dstLegal]; tauto) hdst htex

theorem texFrame_execEffect {α : Type} {legal : Bool} {srcs : Option α} {req : α → SamplerReq}
    (hpc : s.pc = .running i) (h : texFrame s legal m d srcs req = .next t)
    (hl : legal = true → d.wellFormed = true) (hdst : ins.dst? = some d)
    (htex : ins.isTexture = true) : ExecEffect s i ins t := by
  rcases texFrame_cases hpc h with
    ⟨hl', ra, rd, -, hrd, ⟨ha, rfl⟩ | ⟨ha, rfl⟩⟩ | ⟨-, rfl⟩ | ⟨-, -, rfl⟩
  · exact .texture m d rd _ hdst htex (hl hl') ((s.resolveDst_eq_some_iff d rd).mp hrd) ha
  · exact .await _ htex ha
  · exact .fatal _
  · exact .fatal _

theorem legal1_tex_dst {a : Src} {u : Bool} (h : (legal1 m d a && u) = true) :
    d.wellFormed = true := by
  simp [legal1, dstLegal] at h; tauto

theorem legal3_tex_dst {a b c : Src} {u : Bool} (h : (legal3 m d a b c && u) = true) :
    d.wellFormed = true := by
  simp [legal3, legal2, legal1, dstLegal] at h; tauto

theorem execKil_execEffect {h : HdrReserved} {a : Src} (hpc : s.pc = .running i)
    (hx : execKil h a s = .next t) : ExecEffect s i (.kil h a) t := by
  rcases instrFrame_cases hpc hx with hb | ⟨code, -, rfl⟩
  · simp only at hb
    split_ifs at hb
    split at hb
    · simp only [Except.ok.injEq] at hb
      subst hb
      exact .kill _ rfl rfl fun l => by simp
    · cases hb
  · exact .fatal _

theorem execKilp_execEffect {h : HdrReserved} {p : Bool} (hpc : s.pc = .running i)
    (hx : execKilp h p s = .next t) : ExecEffect s i (.kilp h p) t := by
  rcases instrFrame_cases hpc hx with hb | ⟨code, -, rfl⟩
  · simp only at hb
    split_ifs at hb
    all_goals
      simp only [Except.ok.injEq] at hb
      subst hb
    · exact .kill 0 rfl rfl fun l => by simp
    · exact .kill _ rfl rfl fun l h => h
  · exact .fatal _

end shapes

/-! ### Control flow -/

section flow
variable {s t : State} {i : Nat} {h : HdrReserved}

theorem stackFull_eq_false {α : Type} (s : State) (st : List α) :
    stackFull s st = false ↔ st.length < s.cfg.maxNest := by
  simp [stackFull]

theorem stackFull_eq_true {α : Type} (s : State) (st : List α) :
    stackFull s st = true ↔ s.cfg.maxNest ≤ st.length := by
  simp [stackFull]

theorem execIf_flow {a : Src} (hpc : s.pc = .running i) (hx : execIf h a s = .next t) :
    FlowEffect s i t ∨ ∃ code, t = s.raiseFatal code i := by
  rcases flowFrame_cases hpc hx with ⟨-, hb⟩ | hf
  · split_ifs at hb with hlegal hfull
    all_goals split at hb
    all_goals cases hb
    simp only [Bool.not_eq_true, stackFull_eq_false] at hfull
    exact .inl (.enterIf _ hfull)
  · exact .inr hf

theorem execElse_flow (hpc : s.pc = .running i) (hx : execElse h s = .next t) :
    FlowEffect s i t ∨ ∃ code, t = s.raiseFatal code i := by
  rcases flowFrame_cases hpc hx with ⟨-, hb⟩ | hf
  · split at hb
    · cases hb
    · rename_i top htop
      cases hb
      exact .inl (.flip top htop)
  · exact .inr hf

theorem execEndif_flow (hpc : s.pc = .running i) (hx : execEndif h s = .next t) :
    FlowEffect s i t ∨ ∃ code, t = s.raiseFatal code i := by
  rcases flowFrame_cases hpc hx with ⟨-, hb⟩ | hf
  · split at hb
    · cases hb
    · rename_i top htop
      cases hb
      exact .inl (.leaveIf top htop)
  · exact .inr hf

theorem execBgnloop_flow (hpc : s.pc = .running i) (hx : execBgnloop h s = .next t) :
    FlowEffect s i t ∨ ∃ code, t = s.raiseFatal code i := by
  rcases flowFrame_cases hpc hx with ⟨-, hb⟩ | hf
  · split_ifs at hb with hfull
    simp only [Bool.or_eq_true, not_or, Bool.not_eq_true, stackFull_eq_false] at hfull
    cases hb
    exact .inl (.enterLoop hfull.1 hfull.2)
  · exact .inr hf

theorem execEndloop_flow {label : Word} (hpc : s.pc = .running i)
    (hx : execEndloop h label s = .next t) :
    FlowEffect s i t ∨ ∃ code, t = s.raiseFatal code i := by
  rcases flowFrame_cases hpc hx with ⟨-, hb⟩ | hf
  · split_ifs at hb
    split at hb
    · rename_i loopTop contTop hloop hcont
      simp only at hb
      split_ifs at hb
      · cases hb
        exact .inl (.again label.toNat contTop hcont)
      · cases hb
        exact .inl (.leaveLoop loopTop contTop hloop hcont)
    · cases hb
  · exact .inr hf

theorem execCal_flow {label : Word} (hpc : s.pc = .running i) (hx : execCal h label s = .next t) :
    FlowEffect s i t ∨ ∃ code, t = s.raiseFatal code i := by
  rcases flowFrame_cases hpc hx with ⟨-, hb⟩ | hf
  · split_ifs at hb with h1 h2 h3
    · simp only [State.anyStackFull, Bool.or_eq_true, not_or, Bool.not_eq_true,
        stackFull_eq_false] at h3
      obtain ⟨⟨⟨⟨hc, hcond⟩, hloop⟩, hcont⟩, hfunc⟩ := h3
      cases hb
      exact .inl (.call label.toNat hc hcond hloop hcont hfunc)
    · cases hb
      exact .inl .advance
  · exact .inr hf

theorem execRet_flow (hpc : s.pc = .running i) (hx : execRet h s = .next t) :
    FlowEffect s i t ∨ ∃ code, t = s.raiseFatal code i := by
  rcases flowFrame_cases hpc hx with ⟨-, hb⟩ | hf
  · simp only at hb
    split_ifs at hb with hfunc
    · cases hb
      exact .inl (.returnLanes hfunc)
    · simp only [ne_eq, not_not] at hfunc
      split at hb
      · rename_i hcall
        cases hb
        exact .inl (.returnHalt hfunc (by simpa using hcall))
      · rename_i e hcall
        unfold State.returnTo at hb
        split at hb
        · rename_i u hu
          split at hu
          · rename_i cond loop cont func h1 h2 h3 h4
            cases hb
            cases hu
            exact .inl (.returnCall hfunc e hcall cond loop cont func h1 h2 h3 h4)
          · cases hu
        · cases hb
  · exact .inr hf

theorem execBrk_flow (hpc : s.pc = .running i) (hx : execBrk h s = .next t) :
    FlowEffect s i t ∨ ∃ code, t = s.raiseFatal code i := by
  rcases flowFrame_cases hpc hx with ⟨-, hb⟩ | hf
  · cases hb; exact .inl .breakLanes
  · exact .inr hf

theorem execCont_flow (hpc : s.pc = .running i) (hx : execCont h s = .next t) :
    FlowEffect s i t ∨ ∃ code, t = s.raiseFatal code i := by
  rcases flowFrame_cases hpc hx with ⟨-, hb⟩ | hf
  · cases hb; exact .inl .continueLanes
  · exact .inr hf

theorem execEnd_flow (hpc : s.pc = .running i) (hx : execEnd h s = .next t) :
    FlowEffect s i t ∨ ∃ code, t = s.raiseFatal code i := by
  rcases flowFrame_cases hpc hx with ⟨-, hb⟩ | hf
  · cases hb; exact .inl .halt
  · exact .inr hf

/-- NOP, BGNSUB and ENDSUB share this shape. -/
theorem advance_flow (hpc : s.pc = .running i)
    (hx : flowFrame h s (fun i => .ok (s.goto (i + 1))) = .next t) :
    FlowEffect s i t ∨ ∃ code, t = s.raiseFatal code i := by
  rcases flowFrame_cases hpc hx with ⟨-, hb⟩ | hf
  · cases hb; exact .inl .advance
  · exact .inr hf

/-- A control-flow instruction in the terms of `ExecEffect`. -/
theorem ExecEffect.ofFlow {ins : Instr} (hflow : ins.isFlow = true)
    (hx : FlowEffect s i t ∨ ∃ code, t = s.raiseFatal code i) : ExecEffect s i ins t := by
  rcases hx with hx | ⟨code, rfl⟩
  · exact .flow hflow t hx
  · exact .fatal code

end flow

/-- Everything an instruction can do, when the pc is at it. -/
theorem exec_effect {s t : State} {i : Nat} (ins : Instr) (hpc : s.pc = .running i)
    (h : exec ins s = .next t) : ExecEffect s i ins t := by
  cases ins with
  | nop hd => exact .ofFlow rfl (advance_flow hpc h)
  | mov m d a => exact alu1_execEffect hpc h rfl rfl
  | add m d a b => exact alu2_execEffect hpc h rfl rfl
  | sub m d a b => exact alu2_execEffect hpc h rfl rfl
  | mul m d a b => exact alu2_execEffect hpc h rfl rfl
  | div m d a b => exact alu2_execEffect hpc h rfl rfl
  | neg m d a => exact alu1_execEffect hpc h rfl rfl
  | rcp m d a => exact alu1_execEffect hpc h rfl rfl
  | rsq m d a => exact alu1_execEffect hpc h rfl rfl
  | pow m d a b => exact alu2_execEffect hpc h rfl rfl
  | ex2 m d a => exact alu1_execEffect hpc h rfl rfl
  | lg2 m d a => exact alu1_execEffect hpc h rfl rfl
  | mad m d a b c => exact alu3_execEffect hpc h rfl rfl
  | lrp m d a b c => exact alu3_execEffect hpc h rfl rfl
  | min m d a b => exact alu2_execEffect hpc h rfl rfl
  | max m d a b => exact alu2_execEffect hpc h rfl rfl
  | flr m d a => exact alu1_execEffect hpc h rfl rfl
  | ceil m d a => exact alu1_execEffect hpc h rfl rfl
  | round m d a => exact alu1_execEffect hpc h rfl rfl
  | trunc m d a => exact alu1_execEffect hpc h rfl rfl
  | frc m d a => exact alu1_execEffect hpc h rfl rfl
  | slt m d a b => exact alu2_execEffect hpc h rfl rfl
  | sle m d a b => exact alu2_execEffect hpc h rfl rfl
  | sge m d a b => exact alu2_execEffect hpc h rfl rfl
  | seq m d a b => exact alu2_execEffect hpc h rfl rfl
  | sne m d a b => exact alu2_execEffect hpc h rfl rfl
  | cmp m d a b c => exact alu3_execEffect hpc h rfl rfl
  | movc m d a b c => exact alu3_execEffect hpc h rfl rfl
  | iadd m d a b => exact alu2_execEffect hpc h rfl rfl
  | isub m d a b => exact alu2_execEffect hpc h rfl rfl
  | imul m d a b => exact alu2_execEffect hpc h rfl rfl
  | idiv m d a b => exact alu2_execEffect hpc h rfl rfl
  | udiv m d a b => exact alu2_execEffect hpc h rfl rfl
  | imod m d a b => exact alu2_execEffect hpc h rfl rfl
  | umod m d a b => exact alu2_execEffect hpc h rfl rfl
  | imin m d a b => exact alu2_execEffect hpc h rfl rfl
  | imax m d a b => exact alu2_execEffect hpc h rfl rfl
  | umin m d a b => exact alu2_execEffect hpc h rfl rfl
  | umax m d a b => exact alu2_execEffect hpc h rfl rfl
  | islt m d a b => exact alu2_execEffect hpc h rfl rfl
  | isle m d a b => exact alu2_execEffect hpc h rfl rfl
  | isge m d a b => exact alu2_execEffect hpc h rfl rfl
  | uslt m d a b => exact alu2_execEffect hpc h rfl rfl
  | usle m d a b => exact alu2_execEffect hpc h rfl rfl
  | usge m d a b => exact alu2_execEffect hpc h rfl rfl
  | useq m d a b => exact alu2_execEffect hpc h rfl rfl
  | usne m d a b => exact alu2_execEffect hpc h rfl rfl
  | and m d a b => exact alu2_execEffect hpc h rfl rfl
  | or m d a b => exact alu2_execEffect hpc h rfl rfl
  | xor m d a b => exact alu2_execEffect hpc h rfl rfl
  | not m d a => exact alu1_execEffect hpc h rfl rfl
  | shl m d a b => exact alu2_execEffect hpc h rfl rfl
  | ishr m d a b => exact alu2_execEffect hpc h rfl rfl
  | ushr m d a b => exact alu2_execEffect hpc h rfl rfl
  | f2i m d a => exact alu1_execEffect hpc h rfl rfl
  | f2u m d a => exact alu1_execEffect hpc h rfl rfl
  | i2f m d a => exact alu1_execEffect hpc h rfl rfl
  | u2f m d a => exact alu1_execEffect hpc h rfl rfl
  | dp2 m d a b => exact alu2_execEffect hpc h rfl rfl
  | dp3 m d a b => exact alu2_execEffect hpc h rfl rfl
  | dp4 m d a b => exact alu2_execEffect hpc h rfl rfl
  | dph m d a b => exact alu2_execEffect hpc h rfl rfl
  | xpd m d a b => exact alu2_execEffect hpc h rfl rfl
  | lit m d a => exact alu1_execEffect hpc h rfl rfl
  | dst m d a b => exact alu2_execEffect hpc h rfl rfl
  | scs m d a => exact alu1_execEffect hpc h rfl rfl
  | log m d a => exact alu1_execEffect hpc h rfl rfl
  | exp m d a => exact alu1_execEffect hpc h rfl rfl
  | tex m tx d a => exact texFrame_execEffect hpc h legal1_tex_dst rfl rfl
  | txb m tx d a => exact texFrame_execEffect hpc h legal1_tex_dst rfl rfl
  | txl m tx d a => exact texFrame_execEffect hpc h legal1_tex_dst rfl rfl
  | txp m tx d a => exact texFrame_execEffect hpc h legal1_tex_dst rfl rfl
  | txd m tx d a b c => exact texFrame_execEffect hpc h legal3_tex_dst rfl rfl
  | kil hd a => exact execKil_execEffect hpc h
  | kilp hd p => exact execKilp_execEffect hpc h
  | if_ hd a => exact .ofFlow rfl (execIf_flow hpc h)
  | else_ hd => exact .ofFlow rfl (execElse_flow hpc h)
  | endif hd => exact .ofFlow rfl (execEndif_flow hpc h)
  | bgnloop hd => exact .ofFlow rfl (execBgnloop_flow hpc h)
  | endloop hd label => exact .ofFlow rfl (execEndloop_flow hpc h)
  | brk hd => exact .ofFlow rfl (execBrk_flow hpc h)
  | cont hd => exact .ofFlow rfl (execCont_flow hpc h)
  | cal hd label => exact .ofFlow rfl (execCal_flow hpc h)
  | ret hd => exact .ofFlow rfl (execRet_flow hpc h)
  | end_ hd => exact .ofFlow rfl (execEnd_flow hpc h)
  | bgnsub hd => exact .ofFlow rfl (advance_flow hpc h)
  | endsub hd => exact .ofFlow rfl (advance_flow hpc h)

/-- With a running pc every instruction answers a next state. -/
theorem exec_next {s : State} {i : Nat} (ins : Instr) (hpc : s.pc = .running i) :
    ∃ t, exec ins s = .next t := by
  cases ins <;> exact instrFrame_next _ hpc

end Sys2Proof.Machine
end

