-- ==== Sys2Proof/Laws/Float.lean ====
section
/-! SUPPORT. The float numerics as arithmetic: the magnitude of a pattern in units of 2^-149, its order,
and that the one rounding function of Machine/Float.lean rounds to nearest, ties to even. -/

namespace Sys2Proof.Machine

/-! ### Fields and magnitude of a pattern -/

/-- Bits 30:0 as a number. -/
def fmag (x : Word) : Nat := x.toNat % 2 ^ 31

theorem fmag_lt (x : Word) : fmag x < 2 ^ 31 := Nat.mod_lt _ (by norm_num)

theorem extract_eq_fmag (x : Word) : (x.extractLsb' 0 31).toNat = fmag x := by
  simp [BitVec.extractLsb'_toNat, fmag]

theorem fexponent_toNat (x : Word) : (fexponent x).toNat = fmag x / 2 ^ 23 := by
  simp only [fexponent, BitVec.extractLsb'_toNat, fmag, Nat.shiftRight_eq_div_pow]
  omega

theorem ffraction_toNat (x : Word) : (ffraction x).toNat = fmag x % 2 ^ 23 := by
  simp only [ffraction, BitVec.extractLsb'_toNat, fmag, Nat.shiftRight_eq_div_pow]
  omega

theorem fsign_eq (x : Word) : fsign x = decide (2 ^ 31 ≤ x.toNat) := by
  have := x.isLt
  simp only [fsign, BitVec.getLsbD, Nat.testBit_eq_decide_div_mod_eq]
  congr 1
  simp only [eq_iff_iff]
  omega

theorem isNaN_iff (x : Word) : isNaN x = true ↔ 0x7F800000 < fmag x := by
  simp only [isNaN, Bool.and_eq_true, beq_iff_eq, bne_iff_ne, ne_eq, BitVec.toNat_eq,
    fexponent_toNat, ffraction_toNat, show (255 : BitVec 8).toNat = 255 from rfl,
    show (0 : BitVec 23).toNat = 0 from rfl]
  have := fmag_lt x
  omega

theorem isInf_iff (x : Word) : isInf x = true ↔ fmag x = 0x7F800000 := by
  simp only [isInf, Bool.and_eq_true, beq_iff_eq, BitVec.toNat_eq,
    fexponent_toNat, ffraction_toNat, show (255 : BitVec 8).toNat = 255 from rfl,
    show (0 : BitVec 23).toNat = 0 from rfl]
  have := fmag_lt x
  omega

theorem isNaN_false_iff (x : Word) : isNaN x = false ↔ fmag x ≤ 0x7F800000 := by
  rw [← Bool.not_eq_true, isNaN_iff]; omega

theorem withSign_toNat (neg : Bool) {m : Nat} (h : m < 2 ^ 31) :
    (withSign neg m).toNat = (if neg then 2 ^ 31 else 0) + m := by
  simp only [withSign, BitVec.toNat_ofNat]
  cases neg <;> simp <;> omega

@[simp] theorem fsign_withSign (neg : Bool) {m : Nat} (h : m < 2 ^ 31) :
    fsign (withSign neg m) = neg := by
  rw [fsign_eq, withSign_toNat neg h]
  cases neg <;> simp
  omega

@[simp] theorem fmag_withSign (neg : Bool) {m : Nat} (h : m < 2 ^ 31) :
    fmag (withSign neg m) = m := by
  rw [fmag, withSign_toNat neg h]
  cases neg
  · simp; omega
  · simp; omega

/-- A pattern is its sign and its magnitude. -/
theorem word_eq_of_sign_mag {x y : Word} (hs : fsign x = fsign y) (hm : fmag x = fmag y) : x = y := by
  apply BitVec.eq_of_toNat_eq
  have := x.isLt
  have := y.isLt
  simp only [fsign_eq, decide_eq_decide] at hs
  simp only [fmag] at hm
  omega

/-! ### Values -/

/-- The value of a magnitude in units of 2^-149, the smallest subnormal. -/
def funits (m : Nat) : Nat :=
  if m < 2 ^ 23 then m else (2 ^ 23 + m % 2 ^ 23) * 2 ^ (m / 2 ^ 23 - 1)

theorem fview_nan {x : Word} (h : 0x7F800000 < fmag x) : fview x = .nan := by
  have := fmag_lt x
  simp only [fview, fexponent_toNat, ffraction_toNat]
  rw [if_pos (by omega), if_neg (by omega)]

theorem fview_inf {x : Word} (h : fmag x = 0x7F800000) : fview x = .inf (fsign x) := by
  simp only [fview, fexponent_toNat, ffraction_toNat]
  rw [if_pos (by omega), if_pos (by omega)]

theorem fview_fin {x : Word} (h : fmag x < 0x7F800000) : ∃ m e, fview x = .fin (fsign x) m e ∧
    (m : ℚ) * (2 : ℚ) ^ e = (funits (fmag x) : ℚ) * (2 : ℚ) ^ (-149 : ℤ) ∧ -149 ≤ e ∧ m < 2 ^ 24 ∧
    (m = 0 ↔ fmag x = 0) := by
  simp only [fview, fexponent_toNat, ffraction_toNat]
  rw [if_neg (by omega)]
  split
  · rename_i h0
    refine ⟨_, _, rfl, ?_, le_refl _, by omega, by omega⟩
    have : fmag x % 2 ^ 23 = fmag x := by omega
    rw [this, funits, if_pos (by omega)]
  · rename_i h0
    refine ⟨_, _, rfl, ?_, by omega, by omega, by omega⟩
    rw [funits, if_neg (by omega)]
    generalize hk : fmag x / 2 ^ 23 = k at *
    generalize fmag x % 2 ^ 23 = f at *
    obtain ⟨j, rfl⟩ : ∃ j, k = j + 1 := ⟨k - 1, by omega⟩
    have : (((j + 1 : ℕ) : ℤ) - 150) = (j : ℤ) + (-149) := by push_cast; ring
    rw [this, zpow_add₀ (by norm_num), zpow_natCast, Nat.add_sub_cancel]
    push_cast
    ring

theorem fvalue_eq {x : Word} (h : fmag x < 0x7F800000) : fvalue x =
    some ((if fsign x then -1 else 1) * (funits (fmag x) : ℚ) * (2 : ℚ) ^ (-149 : ℤ)) := by
  obtain ⟨m, e, hv, he, -⟩ := fview_fin h
  simp only [fvalue, hv, mul_assoc, he]

/-- A pattern has a finite value exactly when its exponent is not 255. -/
theorem fvalue_isSome_iff (x : Word) : (∃ v, fvalue x = some v) ↔ fmag x < 0x7F800000 := by
  constructor
  · rintro ⟨v, hv⟩
    by_contra hc
    rcases Nat.lt_or_ge 0x7F800000 (fmag x) with h | h
    · simp [fvalue, fview_nan h] at hv
    · simp [fvalue, fview_inf (show fmag x = 0x7F800000 by omega)] at hv
  · intro h
    exact ⟨_, fvalue_eq h⟩

theorem funits_lt_succ (m : Nat) : funits m < funits (m + 1) := by
  unfold funits
  rcases Nat.lt_trichotomy (m + 1) (2 ^ 23) with h | h | h
  · rw [if_pos (by omega), if_pos h]; omega
  · have : m = 2 ^ 23 - 1 := by omega
    subst this; norm_num
  · rw [if_neg (by omega), if_neg (by omega)]
    by_cases hc : (m + 1) % 2 ^ 23 = 0
    · have h1 : m % 2 ^ 23 = 2 ^ 23 - 1 := by omega
      have h2 : (m + 1) / 2 ^ 23 - 1 = (m / 2 ^ 23 - 1) + 1 := by omega
      have : 0 < 2 ^ (m / 2 ^ 23 - 1) := by positivity
      rw [hc, h1, h2, pow_succ 2 (m / 2 ^ 23 - 1)]
      omega
    · have h1 : (m + 1) % 2 ^ 23 = m % 2 ^ 23 + 1 := by omega
      have h2 : (m + 1) / 2 ^ 23 = m / 2 ^ 23 := by omega
      have : 0 < 2 ^ (m / 2 ^ 23 - 1) := by positivity
      rw [h1, h2, add_mul, add_mul, add_mul]
      omega

/-- Magnitudes are ordered as the values they stand for. -/
theorem funits_strictMono : StrictMono funits := strictMono_nat_of_lt_succ funits_lt_succ

theorem funits_zero : funits 0 = 0 := rfl

/-- The units of the magnitude that `froundFinite` builds from an exponent offset Q and a significand
of up to 24 bits (one past it included). -/
theorem funits_mag {Q sig : Nat} (hlt : sig ≤ 2 ^ 24) (hge : Q = 0 ∨ 2 ^ 23 ≤ sig) :
    funits (Q * 2 ^ 23 + sig) = sig * 2 ^ Q := by
  unfold funits
  rcases Nat.lt_or_ge sig (2 ^ 23) with h | h
  · have : Q = 0 := by omega
    subst this
    rw [if_pos (by omega)]; simp
  · rw [if_neg (by omega)]
    rcases Nat.lt_or_ge sig (2 ^ 24) with h' | h'
    · have h1 : (Q * 2 ^ 23 + sig) % 2 ^ 23 = sig - 2 ^ 23 := by omega
      have h2 : (Q * 2 ^ 23 + sig) / 2 ^ 23 - 1 = Q := by omega
      rw [h1, h2, Nat.add_sub_cancel' h]
    · have h0 : sig = 2 ^ 24 := by omega
      subst h0
      have h1 : (Q * 2 ^ 23 + 2 ^ 24) % 2 ^ 23 = 0 := by omega
      have h2 : (Q * 2 ^ 23 + 2 ^ 24) / 2 ^ 23 - 1 = Q + 1 := by omega
      rw [h1, h2, pow_succ]; ring

/-- A magnitude at least 2^23 * 2^Q units large is a multiple of 2^Q units. -/
theorem funits_grid {m Q : Nat} (h : 2 ^ 23 * 2 ^ Q ≤ funits m) : 2 ^ Q ∣ funits m := by
  have hm : Q * 2 ^ 23 + 2 ^ 23 ≤ m := by
    rw [← funits_strictMono.le_iff_le, funits_mag (by norm_num) (.inr le_rfl)]
    exact h
  unfold funits
  rw [if_neg (by omega)]
  exact Dvd.dvd.mul_left (pow_dvd_pow 2 (by omega)) _

/-! ### Rounding to nearest -/

/-- Y rounds to the integer sig: sig is nearest, and even where two are as near. -/
structure RoundsToInt (Y : ℝ) (sig : Nat) : Prop where
  near : |Y - sig| ≤ 1 / 2
  even : |Y - sig| = 1 / 2 → Even sig

theorem RoundsToInt.exact (sig : Nat) : RoundsToInt sig sig := by
  constructor <;> norm_num

/-- Among the multiples of 2^Q, and the numbers below 2^23 * 2^Q ≤ X, none is nearer to X than the
multiple its quotient rounds to. -/
theorem RoundsToInt.nearest {X : ℝ} {Q sig : Nat} (h : RoundsToInt (X / 2 ^ Q) sig)
    (hQ : Q = 0 ∨ (2 : ℝ) ^ 23 * 2 ^ Q ≤ X) (u : ℤ)
    (hu : ((2 : ℤ) ^ Q ∣ u) ∨ (u < 2 ^ 23 * 2 ^ Q ∧ Q ≠ 0)) :
    |X - sig * 2 ^ Q| < |X - u| ∨
      (|X - sig * 2 ^ Q| = |X - u| ∧ (u = sig * 2 ^ Q ∨ Even sig)) := by
  have hp : (0 : ℝ) < 2 ^ Q := by positivity
  have hX : X = X / 2 ^ Q * 2 ^ Q := by field_simp
  generalize X / 2 ^ Q = Y at *
  have scale : ∀ a : ℝ, |X - a * 2 ^ Q| = |Y - a| * 2 ^ Q := by
    intro a
    rw [hX, ← sub_mul, abs_mul, abs_of_pos hp]
  have grid : ∀ k : ℤ, |X - sig * 2 ^ Q| < |X - (k : ℝ) * 2 ^ Q| ∨
      (|X - sig * 2 ^ Q| = |X - (k : ℝ) * 2 ^ Q| ∧ (k = sig ∨ Even sig)) := by
    intro k
    rw [scale, scale, mul_lt_mul_iff_left₀ hp, mul_left_inj' hp.ne']
    by_cases hk : k = sig
    · right; subst hk; simp
    · have h1 : (1 : ℝ) ≤ |(k : ℝ) - sig| := by
        have : (1 : ℤ) ≤ |k - sig| := Int.one_le_abs (sub_ne_zero.mpr hk)
        exact_mod_cast this
      have h2 : |(k : ℝ) - sig| ≤ |Y - sig| + |Y - k| := by
        have := abs_sub_le (k : ℝ) Y sig
        rw [abs_sub_comm (k : ℝ) Y] at this
        linarith
      have h3 := h.near
      rcases lt_or_eq_of_le (show |Y - sig| ≤ |Y - k| by linarith) with h4 | h4
      · exact .inl h4
      · exact .inr ⟨h4, .inr (h.even (by linarith))⟩
  rcases hu with ⟨k, rfl⟩ | ⟨hlt, hne⟩
  · have := grid k
    push_cast
    rw [mul_comm ((2 : ℝ) ^ Q)]
    rcases this with h | ⟨h, h' | h'⟩
    · exact .inl h
    · exact .inr ⟨h, .inl (by rw [h']; ring)⟩
    · exact .inr ⟨h, .inr h'⟩
  · left
    have hG := hQ.resolve_left hne
    have hlt' : (u : ℝ) < 2 ^ 23 * 2 ^ Q := by exact_mod_cast hlt
    have h1 : |X - sig * 2 ^ Q| ≤ |X - 2 ^ 23 * 2 ^ Q| := by
      have e : ((2 ^ 23 : ℤ) : ℝ) = 2 ^ 23 := by norm_num
      rw [← e]
      rcases grid (2 ^ 23) with h | ⟨h, -⟩
      · exact h.le
      · exact h.le
    rw [abs_of_nonneg (show (0 : ℝ) ≤ X - 2 ^ 23 * 2 ^ Q by linarith)] at h1
    rw [abs_of_pos (show (0 : ℝ) < X - u by linarith)]
    linarith

/-- Two to the 149 units make 1. -/
theorem unit_pos : (0 : ℝ) < (2 : ℝ) ^ (-149 : ℤ) := by positivity

/-- The rounded significand overflows the format exactly when the exact number reaches the bound. -/
theorem overflow_iff {X : ℝ} {Q sig : Nat} (h : RoundsToInt (X / 2 ^ Q) sig)
    (hlo : Q = 0 ∨ (2 : ℝ) ^ 23 * 2 ^ Q ≤ X) (hhi : X < 2 ^ 24 * 2 ^ Q) (hs1 : sig ≤ 2 ^ 24)
    (hs2 : Q = 0 ∨ 2 ^ 23 ≤ sig) :
    ((2 : ℝ) ^ 25 - 1) * 2 ^ 252 ≤ X ↔ 0x7F800000 ≤ Q * 2 ^ 23 + sig := by
  have hA : (0 : ℝ) < 2 ^ 252 := by positivity
  have mono : ∀ {a b : ℕ}, a ≤ b → (2 : ℝ) ^ a ≤ 2 ^ b := fun h =>
    pow_le_pow_right₀ (by norm_num) h
  have e254 : (2 : ℝ) ^ 254 = 4 * 2 ^ 252 := by rw [show 254 = 252 + 2 from rfl, pow_add]; ring
  have e253 : (2 : ℝ) ^ 253 = 2 * 2 ^ 252 := by rw [show 253 = 252 + 1 from rfl, pow_add]; ring
  have near := abs_le.mp h.near
  constructor
  · intro hX
    have hQ : 253 ≤ Q := by
      by_contra hc
      have := mono (show Q ≤ 252 by omega)
      nlinarith
    rcases Nat.lt_or_ge Q 254 with h4 | h4
    · have : Q = 253 := by omega
      subst this
      have hY : (2 : ℝ) ^ 24 - 1 / 2 ≤ X / 2 ^ 253 := by
        rw [le_div_iff₀ (by positivity), e253]; nlinarith
      by_contra hc
      have hs : (sig : ℝ) ≤ 2 ^ 24 - 1 := by
        have : sig + 1 ≤ 2 ^ 24 := by omega
        have : ((sig + 1 : ℕ) : ℝ) ≤ ((2 ^ 24 : ℕ) : ℝ) := by exact_mod_cast this
        push_cast at this; linarith
      obtain ⟨k, hk⟩ := h.even (le_antisymm h.near
        ((show (1 : ℝ) / 2 ≤ X / 2 ^ 253 - sig by linarith).trans (le_abs_self _)))
      have : (2 : ℝ) ^ 24 - 1 ≤ sig := by linarith
      have : (2 : ℝ) ^ 24 ≤ ((sig + 1 : ℕ) : ℝ) := by push_cast; linarith
      have : 2 ^ 24 ≤ sig + 1 := by exact_mod_cast this
      omega
    · omega
  · intro hm
    have hQ : 253 ≤ Q := by omega
    have hX := hlo.resolve_left (by omega)
    rcases Nat.lt_or_ge Q 254 with h4 | h4
    · have : Q = 253 := by omega
      subst this
      have hs : (2 : ℝ) ^ 24 ≤ sig := by
        have : 2 ^ 24 ≤ sig := by omega
        exact_mod_cast this
      have hY : (2 : ℝ) ^ 24 - 1 / 2 ≤ X / 2 ^ 253 := by linarith
      rw [le_div_iff₀ (by positivity), e253] at hY
      nlinarith
    · have := mono h4
      nlinarith

/-- The pattern built from the exponent offset Q and the rounded significand is the correctly rounded
result of the number of magnitude X units. -/
theorem roundsTo_of_significand {X : ℝ} {Q sig : Nat} (neg z : Bool) (hX : 0 < X)
    (h : RoundsToInt (X / 2 ^ Q) sig) (hlo : Q = 0 ∨ (2 : ℝ) ^ 23 * 2 ^ Q ≤ X)
    (hhi : X < 2 ^ 24 * 2 ^ Q) :
    RoundsTo ((if neg then -1 else 1) * X * (2 : ℝ) ^ (-149 : ℤ)) z
      (if 0x7F800000 ≤ Q * 2 ^ 23 + sig then finf neg else withSign neg (Q * 2 ^ 23 + sig)) := by
  have hp : (0 : ℝ) < 2 ^ Q := by positivity
  have hXY : X = X / 2 ^ Q * 2 ^ Q := by field_simp
  have hY1 : X / 2 ^ Q < 2 ^ 24 := by rwa [div_lt_iff₀ hp]
  have hY2 : Q = 0 ∨ 2 ^ 23 ≤ X / 2 ^ Q := hlo.imp id (by rw [le_div_iff₀ hp]; exact id)
  have hn := abs_le.mp h.near
  have hs1 : sig ≤ 2 ^ 24 := by
    have : (sig : ℝ) < 2 ^ 24 + 1 := by linarith
    have : sig < 2 ^ 24 + 1 := by exact_mod_cast this
    omega
  have hs2 : Q = 0 ∨ 2 ^ 23 ≤ sig := by
    refine hY2.imp id fun hy => ?_
    have : (2 : ℝ) ^ 23 < sig + 1 := by linarith
    have : 2 ^ 23 < sig + 1 := by exact_mod_cast this
    omega
  have hu := unit_pos
  set x : ℝ := (if neg then -1 else 1) * X * (2 : ℝ) ^ (-149 : ℤ) with hx
  have habs : |x| = X * (2 : ℝ) ^ (-149 : ℤ) := by
    rw [hx, abs_mul, abs_mul, abs_of_pos hX, abs_of_pos hu]
    cases neg <;> simp
  have hx0 : x ≠ 0 := by
    rw [← abs_pos, habs]; positivity
  have hsgn : decide (x < 0) = neg := by
    have : 0 < X * (2 : ℝ) ^ (-149 : ℤ) := by positivity
    cases neg
    · simp only [Bool.false_eq_true, if_false, one_mul] at hx
      simp [hx, hX.le]
    · simp only [if_true] at hx
      have : x < 0 := by rw [hx]; linarith
      simp [this]
  have hover : overflowBound ≤ |x| ↔ 0x7F800000 ≤ Q * 2 ^ 23 + sig := by
    have e : overflowBound = (2 ^ 25 - 1) * 2 ^ 252 * (2 : ℝ) ^ (-149 : ℤ) := by
      rw [overflowBound, zpow_neg]; norm_num
    rw [habs, e, mul_le_mul_iff_left₀ hu]
    exact overflow_iff h hlo hhi hs1 hs2
  rw [RoundsTo, if_neg hx0, hsgn]
  by_cases ho : 0x7F800000 ≤ Q * 2 ^ 23 + sig
  · rw [if_pos ho, if_pos (hover.mpr ho)]
    exact ⟨fsign_withSign neg (by norm_num), rfl⟩
  · rw [if_neg ho, if_neg (mt hover.mp ho)]
    have hm : Q * 2 ^ 23 + sig < 2 ^ 31 := by omega
    refine ⟨fsign_withSign neg hm, _, fvalue_eq (by rw [fmag_withSign neg hm]; omega), ?_⟩
    rw [fsign_withSign neg hm, fmag_withSign neg hm, funits_mag hs1 hs2]
    intro w' v' hv'
    have hf := (fvalue_isSome_iff w').mp ⟨v', hv'⟩
    rw [fvalue_eq hf, Option.some.injEq] at hv'
    obtain ⟨u, hu1, hu2⟩ : ∃ u : ℤ, ((v' : ℚ) : ℝ) =
        (if neg then -1 else 1) * (u : ℝ) * (2 : ℝ) ^ (-149 : ℤ) ∧
        (2 ^ 23 * 2 ^ Q ≤ u → u = (funits (fmag w') : ℤ)) := by
      refine ⟨if neg = fsign w' then funits (fmag w') else -(funits (fmag w') : ℤ), ?_, ?_⟩
      · rw [← hv']
        cases neg <;> cases fsign w' <;> push_cast <;> simp
      · split
        · exact fun _ => rfl
        · intro h
          have : (0 : ℤ) < 2 ^ 23 * 2 ^ Q := by positivity
          omega
    have hgrid : ((2 : ℤ) ^ Q ∣ u) ∨ (u < 2 ^ 23 * 2 ^ Q ∧ Q ≠ 0) := by
      rcases lt_or_ge u (2 ^ 23 * 2 ^ Q) with h | h
      · by_cases hQ : Q = 0
        · left; simp [hQ]
        · exact .inr ⟨h, hQ⟩
      · left
        have hu3 := hu2 h
        rw [hu3] at h ⊢
        exact_mod_cast funits_grid (by exact_mod_cast h)
    have hdist : ∀ a : ℝ, |x - (if neg then -1 else 1) * a * (2 : ℝ) ^ (-149 : ℤ)| =
        |X - a| * (2 : ℝ) ^ (-149 : ℤ) := by
      intro a
      have : x - (if neg then -1 else 1) * a * (2 : ℝ) ^ (-149 : ℤ) =
          (if neg then -1 else 1) * (X - a) * (2 : ℝ) ^ (-149 : ℤ) := by rw [hx]; ring
      rw [this, abs_mul, abs_mul, abs_of_pos hu]
      cases neg <;> simp
    have hv : (((if neg then -1 else 1) * ((sig * 2 ^ Q : ℕ) : ℚ) * (2 : ℚ) ^ (-149 : ℤ) : ℚ) : ℝ) =
        (if neg then -1 else 1) * (sig * 2 ^ Q : ℝ) * (2 : ℝ) ^ (-149 : ℤ) := by
      cases neg <;> push_cast <;> simp
    rw [hv, hu1, hdist, hdist, mul_lt_mul_iff_left₀ hu, mul_left_inj' hu.ne']
    refine (h.nearest hlo u hgrid).imp id (And.imp id (Or.imp (fun he => ?_) fun he => ?_))
    · have : ((v' : ℚ) : ℝ) = (((if neg then -1 else 1) * ((sig * 2 ^ Q : ℕ) : ℚ) *
          (2 : ℚ) ^ (-149 : ℤ) : ℚ) : ℝ) := by rw [hv, hu1, he]; push_cast; rfl
      exact_mod_cast this
    · rw [BitVec.getLsbD, Nat.testBit_zero, withSign_toNat neg hm]
      obtain ⟨k, hk⟩ := he
      have : ((if neg then 2 ^ 31 else 0) + (Q * 2 ^ 23 + sig)) % 2 = 0 := by
        cases neg <;> simp <;> omega
      rw [decide_eq_false_iff_not]
      omega

/-- The number t that the significand m stands for: m itself, or, where m is odd (its lowest bit is
sticky), a number strictly between m - 1 and m + 1. -/
def StandsFor (t : ℝ) (m : Nat) : Prop := t = m ∨ (m % 2 = 1 ∧ 2 ^ 25 ≤ m ∧ |t - m| < 1)

/-- Dropping k bits of m rounds t / 2^k to the nearest integer, ties to even. -/
theorem shiftRoundEven_spec {m k : Nat} {t : ℝ} (ht : t = m ∨ (m % 2 = 1 ∧ 2 ≤ k ∧ |t - m| < 1)) :
    RoundsToInt (t / 2 ^ k) (shiftRoundEven m k) := by
  have hp : (0 : ℝ) < 2 ^ k := by positivity
  have hP : 0 < 2 ^ k := by positivity
  have hm := Nat.div_add_mod m (2 ^ k)
  have hr := Nat.mod_lt m hP
  have hs : ∃ d : ℤ, (m : ℤ) = shiftRoundEven m k * 2 ^ k + d ∧ 2 * |d| ≤ 2 ^ k ∧
      (2 * |d| = 2 ^ k → Even (shiftRoundEven m k)) := by
    unfold shiftRoundEven
    generalize m / 2 ^ k = q at *
    generalize m % 2 ^ k = r at *
    have hP' : ((2 : ℤ) ^ k) = ((2 ^ k : ℕ) : ℤ) := by push_cast; rfl
    rw [hP']
    generalize 2 ^ k = P at *
    subst hm
    dsimp only
    split_ifs with hc
    · refine ⟨(r : ℤ) - P, by push_cast; ring, ?_, fun he => ?_⟩
      · rw [abs_of_neg (by omega)]; omega
      · rw [abs_of_neg (by omega)] at he
        rw [Nat.even_iff]; omega
    · refine ⟨(r : ℤ), by push_cast; ring, ?_, fun he => ?_⟩
      · rw [abs_of_nonneg (by omega)]; omega
      · rw [abs_of_nonneg (by omega)] at he
        rw [Nat.even_iff]; omega
  obtain ⟨d, hd, hle, heq⟩ := hs
  generalize shiftRoundEven m k = s at *
  have key : |t / 2 ^ k - s| = |t - s * 2 ^ k| / 2 ^ k := by
    rw [← abs_of_pos hp, ← abs_div, abs_of_pos hp, sub_div, mul_div_cancel_right₀ _ hp.ne']
  have hdR : (m : ℝ) - s * 2 ^ k = d := by
    have : (m : ℝ) = s * 2 ^ k + d := by exact_mod_cast hd
    linarith
  rcases ht with rfl | ⟨hodd, hk, hlt⟩
  · rw [hdR] at key
    constructor
    · rw [key, div_le_iff₀ hp]
      have : (2 : ℝ) * |(d : ℝ)| ≤ 2 ^ k := by exact_mod_cast hle
      linarith
    · rw [key, div_eq_iff hp.ne']
      intro h
      apply heq
      have : (2 : ℝ) * |(d : ℝ)| = 2 ^ k := by linarith
      exact_mod_cast this
  · obtain ⟨j, rfl⟩ : ∃ j, k = j + 2 := ⟨k - 2, by omega⟩
    have hd2 : 2 * |d| ≤ 2 ^ (j + 2) - 2 := by
      have e1 : (2 : ℤ) ^ (j + 2) = 4 * 2 ^ j := by ring
      have e2 : (s : ℤ) * (4 * 2 ^ j) = 4 * (s * 2 ^ j) := by ring
      rw [e1] at hd hle ⊢
      rw [e2] at hd
      rcases abs_cases d with ⟨h, -⟩ | ⟨h, -⟩ <;> rw [h] at hle ⊢ <;> omega
    have hd3 : (2 : ℝ) * |(d : ℝ)| ≤ 2 ^ (j + 2) - 2 := by exact_mod_cast hd2
    have hlt2 : |t - s * 2 ^ (j + 2)| < 2 ^ (j + 2) / 2 := by
      have e : t - s * 2 ^ (j + 2) = (t - m) + (m - s * 2 ^ (j + 2)) := by ring
      rw [e, hdR]
      have := abs_add_le (t - m) (d : ℝ)
      linarith
    have : |t / 2 ^ (j + 2) - s| < 1 / 2 := by
      rw [key, div_lt_iff₀ hp]; linarith
    exact ⟨this.le, fun h => absurd h this.ne⟩

/-- The one rounding function rounds correctly. -/
theorem froundFinite_roundsTo {m : Nat} {e : ℤ} {t : ℝ} (neg z : Bool) (hm : m ≠ 0)
    (ht : StandsFor t m) :
    RoundsTo ((if neg then -1 else 1) * t * (2 : ℝ) ^ e) z (froundFinite neg m e) := by
  unfold froundFinite
  rw [if_neg hm]
  dsimp only
  have hL1 : 2 ^ Nat.log2 m ≤ m := Nat.log2_self_le hm
  have hL2 : m < 2 ^ (Nat.log2 m + 1) := Nat.lt_log2_self
  generalize Nat.log2 m = L at *
  have hL25 : (m % 2 = 1 ∧ 2 ^ 25 ≤ m ∧ |t - m| < 1) → 25 ≤ L := by
    rintro ⟨-, h, -⟩
    have : 2 ^ 25 < 2 ^ (L + 1) := by omega
    have := (Nat.pow_lt_pow_iff_right (by norm_num : 1 < 2)).mp this
    omega
  have ht1 : (2 : ℝ) ^ L ≤ t := by
    rcases ht with rfl | h
    · exact_mod_cast hL1
    · have hl := hL25 h
      obtain ⟨j, rfl⟩ : ∃ j, L = j + 1 := ⟨L - 1, by omega⟩
      have : 2 ^ (j + 1) + 1 ≤ m := by have := h.1; omega
      have : ((2 ^ (j + 1) + 1 : ℕ) : ℝ) ≤ m := by exact_mod_cast this
      push_cast at this
      have := (abs_lt.mp h.2.2).1
      linarith
  have ht2 : t < 2 ^ (L + 1) := by
    rcases ht with rfl | h
    · exact_mod_cast hL2
    · have : ((m + 1 : ℕ) : ℝ) ≤ ((2 ^ (L + 1) : ℕ) : ℝ) := by exact_mod_cast hL2
      push_cast at this
      have := (abs_lt.mp h.2.2).2
      linarith
  generalize hq : max ((L : ℤ) + e - 23) (-149) = q
  obtain ⟨Q, hQ⟩ : ∃ Q : ℕ, (Q : ℤ) = q + 149 := ⟨(q + 149).toNat, by omega⟩
  rw [show (q + 149).toNat = Q by omega]
  have h2 : (0 : ℝ) < 2 := by norm_num
  have htpos : 0 < t := lt_of_lt_of_le (by positivity) ht1
  have hQz : (2 : ℝ) ^ Q = (2 : ℝ) ^ (q + 149) := by rw [← hQ, zpow_natCast]
  have hx : (if neg then -1 else 1) * t * (2 : ℝ) ^ e =
      (if neg then -1 else 1) * (t * (2 : ℝ) ^ (e + 149)) * (2 : ℝ) ^ (-149 : ℤ) := by
    rw [show e = (e + 149) + (-149) by ring, zpow_add₀ h2.ne', show e + 149 + -149 + 149 = e + 149 by ring]
    ring
  rw [hx]
  refine roundsTo_of_significand neg z (by positivity) ?_ ?_ ?_
  · have hquot : t * (2 : ℝ) ^ (e + 149) / 2 ^ Q = t * (2 : ℝ) ^ (e - q) := by
      rw [hQz, mul_div_assoc, ← zpow_sub₀ h2.ne']
      congr 2; ring
    rw [hquot]
    split_ifs with hc
    · have hexact : t = m := by
        rcases ht with h | h
        · exact h
        · have := hL25 h; omega
      obtain ⟨k, hk⟩ : ∃ k : ℕ, (k : ℤ) = e - q := ⟨(e - q).toNat, by omega⟩
      rw [show (e - q).toNat = k by omega, ← hk, zpow_natCast, hexact]
      have := RoundsToInt.exact (m * 2 ^ k)
      push_cast at this
      exact_mod_cast this
    · obtain ⟨k, hk⟩ : ∃ k : ℕ, (k : ℤ) = q - e := ⟨(q - e).toNat, by omega⟩
      rw [show (q - e).toNat = k by omega, show e - q = -(k : ℤ) by omega, zpow_neg, zpow_natCast,
        ← div_eq_mul_inv]
      refine shiftRoundEven_spec (ht.imp id fun h => ⟨h.1, ?_, h.2.2⟩)
      have := hL25 h; omega
  · by_cases h0 : Q = 0
    · exact .inl h0
    · right
      have : q = (L : ℤ) + e - 23 := by omega
      have e1 : (2 : ℝ) ^ 23 * 2 ^ Q = 2 ^ L * (2 : ℝ) ^ (e + 149) := by
        rw [hQz, this, ← zpow_natCast, ← zpow_natCast, ← zpow_add₀ h2.ne', ← zpow_add₀ h2.ne']
        congr 1; push_cast; ring
      rw [e1]
      have : (0 : ℝ) < (2 : ℝ) ^ (e + 149) := by positivity
      nlinarith
  · have : (L : ℤ) + 1 + (e + 149) ≤ 24 + (q + 149) := by omega
    have e1 : (2 : ℝ) ^ (L + 1) * (2 : ℝ) ^ (e + 149) ≤ 2 ^ 24 * 2 ^ Q := by
      rw [hQz, ← zpow_natCast, ← zpow_natCast, ← zpow_add₀ h2.ne', ← zpow_add₀ h2.ne']
      exact zpow_le_zpow_right₀ (by norm_num) (by push_cast; omega)
    have : (0 : ℝ) < (2 : ℝ) ^ (e + 149) := by positivity
    nlinarith

/-- What the integer square root answers. -/
theorem isqrt_spec (n : Nat) : ∀ (bits root : Nat), root * root ≤ n →
    n < (root + 2 ^ bits) * (root + 2 ^ bits) →
    isqrt n bits root * isqrt n bits root ≤ n ∧
      n < (isqrt n bits root + 1) * (isqrt n bits root + 1)
  | 0, root, h1, h2 => ⟨h1, by simpa [isqrt] using h2⟩
  | bits + 1, root, h1, h2 => by
    unfold isqrt
    dsimp only
    have e : root + 2 ^ (bits + 1) = root + 2 ^ bits + 2 ^ bits := by rw [pow_succ]; ring
    split_ifs with hc
    · exact isqrt_spec n bits _ hc (by rw [← e]; exact h2)
    · exact isqrt_spec n bits _ h1 (by omega)

/-! ### The order of values -/

/-- The signed number of units of a key. -/
def keyUnits (k : ℤ) : ℤ := if k < 0 then -(funits k.natAbs : ℤ) else funits k.natAbs

theorem keyUnits_strictMono : StrictMono keyUnits := by
  intro a b hab
  have mono := funits_strictMono
  unfold keyUnits
  split_ifs with ha hb hb
  · have := mono (show b.natAbs < a.natAbs by omega)
    omega
  · have := mono (show 0 < a.natAbs by omega)
    rw [funits_zero] at this
    omega
  · omega
  · have := mono (show a.natAbs < b.natAbs by omega)
    omega

/-- The extended real that a key stands for. -/
noncomputable def keyValue (k : ℤ) : EReal :=
  if 0x7F800000 ≤ k then ⊤
  else if k ≤ -0x7F800000 then ⊥
  else ((keyUnits k * (2 : ℝ) ^ (-149 : ℤ) : ℝ) : EReal)

/-- Keys up to those of the infinities are ordered as the values they stand for. -/
theorem keyValue_lt_iff {a b : ℤ} (ha : |a| ≤ 0x7F800000) (hb : |b| ≤ 0x7F800000) :
    keyValue a < keyValue b ↔ a < b := by
  have hu := unit_pos
  have mono := keyUnits_strictMono
  rw [abs_le] at ha hb
  unfold keyValue
  split_ifs
  all_goals first
    | (rw [EReal.coe_lt_coe_iff, mul_lt_mul_iff_left₀ hu, Int.cast_lt, mono.lt_iff_lt])
    | (simp only [lt_self_iff_false, not_top_lt, not_lt_bot, bot_lt_top, EReal.bot_lt_coe,
        EReal.coe_lt_top, true_iff, false_iff, not_lt]; omega)

theorem forderKey_eq (x : Word) : forderKey x = if fsign x then -(fmag x : ℤ) else fmag x := by
  rw [forderKey, extract_eq_fmag, signedInt]

theorem abs_forderKey (x : Word) : |forderKey x| = fmag x := by
  rw [forderKey_eq]; split <;> simp

/-- The float value of a pattern that is no NaN is the value of its key. -/
theorem hasValue_iff (x : Word) (v : EReal) :
    HasValue x v ↔ isNaN x = false ∧ v = keyValue (forderKey x) := by
  rw [isNaN_false_iff]
  rcases Nat.lt_trichotomy (fmag x) 0x7F800000 with h | h | h
  · obtain ⟨m, e, hv, he, -⟩ := fview_fin h
    have he' : (m : ℝ) * (2 : ℝ) ^ e = (funits (fmag x) : ℝ) * (2 : ℝ) ^ (-149 : ℤ) := by
      have := congrArg (Rat.cast : ℚ → ℝ) he
      push_cast at this
      exact this
    have hk : ((if fsign x then -1 else 1) * (m : ℝ) * (2 : ℝ) ^ e : ℝ) =
        (keyUnits (forderKey x) : ℝ) * (2 : ℝ) ^ (-149 : ℤ) := by
      rw [mul_assoc, he', forderKey_eq, keyUnits]
      cases fsign x
      · simp
      · by_cases h0 : fmag x = 0
        · simp [h0, funits_zero]
        · simp [Nat.pos_of_ne_zero h0]
    have habs := abs_lt.mp (show |forderKey x| < 0x7F800000 by rw [abs_forderKey]; omega)
    rw [keyValue, if_neg (by omega), if_neg (by omega), ← hk]
    simp only [HasValue, hv, h.le, true_and]
  · have hk : keyValue (forderKey x) = if fsign x then ⊥ else ⊤ := by
      rw [forderKey_eq, h, keyValue]
      cases fsign x <;> simp
    simp only [HasValue, fview_inf h, hk, h, le_refl, true_and]
  · simp only [HasValue, fview_nan h]
    simp; omega

end Sys2Proof.Machine
end

