-- ==== Sys2Proof/Laws/HostPort.lean ====
section
/-! SUPPORT. What the interpolation set-up does, said once: it changes only the Input file, keeps its
canonical form, writes the interpolated value to the cells it selects and keeps the others. -/

namespace Sys2Proof.Machine

/-- From s to t exactly the Input cells selected by `P` have been set up in mode m. -/
structure SetUp (m : Interp) (P : Nat → Channel → Lane → Prop) (s t : State) : Prop where
  frame : t = { s with input := t.input }
  wf : t.storageWf = true
  set : ∀ j e k, P j e k → t.readReg .input j e k = s.interp m j e k
  keep : ∀ j e k, ¬P j e k → t.readReg .input j e k = s.readReg .input j e k

/-- The interpolated values do not depend on the Input file. -/
theorem SetUp.interp {m : Interp} {P : Nat → Channel → Lane → Prop} {s t : State}
    (h : SetUp m P s t) (m' : Interp) (i : Nat) (c : Channel) (l : Lane) :
    t.interp m' i c l = s.interp m' i c l := by
  rw [h.frame]; cases m' <;> rfl

theorem SetUp.refl {m : Interp} {P : Nat → Channel → Lane → Prop} {s : State}
    (hs : s.storageWf = true) (hP : ∀ j e k, ¬P j e k) : SetUp m P s s :=
  ⟨rfl, hs, fun j e k h => absurd h (hP j e k), fun _ _ _ _ => rfl⟩

/-- The same set-up, its cells described otherwise. -/
theorem SetUp.congr {m : Interp} {P Q : Nat → Channel → Lane → Prop} {s t : State}
    (h : SetUp m P s t) (hPQ : ∀ j e k, P j e k ↔ Q j e k) : SetUp m Q s t :=
  ⟨h.frame, h.wf, fun j e k hq => h.set j e k ((hPQ j e k).mpr hq),
    fun j e k hq => h.keep j e k fun hp => hq ((hPQ j e k).mp hp)⟩

/-- Two set-ups one after the other. -/
theorem SetUp.trans {m : Interp} {P Q : Nat → Channel → Lane → Prop} {s t u : State}
    (h : SetUp m P s t) (k : SetUp m Q t u) : SetUp m (fun j e l => P j e l ∨ Q j e l) s u := by
  refine ⟨?_, k.wf, fun j e l hpq => ?_, fun j e l hpq => ?_⟩
  · rw [k.frame, h.frame]
  · by_cases hq : Q j e l
    · rw [k.set j e l hq, h.interp]
    · rw [k.keep j e l hq, h.set j e l (hpq.resolve_right hq)]
  · rw [k.keep j e l fun hq => hpq (.inr hq), h.keep j e l fun hp => hpq (.inl hp)]

/-- A set-up for each element of a list. -/
theorem SetUp.foldl {α : Type} {m : Interp} {P : α → Nat → Channel → Lane → Prop}
    {F : State → α → State} (hF : ∀ s a, s.storageWf = true → SetUp m (P a) s (F s a)) :
    ∀ (as : List α) (s : State), s.storageWf = true →
      SetUp m (fun j e k => ∃ a ∈ as, P a j e k) s (as.foldl F s)
  | [], s, hs => .refl hs (by simp)
  | a :: as, s, hs =>
    ((hF s a hs).trans (SetUp.foldl hF as _ (hF s a hs).wf)).congr (by simp)

/-- One cell. -/
theorem setupCell (m : Interp) (i : Nat) (c : Channel) (l : Lane) (s : State)
    (hs : s.storageWf = true) : SetUp m (fun j e k => j = i ∧ e = c ∧ k = l) s
      (s.writeReg .input i c l (s.interp m i c l)) := by
  refine ⟨rfl, s.writeReg_storageWf hs _ _ _ _ _, ?_, fun j e k h => ?_⟩
  · rintro j e k ⟨rfl, rfl, rfl⟩
    rw [State.readReg_writeReg _ hs]; simp [RegFile.hasCells]
  · rw [State.readReg_writeReg _ hs, if_neg]
    rintro ⟨-, -, rfl, rfl, rfl⟩
    exact h ⟨rfl, rfl, rfl⟩

/-- One Input register: its declared channels (R336). -/
theorem setupRegister_spec (d : Decl) (i : Nat) (s : State) (hs : s.storageWf = true) :
    SetUp d.interp (fun j e _ => j = i ∧ d.mask.getLsbD e.toNat = true) s (setupRegister d s i) := by
  refine (SetUp.foldl (P := fun c j e _ => j = i ∧ e = c ∧ d.mask.getLsbD c.toNat = true)
    (fun s c hs => ?_) Channel.all s hs).congr fun j e k => ?_
  · split
    · rename_i hm
      refine (SetUp.foldl (fun s l hs => setupCell d.interp i c l s hs) Lane.all s hs).congr ?_
      intro j e k
      have : k ∈ Lane.all := by revert k; decide
      simp [hm, this]
    · rename_i hm
      exact .refl hs (by simp [hm])
  · have : e ∈ Channel.all := by cases e <;> decide
    constructor
    · rintro ⟨c, -, rfl, rfl, hm⟩; exact ⟨rfl, hm⟩
    · rintro ⟨rfl, hm⟩; exact ⟨e, this, rfl, rfl, hm⟩

/-- One declaration: the declared channels of its registers, if it is an Input declaration (R331,
R336). -/
theorem setupDecl_spec (r : DeclRecord) (s : State) (hs : s.storageWf = true) :
    SetUp (decodeDecl r).interp (fun j e _ => (decodeDecl r).file = .input ∧
      (decodeDecl r).first.toNat ≤ j ∧ j ≤ (decodeDecl r).last.toNat ∧
      (decodeDecl r).mask.getLsbD e.toNat = true) s (setupDecl s r) := by
  unfold setupDecl
  generalize decodeDecl r = d
  dsimp only
  split
  · rename_i hf
    refine (SetUp.foldl (fun s i hs => setupRegister_spec d i s hs) _ s hs).congr fun j e k => ?_
    simp only [List.mem_range'_1, hf, true_and]
    constructor
    · rintro ⟨i, hi, rfl, hm⟩; exact ⟨hi.1, by omega, hm⟩
    · rintro ⟨h1, h2, hm⟩; exact ⟨j, by omega, rfl, hm⟩
  · rename_i hf
    exact .refl hs (by simp [hf])

/-- A change that the set-up neither reads nor writes commutes with it. -/
theorem foldl_setupDecl_comm (u : State → State)
    (hw : ∀ (s : State) i c l v, (u s).writeReg .input i c l v = u (s.writeReg .input i c l v))
    (hi : ∀ (s : State) m i c l, (u s).interp m i c l = s.interp m i c l)
    (ds : List DeclRecord) (s : State) :
    ds.foldl setupDecl (u s) = u (ds.foldl setupDecl s) := by
  have comm : ∀ {α : Type} (F : State → α → State), (∀ s a, F (u s) a = u (F s a)) →
      ∀ (as : List α) s, as.foldl F (u s) = u (as.foldl F s) := by
    intro α F h as
    induction as with
    | nil => intro s; rfl
    | cons a as ih => intro s; simp only [List.foldl_cons, h, ih]
  refine comm _ (fun s r => ?_) ds s
  unfold setupDecl
  dsimp only
  split
  · refine comm _ (fun s i => comm _ (fun s c => ?_) Channel.all s) _ s
    split
    · exact comm _ (fun s l => by rw [hw, hi]) Lane.all s
    · rfl
  · rfl

end Sys2Proof.Machine
end

