-- ==== Sys2Proof/Laws/Lanes.lean ====
section
/-! SUPPORT. One lane of the operations whose meaning is not written with the bit-vector operation of
the statements: signed division and remainder, the shift count, the request of a texture
instruction, and the generated NaN. -/

namespace Sys2Proof.Machine

/-- IDIV divides as the truncating signed division does (R244). -/
theorem idivLane_eq {a b : Word} (hb : b ≠ 0) : idivLane a b = some (BitVec.sdiv a b) := by
  unfold idivLane
  rw [if_neg hb]
  split_ifs with h
  · obtain ⟨rfl, rfl⟩ := h; rfl
  · congr 1
    apply BitVec.eq_of_toInt_eq
    rw [BitVec.toInt_sdiv, BitVec.toInt_ofInt]

/-- IMOD is the remainder with the sign of the dividend (R246). -/
theorem imodLane_eq {a b : Word} (hb : b ≠ 0) : imodLane a b = some (BitVec.srem a b) := by
  unfold imodLane
  rw [if_neg hb]
  split_ifs with h
  · obtain ⟨rfl, rfl⟩ := h; rfl
  · congr 1
    apply BitVec.eq_of_toInt_eq
    rw [BitVec.toInt_srem, BitVec.toInt_ofInt, ← Int.tmod_def, ← BitVec.toInt_srem,
      BitVec.toInt_bmod_cancel]

/-- The shift count is the low five bits (R269). -/
theorem and_31_toNat (b : Word) : (b &&& 31).toNat = shiftCount b := by
  rw [shiftCount, BitVec.toNat_and]
  exact Nat.and_two_pow_sub_one_eq_mod _ 5

/-- The request of a legal texture selection (R310, R311). -/
theorem texRequest_eq {t : TexSel} {n : Nat} (ht : t.wellFormed n = true)
    (v : Lane → Chans Word) (lod : Lane → Word) (explicitLod : Bool) :
    texRequest t v lod explicitLod = requestOf t v lod explicitLod := by
  obtain ⟨tg, sm⟩ := t
  cases tg <;>
    simp [TexSel.wellFormed, texRequest, requestOf, texCoords, coordT, coordR, K_ZERO] at ht ⊢

/-- A generated NaN is a NaN, whatever the free pattern (R191). -/
@[simp] theorem isNaN_nanOf (op : NanOp) (operands : List Word) :
    isNaN (nanOf op operands) = true := by
  unfold nanOf
  generalize Config.nanBits op operands = v
  dsimp only
  split_ifs with h
  · exact h
  · have h1 : fexponent (v ||| 0x7FC00000) = 255 := by
      apply BitVec.eq_of_getLsbD_eq
      intro k hk
      simp only [fexponent, BitVec.getLsbD_extractLsb', BitVec.getLsbD_or, hk, decide_true,
        Bool.true_and]
      interval_cases k <;> simp
    have h2 : ffraction (v ||| 0x7FC00000) ≠ 0 := by
      intro h0
      have := congrArg (fun y => y.getLsbD 22) h0
      simp [ffraction] at this
    simp only [isNaN, h1, beq_self_eq_true, Bool.true_and, bne_iff_ne, ne_eq]
    exact h2

end Sys2Proof.Machine
end

