-- ==== Sys2Proof/Laws/Masks.lean ====
section
/-! SUPPORT. Submasks, and how a nested stack of masks stays nested under each use the control-flow
instructions make of it: narrow the current mask, push, go back to the top, pop, cut off. -/

namespace Sys2Proof

theorem LaneMask.sub_refl (a : LaneMask) : LaneMask.sub a a := BitVec.and_self

theorem LaneMask.and_sub_left (a b : LaneMask) : LaneMask.sub (a &&& b) a := by
  unfold LaneMask.sub
  rw [BitVec.and_comm a b, BitVec.and_assoc, BitVec.and_self]

theorem LaneMask.and_sub_right (a b : LaneMask) : LaneMask.sub (a &&& b) b := by
  unfold LaneMask.sub
  rw [BitVec.and_assoc, BitVec.and_self]

theorem LaneMask.sub_trans {a b c : LaneMask} (h : LaneMask.sub a b) (k : LaneMask.sub b c) :
    LaneMask.sub a c := by
  unfold LaneMask.sub at *
  rw [← h, BitVec.and_assoc, k]

namespace Machine

theorem nested_nil (m : LaneMask) : nested [] m := by simp [nested]

/-- The current mask narrows. -/
theorem nested_narrow {st : List LaneMask} {m n : LaneMask} (h : nested st m)
    (hn : LaneMask.sub n m) : nested st n := by
  unfold nested at *
  rw [List.pairwise_append] at *
  refine ⟨h.1, by simp, fun a ha b hb => ?_⟩
  rw [List.mem_singleton] at hb
  subst hb
  exact LaneMask.sub_trans hn (h.2.2 a ha m (by simp))

/-- The current mask is pushed and replaced by a submask. -/
theorem nested_push {st : List LaneMask} {m n : LaneMask} (h : nested st m)
    (hn : LaneMask.sub n m) : nested (st ++ [m]) n := by
  unfold nested at *
  rw [List.pairwise_append]
  refine ⟨h, by simp, fun a ha b hb => ?_⟩
  rw [List.mem_singleton] at hb
  subst hb
  rcases List.mem_append.mp ha with ha | ha
  · exact LaneMask.sub_trans hn ((List.pairwise_append.mp h).2.2 a ha m (by simp))
  · rw [List.mem_singleton] at ha
    exact ha ▸ hn

/-- The current mask is replaced by a submask of the top entry. -/
theorem nested_top {st : List LaneMask} {m top n : LaneMask} (h : nested (st ++ [top]) m)
    (hn : LaneMask.sub n top) : nested (st ++ [top]) n :=
  nested_push (List.pairwise_append.mp h).1 hn

/-- The top entry is popped into the current mask. -/
theorem nested_pop {st : List LaneMask} {m top : LaneMask} (h : nested (st ++ [top]) m) :
    nested st top :=
  (List.pairwise_append.mp h).1

/-- The stack is cut off at an entry, which becomes the current mask. -/
theorem nested_take {st : List LaneMask} {m top : LaneMask} {k : Nat} (h : nested st m)
    (ht : st[k]? = some top) : nested (st.take k) top := by
  unfold nested at *
  have : st.take k ++ [top] = st.take (k + 1) := by
    rw [List.take_add_one, ht]; rfl
  rw [this]
  exact List.Pairwise.sublist (List.take_sublist ..) (List.pairwise_append.mp h).1

end Machine

end Sys2Proof
end

