-- ==== Sys2Proof/Laws/Shape.lean ====
section
/-! SUPPORT. The six shapes of an instruction: one, two or three sources with a destination, a texture
request with one or three sources, and the rest. A fact about every instruction is one lemma per
shape and one use of `shape_of`, instead of a split over the 87 constructors. -/

namespace Sys2Proof.Machine

/-- How `exec` runs an instruction, with its operands and its field checks. -/
inductive Shape (ins : Instr) : Prop
  | alu1 (m : Mods) (d : Dst) (a : Src) (g : Cfg → Micro1)
    (hexec : ∀ s, exec ins s = Machine.alu1 m d a (g s.cfg) s)
    (hwf : ∀ cfg n, ins.wellFormed cfg n = legal1 m d a) (hdst : ins.dst? = some d)
    (hsrcs : ins.srcs = [a]) (htex : ins.isTexture = false) (hflow : ins.isFlow = false)
  | alu2 (m : Mods) (d : Dst) (a b : Src) (g : Cfg → Micro2)
    (hexec : ∀ s, exec ins s = Machine.alu2 m d a b (g s.cfg) s)
    (hwf : ∀ cfg n, ins.wellFormed cfg n = legal2 m d a b) (hdst : ins.dst? = some d)
    (hsrcs : ins.srcs = [a, b]) (htex : ins.isTexture = false) (hflow : ins.isFlow = false)
  | alu3 (m : Mods) (d : Dst) (a b c : Src) (g : Cfg → Micro3)
    (hexec : ∀ s, exec ins s = Machine.alu3 m d a b c (g s.cfg) s)
    (hwf : ∀ cfg n, ins.wellFormed cfg n = legal3 m d a b c) (hdst : ins.dst? = some d)
    (hsrcs : ins.srcs = [a, b, c]) (htex : ins.isTexture = false) (hflow : ins.isFlow = false)
  | tex1 (m : Mods) (t : TexSel) (d : Dst) (a : Src) (req : State → Quad Nat → SamplerReq)
    (hexec : ∀ s, exec ins s =
      texFrame s (legal1 m d a && texLegal s t) m d (s.resolveSrc a) (req s))
    (hwf : ∀ (s : State) (n : Nat), ins.wellFormed s.cfg n = (legal1 m d a && texLegal s t))
    (hreq : ∀ (s : State) (q : SamplerReq), req (s.await q) = req s)
    (hdst : ins.dst? = some d) (hsrcs : ins.srcs = [a]) (htex : ins.isTexture = true)
    (hflow : ins.isFlow = false)
  | tex3 (m : Mods) (t : TexSel) (d : Dst) (a b c : Src)
    (req : State → Quad Nat × Quad Nat × Quad Nat → SamplerReq)
    (hexec : ∀ s, exec ins s =
      texFrame s (legal3 m d a b c && texLegal s t) m d (s.resolveSrc3 a b c) (req s))
    (hwf : ∀ (s : State) (n : Nat), ins.wellFormed s.cfg n = (legal3 m d a b c && texLegal s t))
    (hreq : ∀ (s : State) (q : SamplerReq), req (s.await q) = req s)
    (hdst : ins.dst? = some d) (hsrcs : ins.srcs = [a, b, c]) (htex : ins.isTexture = true)
    (hflow : ins.isFlow = false)
  | kil (h : HdrReserved) (a : Src) (heq : ins = .kil h a)
  | kilp (h : HdrReserved) (p : Bool) (heq : ins = .kilp h p)
  | flow (hdst : ins.dst? = none) (htex : ins.isTexture = false) (hflow : ins.isFlow = true)

theorem texWf1 (m : Mods) (t : TexSel) (d : Dst) (a : Src) (s : State) :
    (m.wellFormed && t.wellFormed s.cfg.numSamplers && d.wellFormed && a.wellFormed) =
      (legal1 m d a && texLegal s t) := by
  simp only [legal1, modsLegal, dstLegal, srcLegal, texLegal]
  cases m.wellFormed <;> cases t.wellFormed s.cfg.numSamplers <;> cases d.wellFormed <;> simp

theorem texWf3 (m : Mods) (t : TexSel) (d : Dst) (a b c : Src) (s : State) :
    (m.wellFormed && t.wellFormed s.cfg.numSamplers && d.wellFormed && a.wellFormed
      && b.wellFormed && c.wellFormed) = (legal3 m d a b c && texLegal s t) := by
  simp only [legal3, legal2, legal1, modsLegal, dstLegal, srcLegal, texLegal]
  cases m.wellFormed <;> cases t.wellFormed s.cfg.numSamplers <;> cases d.wellFormed <;>
    cases a.wellFormed <;> cases b.wellFormed <;> simp

/-- Every instruction has one of the shapes. -/
theorem shape_of (ins : Instr) : Shape ins := by
  cases ins with
  | nop h => exact .flow rfl rfl rfl
  | mov m d a =>
    exact .alu1 m d a (fun _ => comp1 fun x => x)
      (fun _ => rfl) (fun _ _ => rfl) rfl rfl rfl rfl
  | add m d a b =>
    exact .alu2 m d a b (fun _ => comp2 fadd)
      (fun _ => rfl) (fun _ _ => rfl) rfl rfl rfl rfl
  | sub m d a b =>
    exact .alu2 m d a b (fun _ => comp2 fsub)
      (fun _ => rfl) (fun _ _ => rfl) rfl rfl rfl rfl
  | mul m d a b =>
    exact .alu2 m d a b (fun _ => comp2 fmul)
      (fun _ => rfl) (fun _ _ => rfl) rfl rfl rfl rfl
  | div m d a b =>
    exact .alu2 m d a b (fun _ => comp2Masked divLane)
      (fun _ => rfl) (fun _ _ => rfl) rfl rfl rfl rfl
  | neg m d a =>
    exact .alu1 m d a (fun _ => comp1 fun x => x ^^^ K_SIGN)
      (fun _ => rfl) (fun _ _ => rfl) rfl rfl rfl rfl
  | rcp m d a =>
    exact .alu1 m d a (fun _ => fun a c => divLane K_ONE (a.get c))
      (fun _ => rfl) (fun _ _ => rfl) rfl rfl rfl rfl
  | rsq m d a =>
    exact .alu1 m d a (fun _ => fun a c => divLane K_ONE (fsqrt (a.get c)))
      (fun _ => rfl) (fun _ _ => rfl) rfl rfl rfl rfl
  | pow m d a b =>
    exact .alu2 m d a b (fun _ => comp2 Config.fpow)
      (fun _ => rfl) (fun _ _ => rfl) rfl rfl rfl rfl
  | ex2 m d a =>
    exact .alu1 m d a (fun _ => comp1 Config.fexp2)
      (fun _ => rfl) (fun _ _ => rfl) rfl rfl rfl rfl
  | lg2 m d a =>
    exact .alu1 m d a (fun _ => comp1 Config.flog2)
      (fun _ => rfl) (fun _ _ => rfl) rfl rfl rfl rfl
  | mad m d a b c =>
    exact .alu3 m d a b c (fun cfg => comp3 (fmad cfg.madFused))
      (fun _ => rfl) (fun _ _ => rfl) rfl rfl rfl rfl
  | lrp m d a b c =>
    exact .alu3 m d a b c (fun cfg => comp3 fun x y z => fmad cfg.madFused x (fsub y z) z)
      (fun _ => rfl) (fun _ _ => rfl) rfl rfl rfl rfl
  | min m d a b =>
    exact .alu2 m d a b (fun _ => comp2 fmin2)
      (fun _ => rfl) (fun _ _ => rfl) rfl rfl rfl rfl
  | max m d a b =>
    exact .alu2 m d a b (fun _ => comp2 fmax2)
      (fun _ => rfl) (fun _ _ => rfl) rfl rfl rfl rfl
  | flr m d a =>
    exact .alu1 m d a (fun _ => comp1 ffloor)
      (fun _ => rfl) (fun _ _ => rfl) rfl rfl rfl rfl
  | ceil m d a =>
    exact .alu1 m d a (fun _ => comp1 fceil)
      (fun _ => rfl) (fun _ _ => rfl) rfl rfl rfl rfl
  | round m d a =>
    exact .alu1 m d a (fun cfg => comp1 (fround cfg.roundTies))
      (fun _ => rfl) (fun _ _ => rfl) rfl rfl rfl rfl
  | trunc m d a =>
    exact .alu1 m d a (fun _ => comp1 ftrunc)
      (fun _ => rfl) (fun _ _ => rfl) rfl rfl rfl rfl
  | frc m d a =>
    exact .alu1 m d a (fun _ => comp1 fun x => fsub x (ffloor x))
      (fun _ => rfl) (fun _ _ => rfl) rfl rfl rfl rfl
  | slt m d a b =>
    exact .alu2 m d a b (fun _ => comp2 fun x y => floatBool (flt x y))
      (fun _ => rfl) (fun _ _ => rfl) rfl rfl rfl rfl
  | sle m d a b =>
    exact .alu2 m d a b (fun _ => comp2 fun x y => floatBool (fle x y))
      (fun _ => rfl) (fun _ _ => rfl) rfl rfl rfl rfl
  | sge m d a b =>
    exact .alu2 m d a b (fun _ => comp2 fun x y => floatBool (fge x y))
      (fun _ => rfl) (fun _ _ => rfl) rfl rfl rfl rfl
  | seq m d a b =>
    exact .alu2 m d a b (fun _ => comp2 fun x y => floatBool (feq x y))
      (fun _ => rfl) (fun _ _ => rfl) rfl rfl rfl rfl
  | sne m d a b =>
    exact .alu2 m d a b (fun _ => comp2 fun x y => floatBool (fne x y))
      (fun _ => rfl) (fun _ _ => rfl) rfl rfl rfl rfl
  | cmp m d a b c =>
    exact .alu3 m d a b c (fun _ => comp3 fun x y z => if flt x K_ZERO then y else z)
      (fun _ => rfl) (fun _ _ => rfl) rfl rfl rfl rfl
  | movc m d a b c =>
    exact .alu3 m d a b c (fun _ => comp3 fun x y z => if x ≠ 0 then y else z)
      (fun _ => rfl) (fun _ _ => rfl) rfl rfl rfl rfl
  | iadd m d a b =>
    exact .alu2 m d a b (fun _ => comp2 fun x y => x + y)
      (fun _ => rfl) (fun _ _ => rfl) rfl rfl rfl rfl
  | isub m d a b =>
    exact .alu2 m d a b (fun _ => comp2 fun x y => x - y)
      (fun _ => rfl) (fun _ _ => rfl) rfl rfl rfl rfl
  | imul m d a b =>
    exact .alu2 m d a b (fun _ => comp2 fun x y => x * y)
      (fun _ => rfl) (fun _ _ => rfl) rfl rfl rfl rfl
  | idiv m d a b =>
    exact .alu2 m d a b (fun _ => comp2Masked idivLane)
      (fun _ => rfl) (fun _ _ => rfl) rfl rfl rfl rfl
  | udiv m d a b =>
    exact .alu2 m d a b (fun _ => comp2Masked udivLane)
      (fun _ => rfl) (fun _ _ => rfl) rfl rfl rfl rfl
  | imod m d a b =>
    exact .alu2 m d a b (fun _ => comp2Masked imodLane)
      (fun _ => rfl) (fun _ _ => rfl) rfl rfl rfl rfl
  | umod m d a b =>
    exact .alu2 m d a b (fun _ => comp2Masked umodLane)
      (fun _ => rfl) (fun _ _ => rfl) rfl rfl rfl rfl
  | imin m d a b =>
    exact .alu2 m d a b (fun _ => comp2 fun x y => if x.toInt < y.toInt then x else y)
      (fun _ => rfl) (fun _ _ => rfl) rfl rfl rfl rfl
  | imax m d a b =>
    exact .alu2 m d a b (fun _ => comp2 fun x y => if x.toInt > y.toInt then x else y)
      (fun _ => rfl) (fun _ _ => rfl) rfl rfl rfl rfl
  | umin m d a b =>
    exact .alu2 m d a b (fun _ => comp2 fun x y => if x.toNat < y.toNat then x else y)
      (fun _ => rfl) (fun _ _ => rfl) rfl rfl rfl rfl
  | umax m d a b =>
    exact .alu2 m d a b (fun _ => comp2 fun x y => if x.toNat > y.toNat then x else y)
      (fun _ => rfl) (fun _ _ => rfl) rfl rfl rfl rfl
  | islt m d a b =>
    exact .alu2 m d a b (fun _ => comp2 fun x y => intBool (x.toInt < y.toInt))
      (fun _ => rfl) (fun _ _ => rfl) rfl rfl rfl rfl
  | isle m d a b =>
    exact .alu2 m d a b (fun _ => comp2 fun x y => intBool (x.toInt ≤ y.toInt))
      (fun _ => rfl) (fun _ _ => rfl) rfl rfl rfl rfl
  | isge m d a b =>
    exact .alu2 m d a b (fun _ => comp2 fun x y => intBool (x.toInt ≥ y.toInt))
      (fun _ => rfl) (fun _ _ => rfl) rfl rfl rfl rfl
  | uslt m d a b =>
    exact .alu2 m d a b (fun _ => comp2 fun x y => intBool (x.toNat < y.toNat))
      (fun _ => rfl) (fun _ _ => rfl) rfl rfl rfl rfl
  | usle m d a b =>
    exact .alu2 m d a b (fun _ => comp2 fun x y => intBool (x.toNat ≤ y.toNat))
      (fun _ => rfl) (fun _ _ => rfl) rfl rfl rfl rfl
  | usge m d a b =>
    exact .alu2 m d a b (fun _ => comp2 fun x y => intBool (x.toNat ≥ y.toNat))
      (fun _ => rfl) (fun _ _ => rfl) rfl rfl rfl rfl
  | useq m d a b =>
    exact .alu2 m d a b (fun _ => comp2 fun x y => intBool (x.toNat = y.toNat))
      (fun _ => rfl) (fun _ _ => rfl) rfl rfl rfl rfl
  | usne m d a b =>
    exact .alu2 m d a b (fun _ => comp2 fun x y => intBool (x.toNat ≠ y.toNat))
      (fun _ => rfl) (fun _ _ => rfl) rfl rfl rfl rfl
  | and m d a b =>
    exact .alu2 m d a b (fun _ => comp2 fun x y => x &&& y)
      (fun _ => rfl) (fun _ _ => rfl) rfl rfl rfl rfl
  | or m d a b =>
    exact .alu2 m d a b (fun _ => comp2 fun x y => x ||| y)
      (fun _ => rfl) (fun _ _ => rfl) rfl rfl rfl rfl
  | xor m d a b =>
    exact .alu2 m d a b (fun _ => comp2 fun x y => x ^^^ y)
      (fun _ => rfl) (fun _ _ => rfl) rfl rfl rfl rfl
  | not m d a =>
    exact .alu1 m d a (fun _ => comp1 fun x => ~~~x)
      (fun _ => rfl) (fun _ _ => rfl) rfl rfl rfl rfl
  | shl m d a b =>
    exact .alu2 m d a b (fun _ => comp2 shlLane)
      (fun _ => rfl) (fun _ _ => rfl) rfl rfl rfl rfl
  | ishr m d a b =>
    exact .alu2 m d a b (fun _ => comp2 ishrLane)
      (fun _ => rfl) (fun _ _ => rfl) rfl rfl rfl rfl
  | ushr m d a b =>
    exact .alu2 m d a b (fun _ => comp2 ushrLane)
      (fun _ => rfl) (fun _ _ => rfl) rfl rfl rfl rfl
  | f2i m d a =>
    exact .alu1 m d a (fun _ => comp1 f2i)
      (fun _ => rfl) (fun _ _ => rfl) rfl rfl rfl rfl
  | f2u m d a =>
    exact .alu1 m d a (fun _ => comp1 f2u)
      (fun _ => rfl) (fun _ _ => rfl) rfl rfl rfl rfl
  | i2f m d a =>
    exact .alu1 m d a (fun _ => comp1 i2f)
      (fun _ => rfl) (fun _ _ => rfl) rfl rfl rfl rfl
  | u2f m d a =>
    exact .alu1 m d a (fun _ => comp1 u2f)
      (fun _ => rfl) (fun _ _ => rfl) rfl rfl rfl rfl
  | dp2 m d a b =>
    exact .alu2 m d a b (fun _ => fun x y => scalar (dot2 x y))
      (fun _ => rfl) (fun _ _ => rfl) rfl rfl rfl rfl
  | dp3 m d a b =>
    exact .alu2 m d a b (fun _ => fun x y => scalar (dot3 x y))
      (fun _ => rfl) (fun _ _ => rfl) rfl rfl rfl rfl
  | dp4 m d a b =>
    exact .alu2 m d a b (fun _ => fun x y => scalar (dot4 x y))
      (fun _ => rfl) (fun _ _ => rfl) rfl rfl rfl rfl
  | dph m d a b =>
    exact .alu2 m d a b (fun _ => fun x y => scalar (dotH x y))
      (fun _ => rfl) (fun _ _ => rfl) rfl rfl rfl rfl
  | xpd m d a b =>
    exact .alu2 m d a b (fun _ => fun x y ch => some ((crossLane x y).get ch))
      (fun _ => rfl) (fun _ _ => rfl) rfl rfl rfl rfl
  | lit m d a =>
    exact .alu1 m d a (fun _ => fun x ch => some ((litLane x).get ch))
      (fun _ => rfl) (fun _ _ => rfl) rfl rfl rfl rfl
  | dst m d a b =>
    exact .alu2 m d a b (fun _ => fun x y ch => some ((dstLane x y).get ch))
      (fun _ => rfl) (fun _ _ => rfl) rfl rfl rfl rfl
  | scs m d a =>
    exact .alu1 m d a (fun _ => fun x ch => some ((scsLane x).get ch))
      (fun _ => rfl) (fun _ _ => rfl) rfl rfl rfl rfl
  | log m d a =>
    exact .alu1 m d a (fun _ => logLane)
      (fun _ => rfl) (fun _ _ => rfl) rfl rfl rfl rfl
  | exp m d a =>
    exact .alu1 m d a (fun _ => fun x ch => some ((expLane x).get ch))
      (fun _ => rfl) (fun _ _ => rfl) rfl rfl rfl rfl
  | tex m t d a =>
    exact .tex1 m t d a
      (fun s ra => texRequest t (s.fetchLane a ra) (fun _ => K_ZERO) false)
      (fun _ => rfl) (fun s _ => texWf1 m t d a s) (fun _ _ => rfl) rfl rfl rfl rfl
  | txb m t d a =>
    exact .tex1 m t d a
      (fun s ra => texRequest t (s.fetchLane a ra) (fun l => (s.fetchLane a ra l).w) false)
      (fun _ => rfl) (fun s _ => texWf1 m t d a s) (fun _ _ => rfl) rfl rfl rfl rfl
  | txl m t d a =>
    exact .tex1 m t d a
      (fun s ra => texRequest t (s.fetchLane a ra) (fun l => (s.fetchLane a ra l).w) true)
      (fun _ => rfl) (fun s _ => texWf1 m t d a s) (fun _ _ => rfl) rfl rfl rfl rfl
  | txp m t d a =>
    exact .tex1 m t d a
      (fun s ra => texRequest t (fun l => projectLane (s.fetchLane a ra l)) (fun _ => K_ZERO) false)
      (fun _ => rfl) (fun s _ => texWf1 m t d a s) (fun _ _ => rfl) rfl rfl rfl rfl
  | txd m t d a b c =>
    exact .tex3 m t d a b c
      (fun s r => texRequest t (s.fetchLane a r.1) (fun _ => K_ZERO) false)
      (fun _ => rfl) (fun s _ => texWf3 m t d a b c s) (fun _ _ => rfl) rfl rfl rfl rfl
  | kil h a => exact .kil h a rfl
  | kilp h p => exact .kilp h p rfl
  | if_ h a => exact .flow rfl rfl rfl
  | else_ h => exact .flow rfl rfl rfl
  | endif h => exact .flow rfl rfl rfl
  | bgnloop h => exact .flow rfl rfl rfl
  | endloop h label => exact .flow rfl rfl rfl
  | brk h => exact .flow rfl rfl rfl
  | cont h => exact .flow rfl rfl rfl
  | cal h label => exact .flow rfl rfl rfl
  | ret h => exact .flow rfl rfl rfl
  | end_ h => exact .flow rfl rfl rfl
  | bgnsub h => exact .flow rfl rfl rfl
  | endsub h => exact .flow rfl rfl rfl

end Sys2Proof.Machine
end

