-- ==== Sys2Proof/Laws/Step.lean ====
section
/-! SUPPORT. What a step can do, in the terms of the machine: hold, end the Run, halt past the end of the
program, run one instruction, or raise UNKNOWN_OPCODE. -/

namespace Sys2Proof.Machine

/-- Everything a step can do. -/
inductive StepEffect (s : State) : State → Prop
  | hold (hs : s.status ≠ .running) : StepEffect s s
  | finish (hs : s.status = .running) (hpc : s.pc = .halted) : StepEffect s s.finish
  | runOff (hs : s.status = .running) (i : Nat) (hpc : s.pc = .running i)
    (hnone : s.prog.instrs[i]? = none) : StepEffect s { s with pc := .halted }
  | instr (hs : s.status = .running) (i : Nat) (hpc : s.pc = .running i) (r : Record)
    (hr : s.prog.instrs[i]? = some r) (ins : Instr) (hdec : decode r = .ok ins) (t : State)
    (hexec : exec ins s = .next t) (ht : ExecEffect s i ins t) : StepEffect s t
  | unknown (hs : s.status = .running) (i : Nat) (hpc : s.pc = .running i) (r : Record)
    (hr : s.prog.instrs[i]? = some r) (e : DecodeReject) (hdec : decode r = .error e) :
    StepEffect s (s.raiseFatal (rejectCode e) i)

/-- A step that answers a next state did one of these. -/
theorem step_effect {s t : State} (h : step s = .next t) : StepEffect s t := by
  unfold step stepLoop at h
  split at h
  · rename_i hs; cases h; exact .hold (by simp [hs])
  · rename_i hs; cases h; exact .hold (by simp [hs])
  · rename_i hs; cases h; exact .hold (by simp [hs])
  · rename_i hs
    split at h
    · rename_i hpc; cases h; exact .finish hs hpc
    · rename_i i hpc
      split at h
      · rename_i hr; cases h; exact .runOff hs i hpc hr
      · rename_i r hr
        split at h
        · rename_i ins hdec
          exact .instr hs i hpc r hr ins hdec t h (exec_effect ins hpc h)
        · rename_i e hdec; cases h; exact .unknown hs i hpc r hr e hdec

/-- A step of a Run at a record that decodes is the execution of the instruction. -/
theorem step_of_decode {s : State} {i : Nat} {r : Record} {ins : Instr} (hs : s.status = .running)
    (hpc : s.pc = .running i) (hr : s.prog.instrs[i]? = some r) (hdec : decode r = .ok ins) :
    step s = exec ins s := by
  simp [step, stepLoop, hs, hpc, State.fetchRecord, hr, hdec]

/-- A step of a Run at a record that does not decode takes UNKNOWN_OPCODE. -/
theorem step_of_reject {s : State} {i : Nat} {r : Record} {e : DecodeReject}
    (hs : s.status = .running) (hpc : s.pc = .running i) (hr : s.prog.instrs[i]? = some r)
    (hdec : decode r = .error e) : step s = .next (s.raiseFatal (rejectCode e) i) := by
  simp [step, stepLoop, hs, hpc, State.fetchRecord, hr, hdec]

/-- Without a Run in progress a step holds the state. -/
theorem step_hold {s : State} (hs : s.status ≠ .running) : step s = .next s := by
  unfold step stepLoop
  split <;> first | rfl | contradiction

/-- A Run whose pc is Halted ends. -/
theorem step_finish {s : State} (hs : s.status = .running) (hpc : s.pc = .halted) :
    step s = .next s.finish := by
  simp [step, stepLoop, hs, hpc]

/-- A pc at or past the end of the program becomes Halted. -/
theorem step_runOff {s : State} {i : Nat} (hs : s.status = .running) (hpc : s.pc = .running i)
    (hr : s.prog.instrs[i]? = none) : step s = .next { s with pc := .halted } := by
  simp [step, stepLoop, hs, hpc, State.fetchRecord, hr]

end Sys2Proof.Machine
end

