-- ==== Sys2Proof/Tests/Slice0.lean ====
section
/-! SUPPORT. Tests: words decoded and encoded, a refused term for each well-formedness check, one or
two single steps for each instruction with the expected result taken from spec/95_test_vectors.md (V<n>
names the vector), and a witness for the hypotheses of each obligation. -/

namespace Sys2Proof.Tests

open Sys2Proof.Machine

/-! ### Builders -/

/-- Modifiers: none. -/
def plain : Mods := { sat := .none, ccUpdate := false, ccPred := none, reserved := 0 }

/-- A source operand with all selectors X. -/
def srcX (f : RegFile) (i : BitVec 16) : Src where
  file := f
  index := i
  ind := none
  dim := none
  swz := Chans.splat (.chan .x)
  sign := .keep
  complement := false
  reservedA := 0
  reservedB := 0

/-- A destination operand. -/
def dstOf (f : RegFile) (i : BitVec 16) (mask : BitVec 4) : Dst where
  file := f
  index := i
  ind := none
  dim := false
  writeMask := mask
  reservedA := 0
  reservedB := 0

/-- TEMP[0].xxxx -/
def in0x : Src := srcX .temp 0

/-- TEMP[1].xxxx -/
def in1x : Src := srcX .temp 1

/-- TEMP[2].xxxx -/
def in2x : Src := srcX .temp 2

/-- TEMP[9].x -/
def outX : Dst := dstOf .temp 9 1

/-- TEMP[9] -/
def out : Dst := dstOf .temp 9 15

/-- TEMP[i].xyzw -/
def at4 (i : BitVec 16) : Src :=
  { srcX .temp i with swz := ⟨.chan .x, .chan .y, .chan .z, .chan .w⟩ }

/-- The record of NOP. -/
def nopRecord : Record := encode (.nop 0)

/-- A Run at the first of two instructions. -/
def machine : State := { State.reset with
  status := .running
  pc := .running 0
  prog := { Prog.empty with instrs := [nopRecord, nopRecord] } }

/-- Set TEMP[r].c in the four lanes. -/
def setTemp (r : Nat) (c : Channel) (v : Quad Word) (s : State) : State :=
  Lane.all.foldl (fun s l => s.writeReg .temp r c l (v.get l)) s

/-- TEMP[0].x = a, TEMP[9].x = 9.0. -/
def machine1 (a : Quad Word) : State :=
  setTemp 9 .x (Quad.splat 0x41100000) (setTemp 0 .x a machine)

/-- TEMP[0].x = a, TEMP[1].x = b, TEMP[9].x = 9.0. -/
def machine2 (a b : Quad Word) : State := setTemp 1 .x b (machine1 a)

/-- TEMP[0].x = a, TEMP[1].x = b, TEMP[2].x = c, TEMP[9].x = 9.0. -/
def machine3 (a b c : Quad Word) : State := setTemp 2 .x c (machine2 a b)

/-- In lane 0: TEMP[0] = a, TEMP[1] = b, TEMP[9] = (9.0, 9.0, 9.0, 9.0). -/
def vectors (a b : Chans Word) : State :=
  Channel.all.foldl (fun s c =>
    ((s.writeReg .temp 0 c 0 (a.get c)).writeReg .temp 1 c 0 (b.get c)).writeReg .temp 9 c 0
      0x41100000) machine

/-- The state after a step, or the power-on state where there is none. -/
def after (o : Out) : State :=
  match o with
  | .next t => t
  | .fault _ | .refused _ => State.reset

/-- TEMP[9].x after a step. -/
def cellsX (o : Out) : Quad Word := Quad.ofFn fun l => (after o).readReg .temp 9 .x l

/-- TEMP[9] in lane 0 after a step. -/
def lane0 (o : Out) : Chans Word := Chans.ofFn fun c => (after o).readReg .temp 9 c 0

/-! ### One step of each instruction -/

/-- V30 without its NaN lane. -/
theorem test_add :
    cellsX (exec (.add plain outX in0x in1x)
      (machine2 ⟨0x40C00000, 0x40C00000, 0x80000000, 0x3F800000⟩
        ⟨0x3F800000, 0x3F800000, 0x00000000, 0xBF800000⟩)) =
      ⟨0x40E00000, 0x40E00000, 0x00000000, 0x00000000⟩ := by decide

/-- V31 without its NaN lane. -/
theorem test_sub :
    cellsX (exec (.sub plain outX in0x in1x)
      (machine2 ⟨0x3F800000, 0x3F800000, 0x40400000, 0x00000000⟩
        ⟨0x40200000, 0x40200000, 0x40400000, 0x80000000⟩)) =
      ⟨0xBFC00000, 0xBFC00000, 0x00000000, 0x00000000⟩ := by decide

/-- V32 without its NaN lane. -/
theorem test_mul :
    cellsX (exec (.mul plain outX in0x in1x)
      (machine2 ⟨0x40000000, 0x40000000, 0xC0000000, 0x80000000⟩
        ⟨0x40400000, 0x40400000, 0x00000000, 0x80000000⟩)) =
      ⟨0x40C00000, 0x40C00000, 0x80000000, 0x00000000⟩ := by decide

/-- V33. -/
theorem test_div_keeps_zero_lanes :
    cellsX (exec (.div plain outX in0x in1x)
      (machine2 ⟨0x3F800000, 0x40000000, 0x40400000, 0x40800000⟩
        ⟨0x3F800000, 0x00000000, 0x3F800000, 0x80000000⟩)) =
      ⟨0x3F800000, 0x41100000, 0x40400000, 0x41100000⟩ := by decide

/-- V35. -/
theorem test_rcp :
    cellsX (exec (.rcp plain outX in0x)
      (machine1 ⟨0x40800000, 0x00000000, 0x7F800000, 0xC0000000⟩)) =
      ⟨0x3E800000, 0x41100000, 0x00000000, 0xBF000000⟩ := by decide

/-- V36 without its NaN lane. -/
theorem test_rsq :
    cellsX (exec (.rsq plain outX in0x)
      (machine1 ⟨0x40800000, 0x3E800000, 0x80000000, 0x40800000⟩)) =
      ⟨0x3F000000, 0x40000000, 0x41100000, 0x3F000000⟩ := by decide +kernel

/-- V37. -/
theorem test_neg :
    cellsX (exec (.neg plain outX in0x)
      (machine1 ⟨0x40200000, 0x00000000, 0x7FC00000, 0xFF800000⟩)) =
      ⟨0xC0200000, 0x80000000, 0xFFC00000, 0x7F800000⟩ := by decide

/-- V38 without its NaN lane. -/
theorem test_mad :
    cellsX (exec (.mad plain outX in0x in1x in2x)
      (machine3 ⟨0x40000000, 0x40000000, 0x3FC00000, 0xBF800000⟩
        ⟨0x40400000, 0x40400000, 0x40000000, 0x3F800000⟩
        ⟨0x3F800000, 0x3F800000, 0xC0400000, 0x3F800000⟩)) =
      ⟨0x40E00000, 0x40E00000, 0x00000000, 0x00000000⟩ := by decide

/-- V54 with MAD_FUSED: 1 + 2^-22 + 2^-46 - (1 + 2^-22). -/
theorem test_mad_fused :
    cellsX (exec (.mad plain outX in0x in1x in2x)
      (machine3 (Quad.splat 0x3F800001)
        (Quad.splat 0x3F800001)
        (Quad.splat 0xBF800002))) =
      (Quad.splat 0x28800000) := by decide

/-- V39. -/
theorem test_lrp :
    cellsX (exec (.lrp plain outX in0x in1x in2x)
      (machine3 ⟨0x3F000000, 0x00000000, 0x3F800000, 0x3E800000⟩
        ⟨0x40800000, 0x41100000, 0x40A00000, 0x41000000⟩
        ⟨0x40000000, 0x40400000, 0x3F800000, 0x00000000⟩)) =
      ⟨0x40400000, 0x40400000, 0x40A00000, 0x40000000⟩ := by decide

/-- V40: a NaN operand is copied. -/
theorem test_min :
    cellsX (exec (.min plain outX in0x in1x)
      (machine2 ⟨0x40000000, 0x7FC00000, 0x3F800000, 0x80000000⟩
        ⟨0x3FC00000, 0x3F800000, 0x7FC00000, 0x00000000⟩)) =
      ⟨0x3FC00000, 0x3F800000, 0x7FC00000, 0x00000000⟩ := by decide

/-- V41. -/
theorem test_max :
    cellsX (exec (.max plain outX in0x in1x)
      (machine2 ⟨0x40000000, 0x7FC00000, 0x3F800000, 0x80000000⟩
        ⟨0x3FC00000, 0x3F800000, 0x7FC00000, 0x00000000⟩)) =
      ⟨0x40000000, 0x3F800000, 0x7FC00000, 0x00000000⟩ := by decide

/-- V42. -/
theorem test_flr :
    cellsX (exec (.flr plain outX in0x)
      (machine1 ⟨0x40200000, 0xC0200000, 0x80000000, 0xBF000000⟩)) =
      ⟨0x40000000, 0xC0400000, 0x80000000, 0xBF800000⟩ := by decide

/-- V43. -/
theorem test_ceil :
    cellsX (exec (.ceil plain outX in0x)
      (machine1 ⟨0x40200000, 0xC0200000, 0xBF000000, 0x40400000⟩)) =
      ⟨0x40400000, 0xC0000000, 0x80000000, 0x40400000⟩ := by decide

/-- V44 with ROUND_TIES = EVEN. -/
theorem test_round_even :
    cellsX (exec (.round plain outX in0x)
      (machine1 ⟨0x40200000, 0xC0200000, 0x3F000000, 0x3FE00000⟩)) =
      ⟨0x40000000, 0xC0000000, 0x00000000, 0x40000000⟩ := by decide

/-- V44 with ROUND_TIES = HALF_UP. -/
theorem test_round_half_up :
    cellsX (exec (.round plain outX in0x)
      { machine1 ⟨0x40200000, 0xC0200000, 0x3F000000, 0x3FE00000⟩ with
        cfg := { Cfg.default with roundTies := .halfUp } }) =
      ⟨0x40400000, 0xC0000000, 0x3F800000, 0x40000000⟩ := by decide

/-- V45. -/
theorem test_trunc :
    cellsX (exec (.trunc plain outX in0x)
      (machine1 ⟨0x40200000, 0xC0200000, 0xBF000000, 0x7F800000⟩)) =
      ⟨0x40000000, 0xC0000000, 0x80000000, 0x7F800000⟩ := by decide

/-- V46. -/
theorem test_frc :
    cellsX (exec (.frc plain outX in0x)
      (machine1 ⟨0x40200000, 0xC0200000, 0x40400000, 0x80000000⟩)) =
      ⟨0x3F000000, 0x3F000000, 0x00000000, 0x00000000⟩ := by decide

/-- V47. -/
theorem test_slt :
    cellsX (exec (.slt plain outX in0x in1x)
      (machine2 ⟨0x3F800000, 0x40000000, 0x7FC00000, 0x80000000⟩
        ⟨0x40000000, 0x40000000, 0x3F800000, 0x00000000⟩)) =
      ⟨0x3F800000, 0x00000000, 0x00000000, 0x00000000⟩ := by decide

/-- V48. -/
theorem test_sle :
    cellsX (exec (.sle plain outX in0x in1x)
      (machine2 ⟨0x3F800000, 0x40000000, 0x7FC00000, 0x80000000⟩
        ⟨0x40000000, 0x40000000, 0x3F800000, 0x00000000⟩)) =
      ⟨0x3F800000, 0x3F800000, 0x00000000, 0x3F800000⟩ := by decide

/-- V49. -/
theorem test_sge :
    cellsX (exec (.sge plain outX in0x in1x)
      (machine2 ⟨0x3F800000, 0x40000000, 0x7FC00000, 0x80000000⟩
        ⟨0x40000000, 0x40000000, 0x3F800000, 0x00000000⟩)) =
      ⟨0x00000000, 0x3F800000, 0x00000000, 0x3F800000⟩ := by decide

/-- V50. -/
theorem test_seq :
    cellsX (exec (.seq plain outX in0x in1x)
      (machine2 ⟨0x3F800000, 0x40000000, 0x7FC00000, 0x80000000⟩
        ⟨0x40000000, 0x40000000, 0x7FC00000, 0x00000000⟩)) =
      ⟨0x00000000, 0x3F800000, 0x00000000, 0x3F800000⟩ := by decide

/-- V51. -/
theorem test_sne :
    cellsX (exec (.sne plain outX in0x in1x)
      (machine2 ⟨0x3F800000, 0x40000000, 0x7FC00000, 0x80000000⟩
        ⟨0x40000000, 0x40000000, 0x7FC00000, 0x00000000⟩)) =
      ⟨0x3F800000, 0x00000000, 0x3F800000, 0x00000000⟩ := by decide

/-- V52. -/
theorem test_cmp :
    cellsX (exec (.cmp plain outX in0x in1x in2x)
      (machine3 ⟨0xBF800000, 0x00000000, 0x80000000, 0x7FC00000⟩
        (Quad.splat 0x40000000)
        (Quad.splat 0x40400000))) =
      ⟨0x40000000, 0x40400000, 0x40400000, 0x40400000⟩ := by decide

/-- V90. -/
theorem test_movc :
    cellsX (exec (.movc plain outX in0x in1x in2x)
      (machine3 ⟨0xFFFFFFFF, 0x00000000, 0x80000000, 0x00000001⟩
        (Quad.splat 0x40000000)
        (Quad.splat 0x40400000))) =
      ⟨0x40000000, 0x40400000, 0x40000000, 0x40000000⟩ := by decide

/-- V60. -/
theorem test_iadd :
    cellsX (exec (.iadd plain outX in0x in1x)
      (machine2 ⟨0x7FFFFFFF, 0xFFFFFFFF, 0x00000005, 0x00000000⟩
        ⟨0x00000001, 0x00000001, 0xFFFFFFFD, 0x00000000⟩)) =
      ⟨0x80000000, 0x00000000, 0x00000002, 0x00000000⟩ := by decide

/-- V61. -/
theorem test_isub :
    cellsX (exec (.isub plain outX in0x in1x)
      (machine2 ⟨0x00000003, 0x00000000, 0x80000000, 0x00000007⟩
        ⟨0x00000005, 0x80000000, 0x00000001, 0x00000007⟩)) =
      ⟨0xFFFFFFFE, 0x80000000, 0x7FFFFFFF, 0x00000000⟩ := by decide

/-- V62. -/
theorem test_imul :
    cellsX (exec (.imul plain outX in0x in1x)
      (machine2 ⟨0x00010000, 0xFFFFFFFF, 0x00000007, 0x80000000⟩
        ⟨0x00010000, 0x00000003, 0x00000006, 0x00000002⟩)) =
      ⟨0x00000000, 0xFFFFFFFD, 0x0000002A, 0x00000000⟩ := by decide

/-- V63; TEMP[9] holds 9.0 before. -/
theorem test_idiv :
    cellsX (exec (.idiv plain outX in0x in1x)
      (machine2 ⟨0xFFFFFFF9, 0x00000007, 0x80000000, 0x00000007⟩
        ⟨0x00000002, 0xFFFFFFFE, 0xFFFFFFFF, 0x00000000⟩)) =
      ⟨0xFFFFFFFD, 0xFFFFFFFD, 0x80000000, 0x41100000⟩ := by decide

/-- V64. -/
theorem test_udiv :
    cellsX (exec (.udiv plain outX in0x in1x)
      (machine2 ⟨0xFFFFFFF9, 0x00000007, 0x80000000, 0x00000007⟩
        ⟨0x00000002, 0xFFFFFFFE, 0xFFFFFFFF, 0x00000000⟩)) =
      ⟨0x7FFFFFFC, 0x00000000, 0x00000000, 0x41100000⟩ := by decide

/-- V65. -/
theorem test_imod :
    cellsX (exec (.imod plain outX in0x in1x)
      (machine2 ⟨0xFFFFFFF9, 0x00000007, 0x80000000, 0x00000007⟩
        ⟨0x00000002, 0xFFFFFFFE, 0xFFFFFFFF, 0x00000000⟩)) =
      ⟨0xFFFFFFFF, 0x00000001, 0x00000000, 0x41100000⟩ := by decide

/-- V66. -/
theorem test_umod :
    cellsX (exec (.umod plain outX in0x in1x)
      (machine2 ⟨0x00000007, 0xFFFFFFFF, 0x00000005, 0x00000007⟩
        ⟨0x00000004, 0x00000010, 0x00000005, 0x00000000⟩)) =
      ⟨0x00000003, 0x0000000F, 0x00000000, 0x41100000⟩ := by decide

/-- V67. -/
theorem test_imin :
    cellsX (exec (.imin plain outX in0x in1x)
      (machine2 ⟨0xFFFFFFFF, 0x00000005, 0x80000000, 0x00000003⟩
        ⟨0x00000001, 0x00000005, 0x7FFFFFFF, 0x00000002⟩)) =
      ⟨0xFFFFFFFF, 0x00000005, 0x80000000, 0x00000002⟩ := by decide

/-- V68. -/
theorem test_imax :
    cellsX (exec (.imax plain outX in0x in1x)
      (machine2 ⟨0xFFFFFFFF, 0x00000005, 0x80000000, 0x00000003⟩
        ⟨0x00000001, 0x00000005, 0x7FFFFFFF, 0x00000002⟩)) =
      ⟨0x00000001, 0x00000005, 0x7FFFFFFF, 0x00000003⟩ := by decide

/-- V69. -/
theorem test_umin :
    cellsX (exec (.umin plain outX in0x in1x)
      (machine2 ⟨0xFFFFFFFF, 0x00000005, 0x80000000, 0x00000003⟩
        ⟨0x00000001, 0x00000005, 0x7FFFFFFF, 0x00000002⟩)) =
      ⟨0x00000001, 0x00000005, 0x7FFFFFFF, 0x00000002⟩ := by decide

/-- V70. -/
theorem test_umax :
    cellsX (exec (.umax plain outX in0x in1x)
      (machine2 ⟨0xFFFFFFFF, 0x00000005, 0x80000000, 0x00000003⟩
        ⟨0x00000001, 0x00000005, 0x7FFFFFFF, 0x00000002⟩)) =
      ⟨0xFFFFFFFF, 0x00000005, 0x80000000, 0x00000003⟩ := by decide

/-- V71. -/
theorem test_islt :
    cellsX (exec (.islt plain outX in0x in1x)
      (machine2 ⟨0xFFFFFFFF, 0x00000000, 0x00000005, 0x80000000⟩
        ⟨0x00000000, 0xFFFFFFFF, 0x00000005, 0x7FFFFFFF⟩)) =
      ⟨0xFFFFFFFF, 0x00000000, 0x00000000, 0xFFFFFFFF⟩ := by decide

/-- V72. -/
theorem test_isle :
    cellsX (exec (.isle plain outX in0x in1x)
      (machine2 ⟨0xFFFFFFFF, 0x00000000, 0x00000005, 0x80000000⟩
        ⟨0x00000000, 0xFFFFFFFF, 0x00000005, 0x7FFFFFFF⟩)) =
      ⟨0xFFFFFFFF, 0x00000000, 0xFFFFFFFF, 0xFFFFFFFF⟩ := by decide

/-- V73. -/
theorem test_isge :
    cellsX (exec (.isge plain outX in0x in1x)
      (machine2 ⟨0xFFFFFFFF, 0x00000000, 0x00000005, 0x80000000⟩
        ⟨0x00000000, 0xFFFFFFFF, 0x00000005, 0x7FFFFFFF⟩)) =
      ⟨0x00000000, 0xFFFFFFFF, 0xFFFFFFFF, 0x00000000⟩ := by decide

/-- V74. -/
theorem test_uslt :
    cellsX (exec (.uslt plain outX in0x in1x)
      (machine2 ⟨0xFFFFFFFF, 0x00000000, 0x00000005, 0x80000000⟩
        ⟨0x00000000, 0xFFFFFFFF, 0x00000005, 0x7FFFFFFF⟩)) =
      ⟨0x00000000, 0xFFFFFFFF, 0x00000000, 0x00000000⟩ := by decide

/-- V75. -/
theorem test_usle :
    cellsX (exec (.usle plain outX in0x in1x)
      (machine2 ⟨0xFFFFFFFF, 0x00000000, 0x00000005, 0x80000000⟩
        ⟨0x00000000, 0xFFFFFFFF, 0x00000005, 0x7FFFFFFF⟩)) =
      ⟨0x00000000, 0xFFFFFFFF, 0xFFFFFFFF, 0x00000000⟩ := by decide

/-- V76. -/
theorem test_usge :
    cellsX (exec (.usge plain outX in0x in1x)
      (machine2 ⟨0xFFFFFFFF, 0x00000000, 0x00000005, 0x80000000⟩
        ⟨0x00000000, 0xFFFFFFFF, 0x00000005, 0x7FFFFFFF⟩)) =
      ⟨0xFFFFFFFF, 0x00000000, 0xFFFFFFFF, 0xFFFFFFFF⟩ := by decide

/-- V77. -/
theorem test_useq :
    cellsX (exec (.useq plain outX in0x in1x)
      (machine2 ⟨0x80000000, 0x7FC00000, 0x00000005, 0x00000001⟩
        ⟨0x00000000, 0x7FC00000, 0x00000005, 0x00000002⟩)) =
      ⟨0x00000000, 0xFFFFFFFF, 0xFFFFFFFF, 0x00000000⟩ := by decide

/-- V78. -/
theorem test_usne :
    cellsX (exec (.usne plain outX in0x in1x)
      (machine2 ⟨0x80000000, 0x7FC00000, 0x00000005, 0x00000001⟩
        ⟨0x00000000, 0x7FC00000, 0x00000005, 0x00000002⟩)) =
      ⟨0xFFFFFFFF, 0x00000000, 0x00000000, 0xFFFFFFFF⟩ := by decide

/-- V79. -/
theorem test_and :
    cellsX (exec (.and plain outX in0x in1x)
      (machine2 (Quad.splat 0xFF00FF00)
        (Quad.splat 0x0FF00FF0))) =
      (Quad.splat 0x0F000F00) := by decide

/-- V80. -/
theorem test_or :
    cellsX (exec (.or plain outX in0x in1x)
      (machine2 (Quad.splat 0xFF00FF00)
        (Quad.splat 0x0FF00FF0))) =
      (Quad.splat 0xFFF0FFF0) := by decide

/-- V81. -/
theorem test_xor :
    cellsX (exec (.xor plain outX in0x in1x)
      (machine2 (Quad.splat 0xFF00FF00)
        (Quad.splat 0x0FF00FF0))) =
      (Quad.splat 0xF0F0F0F0) := by decide

/-- V82. -/
theorem test_not :
    cellsX (exec (.not plain outX in0x)
      (machine1 ⟨0x0000FFFF, 0x00000000, 0xFFFFFFFF, 0x80000000⟩)) =
      ⟨0xFFFF0000, 0xFFFFFFFF, 0x00000000, 0x7FFFFFFF⟩ := by decide

/-- V83. -/
theorem test_shl :
    cellsX (exec (.shl plain outX in0x in1x)
      (machine2 ⟨0x00000001, 0x80000001, 0x00000005, 0xFFFFFFFF⟩
        ⟨0x0000001F, 0x00000001, 0x00000021, 0x00000020⟩)) =
      ⟨0x80000000, 0x00000002, 0x0000000A, 0xFFFFFFFF⟩ := by decide

/-- V84. -/
theorem test_ishr :
    cellsX (exec (.ishr plain outX in0x in1x)
      (machine2 ⟨0x80000000, 0xFFFFFFF9, 0x7FFFFFFF, 0xFFFFFFFF⟩
        ⟨0x00000004, 0x00000001, 0x0000001F, 0x00000023⟩)) =
      ⟨0xF8000000, 0xFFFFFFFC, 0x00000000, 0xFFFFFFFF⟩ := by decide

/-- V85. -/
theorem test_ushr :
    cellsX (exec (.ushr plain outX in0x in1x)
      (machine2 ⟨0x80000000, 0xFFFFFFF9, 0x7FFFFFFF, 0xFFFFFFFF⟩
        ⟨0x00000004, 0x00000001, 0x0000001F, 0x00000023⟩)) =
      ⟨0x08000000, 0x7FFFFFFC, 0x00000000, 0x1FFFFFFF⟩ := by decide

/-- V86. -/
theorem test_f2i :
    cellsX (exec (.f2i plain outX in0x)
      (machine1 ⟨0x40200000, 0xC0200000, 0x80000000, 0xCF000000⟩)) =
      ⟨0x00000002, 0xFFFFFFFE, 0x00000000, 0x80000000⟩ := by decide

/-- V87. -/
theorem test_f2u :
    cellsX (exec (.f2u plain outX in0x)
      (machine1 ⟨0x40700000, 0xBF000000, 0x4F7FFFFF, 0x3F800000⟩)) =
      ⟨0x00000003, 0x00000000, 0xFFFFFF00, 0x00000001⟩ := by decide

/-- V88. -/
theorem test_i2f :
    cellsX (exec (.i2f plain outX in0x)
      (machine1 ⟨0xFFFFFFFE, 0x00000000, 0x7FFFFFFF, 0x01000001⟩)) =
      ⟨0xC0000000, 0x00000000, 0x4F000000, 0x4B800000⟩ := by decide

/-- V89. -/
theorem test_u2f :
    cellsX (exec (.u2f plain outX in0x)
      (machine1 ⟨0x00000003, 0xFFFFFFFF, 0x80000000, 0x01000003⟩)) =
      ⟨0x40400000, 0x4F800000, 0x4F000000, 0x4B800002⟩ := by decide

/-- V92: saturation clamps the integer sum as a float. -/
theorem test_iadd_sat :
    cellsX (exec (.iadd { plain with sat := .zeroOne } outX in0x in1x)
      (machine2 ⟨0x00000001, 0x3F800000, 0x40000000, 0xBF800000⟩
        ⟨0x00000000, 0x00000001, 0x00000000, 0x00000000⟩)) =
      ⟨0x00000001, 0x3F800000, 0x3F800000, 0x00000000⟩ := by decide

/-- V6, channel X. -/
theorem test_mov_sat :
    cellsX (exec (.mov { plain with sat := .zeroOne } outX in0x)
      (machine1 ⟨0xBF000000, 0x3FC00000, 0x3F000000, 0x80000000⟩)) =
      ⟨0x00000000, 0x3F800000, 0x3F000000, 0x00000000⟩ := by decide

/-- V4: 1 - (-|x|). -/
theorem test_mov_complement_after_sign :
    cellsX (exec (.mov plain outX { in0x with sign := .set, complement := true })
      (machine1 ⟨0x3E800000, 0x3F800000, 0xC0400000, 0x00000000⟩)) =
      ⟨0x3FA00000, 0x40000000, 0x40800000, 0x3F800000⟩ := by decide

/-- V100. -/
theorem test_dp2 :
    lane0 (exec (.dp2 plain out (at4 0) (at4 1))
      (vectors ⟨0x3F800000, 0x40000000, 0x42480000, 0x42700000⟩
        ⟨0x40400000, 0x40800000, 0x428C0000, 0x42A00000⟩)) =
      ⟨0x41300000, 0x41300000, 0x41300000, 0x41300000⟩ := by decide

/-- V106: DP3 to .xz. -/
theorem test_dp3_write_mask :
    lane0 (exec (.dp3 plain { out with writeMask := 5 } (at4 0) (at4 1))
      (vectors ⟨0x3F800000, 0x40000000, 0x40400000, 0x42700000⟩
        ⟨0x40800000, 0x40A00000, 0x40C00000, 0x42A00000⟩)) =
      ⟨0x42000000, 0x41100000, 0x42000000, 0x41100000⟩ := by decide

/-- V107: the first sum rounds. -/
theorem test_dp3_order :
    lane0 (exec (.dp3 plain out (at4 0) (at4 1))
      (vectors ⟨0x4CBEBC20, 0x3F800000, 0xCCBEBC20, 0x00000000⟩
        ⟨0x3F800000, 0x3F800000, 0x3F800000, 0x00000000⟩)) =
      ⟨0x00000000, 0x00000000, 0x00000000, 0x00000000⟩ := by decide

/-- V102. -/
theorem test_dp4 :
    lane0 (exec (.dp4 plain out (at4 0) (at4 1))
      (vectors ⟨0x3F800000, 0x40000000, 0x40400000, 0x40800000⟩
        ⟨0x3F800000, 0x3F800000, 0x3F800000, 0x3F800000⟩)) =
      ⟨0x41200000, 0x41200000, 0x41200000, 0x41200000⟩ := by decide

/-- V103. -/
theorem test_dph :
    lane0 (exec (.dph plain out (at4 0) (at4 1))
      (vectors ⟨0x3F800000, 0x40000000, 0x40400000, 0x42C80000⟩
        ⟨0x40800000, 0x40A00000, 0x40C00000, 0x40E00000⟩)) =
      ⟨0x421C0000, 0x421C0000, 0x421C0000, 0x421C0000⟩ := by decide

/-- V104. -/
theorem test_xpd :
    lane0 (exec (.xpd plain out (at4 0) (at4 1))
      (vectors ⟨0x3F800000, 0x40000000, 0x40400000, 0x00000000⟩
        ⟨0x40800000, 0x40A00000, 0x40C00000, 0x00000000⟩)) =
      ⟨0xC0400000, 0x40C00000, 0xC0400000, 0x3F800000⟩ := by decide

/-- V108: LIT of a negative x needs no free value. -/
theorem test_lit :
    lane0 (exec (.lit plain out (at4 0))
      (vectors ⟨0xBF800000, 0x40000000, 0x00000000, 0x40400000⟩
        ⟨0, 0, 0, 0⟩)) =
      ⟨0x3F800000, 0x00000000, 0x00000000, 0x3F800000⟩ := by decide

/-- V108. -/
theorem test_dst :
    lane0 (exec (.dst plain out (at4 0) (at4 1))
      (vectors ⟨0x00000000, 0x40000000, 0x40400000, 0x00000000⟩
        ⟨0x00000000, 0x40800000, 0x00000000, 0x40A00000⟩)) =
      ⟨0x3F800000, 0x41000000, 0x40400000, 0x40A00000⟩ := by decide

/-- R298: channels Z and W are 0.0 and 1.0. -/
theorem test_scs_zw :
    lane0 (exec (.scs plain { out with writeMask := 12 } (at4 0))
      (vectors ⟨0x00000000, 0x00000000, 0x00000000, 0x00000000⟩
        ⟨0, 0, 0, 0⟩)) =
      ⟨0x41100000, 0x41100000, 0x00000000, 0x3F800000⟩ := by decide

/-- R299: channel W is 1.0. -/
theorem test_log_w :
    lane0 (exec (.log plain { out with writeMask := 8 } (at4 0))
      (vectors ⟨0xC1000000, 0x00000000, 0x00000000, 0x00000000⟩
        ⟨0, 0, 0, 0⟩)) =
      ⟨0x41100000, 0x41100000, 0x41100000, 0x3F800000⟩ := by decide

/-- R300: channel Y is x - floor(x), W is 1.0. -/
theorem test_exp_yw :
    lane0 (exec (.exp plain { out with writeMask := 10 } (at4 0))
      (vectors ⟨0x40600000, 0x00000000, 0x00000000, 0x00000000⟩
        ⟨0, 0, 0, 0⟩)) =
      ⟨0x41100000, 0x3F000000, 0x41100000, 0x3F800000⟩ := by decide

/-! ### Decoding

Every constructor's word, written out from the layout of spec/30_encoding.md R80 to R91: opcode in W0
bits 7:0, TEMP[9] as W2 = 00000901 with W3 = 0000000F, TEMP[i].xyzw as 00000i01 with 00000688. -/

/-- Does the record decode to the instruction? -/
def decodesTo (r : Record) (i : Instr) : Bool := (decode r).toOption == some i

/-- The words of the instructions with one source. -/
theorem test_decode_one_source :
    ([(0x01, .mov), (0x14, .neg), (0x15, .rcp), (0x16, .rsq), (0x18, .ex2), (0x19, .lg2),
      (0x20, .flr), (0x21, .ceil), (0x22, .round), (0x23, .trunc), (0x24, .frc), (0x4B, .not),
      (0x50, .f2i), (0x51, .f2u), (0x52, .i2f), (0x53, .u2f), (0x60, .lit), (0x62, .scs),
      (0x63, .log), (0x64, .exp)] :
      List (Word × (Mods → Dst → Src → Instr))).all (fun p =>
      decodesTo ⟨p.1, 0, 0x901, 0xF, 0x001, 0x688, 0, 0, 0, 0⟩ (p.2 plain out (at4 0))) = true := by decide

/-- The words of the instructions with two sources, opcodes below 0x40. -/
theorem test_decode_two_sources_float :
    ([(0x10, .add), (0x11, .sub), (0x12, .mul), (0x13, .div), (0x17, .pow), (0x1C, .min),
      (0x1D, .max), (0x28, .slt), (0x29, .sle), (0x2A, .sge), (0x2B, .seq), (0x2C, .sne),
      (0x30, .iadd), (0x31, .isub), (0x32, .imul), (0x33, .idiv), (0x34, .udiv), (0x35, .imod),
      (0x36, .umod), (0x37, .imin), (0x38, .imax), (0x39, .umin), (0x3A, .umax)] :
      List (Word × (Mods → Dst → Src → Src → Instr))).all (fun p =>
      decodesTo ⟨p.1, 0, 0x901, 0xF, 0x001, 0x688, 0x101, 0x688, 0, 0⟩
        (p.2 plain out (at4 0) (at4 1))) = true := by decide

/-- The words of the instructions with two sources, opcodes from 0x40 on. -/
theorem test_decode_two_sources :
    ([(0x40, .islt), (0x41, .isle), (0x42, .isge), (0x43, .uslt), (0x44, .usle), (0x45, .usge),
      (0x46, .useq), (0x47, .usne), (0x48, .and), (0x49, .or), (0x4A, .xor), (0x4C, .shl),
      (0x4D, .ishr), (0x4E, .ushr), (0x58, .dp2), (0x59, .dp3), (0x5A, .dp4), (0x5B, .dph),
      (0x5C, .xpd), (0x61, .dst)] :
      List (Word × (Mods → Dst → Src → Src → Instr))).all (fun p =>
      decodesTo ⟨p.1, 0, 0x901, 0xF, 0x001, 0x688, 0x101, 0x688, 0, 0⟩
        (p.2 plain out (at4 0) (at4 1))) = true := by decide

/-- The words of the instructions with three sources. -/
theorem test_decode_three_sources :
    ([(0x1A, .mad), (0x1B, .lrp), (0x2E, .cmp), (0x2F, .movc)] :
      List (Word × (Mods → Dst → Src → Src → Src → Instr))).all (fun p =>
      decodesTo ⟨p.1, 0, 0x901, 0xF, 0x001, 0x688, 0x101, 0x688, 0x201, 0x688⟩
        (p.2 plain out (at4 0) (at4 1) (at4 2))) = true := by decide

/-- The words of TEX, TXB, TXL and TXP: target 2D, sampler 3 (V110). -/
theorem test_decode_texture :
    ([(0x68, .tex), (0x69, .txb), (0x6A, .txl), (0x6B, .txp)] :
      List (Word × (Mods → TexSel → Dst → Src → Instr))).all (fun p =>
      decodesTo ⟨p.1 ||| 0x0D000000, 0, 0x901, 0xF, 0x001, 0x688, 0, 0, 0, 0⟩
        (p.2 plain ⟨.twoD, 3⟩ out (at4 0))) = true := by decide

/-- The word of TXD: target 3D, sampler 3. -/
theorem test_decode_txd :
    decodesTo ⟨0x0D80006C, 0, 0x901, 0xF, 0x001, 0x688, 0x101, 0x688, 0x201, 0x688⟩
      (.txd plain ⟨.threeD, 3⟩ out (at4 0) (at4 1) (at4 2)) = true := by decide

/-- The words of the instructions without operands. -/
theorem test_decode_flow :
    ([(0x00, .nop), (0x79, .else_), (0x7A, .endif), (0x7B, .bgnloop), (0x7D, .brk), (0x7E, .cont),
      (0x80, .ret), (0x81, .end_), (0x82, .bgnsub), (0x83, .endsub)] :
      List (Word × (HdrReserved → Instr))).all (fun p =>
      decodesTo ⟨p.1, 0, 0, 0, 0, 0, 0, 0, 0, 0⟩ (p.2 0)) = true := by decide

/-- KIL and IF (V116, P2), KILP (V117), ENDLOOP (P3) and CAL (P4). -/
theorem test_decode_kill_if_label :
    (decodesTo ⟨0x70, 0, 0, 0, 0x001, 0x688, 0, 0, 0, 0⟩ (.kil 0 (at4 0)) &&
      decodesTo ⟨0x78, 0, 0, 0, 0x002, 0, 0, 0, 0, 0⟩ (.if_ 0 (srcX .input 0)) &&
      decodesTo ⟨0x71, 0, 0, 0, 0, 0, 0, 0, 0, 0⟩ (.kilp 0 false) &&
      decodesTo ⟨0x2871, 0, 0, 0, 0, 0, 0, 0, 0, 0⟩ (.kilp 0 true) &&
      decodesTo ⟨0x7C, 1, 0, 0, 0, 0, 0, 0, 0, 0⟩ (.endloop 0 1) &&
      decodesTo ⟨0x7F, 5, 0, 0, 0, 0, 0, 0, 0, 0⟩ (.cal 0 5)) = true := by decide

/-- The operand fields: V10 (predicate), V12 (indirect source), V13 (indirect destination), V14
(second dimension), V3 and V4 (sign mode and complement). -/
theorem test_decode_fields :
    (decodesTo ⟨0x00360801, 0, 0x101, 2, 0x006, 0, 0, 0, 0, 0⟩
        (.mov { plain with ccPred := some ⟨.gt, ⟨.x, .w, .z, .y⟩⟩ } (dstOf .temp 1 2)
          (srcX .imm 0)) &&
      decodesTo ⟨1, 0, 0x901, 1, 0x111, 0, 0, 0, 0, 0⟩
        (.mov plain outX { srcX .temp 1 with ind := some .x }) &&
      decodesTo ⟨1, 0, 0x451, 1, 0x006, 0, 0, 0, 0, 0⟩
        (.mov plain { dstOf .temp 4 1 with ind := some .y } (srcX .imm 0)) &&
      decodesTo ⟨1, 0, 0x101, 15, 0x322, 0x28688, 0, 0, 0, 0⟩
        (.mov plain (dstOf .temp 1 15)
          { at4 3 with file := .input, dim := some ⟨0, some .z⟩ }) &&
      decodesTo ⟨1, 0, 0x101, 15, 0x527, 0x100688, 0, 0, 0, 0⟩
        (.mov plain (dstOf .temp 1 15) { at4 5 with file := .const, dim := some ⟨1, none⟩ }) &&
      decodesTo ⟨0x301, 0, 0x101, 1, 0x001, 0x7000, 0, 0, 0, 0⟩
        (.mov { plain with sat := .illegal } (dstOf .temp 1 1)
          { in0x with sign := .set, complement := true })) = true := by decide

/-- The encoder writes the words of V10, V12, V14 and of the TEX of P7. -/
theorem test_encode :
    encode (.mov { plain with ccPred := some ⟨.gt, ⟨.x, .w, .z, .y⟩⟩ } (dstOf .temp 1 2)
        (srcX .imm 0)) = ⟨0x00360801, 0, 0x101, 2, 0x006, 0, 0, 0, 0, 0⟩ ∧
      encode (.mov plain outX { srcX .temp 1 with ind := some .x }) =
        ⟨1, 0, 0x901, 1, 0x111, 0, 0, 0, 0, 0⟩ ∧
      encode (.mov plain (dstOf .temp 1 15)
        { at4 3 with file := .input, dim := some ⟨0, some .z⟩ }) =
        ⟨1, 0, 0x101, 15, 0x322, 0x28688, 0, 0, 0, 0⟩ ∧
      encode (.tex plain ⟨.twoD, 1⟩ (dstOf .temp 0 15) { at4 0 with file := .input }) =
        ⟨0x05000068, 0, 0x001, 15, 0x002, 0x688, 0, 0, 0, 0⟩ := by decide

/-- An unassigned opcode and a string of too few bytes are rejected by name. -/
theorem test_decode_rejects :
    (match decode ⟨0x02, 0, 0, 0, 0, 0, 0, 0, 0, 0⟩ with
      | .error e => e == .unknownOpcode 2
      | .ok _ => false) = true ∧
      (match decodeBytes [0x81, 0, 0] with
      | .error e => e == .tooFewBytes
      | .ok _ => false) = true := by decide

/-- The opcode table's numbering: an 8-bit row, and W1 as bits 63 to 32. -/
theorem test_table_word :
    decodeTableWord 8 0x81 = some (.end_ 0) ∧
      decodeTableWord 64 0x100000007C = some (.endloop 0 16) := by decide

/-! ### Well-formedness: one ill-formed term for each check of R102 -/

/-- The well-formed terms that the tests below break one field of. -/
theorem test_wellFormed_accepts :
    in0x.wellFormed = true ∧ out.wellFormed = true ∧ plain.wellFormed = true ∧
      (TexSel.mk .twoD 15).wellFormed 16 = true ∧ hdrWellFormed 0 = true := by decide

theorem test_src_reservedA_refused : { in0x with reservedA := 1 }.wellFormed = false := by decide

theorem test_src_reservedB_refused : { in0x with reservedB := 1 }.wellFormed = false := by decide

theorem test_src_file_refused :
    (srcX .null 0).wellFormed = false ∧ (srcX (.unassigned 0) 0).wellFormed = false := by decide

theorem test_src_swizzle_refused :
    { in0x with swz := ⟨.illegal false, .zero, .one, .zero⟩ }.wellFormed = false ∧
      { in0x with swz := ⟨.zero, .illegal true, .one, .zero⟩ }.wellFormed = false ∧
      { in0x with swz := ⟨.zero, .zero, .illegal true, .zero⟩ }.wellFormed = false ∧
      { in0x with swz := ⟨.zero, .zero, .one, .illegal true⟩ }.wellFormed = false := by decide

theorem test_src_dimension_refused :
    { in0x with dim := some ⟨0, none⟩ }.wellFormed = false := by decide

theorem test_dst_reservedA_refused : { out with reservedA := 1 }.wellFormed = false := by decide

theorem test_dst_reservedB_refused : { out with reservedB := 1 }.wellFormed = false := by decide

theorem test_dst_file_refused :
    (dstOf .input 0 1).wellFormed = false ∧ (dstOf .imm 0 1).wellFormed = false ∧
      (dstOf .const 0 1).wellFormed = false ∧
      (dstOf (.unassigned 7) 0 1).wellFormed = false := by decide

theorem test_dst_dimension_refused : { out with dim := true }.wellFormed = false := by decide

theorem test_mods_reserved_refused : { plain with reserved := 2 }.wellFormed = false := by decide

theorem test_mods_sat_refused : { plain with sat := .illegal }.wellFormed = false := by decide

theorem test_hdr_reserved_refused : hdrWellFormed 1 = false := by decide

theorem test_tex_target_refused :
    (TexSel.mk .none 0).wellFormed 16 = false ∧
      (TexSel.mk (.illegal true) 0).wellFormed 16 = false := by decide

theorem test_tex_sampler_refused : (TexSel.mk .twoD 4).wellFormed 4 = false := by decide

/-- ENDLOOP needs LABEL < NumInstr, CAL needs LABEL ≤ NumInstr (V140, V141). -/
theorem test_labels_refused :
    (Instr.endloop 0 1).wellFormed Cfg.default 1 = false ∧
      (Instr.cal 0 1).wellFormed Cfg.default 1 = true ∧
      (Instr.cal 0 2).wellFormed Cfg.default 1 = false := by decide

/-! ### Operands, modifiers and condition codes -/

/-- V1: MOV TEMP[9], TEMP[0].wzyx. -/
theorem test_mov_swizzle :
    lane0 (exec (.mov plain out { at4 0 with swz := ⟨.chan .w, .chan .z, .chan .y, .chan .x⟩ })
      (vectors ⟨0x3F800000, 0x40000000, 0x40400000, 0x40800000⟩ ⟨0, 0, 0, 0⟩)) =
      ⟨0x40800000, 0x40400000, 0x40000000, 0x3F800000⟩ := by decide

/-- V7: a store reaches only the lanes of ExecMask. -/
theorem test_store_masked :
    cellsX (exec (.mov plain outX in0x)
      { machine1 (Quad.splat 0x40E00000) with condMask := 5 }) =
      ⟨0x40E00000, 0x41100000, 0x40E00000, 0x41100000⟩ := by decide

/-- V8: the code of each stored value, and V15: NULL takes the update without a register write. -/
theorem test_cc_update :
    (after (exec (.mov { plain with ccUpdate := true } (dstOf .null 0 1) in0x)
      (machine1 ⟨0x40000000, 0x80000000, 0xC0400000, 0x7FC00000⟩))).cc =
      ⟨⟨.gt, .eq, .lt, .un⟩, Quad.splat .gt, Quad.splat .gt, Quad.splat .gt⟩ := by decide

/-- V9: the lanes the eight tests pass on the codes GT, EQ, LT, UN. -/
theorem test_cc_predicate :
    [CcTest.gt, .eq, .lt, .ge, .le, .ne, .tr, .fl].map (fun t =>
      LaneMask.ofLanes fun l =>
        (cellsX (exec (.mov { plain with ccPred := some ⟨t, Chans.splat .x⟩ } outX in0x)
          { machine1 (Quad.splat 0x40E00000) with
            cc := Chans.splat ⟨.gt, .eq, .lt, .un⟩ })).get l == 0x40E00000) =
      [1, 2, 4, 3, 6, 0xD, 0xF, 0] := by decide

/-- V12: TEMP[ADDR.x + 1] with ADDR[0].x = 0, 1, 2, -1. -/
theorem test_indirect_source :
    cellsX (exec (.mov plain outX { srcX .temp 1 with ind := some .x })
      ({ machine3 ⟨7, 7, 7, 0x30⟩ ⟨0x31, 7, 7, 7⟩ ⟨7, 0x32, 7, 7⟩ with
        addr := [(1, 1), (2, 2), (3, 0xFFFFFFFF)] }.writeReg .temp 3 .x 2 0x33)) =
      ⟨0x31, 0x32, 0x33, 0x30⟩ := by decide

/-- V13: each lane writes its own lane cell of its own register. -/
theorem test_indirect_destination :
    (after (exec (.mov plain { dstOf .temp 4 1 with ind := some .x } in0x)
      { machine1 ⟨1, 2, 3, 4⟩ with addr := [(1, 1), (2, 2), (3, 0xFFFFFFFF)] })).temp =
      [(0, 1), (1, 2), (2, 3), (3, 4), (51, 4), (64, 1), (81, 2), (98, 3),
        (144, 0x41100000), (145, 0x41100000), (146, 0x41100000), (147, 0x41100000)] := by decide

/-! ### Texture and discard -/

/-- TEMP[0] of section 3.5 of spec/95_test_vectors.md. -/
def texMachine : State :=
  setTemp 0 .w ⟨0x40000000, 0, 0xC0000000, 0x80000000⟩ (setTemp 0 .z (Quad.splat 0x41000000)
    (setTemp 0 .y ⟨0x40800000, 0x40800000, 0x40400000, 0x3F800000⟩
      (setTemp 0 .x ⟨0x40000000, 0x40000000, 0x40C00000, 0x3F800000⟩ machine)))

/-- V114: TEX RECT. -/
theorem test_tex_request :
    (after (exec (.tex plain ⟨.rect, 3⟩ out (at4 0)) texMachine)).requests =
      [⟨3, 5, ⟨0x40000000, 0x40000000, 0x40C00000, 0x3F800000⟩,
        ⟨0x40800000, 0x40800000, 0x40400000, 0x3F800000⟩, Quad.splat 0, Quad.splat 0,
        false⟩] := by decide

/-- V112: TXB 1D. -/
theorem test_txb_request :
    (after (exec (.txb plain ⟨.oneD, 3⟩ out (at4 0)) texMachine)).requests =
      [⟨3, 1, ⟨0x40000000, 0x40000000, 0x40C00000, 0x3F800000⟩, Quad.splat 0, Quad.splat 0,
        ⟨0x40000000, 0, 0xC0000000, 0x80000000⟩, false⟩] := by decide

/-- V113: TXL CUBE. -/
theorem test_txl_request :
    (after (exec (.txl plain ⟨.cube, 3⟩ out (at4 0)) texMachine)).requests =
      [⟨3, 4, ⟨0x40000000, 0x40000000, 0x40C00000, 0x3F800000⟩,
        ⟨0x40800000, 0x40800000, 0x40400000, 0x3F800000⟩, Quad.splat 0x41000000,
        ⟨0x40000000, 0, 0xC0000000, 0x80000000⟩, true⟩] := by decide

/-- V111: TXP 3D. -/
theorem test_txp_request :
    (after (exec (.txp plain ⟨.threeD, 3⟩ out (at4 0)) texMachine)).requests =
      [⟨3, 3, ⟨0x3F800000, 0x40000000, 0xC0400000, 0x3F800000⟩,
        ⟨0x40000000, 0x40800000, 0xBFC00000, 0x3F800000⟩,
        ⟨0x40800000, 0x41000000, 0xC0800000, 0x41000000⟩, Quad.splat 0, false⟩] := by decide

/-- R317: TXD sends what TEX sends. -/
theorem test_txd_request :
    (after (exec (.txd plain ⟨.rect, 3⟩ out (at4 0) (at4 1) (at4 2)) texMachine)).requests =
      (after (exec (.tex plain ⟨.rect, 3⟩ out (at4 0)) texMachine)).requests := by decide

/-- V115: one request with ExecMask = 0, and nothing is written. -/
theorem test_tex_dead_lanes :
    (after (exec (.tex plain ⟨.twoD, 0⟩ out (at4 0)) { texMachine with condMask := 0 })).temp =
      texMachine.temp ∧
      (after (exec (.tex plain ⟨.twoD, 0⟩ out (at4 0))
        { texMachine with condMask := 0 })).requests.length = 1 := by decide

/-- R388: a request that is never answered stands on the port and the Run is stuck at its pc. -/
theorem test_tex_unanswered :
    let t := after (exec (.tex plain ⟨.oneD, 3⟩ out (at4 0))
      { texMachine with samplerSilentAt := some 0 })
    t.pc = .running 0 ∧ t.requests = [] ∧ t.samplerPending =
      some ⟨3, 1, ⟨0x40000000, 0x40000000, 0x40C00000, 0x3F800000⟩, Quad.splat 0, Quad.splat 0,
        Quad.splat 0, false⟩ ∧
      (after (exec (.tex plain ⟨.oneD, 3⟩ out (at4 0)) t)).pc = .running 0 := by decide

/-- V116: -0.0 and a NaN do not kill. -/
theorem test_kil :
    (after (exec (.kil 0 (at4 0))
      (setTemp 0 .z ⟨0x3F800000, 0x3F800000, 0x3F800000, 0xFFC00000⟩
        (setTemp 0 .w ⟨0x3F800000, 0xBF000000, 0x3F800000, 0x3F800000⟩
          (machine1 ⟨0xBF800000, 0x3F800000, 0x80000000, 0x40000000⟩))))).kill = 3 := by decide

/-- V117: KILP kills the live lanes, and none with CC_PRED = 1. -/
theorem test_kilp :
    (after (exec (.kilp 0 false) { machine with condMask := 5, kill := 2 })).kill = 7 ∧
      (after (exec (.kilp 0 true) { machine with condMask := 5, kill := 2 })).kill = 2 := by decide

/-! ### Control flow -/

/-- V29, V28. -/
theorem test_nop_markers_end :
    (after (exec (.nop 0) machine)).pc = .running 1 ∧
      (after (exec (.bgnsub 0) machine)).pc = .running 1 ∧
      (after (exec (.endsub 0) machine)).pc = .running 1 ∧
      (after (exec (.end_ 0) { machine with condMask := 0 })).pc = .halted := by decide

/-- S8, nested: Cond 0x7, operand 0, 1, 1, 1. -/
theorem test_if :
    (after (exec (.if_ 0 in0x) { machine1 ⟨0, 1, 1, 1⟩ with condMask := 7 })) =
      { machine1 ⟨0, 1, 1, 1⟩ with condMask := 6, condStack := [7], pc := .running 1 } := by decide

/-- S8: ELSE within the top entry, and ENDIF. -/
theorem test_else_endif :
    (after (exec (.else_ 0) { machine with condMask := 6, condStack := [7] })).condMask = 1 ∧
      after (exec (.endif 0) { machine with condMask := 6, condStack := [7] }) =
        { machine with condMask := 7, pc := .running 1 } := by decide

/-- V134: a push onto a full stack; V135, V136: a pop of an empty one. -/
theorem test_stack_faults :
    (after (exec (.if_ 0 in0x) { machine with
      cfg := { Cfg.default with maxNest := 2 }, condStack := [15, 15] })).status =
        .faulted .stackOverflow (.instr 0) ∧
      (after (exec (.endif 0) machine)).status = .faulted .stackUnderflow (.instr 0) ∧
      (after (exec (.else_ 0) machine)).status = .faulted .stackUnderflow (.instr 0) ∧
      (after (exec (.endloop 0 0) machine)).status =
        .faulted .stackUnderflow (.instr 0) := by decide

/-- BGNLOOP pushes both masks. -/
theorem test_bgnloop :
    after (exec (.bgnloop 0) { machine with loopMask := 7, contMask := 3 }) =
      { machine with
        loopMask := 7, contMask := 3, loopStack := [7], contStack := [3]
        pc := .running 1 } := by decide

/-- P8, pass 3: Cont is restored, lane 2 goes back; pass 4: no lane is live, both are popped. -/
theorem test_endloop :
    after (exec (.endloop 0 0) { machine with
      loopMask := 4, contMask := 0xB, loopStack := [15], contStack := [15] }) =
      { machine with loopMask := 4, loopStack := [15], contStack := [15], pc := .running 1 } ∧
      after (exec (.endloop 0 0) { machine with
        loopMask := 0, loopStack := [15], contStack := [15] }) =
        { machine with pc := .running 1 } := by decide

/-- P3, P8: BRK and CONT take the live lanes. -/
theorem test_brk_cont :
    (after (exec (.brk 0) { machine with condMask := 3, loopMask := 0xE })).loopMask = 0xC ∧
      (after (exec (.cont 0) { machine with condMask := 1 })).contMask = 0xE := by decide

/-- V27: CAL with ExecMask 0x5; V24: a CAL that is not taken. -/
theorem test_cal :
    after (exec (.cal 0 1) { machine with condMask := 5, condStack := [15] }) =
      { machine with
        condMask := 5, condStack := [15, 5], loopStack := [15], contStack := [15]
        funcStack := [15], callStack := [⟨1, 1, 0, 0⟩], pc := .running 1 } ∧
      after (exec (.cal 0 0) { machine with condMask := 0 }) =
        { machine with condMask := 0, pc := .running 1 } := by decide

/-- V26: some lanes return and the Run goes on; V25: the last lanes return and the call is popped. -/
theorem test_ret :
    (after (exec (.ret 0) { machine with condMask := 5 })).funcMask = 0xA ∧
      after (exec (.ret 0) { machine with
        funcMask := 0xC, condStack := [15], loopStack := [15], contStack := [15]
        funcStack := [15], callStack := [⟨1, 0, 0, 0⟩] }) =
        { machine with pc := .running 1 } := by decide

/-- R176: a callee that popped the caller's entry. -/
theorem test_ret_underflow :
    (after (exec (.ret 0) { machine with
      loopStack := [15], contStack := [15], funcStack := [15]
      callStack := [⟨1, 0, 0, 0⟩] })).status = .faulted .stackUnderflow (.instr 0) := by decide

/-! ### Faults and the step loop -/

/-- V131, V132, V145: an index outside the file, in a dead lane too, and after the field checks. -/
theorem test_index_faults :
    (after (exec (.mov plain out (srcX .temp 0xFFFF)) machine)).status =
        .faulted .indexOutOfBounds (.instr 0) ∧
      (after (exec (.mov plain out { srcX .temp 0 with ind := some .x })
        { machine with addr := [(3, 500)], condMask := 7 })).status =
        .faulted .indexOutOfBounds (.instr 0) ∧
      (after (exec (.mov plain (dstOf .input 1 15) (srcX .temp 200)) machine)).status =
        .faulted .illegalEncoding (.instr 0) := by decide

/-- V130: an unassigned opcode faults when it is reached. -/
theorem test_unknown_opcode :
    after (step (machine.withFetchWord 8 2)) = { machine with
      prog := { machine.prog with instrs := [⟨2, 0, 0, 0, 0, 0, 0, 0, 0, 0⟩, nopRecord] }
      status := .faulted .unknownOpcode (.instr 0) } := by decide

/-- V123: a Run of an empty program ends at once. -/
theorem test_empty_run :
    after (step (after (hostRun State.reset))) =
      { State.reset with status := .done 0xF } := by decide

/-! ### The host port -/

/-- Why an operation was refused. -/
def refusal {α : Type} (o : Host.Outcome α Fault Refusal) : Option Refusal :=
  match o with
  | .refused r => some r
  | .next _ | .fault _ => none

/-- A declaration, with no instruction. -/
def declProg (dw0 dw1 : Word) : Prog :=
  { stage := .fragment, instrs := [], decls := [⟨dw0, dw1⟩], imms := [] }

/-- V122. -/
theorem test_bind_faults :
    (after (hostBind (declProg 0x332 0) State.reset)).status = .faulted .illegalEncoding .bind ∧
      (after (hostBind (declProg 0x132 0x200000) State.reset)).status =
        .faulted .indexOutOfBounds .bind ∧
      (after (hostBind (declProg 0x132 1) State.reset)).status =
        .faulted .indexOutOfBounds .bind ∧
      (after (hostBind (declProg 0x132 0) State.reset)).prog = declProg 0x132 0 := by decide

/-- V122: a program that is too long, and too many immediates. -/
theorem test_bind_sizes :
    refusal (hostBind { Prog.empty with instrs := [nopRecord, nopRecord] }
      { State.reset with cfg := { Cfg.default with maxInstr := 1 } }) = some .bindError ∧
      (after (hostBind { Prog.empty with imms := [⟨0, 0, 0, 0⟩] }
        { State.reset with cfg := { Cfg.default with maxImm := 0 } })).status =
        .faulted .immPoolOverflow .bind := by decide

/-- V120: IN[0].x LINEAR. -/
theorem test_interp_linear :
    (let s := after (hostWriteCoef 0 .x 0x3F800000 0x3F000000 0x3E800000
        { State.reset with quadX := 0x40800000, quadY := 0x40000000 });
      Quad.ofFn fun l => { s with prog := declProg 0x132 0 }.interpSetup.readReg .input 0 .x l) =
      ⟨0x40600000, 0x40800000, 0x40700000, 0x40880000⟩ := by decide

/-- V120: IN[1].x PERSPECTIVE, with QuadW 0.0 in lane 2. -/
theorem test_interp_perspective :
    (let s := after (hostWriteCoef 1 .x 0x41000000 0 0
        { State.reset with quadW := ⟨0x3F800000, 0x40000000, 0, 0x41000000⟩ });
      Quad.ofFn fun l =>
        { s with prog := declProg 0x212 0x10001 }.interpSetup.readReg .input 1 .x l) =
      ⟨0x41000000, 0x40800000, 0x7F800000, 0x3F800000⟩ := by decide

/-- R346: WriteCC and ReadCC, and the refusals of the register port. -/
theorem test_host_access :
    ((after (hostWriteCc .y 2 3 State.reset)).cc.get .y).get 2 = .un ∧
      refusal (hostWriteReg .temp 128 .x 0 1 State.reset) = some .hostIndex ∧
      refusal (hostWriteReg .const 0 .x 0 1 State.reset) = some .hostIndex ∧
      refusal (hostWriteConst 4096 .x 1 State.reset) = some .hostIndex ∧
      hostReadStatus State.reset = .idle ∧
      refusal (hostWriteQuad 0 0 (Quad.splat 0) machine) = some .hostWhileRunning := by decide


/-! ### Assembly: the lines of spec/95_test_vectors.md section 4 from their records -/

/-- The text of the record. -/
def lineOf (r : Record) : Option String := (decode r).toOption.bind asmText

/-- P5 lines 0 to 3: no suffixes, masks, `_SAT.CC`, a predicate. -/
theorem test_asm_suffixes :
    lineOf ⟨0x70, 0, 0, 0, 2, 0x688, 0, 0, 0, 0⟩ = some "KIL IN[0]" ∧
      lineOf ⟨0x13, 0, 1, 1, 0x102, 0, 0x202, 0, 0, 0⟩ =
        some "DIV TEMP[0].x, IN[1].x, IN[2].x" ∧
      lineOf ⟨0x501, 0, 0x101, 1, 0x302, 0, 0, 0, 0, 0⟩ = some "MOV_SAT.CC TEMP[1].x, IN[3].x" ∧
      lineOf ⟨0x801, 0, 0x201, 1, 6, 0, 0, 0, 0, 0⟩ = some "MOV (GT.x) TEMP[2].x, IMM[0].x" := by
  decide

/-- P3 line 8 and P4 line 2: a label, an indirect operand; a reserved bit has no spelling. -/
theorem test_asm_operands :
    lineOf ⟨0x7C, 1, 0, 0, 0, 0, 0, 0, 0, 0⟩ = some "ENDLOOP -> 1" ∧
      lineOf ⟨1, 0, 3, 0xF, 0x411, 0x688, 0, 0, 0, 0⟩ = some "MOV OUT[0], TEMP[ADDR.x + 4]" ∧
      lineOf ⟨0x40000000, 0, 0, 0, 0, 0, 0, 0, 0, 0⟩ = none := by decide

/-- R112: 0.1 rounds to 3DCCCCCD, 5.0 is exact, `1i` is the integer; V121: the declarations. -/
theorem test_asm_literals :
    (Literal.float false 1 (-1)).word = 0x3DCCCCCD ∧ (Literal.float true 50 (-1)).word = 0xC0A00000 ∧
      (Literal.float false 5 0).word = 0x40A00000 ∧ (Literal.int (-1)).word = 0xFFFFFFFF ∧
      encodeDecl ⟨.input, 3, .linear, 0, 0, 0⟩ = ⟨0x132, 0⟩ ∧
      encodeDecl ⟨.input, 7, .linear, 0, 4, 6⟩ = ⟨0x172, 0x60004⟩ := by decide

/-- R110: a label names the index of the next instruction, and an ENDLOOP without a label gets its
BGNLOOP's index; a label that nothing defines is refused. -/
theorem test_assemble :
    assemble [.stage .fragment, .imm 0 (Chans.splat (.int 1)), .cal "f", .label "f",
        .instr (.bgnloop 0), .endloop none] =
      some { stage := .fragment, decls := [], imms := [⟨1, 1, 1, 1⟩],
             instrs := [encode (.cal 0 1), encode (.bgnloop 0), encode (.endloop 0 1)] } ∧
      assemble [.cal "g"] = none := by decide
/-! ### Witnesses: states and operands that meet the hypotheses of the obligations -/

theorem machine_inv : machine.Inv := by
  constructor <;> first | decide | (intro i h; cases h; decide)

theorem machine_nested : machine.MasksNested := by
  constructor <;> simp [nested, machine, State.reset]

/-- A source operand of these tests resolves to its register. -/
theorem resolves_temp (a b c : Quad Word) (i : BitVec 16) (h : i = 0 ∨ i = 1 ∨ i = 2) (l : Lane) :
    (machine3 a b c).srcIndex (srcX .temp i) l = some ((Quad.splat i.toNat).get l) := by
  rcases h with rfl | rfl | rfl <;> fin_cases l <;> rfl

/-- Computes3; the other Computes and Samples take a part of this operand list. -/
theorem witness_Ready3 (a b c : Quad Word) (h : (machine3 a b c).Inv) :
    (machine3 a b c).Ready 0 plain outX (Quad.splat 9)
      [(in0x, Quad.splat 0), (in1x, Quad.splat 1), (in2x, Quad.splat 2)] where
  inv := h
  pc := rfl
  mods := by decide
  dst := by decide
  dst_regs := by intro l; fin_cases l <;> rfl
  srcs := by decide
  src_regs := by
    intro o ho l
    simp only [List.mem_cons, List.not_mem_nil, or_false] at ho
    rcases ho with rfl | rfl | rfl
    · exact resolves_temp a b c 0 (by decide) l
    · exact resolves_temp a b c 1 (by decide) l
    · exact resolves_temp a b c 2 (by decide) l

/-- Hypotheses for fewer operands. -/
theorem ready_sublist {s : State} {i : Nat} {m : Mods} {d : Dst} {rd : Quad Nat}
    {ops ops' : List (Src × Quad Nat)} (h : s.Ready i m d rd ops) (hs : ops' ⊆ ops) :
    s.Ready i m d rd ops' :=
  ⟨h.inv, h.pc, h.mods, h.dst, h.dst_regs, fun o ho => h.srcs o (hs ho),
    fun o ho => h.src_regs o (hs ho)⟩

/-- 2.0, 3.0, 0.0 in TEMP[0].x, TEMP[1].x, TEMP[2].x. -/
def ready : State := machine3 (Quad.splat 0x40000000) (Quad.splat 0x40400000) (Quad.splat 0)

theorem ready_inv : ready.Inv := by
  constructor <;> first | decide | (intro i h; cases h; decide)

theorem witness_Computes3 : ready.Ready 0 plain outX (Quad.splat 9)
    [(in0x, Quad.splat 0), (in1x, Quad.splat 1), (in2x, Quad.splat 2)] :=
  witness_Ready3 _ _ _ ready_inv

theorem witness_Computes2 : ready.Ready 0 plain outX (Quad.splat 9)
    [(in0x, Quad.splat 0), (in1x, Quad.splat 1)] :=
  ready_sublist witness_Computes3 (by simp)

/-- Computes1, Samples1. -/
theorem witness_Computes1 : ready.Ready 0 plain outX (Quad.splat 9) [(in0x, Quad.splat 0)] :=
  ready_sublist witness_Computes3 (by simp)

/-- Which request is never answered does not matter to what may execute. -/
theorem ready_silentAt {s : State} {i : Nat} {m : Mods} {d : Dst} {rd : Quad Nat}
    {ops : List (Src × Quad Nat)} (h : s.Ready i m d rd ops) (n : Option Nat) :
    { s with samplerSilentAt := n }.Ready i m d rd ops := by
  obtain ⟨⟨h1, h2, h3, h4, h5, h6, h7, h8, h9, h10, h11, h12, h13⟩, hpc, hm, hd, hdr, hs, hsr⟩ := h
  exact ⟨⟨h1, h2, h3, h4, h5, h6, h7, h8, h9, h10, h11, h12, h13⟩, hpc, hm, hd, hdr, hs, hsr⟩

/-- `ready` before a Sampler that does not answer the first request. -/
def mute : State := { ready with samplerSilentAt := some 0 }

/-- TextureResults: the last sampler of the default configuration, a Sampler that answers and one that
does not. -/
theorem witness_TextureResults :
    (TexSel.mk .cube 15).wellFormed ready.cfg.numSamplers = true ∧ ¬ready.silent ∧ mute.silent ∧
      mute.Ready 0 plain outX (Quad.splat 9)
        [(in0x, Quad.splat 0), (in1x, Quad.splat 1), (in2x, Quad.splat 2)] := by
  exact ⟨by decide, by unfold State.silent; decide, rfl, ready_silentAt witness_Computes3 (some 0)⟩

/-- POW stores the free value of its operands in their order. -/
theorem test_pow : ∃ t, exec (.pow plain outX in0x in1x) ready = .next t ∧
    t.readReg .temp 9 .x 0 = Config.fpow 0x40000000 0x40400000 := by
  obtain ⟨t, ht, e⟩ := alu2_effect witness_Computes2 (comp2 Config.fpow)
  exact ⟨t, ht, (e.cell .temp 9 .x 0).trans rfl⟩

theorem test_ex2 : ∃ t, exec (.ex2 plain outX in0x) ready = .next t ∧
    t.readReg .temp 9 .x 0 = Config.fexp2 0x40000000 := by
  obtain ⟨t, ht, e⟩ := alu1_effect witness_Computes1 (comp1 Config.fexp2)
  exact ⟨t, ht, (e.cell .temp 9 .x 0).trans rfl⟩

theorem test_lg2 : ∃ t, exec (.lg2 plain outX in0x) ready = .next t ∧
    t.readReg .temp 9 .x 0 = Config.flog2 0x40000000 := by
  obtain ⟨t, ht, e⟩ := alu1_effect witness_Computes1 (comp1 Config.flog2)
  exact ⟨t, ht, (e.cell .temp 9 .x 0).trans rfl⟩

/-- The opcodes at the ends of the unassigned ranges, and a state that reaches one. -/
theorem witness_UnassignedOpcodeFaults :
    ([0x02, 0x0F, 0x1E, 0x1F, 0x25, 0x27, 0x2D, 0x3B, 0x3F, 0x4F, 0x54, 0x57, 0x5D, 0x5F, 0x65,
      0x67, 0x6D, 0x6F, 0x72, 0x77, 0x84, 0xFF].all fun op =>
        (decode ⟨op, 0, 0, 0, 0, 0, 0, 0, 0, 0⟩).toOption.isNone) = true ∧
      ([0x00, 0x01, 0x10, 0x1D, 0x20, 0x24, 0x28, 0x2C, 0x2E, 0x3A, 0x40, 0x4E, 0x50, 0x53, 0x58,
        0x5C, 0x60, 0x64, 0x68, 0x6C, 0x70, 0x71, 0x78, 0x83].all fun op =>
        (decode ⟨op, 0, 0, 0, 0, 0, 0, 0, 0, 0⟩).toOption.isSome) = true ∧
      (machine.withFetchWord 8 0xFF).status = .running ∧
      (machine.withFetchWord 8 0xFF).pc = .running 0 ∧
      (machine.withFetchWord 8 0xFF).prog.instrs[0]? =
        some ⟨0xFF, 0, 0, 0, 0, 0, 0, 0, 0, 0⟩ := by decide

/-- PlacedRecordRunsNext: the last pc inside the program, the first outside, and Halted. -/
theorem witness_PlacedRecordRunsNext :
    (1 < { machine with pc := .running 1 }.numInstr ∧
      { machine with pc := .running 2 }.numInstr ≤ 2 ∧ State.reset.pc = .halted) := by decide

/-- IllegalEncodingExactly: both sides of each bound of an operand, SAT and SAMPLER. -/
theorem witness_IllegalEncodingExactly :
    ¬illegalSource 0x00FFFFD7 0xFFF3FB6D ∧ ¬illegalSource 0x22 0 ∧ illegalSource 0x26 0 ∧
      illegalSource 0 0 ∧ illegalSource 8 0 ∧ illegalSource 0x01000001 0 ∧
      illegalSource 1 0x00040000 ∧ illegalSource 1 6 ∧ illegalSource 1 0xC00 ∧
      ¬illegalDestination 0x00FFFFD5 0xF ∧ illegalDestination 2 0 ∧ illegalDestination 6 0 ∧
      illegalDestination 0x21 0 ∧ illegalDestination 1 0x10 := by
  refine ⟨?_, ?_, ?_, ?_, ?_, ?_, ?_, ?_, ?_, ?_, ?_, ?_, ?_, ?_⟩ <;>
    simp only [illegalSource, illegalDestination] <;> decide

/-- IllegalEncodingExactly: TXD and ENDLOOP records at their last legal and first illegal value. -/
theorem witness_illegalRecord :
    ∃ m tx d a b c, decode ⟨0x3E80026C, 0, 1, 0, 1, 0, 1, 0, 1, 0⟩ = .ok (.txd m tx d a b c) ∧
      ¬illegalRecord 16 2 ⟨0x3E80026C, 0, 1, 0, 1, 0, 1, 0, 1, 0⟩ (.txd m tx d a b c) ∧
      illegalRecord 15 2 ⟨0x3E80026C, 0, 1, 0, 1, 0, 1, 0, 1, 0⟩ (.txd m tx d a b c) ∧
      illegalRecord 16 2 ⟨0x3F00026C, 0, 1, 0, 1, 0, 1, 0, 1, 0⟩ (.txd m tx d a b c) ∧
      illegalRecord 16 2 ⟨0x3E80036C, 0, 1, 0, 1, 0, 1, 0, 1, 0⟩ (.txd m tx d a b c) ∧
      ¬illegalRecord 16 2 ⟨0x7C, 1, 0, 0, 0, 0, 0, 0, 0, 0⟩ (.endloop 0 1) ∧
      illegalRecord 16 2 ⟨0x7C, 2, 0, 0, 0, 0, 0, 0, 0, 0⟩ (.endloop 0 2) ∧
      ¬illegalRecord 16 2 ⟨0x7F, 2, 0, 0, 0, 0, 0, 0, 0, 0⟩ (.cal 0 2) ∧
      illegalRecord 16 2 ⟨0x7F, 3, 0, 0, 0, 0, 0, 0, 0, 0⟩ (.cal 0 3) := by
  refine ⟨_, _, _, _, _, _, rfl, ?_, ?_, ?_, ?_, ?_, ?_, ?_, ?_⟩ <;>
    simp only [illegalRecord, illegalSource, illegalDestination] <;> decide

/-- SerialisedRecordRoundTrip: the first and the last word; byte 39 is the top byte of W9. -/
theorem witness_SerialisedRecordRoundTrip :
    ([0x03020100, 0, 0, 0, 0, 0, 0, 0, 0, 0x27262524] : List Word)[9]? = some 0x27262524 ∧
      (Record.mk 0x03020100 0 0 0 0 0 0 0 0 0x27262524).bytes[0]? = some 0x00 ∧
      (Record.mk 0x03020100 0 0 0 0 0 0 0 0 0x27262524).bytes[39]? = some 0x27 := by decide

/-- DecoderKeepsUsedBits, PlacedRecordRunsNext: a record that decodes, with its ignored bits set. -/
theorem witness_decodes : ∃ i, decode ⟨0x3FFFFF00, 1, 1, 1, 1, 1, 1, 1, 1, 1⟩ = .ok i := ⟨.nop 0, rfl⟩

theorem witness_StepRunsDecodedInstruction :
    machine.status = .running ∧ machine.pc = .running 0 ∧
      machine.prog.instrs[0]? = some nopRecord ∧ (decode nopRecord).toOption = some (.nop 0) := by
  decide

/-- A Run that is Halted, one whose pc is at NumInstr, and no Run. -/
theorem witness_StepLoopAroundInstructions :
    { machine with pc := .halted }.status = .running ∧
      { machine with pc := .running 2 }.numInstr = 2 ∧ State.reset.status ≠ .running := by decide

/-- A texture step, a step of another instruction, and a faulting one, each from a Run. -/
theorem witness_OneSamplerRequestEach :
    (Instr.tex plain ⟨.cube, 15⟩ out (at4 0)).isTexture = true ∧
      (after (exec (.tex plain ⟨.cube, 15⟩ out (at4 0)) machine)).status = .running ∧
      (Instr.nop 0).isTexture = false ∧ (after (exec (.nop 0) machine)).status = .running ∧
      (after (exec (.tex plain ⟨.none, 0⟩ out (at4 0)) machine)).status ≠ .running ∧
      { machine with samplerSilentAt := some 0 }.silent ∧
      (after (exec (.tex plain ⟨.cube, 15⟩ out (at4 0))
        { machine with samplerSilentAt := some 0 })).status = .running := by
  unfold State.silent
  decide

/-- KIL and IF: an illegal header, an illegal operand, an operand outside, and one inside. -/
theorem witness_DiscardResults_IfResult :
    machine.pc = .running 0 ∧ (1 : HdrReserved) ≠ 0 ∧ (srcX .null 0).wellFormed = false ∧
      (srcX .temp 128).wellFormed = true ∧ machine.srcIndex (srcX .temp 128) 0 = none ∧
      (srcX .temp 127).wellFormed = true ∧
      ∀ l, machine.srcIndex (srcX .temp 127) l = some ((Quad.splat 127).get l) := by decide

/-- IF with a full stack and with one entry left. -/
theorem witness_IfResult_stack :
    machine.cfg.maxNest ≤
        { machine with condStack := List.replicate 32 15 }.condStack.length ∧
      { machine with condStack := List.replicate 31 15 }.condStack.length < machine.cfg.maxNest := by
  decide

theorem witness_KillOnlyGrows :
    machine.pc = .running 0 ∧ { machine with kill := 5 }.kill.has 2 = true ∧
      ∃ t, exec (.nop 0) machine = .next t := ⟨by decide, by decide, _, rfl⟩

/-- ELSE, ENDIF: an empty stack and one of two entries. -/
theorem witness_ElseEndifResult :
    machine.condStack = [] ∧
      { machine with condStack := [15, 7] }.condStack = [15] ++ [7] := by decide

/-- BGNLOOP: each stack full, and both with one entry left. -/
theorem witness_BgnloopResult :
    machine.cfg.maxNest ≤ (List.replicate 32 (15 : LaneMask)).length ∧
      (List.replicate 31 (15 : LaneMask)).length < machine.cfg.maxNest := by decide

/-- ENDLOOP: LABEL at NumInstr and one below; a lane live after the restore, and none. -/
theorem witness_EndloopResult :
    machine.numInstr ≤ (2 : Word).toNat ∧ (1 : Word).toNat < machine.numInstr ∧
      machine.loopStack = [] ∧ ([] ++ [15] : List LaneMask) = [15] ∧
      machine.condMask &&& machine.loopMask &&& 15 &&& machine.funcMask ≠ 0 ∧
      { machine with loopMask := 0 }.condMask &&& { machine with loopMask := 0 }.loopMask &&& 15
        &&& machine.funcMask = 0 := by decide

/-- CAL: LABEL past NumInstr and at it; no lane live; a lane live with a full stack, and without. -/
theorem witness_CalResult :
    machine.numInstr < (3 : Word).toNat ∧ (2 : Word).toNat ≤ machine.numInstr ∧
      { machine with condMask := 0 }.execMask = 0 ∧ machine.execMask ≠ 0 ∧
      machine.cfg.maxNest ≤ (List.replicate 32 (15 : LaneMask)).length ∧
      ¬(machine.cfg.maxNest ≤ machine.callStack.length ∨
        machine.cfg.maxNest ≤ machine.condStack.length ∨
        machine.cfg.maxNest ≤ machine.loopStack.length ∨
        machine.cfg.maxNest ≤ machine.contStack.length ∨
        machine.cfg.maxNest ≤ machine.funcStack.length) := by decide

/-- Inside a call, with every entry that the CAL pushed still there. -/
def called : State := { machine with
  condStack := [15], loopStack := [15], contStack := [15], funcStack := [15]
  callStack := [⟨1, 0, 0, 0⟩] }

/-- RET: lanes left, none left outside a call, and inside one with the entries there and popped. -/
theorem witness_RetResult :
    { machine with condMask := 1 }.funcMask &&& ~~~{ machine with condMask := 1 }.execMask ≠ 0 ∧
      machine.funcMask &&& ~~~machine.execMask = 0 ∧ machine.callStack = [] ∧
      called.callStack = [] ++ [⟨1, 0, 0, 0⟩] ∧ called.funcStack = [] ++ [15] ∧
      called.condStack[0]? = some 15 ∧ called.loopStack[0]? = some 15 ∧
      called.contStack[0]? = some 15 ∧ { called with contStack := [] }.contStack.length ≤ 0 := by
  decide

/-- An IF, two ELSE and an ENDIF, each at its own index with the stack as the one before left it. -/
theorem witness_IfElseEndifLaw : ∃ s t u u' v v' w w' : State,
    s.pc = .running 0 ∧ exec (.if_ 0 in0x) s = .next t ∧ t.status = .running ∧
      s.status = .running ∧ u.pc = .running 1 ∧ u.condMask = t.condMask ∧
      u.condStack = t.condStack ∧ exec (.else_ 0) u = .next u' ∧ v.pc = .running 0 ∧
      v.condMask = u'.condMask ∧ v.condStack = u'.condStack ∧ exec (.else_ 0) v = .next v' ∧
      w.pc = .running 0 ∧ w.condStack = t.condStack ∧ exec (.endif 0) w = .next w' := by
  refine ⟨machine1 ⟨1, 0, 1, 0⟩, _, { machine with
    condMask := 5, condStack := [15], pc := .running 1 }, _, { machine with
    condMask := 10, condStack := [15] }, _, { machine with condStack := [15] }, _, rfl, rfl, rfl,
    rfl, rfl, ?_, rfl, rfl, rfl, rfl, rfl, rfl, rfl, rfl, rfl⟩
  decide

/-- A legal instruction with a source outside its file in a dead lane only. -/
theorem witness_OperandOutsideFaults :
    (Instr.mov plain outX { in0x with ind := some .x }).wellFormed Cfg.default 2 = true ∧
      { machine with condMask := 7, addr := [(3, 128)] }.operandOutside
        (.mov plain outX { in0x with ind := some .x }) := by
  refine ⟨by decide, .inl ⟨{ in0x with ind := some .x }, List.mem_singleton.mpr rfl, 3, ?_⟩⟩
  decide

/-- A machine whose program has one immediate. -/
def oneImm : State := { machine with prog := { machine.prog with imms := [⟨1, 2, 3, 4⟩] } }

/-- The last register of a file, the last one of a file with two dimensions, the one immediate of a
program, a destination, NULL. -/
theorem witness_OperandIndexRule :
    machine.srcIndex (srcX .temp 127) 0 = some 127 ∧ machine.srcIndex (srcX .temp 128) 0 = none ∧
      machine.srcIndex { srcX .const 4095 with dim := some ⟨0, none⟩ } 0 = some 4095 ∧
      machine.srcIndex { srcX .const 4096 with dim := some ⟨0, none⟩ } 0 = none ∧
      oneImm.srcIndex (srcX .imm 0) 0 = some 0 ∧ oneImm.srcIndex (srcX .imm 1) 0 = none ∧
      (dstOf .temp 127 1).file ≠ .null ∧ (dstOf .null 0xFFFF 1).file = .null := by decide

theorem witness_FatalErrorIsPrecise :
    ∃ t, step (machine.withFetchWord 8 2) = .next t ∧
      t.status = .faulted .unknownOpcode (.instr 0) := ⟨_, rfl, rfl⟩

/-- StepKeepsInvariant, StepKeepsMasksNested, StepKeepsReadOnlyState. -/
theorem witness_step : machine.Inv ∧ machine.MasksNested ∧ ∃ t, step machine = .next t :=
  ⟨machine_inv, machine_nested, _, rfl⟩

/-- Each host operation is accepted in the power-on state. -/
theorem witness_HostOperationsKeepInvariant :
    (∃ t, hostBind machine.prog State.reset = .next t) ∧ (∃ t, hostRun State.reset = .next t) ∧
      (∃ t, hostWriteReg .temp 127 .w 3 1 State.reset = .next t) ∧
      (∃ t, hostWriteConst 4095 .w 1 State.reset = .next t) ∧
      (∃ t, hostWriteCc .w 3 3 State.reset = .next t) ∧
      (∃ t, hostWriteQuad 1 1 (Quad.splat 1) State.reset = .next t) ∧
      ∃ t, hostWriteCoef 31 .w 1 1 1 State.reset = .next t :=
  ⟨⟨_, rfl⟩, ⟨_, rfl⟩, ⟨_, rfl⟩, ⟨_, rfl⟩, ⟨_, rfl⟩, ⟨_, rfl⟩, ⟨_, rfl⟩⟩

/-- An instruction that is answered or asks nothing; the other case is in
`witness_OneSamplerRequestEach`. -/
theorem witness_OnlyFlowChangesMasksAndPc :
    (Instr.mov plain outX in0x).isFlow = false ∧ (Instr.mov plain outX in0x).isTexture = false ∧
      (Instr.tex plain ⟨.cube, 15⟩ out (at4 0)).isFlow = false ∧
      ∃ t, exec (.mov plain outX in0x) machine = .next t := ⟨by decide, by decide, by decide, _, rfl⟩

/-- A dead lane. -/
theorem witness_DeadLanesUnchanged :
    { machine with condMask := 7 }.Inv ∧ { machine with condMask := 7 }.execMask.has 3 = false ∧
      ∃ t, exec (.mov plain outX in0x) { machine with condMask := 7 } = .next t := by
  refine ⟨?_, by decide, _, rfl⟩
  constructor <;> first | decide | (intro i h; cases h; decide)

/-- Two machines that differ in lane 1 alone agree in lane 0, and both run an ADD. -/
theorem witness_LanesDoNotObserveEachOther :
    AgreeInLane 0 (machine1 ⟨7, 1, 0, 0⟩) (machine1 ⟨7, 2, 0, 0⟩) ∧
      (machine1 ⟨7, 1, 0, 0⟩).Inv ∧ (machine1 ⟨7, 2, 0, 0⟩).Inv ∧
      (∃ t, exec (.iadd plain outX in0x in0x) (machine1 ⟨7, 1, 0, 0⟩) = .next t ∧
        t.status = .running) ∧
      ∃ t, exec (.iadd plain outX in0x in0x) (machine1 ⟨7, 2, 0, 0⟩) = .next t ∧
        t.status = .running := by
  refine ⟨⟨rfl, rfl, rfl, ?_, ?_, rfl, rfl⟩, ?_, ?_, ⟨_, rfl, rfl⟩, _, rfl, rfl⟩
  · intro f r c
    cases f <;> try rfl
    show CellMap.read _ _ = CellMap.read _ _
    have e1 : (machine1 ⟨7, 1, 0, 0⟩).temp = [(0, 7), (1, 1), (144, 0x41100000),
      (145, 0x41100000), (146, 0x41100000), (147, 0x41100000)] := by decide
    have e2 : (machine1 ⟨7, 2, 0, 0⟩).temp = [(0, 7), (1, 2), (144, 0x41100000),
      (145, 0x41100000), (146, 0x41100000), (147, 0x41100000)] := by decide
    have hn : cellNo r c 0 ≠ 1 := by unfold cellNo; cases c <;> simp [Channel.toNat]
    rw [e1, e2]
    simp [CellMap.read, hn]
  · intro c; cases c <;> rfl
  · constructor <;> first | decide | (intro i h; cases h; decide)
  · constructor <;> first | decide | (intro i h; cases h; decide)

/-- MOV TEMP[9], TEMP[0].xyzw on the full write mask. -/
theorem witness_MovRoundTrip :
    machine.Ready 0 plain out (Quad.splat 9) [(at4 0, Quad.splat 0)] ∧ plain.sat = .none ∧
      plain.ccPred = none ∧ out.writeMask = 0xF ∧ machine.execMask = 0xF ∧ out.file ≠ .null ∧
      (at4 9).file = out.file ∧ (at4 9).swz = ⟨.chan .x, .chan .y, .chan .z, .chan .w⟩ ∧
      (at4 9).sign = .keep ∧ (at4 9).complement = false := by
  refine ⟨⟨machine_inv, rfl, by decide, by decide, by decide, by decide, ?_⟩, by decide⟩
  intro o ho l
  rw [List.mem_singleton] at ho
  subst ho
  revert l
  decide

/-! Values of patterns, for the float obligations. -/

theorem value_zero : HasValue 0 0 := by
  have h : fview 0 = .fin false 0 (-149) := by decide
  simp only [HasValue, h]; norm_num

theorem value_half : HasValue 0x3F000000 ((1 / 2 : ℝ) : EReal) := by
  have h : fview 0x3F000000 = .fin false (2 ^ 23) (-24) := by decide
  simp only [HasValue, h]; norm_num

theorem value_one : HasValue 0x3F800000 ((1 : ℝ) : EReal) := by
  have h : fview 0x3F800000 = .fin false (2 ^ 23) (-23) := by decide
  simp only [HasValue, h]; norm_num

theorem value_minus_one : HasValue 0xBF800000 ((-1 : ℝ) : EReal) := by
  have h : fview 0xBF800000 = .fin true (2 ^ 23) (-23) := by decide
  simp only [HasValue, h]; norm_num

theorem value_top : HasValue 0x7F800000 ⊤ := by
  have h : fview 0x7F800000 = .inf false := by decide
  simp only [HasValue, h, Bool.false_eq_true, if_false]

/-- SaturationRule, ConditionCodeRule and ComparisonsByValue: the values above lie in each of their
ranges, with its ends; a NaN. -/
theorem witness_ranges :
    isNaN 0x7FC00000 = true ∧ isNaN 0xFFFFFFFF = true ∧
      (0 : EReal) ≤ 0 ∧ (0 : EReal) < ((1 / 2 : ℝ) : EReal) ∧
      ((1 / 2 : ℝ) : EReal) < 1 ∧ (1 : EReal) ≤ ((1 : ℝ) : EReal) ∧ (1 : EReal) ≤ ⊤ ∧
      ((-1 : ℝ) : EReal) ≤ -1 ∧ (-1 : EReal) < 0 := by
  refine ⟨by decide, by decide, le_rfl, ?_, ?_, ?_, le_top, ?_, ?_⟩
  · exact_mod_cast (by norm_num : (0 : ℝ) < 1 / 2)
  · exact_mod_cast (by norm_num : (1 / 2 : ℝ) < 1)
  · exact_mod_cast le_refl (1 : ℝ)
  · rw [EReal.coe_neg, EReal.coe_one]
  · have := EReal.coe_lt_coe_iff.mpr (by norm_num : (-1 : ℝ) < 0)
    rwa [EReal.coe_neg, EReal.coe_one, EReal.coe_zero] at this

/-- SignModeRule, ArithmeticCorrectlyRounded, DivisionAndRootCorrectlyRounded, IntegralRoundingByValue,
ConversionsByValue: patterns of the values 0, 1, 5/2, -5/2 and the largest number. -/
theorem witness_fvalue :
    fvalue 0x80000000 = some 0 ∧ fvalue 0x3F800000 = some 1 ∧ fvalue 0x40200000 = some (5 / 2) ∧
      fvalue 0xC0200000 = some (-5 / 2) ∧
      fvalue 0x7F7FFFFF = some ((2 ^ 24 - 1) * 2 ^ 104) := by
  have h1 : fview 0x80000000 = .fin true 0 (-149) := by decide
  have h2 : fview 0x3F800000 = .fin false (2 ^ 23) (-23) := by decide
  have h3 : fview 0x40200000 = .fin false (5 * 2 ^ 21) (-22) := by decide
  have h4 : fview 0xC0200000 = .fin true (5 * 2 ^ 21) (-22) := by decide
  have h5 : fview 0x7F7FFFFF = .fin false (2 ^ 24 - 1) 104 := by decide
  simp only [fvalue, h1, h2, h3, h4, h5]
  norm_num

/-- SignModeRule: a selector of each kind and an immediate; ConditionCodeRule: a store that covers a lane and one whose
predicate leaves it out. -/
theorem witness_SignModeRule_ConditionCodeRule :
    (at4 0).swz.get .w = .chan .w ∧ { at4 0 with swz := Chans.splat .zero }.swz.get .y = .zero ∧
      { at4 0 with swz := Chans.splat .one }.swz.get .z = .one ∧
      oneImm.prog.imms[0]? = some ⟨1, 2, 3, 4⟩ ∧
      machine.covers plain outX .x 3 = true ∧ machine.covers plain outX .y 3 = false ∧
      machine.covers { plain with ccPred := some ⟨.fl, ⟨.x, .y, .z, .w⟩⟩ } outX .x 3 = false := by
  decide

/-- FloatFormat: an exponent field of 255 with fraction 0, of 0, of 1 and of 254. -/
theorem witness_FloatFormat :
    (fexponent 0x7F800000).toNat = 255 ∧ (ffraction 0x7F800000).toNat = 0 ∧
      (fexponent 0x00000001).toNat = 0 ∧ (fexponent 0x00800000).toNat = 1 ∧
      (fexponent 0x7F7FFFFF).toNat = 254 := by decide

/-- FloatSpecialCases: a NaN and infinities of both signs; zero and finite values of both signs are in
`witness_fvalue`. -/
theorem witness_FloatSpecialCases :
    isNaN 0x7FC00000 = true ∧ isInf 0x7F800000 = true ∧ isInf 0xFF800000 = true ∧
      fsign 0x7F800000 ≠ fsign 0xFF800000 ∧ fsign 0x7F800000 = fsign 0x7F800000 := by decide

/-- ConversionsByValue: truncated values at both ends of the two ranges and one outside. -/
theorem witness_ConversionsByValue :
    truncInt? 0xCF000000 = some (-2 ^ 31) ∧ truncInt? 0x4F000000 = some (2 ^ 31) ∧
      truncInt? 0xBF000000 = some 0 ∧ truncInt? 0x4F800000 = some (2 ^ 32) ∧
      truncInt? 0xBF800000 = some (-1) := by decide

/-- BindRule: the sizes at and past their limits, and a bad declaration after a good one. -/
theorem witness_BindRule :
    machine.status = .running ∧ State.reset.status ≠ .running ∧
      { Cfg.default with maxInstr := 1 }.maxInstr < machine.prog.instrs.length ∧
      machine.prog.instrs.length ≤ { Cfg.default with maxInstr := 2 }.maxInstr ∧
      { Cfg.default with maxDecl := 0 }.maxDecl < (declProg 0x132 0).decls.length ∧
      { Cfg.default with maxImm := 0 }.maxImm < [(⟨0, 0, 0, 0⟩ : Chans Word)].length ∧
      declFault Cfg.default ⟨0x132, 0x1F0000⟩ = none ∧
      declFault Cfg.default ⟨0x132, 0x200000⟩ = some .indexOutOfBounds ∧
      declFault Cfg.default ⟨0x137, 0x200000⟩ = none ∧
      declFault Cfg.default ⟨0x138, 0⟩ = some .illegalEncoding ∧
      declFault Cfg.default ⟨0x532, 0⟩ = some .illegalEncoding := by decide

theorem witness_RunStartRule :
    machine.status = .running ∧ { machine with status := .done 15 }.status ≠ .running := by decide

/-- InterpolationRule: storage in order, each stage, one declaration after another, and its fields:
IN, mask X and Y, LINEAR. -/
theorem witness_InterpolationRule :
    State.reset.storageWf = true ∧ State.reset.prog.stage ≠ .fragment ∧
      State.reset.prog.decls = [] ∧ (declProg 0x132 0).stage = .fragment ∧
      (declProg 0x132 0).decls = [] ++ [⟨0x132, 0⟩] ∧ (0x132 : Word).extractLsb' 0 4 = 2 ∧
      (0x132 : Word).getLsbD 5 = true ∧ (0x132 : Word).getLsbD 6 = false ∧
      (0x132 : Word).extractLsb' 8 2 = 1 := by decide

/-- HostRegisterAccess: the last register of a file and the first past it, a file out of reach, the
ends of the constants and of the Input file. -/
theorem witness_HostRegisterAccess :
    State.reset.Inv ∧ 127 < State.reset.fileSize .temp ∧ ¬128 < State.reset.fileSize .temp ∧
      0 < State.reset.fileSize .const ∧ machine.status = .running ∧
      State.reset.status ≠ .running ∧
      4095 < State.reset.cfg.numConstBufs * State.reset.cfg.constStride ∧
      State.reset.cfg.numConstBufs * State.reset.cfg.constStride ≤ 4096 ∧
      31 < State.reset.cfg.numInput ∧ State.reset.cfg.numInput ≤ 32 := by
  refine ⟨?_, by decide⟩
  constructor <;> first | decide | (intro i h; cases h)


end Sys2Proof.Tests
end

section
/-! PROOFS. The state family (spec/10_state.md): the invariant of the machine under every step, what
no step changes, Kill, the masks and the pc, the host's accesses, and the reset state. What is said of
a step is derived from `step_effect` and `exec_effect`. -/

namespace Sys2Proof.Machine

/-! ### What no step changes -/

/-- t holds the configuration, the program and the host's data of s. -/
structure SameReadOnly (s t : State) : Prop where
  cfg : t.cfg = s.cfg
  prog : t.prog = s.prog
  input : t.input = s.input
  const : t.const = s.const
  quadX : t.quadX = s.quadX
  quadY : t.quadY = s.quadY
  quadW : t.quadW = s.quadW
  a0 : t.a0 = s.a0
  dadx : t.dadx = s.dadx
  dady : t.dady = s.dady
  outCursor : t.outCursor = s.outCursor
  samplerSilentAt : t.samplerSilentAt = s.samplerSilentAt

/-- The commit to a legal destination, which is never the Input file, keeps the read-only state. -/
theorem State.commit_sameReadOnly (s : State) (m : Mods) (d : Dst) (hd : d.wellFormed = true)
    (rd : Quad Nat) (res : Results) : SameReadOnly s (s.commit m d rd res) := by
  constructor <;> simp [s.commit_input m d hd rd res]

/-- No move of the control-flow instructions touches the read-only state. -/
theorem FlowEffect.sameReadOnly {s t : State} {i : Nat} (h : FlowEffect s i t) :
    SameReadOnly s t := by
  cases h <;> exact ⟨rfl, rfl, rfl, rfl, rfl, rfl, rfl, rfl, rfl, rfl, rfl, rfl⟩

/-- No instruction touches the read-only state. -/
theorem ExecEffect.sameReadOnly {s t : State} {i : Nat} {ins : Instr} (h : ExecEffect s i ins t) :
    SameReadOnly s t := by
  cases h with
  | fatal code => exact ⟨rfl, rfl, rfl, rfl, rfl, rfl, rfl, rfl, rfl, rfl, rfl, rfl⟩
  | store m d rd res hdst htex hd hrd => exact { s.commit_sameReadOnly m d hd rd res with }
  | texture m d rd req hdst htex hd hrd hsilent =>
    exact { (s.issue req).commit_sameReadOnly m d hd rd (s.response req) with }
  | await req htex hsilent => exact ⟨rfl, rfl, rfl, rfl, rfl, rfl, rfl, rfl, rfl, rfl, rfl, rfl⟩
  | kill k hdst hflow hk => exact ⟨rfl, rfl, rfl, rfl, rfl, rfl, rfl, rfl, rfl, rfl, rfl, rfl⟩
  | flow hflow t ht => exact ht.sameReadOnly

/-- No step touches the read-only state. -/
theorem StepEffect.sameReadOnly {s t : State} (h : StepEffect s t) : SameReadOnly s t := by
  cases h with
  | instr hs i hpc r hr ins hdec t hexec ht => exact ht.sameReadOnly
  | hold | finish | runOff | unknown =>
    exact ⟨rfl, rfl, rfl, rfl, rfl, rfl, rfl, rfl, rfl, rfl, rfl, rfl⟩

/-- Settles O41: each thing a step can do leaves the read-only state alone. -/
theorem stepKeepsReadOnlyState : Obligations.StepKeepsReadOnlyState := by
  intro s t h
  have k := (step_effect h).sameReadOnly
  exact ⟨k.cfg, k.prog, k.input, k.const, k.quadX, k.quadY, k.quadW, k.a0, k.dadx, k.dady,
    k.outCursor, k.samplerSilentAt⟩

/-! ### The invariant under the state's operations -/

/-- A transfer inside a Run keeps the invariant: it lands inside the program or halts (R121). -/
theorem State.Inv.goto {s : State} (h : s.Inv) (hs : s.status = .running) (n : Nat) :
    (s.goto n).Inv :=
  { h with
    pc_in_range := fun j hj => by
      rw [State.goto_pc] at hj
      split_ifs at hj with hn
      cases hj
      exact hn
    status_agrees := by simp [State.statusAgrees, hs] }

/-- Halting inside a Run keeps the invariant. -/
theorem State.Inv.halt {s : State} (h : s.Inv) (hs : s.status = .running) :
    State.Inv { s with pc := .halted } :=
  { h with
    pc_in_range := fun j hj => by cases hj
    status_agrees := by simp [State.statusAgrees, hs] }

/-- A fatal error at the pc keeps the invariant: the pc stays at the instruction (R355). -/
theorem State.Inv.raiseFatal {s : State} (h : s.Inv) {i : Nat} (hpc : s.pc = .running i)
    (code : FatalCode) : (s.raiseFatal code i).Inv :=
  { h with status_agrees := by simp [State.statusAgrees, hpc] }

/-- The end of a Run keeps the invariant: the result is the complement of Kill (R335). -/
theorem State.Inv.finish {s : State} (h : s.Inv) (hpc : s.pc = .halted) : s.finish.Inv :=
  { h with status_agrees := by simp [State.statusAgrees, hpc] }

/-- Any change of the masks keeps the invariant, which does not speak of them. -/
theorem State.Inv.withMasks {s : State} (h : s.Inv) (cond loop cont func : LaneMask) :
    State.Inv { s with condMask := cond, loopMask := loop, contMask := cont, funcMask := func } :=
  { h with }

/-- A CondStack within its bound keeps the invariant (R43). -/
theorem State.Inv.withCondStack {s : State} (h : s.Inv) {cond : List LaneMask}
    (hcond : cond.length ≤ s.cfg.maxNest) : State.Inv { s with condStack := cond } :=
  { h with cond_depth := hcond }

/-- A LoopStack and a ContStack within their bounds keep the invariant (R43). -/
theorem State.Inv.withLoopStacks {s : State} (h : s.Inv) {loop cont : List LaneMask}
    (hloop : loop.length ≤ s.cfg.maxNest) (hcont : cont.length ≤ s.cfg.maxNest) :
    State.Inv { s with loopStack := loop, contStack := cont } :=
  { h with loop_depth := hloop, cont_depth := hcont }

/-- New stacks within their bounds, CallStack and FuncStack of one depth, keep the invariant (R43,
R44, R176). -/
theorem State.Inv.withStacks {s : State} (h : s.Inv) {cond loop cont func : List LaneMask}
    {call : List CallEntry} (hcond : cond.length ≤ s.cfg.maxNest)
    (hloop : loop.length ≤ s.cfg.maxNest) (hcont : cont.length ≤ s.cfg.maxNest)
    (hcall : call.length ≤ s.cfg.maxNest) (hfunc : func.length = call.length)
    (hret : ∀ e ∈ call, e.retPc < 2 ^ 32) :
    State.Inv { s with
      callStack := call, condStack := cond, loopStack := loop, contStack := cont
      funcStack := func } :=
  { h with
    cond_depth := hcond, loop_depth := hloop, cont_depth := hcont, call_depth := hcall
    func_depth := hfunc, ret_pc := hret }

/-- Inside a Run Kill is free: only the result of a finished Run is tied to it (R335). -/
theorem State.Inv.withKill {s : State} (h : s.Inv) (hs : s.status = .running) (k : LaneMask) :
    State.Inv { s with kill := k } :=
  { h with status_agrees := by simp [State.statusAgrees, hs] }

/-- An answered request on the Sampler port keeps the invariant, which does not speak of it. -/
theorem State.Inv.issue {s : State} (h : s.Inv) (req : SamplerReq) : (s.issue req).Inv := { h with }

/-- A request that is never answered keeps the invariant, which does not speak of it. -/
theorem State.Inv.await {s : State} (h : s.Inv) (req : SamplerReq) : (s.await req).Inv := { h with }

/-- New register cells and condition codes keep the invariant when they are canonical and bounded. -/
theorem State.Inv.of_frame {s t : State} (h : s.Inv)
    (ht : t = { s with
      temp := t.temp, output := t.output, addr := t.addr, pred := t.pred, cc := t.cc })
    (hwf : t.storageWf = true) (hb : t.storageBounded = true) : t.Inv := by
  rw [ht] at hwf hb ⊢
  exact { h with storage_wf := hwf, storage_bounded := hb }

/-- A legal destination that resolved writes registers inside its file (R128). -/
theorem State.dstIndex_inside {s : State} {d : Dst} {rd : Quad Nat}
    (hrd : ∀ l, s.dstIndex d l = some (rd.get l)) (l : Lane)
    (hcells : RegFile.hasCells d.file = true) : rd.get l < s.fileSize d.file := by
  refine State.dstIndex_lt (fun hnull => ?_) (hrd l)
  simp [hnull, RegFile.hasCells] at hcells

/-- The commit to a legal destination that resolved keeps the invariant. -/
theorem State.Inv.commit {s : State} (h : s.Inv) (m : Mods) (d : Dst) (hd : d.wellFormed = true)
    (rd : Quad Nat) (hrd : ∀ l, s.dstIndex d l = some (rd.get l)) (res : Results) :
    (s.commit m d rd res).Inv := by
  have hfile : d.file ≠ .input := by
    rcases Dst.wellFormed_file hd with hnull | ⟨-, hne⟩
    · simp [hnull]
    · exact hne
  exact h.of_frame (s.commit_frame m d hfile rd res) (s.commit_storageWf h.storage_wf m d rd res)
    (s.commit_storageBounded h.storage_bounded m d rd (State.dstIndex_inside hrd) res)

/-- The index after an instruction of the program fits the 32 bits of retPC (R44; log 17). -/
theorem State.Inv.return_index_lt {s : State} (h : s.Inv) {i : Nat} (hpc : s.pc = .running i) :
    i + 1 < 2 ^ 32 := by
  have hi : i < s.prog.instrs.length := h.pc_in_range i hpc
  have hfit : s.prog.instrs.length ≤ s.cfg.maxInstr := by
    have := h.prog_fits
    simp only [State.progFits, Bool.and_eq_true, decide_eq_true_eq] at this
    exact this.1.1
  have hmax : s.cfg.maxInstr < 2 ^ 32 := by
    have := h.cfg_wf
    simp only [Cfg.wf, Bool.and_eq_true, decide_eq_true_eq] at this
    exact this.2
  omega

/-! ### The invariant under every step -/

theorem length_push_le {α : Type} {st : List α} {a : α} {n : Nat} (h : st.length < n) :
    (st ++ [a]).length ≤ n := by
  simpa using h

theorem length_pop_le {α : Type} {st : List α} {n : Nat} (h : st.length ≤ n) :
    st.dropLast.length ≤ n :=
  (List.dropLast_sublist st).length_le.trans h

theorem length_cut_le {α : Type} {st : List α} {k n : Nat} (h : st.length ≤ n) :
    (st.take k).length ≤ n :=
  (List.length_take_le' k st).trans h

/-- The moves of the control-flow instructions keep the invariant: each push has room, each pop or cut
shortens its stack, and the call and function stacks move together. -/
theorem FlowEffect.inv {s t : State} {i : Nat} (ht : FlowEffect s i t) (h : s.Inv)
    (hs : s.status = .running) (hpc : s.pc = .running i) : t.Inv := by
  have hnext := h.goto hs (i + 1)
  cases ht with
  | advance => exact hnext
  | enterIf cond hroom =>
    exact (hnext.withCondStack (length_push_le hroom)).withMasks _ _ _ _
  | flip top htop => exact hnext.withMasks _ _ _ _
  | leaveIf top htop =>
    exact (hnext.withCondStack (length_pop_le h.cond_depth)).withMasks _ _ _ _
  | enterLoop hl hc => exact hnext.withLoopStacks (length_push_le hl) (length_push_le hc)
  | again label top htop => exact (h.goto hs (label + 1)).withMasks _ _ _ _
  | leaveLoop loopTop contTop hl hc =>
    exact (hnext.withLoopStacks (length_pop_le h.loop_depth)
      (length_pop_le h.cont_depth)).withMasks _ _ _ _
  | breakLanes => exact hnext.withMasks _ _ _ _
  | continueLanes => exact hnext.withMasks _ _ _ _
  | call label hcall hcond hloop hcont hfunc =>
    refine (h.goto hs label).withStacks (length_push_le hcond) (length_push_le hloop)
      (length_push_le hcont) (length_push_le hcall) (by simp [h.func_depth]) fun e he => ?_
    rcases List.mem_append.mp he with he | he
    · exact h.ret_pc e he
    · rw [List.mem_singleton.mp he]
      exact h.return_index_lt hpc
  | returnLanes hfunc => exact hnext.withMasks _ _ _ _
  | returnHalt hfunc hcall => exact (h.halt hs).withMasks _ _ _ _
  | returnCall hfunc e hcall cond loop cont func hcond hloop hcont hf =>
    have hret : ∀ e ∈ s.callStack.dropLast, e.retPc < 2 ^ 32 :=
      fun e he => h.ret_pc e (List.mem_of_mem_dropLast he)
    exact ((h.goto hs e.retPc).withStacks (length_cut_le h.cond_depth) (length_cut_le h.loop_depth)
      (length_cut_le h.cont_depth) (length_pop_le h.call_depth) (by simp [h.func_depth])
      hret).withMasks _ _ _ _
  | halt => exact h.halt hs

/-- Every instruction of a Run keeps the invariant. -/
theorem ExecEffect.inv {s t : State} {i : Nat} {ins : Instr} (ht : ExecEffect s i ins t) (h : s.Inv)
    (hs : s.status = .running) (hpc : s.pc = .running i) : t.Inv := by
  cases ht with
  | fatal code => exact h.raiseFatal hpc code
  | store m d rd res hdst htex hd hrd =>
    exact (h.commit m d hd rd hrd res).goto (by simpa using hs) _
  | texture m d rd req hdst htex hd hrd hsilent =>
    exact ((h.issue req).commit m d hd rd hrd _).goto (by simpa using hs) _
  | await req htex hsilent => exact h.await req
  | kill k hdst hflow hk => exact (h.goto hs (i + 1)).withKill hs _
  | flow hflow t ht => exact ht.inv h hs hpc

/-- Every step keeps the invariant. -/
theorem StepEffect.inv {s t : State} (ht : StepEffect s t) (h : s.Inv) : t.Inv := by
  cases ht with
  | hold hs => exact h
  | finish hs hpc => exact h.finish hpc
  | runOff hs i hpc hnone => exact h.halt hs
  | instr hs i hpc r hr ins hdec t hexec ht => exact ht.inv h hs hpc
  | unknown hs i hpc r hr e hdec => exact h.raiseFatal hpc _

/-- Settles O37: each thing a step can do keeps each clause of the invariant. -/
theorem stepKeepsInvariant : Obligations.StepKeepsInvariant :=
  fun _ _ h hstep => (step_effect hstep).inv h

/-! ### Kill, masks and pc -/

/-- A texture instruction has a destination (R310). -/
theorem Instr.dst?_ne_none_of_isTexture {ins : Instr} (h : ins.isTexture = true) :
    ins.dst? ≠ none := by
  cases shape_of ins with
  | alu1 | alu2 | alu3 | tex1 | tex3 => simp_all
  | kil hd a heq => subst heq; cases h
  | kilp hd p heq => subst heq; cases h
  | flow hdst htex hflow => simp [htex] at h

/-- The instructions without a destination outside the control-flow group are KIL and KILP. -/
theorem Instr.eq_kil_or_kilp {ins : Instr} (hdst : ins.dst? = none) (hflow : ins.isFlow = false) :
    (∃ h a, ins = .kil h a) ∨ ∃ h p, ins = .kilp h p := by
  cases shape_of ins with
  | alu1 | alu2 | alu3 | tex1 | tex3 => simp_all
  | kil h a heq => exact .inl ⟨h, a, heq⟩
  | kilp h p heq => exact .inr ⟨h, p, heq⟩
  | flow _ _ hf => simp [hf] at hflow

/-- The control-flow instructions keep Kill. -/
theorem FlowEffect.kill_eq {s t : State} {i : Nat} (h : FlowEffect s i t) : t.kill = s.kill := by
  cases h <;> rfl

/-- An instruction keeps Kill, or it is KIL or KILP and adds lanes to it. -/
theorem ExecEffect.kill_cases {s t : State} {i : Nat} {ins : Instr} (h : ExecEffect s i ins t) :
    t.kill = s.kill ∨
      (∃ k, t.kill = s.kill ||| k) ∧ ((∃ h a, ins = .kil h a) ∨ ∃ h p, ins = .kilp h p) := by
  cases h with
  | fatal | await => exact .inl rfl
  | store | texture => exact .inl (by simp)
  | kill k hdst hflow hk => exact .inr ⟨⟨k, rfl⟩, Instr.eq_kil_or_kilp hdst hflow⟩
  | flow hflow t ht => exact .inl ht.kill_eq

/-- Settles O23: Kill is kept, or KIL or KILP adds lanes to it. -/
theorem killOnlyGrows : Obligations.KillOnlyGrows := by
  intro s t i ins hpc hexec
  rcases (exec_effect ins hpc hexec).kill_cases with hk | ⟨⟨k, hk⟩, hins⟩
  · exact ⟨fun l hl => by rw [hk]; exact hl, fun _ _ => hk⟩
  · refine ⟨fun l hl => by simp [hk, hl], fun hkil hkilp => ?_⟩
    rcases hins with ⟨h, a, rfl⟩ | ⟨h, p, rfl⟩
    · exact absurd rfl (hkil h a)
    · exact absurd rfl (hkilp h p)

/-- t holds the masks and the stacks of s. -/
structure SameFlow (s t : State) : Prop where
  condMask : t.condMask = s.condMask
  loopMask : t.loopMask = s.loopMask
  contMask : t.contMask = s.contMask
  funcMask : t.funcMask = s.funcMask
  condStack : t.condStack = s.condStack
  loopStack : t.loopStack = s.loopStack
  contStack : t.contStack = s.contStack
  funcStack : t.funcStack = s.funcStack
  callStack : t.callStack = s.callStack

/-- Outside the control-flow group no instruction touches the masks or the stacks. -/
theorem ExecEffect.sameFlow {s t : State} {i : Nat} {ins : Instr} (h : ExecEffect s i ins t)
    (hflow : ins.isFlow = false) : SameFlow s t := by
  cases h with
  | fatal | await | kill => exact ⟨rfl, rfl, rfl, rfl, rfl, rfl, rfl, rfl, rfl⟩
  | store | texture => constructor <;> simp
  | flow hf => simp [hf] at hflow

/-- Outside the control-flow group an instruction faults, or it is a texture instruction that waits at
its place, or it advances the pc by one. -/
theorem ExecEffect.pc_cases {s t : State} {i : Nat} {ins : Instr} (h : ExecEffect s i ins t)
    (hflow : ins.isFlow = false) :
    (∃ code, t.status = .faulted code (.instr i)) ∨
      ((ins.isTexture = true ∧ s.silent) ∧ t.pc = s.pc) ∨
      (¬(ins.isTexture = true ∧ s.silent) ∧ t.pc = s.pcAt (i + 1)) := by
  cases h with
  | fatal code => exact .inl ⟨code, rfl⟩
  | store m d rd res hdst htex =>
    refine .inr (.inr ⟨by simp [htex], ?_⟩)
    rw [State.goto_pc, State.numInstr_congr (t := s) (by simp)]
    rfl
  | texture m d rd req hdst htex hd hrd hsilent =>
    refine .inr (.inr ⟨fun hw => hsilent hw.2, ?_⟩)
    rw [State.goto_pc, State.numInstr_congr (t := s) (by simp)]
    rfl
  | await req htex hsilent => exact .inr (.inl ⟨⟨htex, hsilent⟩, rfl⟩)
  | kill k hdst =>
    exact .inr (.inr ⟨fun hw => Instr.dst?_ne_none_of_isTexture hw.1 hdst, rfl⟩)
  | flow hf => simp [hf] at hflow

/-- Settles O42: only the control-flow instructions touch masks and stacks, and the three outcomes for
the pc exclude each other. -/
theorem onlyFlowChangesMasksAndPc : Obligations.OnlyFlowChangesMasksAndPc := by
  intro s t i ins hs hpc hflow hexec
  have heff := exec_effect ins hpc hexec
  have k := heff.sameFlow hflow
  refine ⟨k.condMask, k.loopMask, k.contMask, k.funcMask, k.condStack, k.loopStack, k.contStack,
    k.funcStack, k.callStack, ?_⟩
  rcases heff.pc_cases hflow with ⟨code, hfault⟩ | ⟨hwait, hkeep⟩ | ⟨hgo, hadv⟩
  · exact ⟨fun _ hrun => by simp [hfault] at hrun, fun _ hrun => by simp [hfault] at hrun⟩
  · exact ⟨fun _ _ => hkeep, fun hgo => absurd hwait hgo⟩
  · exact ⟨fun hwait => absurd hwait hgo, fun _ _ => hadv⟩

/-! ### The host's accesses -/

/-- Every host operation but ReadStatus is refused during a Run (R346, R385). -/
theorem whenNotRunning_running {α : Type} {s : State} (hs : s.status = .running)
    (r : Host.Outcome α Fault Refusal) : whenNotRunning s r = .refused .hostWhileRunning :=
  if_pos hs

/-- Outside a Run a host operation does what it does. -/
theorem whenNotRunning_idle {α : Type} {s : State} (hs : s.status ≠ .running)
    (r : Host.Outcome α Fault Refusal) : whenNotRunning s r = r :=
  if_neg hs

/-- The files of a host access are those with lane cells. -/
theorem hostFile_eq_hasCells (f : RegFile) : hostFile f = RegFile.hasCells f := by
  cases f <;> rfl

theorem hostFile_iff (f : RegFile) :
    hostFile f = true ↔ f = .temp ∨ f = .input ∨ f = .output ∨ f = .addr ∨ f = .pred := by
  cases f <;> simp [hostFile]

/-- A register access outside the reach of the host is refused (R346). -/
theorem hostReg_refused {s : State} (hs : s.status ≠ .running) {f : RegFile} {i : Nat}
    (hn : ¬(hostFile f = true ∧ i < s.fileSize f)) (c : Channel) (l : Lane) (v : Word) :
    hostWriteReg f i c l v s = .refused .hostIndex ∧
      hostReadReg f i c l s = .refused .hostIndex := by
  have hb : ¬(hostFile f && decide (i < s.fileSize f)) = true := by simpa using hn
  constructor
  · exact (whenNotRunning_idle hs _).trans (if_neg hb)
  · exact (whenNotRunning_idle hs _).trans (if_neg hb)

/-- A register within the reach of the host is written in one cell. -/
theorem hostWriteReg_next {s : State} (hs : s.status ≠ .running) {f : RegFile} {i : Nat}
    (hf : hostFile f = true) (hi : i < s.fileSize f) (c : Channel) (l : Lane) (v : Word) :
    hostWriteReg f i c l v s = .next (s.writeReg f i c l v) :=
  (whenNotRunning_idle hs _).trans (if_pos (by simp [hf, hi]))

/-- A register within the reach of the host is read in one cell. -/
theorem hostReadReg_next {s : State} (hs : s.status ≠ .running) {f : RegFile} {i : Nat}
    (hf : hostFile f = true) (hi : i < s.fileSize f) (c : Channel) (l : Lane) :
    hostReadReg f i c l s = .next (s.readReg f i c l) :=
  (whenNotRunning_idle hs _).trans (if_pos (by simp [hf, hi]))

/-- A register that the host has written reads back, and every other cell is kept. -/
theorem hostWriteReg_effect {s : State} (h : s.Inv) (hs : s.status ≠ .running) {f : RegFile}
    {i : Nat} (hf : hostFile f = true) (hi : i < s.fileSize f) (c : Channel) (l : Lane) (v : Word) :
    ∃ t, hostWriteReg f i c l v s = .next t ∧ hostReadReg f i c l t = .next v ∧
      (∀ g j e k, (g, j, e, k) ≠ (f, i, c, l) → t.readReg g j e k = s.readReg g j e k) ∧
      t = { s with temp := t.temp, input := t.input, output := t.output, addr := t.addr,
                   pred := t.pred } := by
  have hread := s.readReg_writeReg h.storage_wf f i c l v
  have hsize : (s.writeReg f i c l v).fileSize f = s.fileSize f :=
    State.fileSize_congr (by simp) (by simp) f
  refine ⟨_, hostWriteReg_next hs hf hi c l v, ?_, fun g j e k hne => ?_, s.writeReg_frame ..⟩
  · rw [hostReadReg_next (by simpa using hs) hf (by rwa [hsize]), hread]
    simp [← hostFile_eq_hasCells, hf]
  · rw [hread, if_neg]
    rintro ⟨-, rfl, rfl, rfl, rfl⟩
    exact hne rfl

/-- The two numberings of the condition codes agree (R29). -/
theorem CcCode.toBits_ofBits (b : BitVec 2) : (CcCode.ofBits b).toBits = b := by
  revert b
  decide

/-- A read of CC gives the code of the cell (R29). -/
theorem hostReadCc_next {s : State} (hs : s.status ≠ .running) (c : Channel) (l : Lane) :
    hostReadCc c l s = .next ((s.cc.get c).get l).toBits :=
  whenNotRunning_idle hs _

/-- A condition code that the host has written reads back, and every other cell is kept. -/
theorem hostWriteCc_effect {s : State} (hs : s.status ≠ .running) (c : Channel) (l : Lane)
    (code : BitVec 2) :
    ∃ t, hostWriteCc c l code s = .next t ∧ t = { s with cc := t.cc } ∧
      hostReadCc c l t = .next code ∧
      ∀ e k, (e, k) ≠ (c, l) → (t.cc.get e).get k = (s.cc.get e).get k := by
  refine ⟨_, whenNotRunning_idle hs _, rfl, ?_, fun e k hne => ?_⟩
  · rw [hostReadCc_next (by exact hs)]
    simp [CcCode.toBits_ofBits]
  · by_cases he : e = c
    · subst he
      have hk : k ≠ l := fun hk => hne (by rw [hk])
      simp [hk]
    · simp [he]

/-- A cell of a file without lanes after a write of one of its cells. -/
theorem CellMap.read_write_vector {m : CellMap} (h : m.wf = true) (i : Nat) (c : Channel) (v : Word)
    (j : Nat) (e : Channel) :
    (m.write (vectorCellNo i c) v).read (vectorCellNo j e) =
      if j = i ∧ e = c then v else m.read (vectorCellNo j e) := by
  simp only [CellMap.read_write m h, vectorCellNo_inj]

/-- A constant that the host has written is seen by every lane, and every other one is kept (R28). -/
theorem hostWriteConst_effect {s : State} (h : s.Inv) (hs : s.status ≠ .running) {i : Nat}
    (hi : i < s.cfg.numConstBufs * s.cfg.constStride) (c : Channel) (v : Word) :
    ∃ t, hostWriteConst i c v s = .next t ∧ t = { s with const := t.const } ∧
      ∀ j e k, t.readReg .const j e k = if j = i ∧ e = c then v else s.readReg .const j e k := by
  obtain ⟨-, -, -, -, -, hconst, -⟩ := (State.storageWf_iff s).mp h.storage_wf
  exact ⟨_, (whenNotRunning_idle hs _).trans (if_pos hi), rfl,
    fun j e _ => CellMap.read_write_vector hconst i c v j e⟩

/-- The host writes the three coefficients of one Input channel and keeps the others (R51). -/
theorem hostWriteCoef_effect {s : State} (h : s.Inv) (hs : s.status ≠ .running) {i : Nat}
    (hi : i < s.cfg.numInput) (c : Channel) (a dx dy : Word) :
    ∃ t, hostWriteCoef i c a dx dy s = .next t ∧
      t = { s with a0 := t.a0, dadx := t.dadx, dady := t.dady } ∧ ∀ j e,
        t.a0.read (vectorCellNo j e) =
          (if j = i ∧ e = c then a else s.a0.read (vectorCellNo j e)) ∧
        t.dadx.read (vectorCellNo j e) =
          (if j = i ∧ e = c then dx else s.dadx.read (vectorCellNo j e)) ∧
        t.dady.read (vectorCellNo j e) =
          (if j = i ∧ e = c then dy else s.dady.read (vectorCellNo j e)) := by
  obtain ⟨-, -, -, -, -, -, ha, hx, hy⟩ := (State.storageWf_iff s).mp h.storage_wf
  exact ⟨_, (whenNotRunning_idle hs _).trans (if_pos hi), rfl, fun j e =>
    ⟨CellMap.read_write_vector ha i c a j e, CellMap.read_write_vector hx i c dx j e,
      CellMap.read_write_vector hy i c dy j e⟩⟩

/-- Settles O60: the accesses one by one, each by its own lemma; during a Run all are refused. -/
theorem hostRegisterAccess : Obligations.HostRegisterAccess := by
  refine ⟨fun s f i c l v h => ?_, fun s i c l v a dx dy x y w code h => ?_⟩
  · simp only [← hostFile_iff]
    refine ⟨fun hs => ⟨whenNotRunning_running hs _, whenNotRunning_running hs _⟩, fun hs => ?_⟩
    refine ⟨fun hn => hostReg_refused hs hn c l v, fun ⟨hf, hi⟩ => ?_⟩
    exact ⟨hostReadReg_next hs hf hi c l, hostWriteReg_effect h hs hf hi c l v⟩
  · refine ⟨rfl, fun hs => ?_, fun hs => ?_⟩
    · exact ⟨whenNotRunning_running hs _, whenNotRunning_running hs _, whenNotRunning_running hs _,
        whenNotRunning_running hs _, whenNotRunning_running hs _⟩
    · refine ⟨fun hi => ?_, fun hi => hostWriteConst_effect h hs hi c v, ?_,
        hostWriteCc_effect hs c l code, whenNotRunning_idle hs _, fun hi => ?_,
        fun hi => hostWriteCoef_effect h hs hi c a dx dy⟩
      · exact (whenNotRunning_idle hs _).trans (if_neg (Nat.not_lt.mpr hi))
      · rw [hostReadCc_next hs]
        cases (s.cc.get c).get l <;> rfl
      · exact (whenNotRunning_idle hs _).trans (if_neg (Nat.not_lt.mpr hi))

/-! ### The reset state -/

theorem State.reset_inv : State.reset.Inv where
  cfg_wf := by decide
  storage_wf := by decide
  storage_bounded := by decide
  prog_fits := by decide
  pc_in_range _ h := by cases h
  status_agrees := by decide
  cond_depth := Nat.zero_le _
  loop_depth := Nat.zero_le _
  cont_depth := Nat.zero_le _
  call_depth := Nat.zero_le _
  func_depth := rfl
  ret_pc _ h := by cases h
  out_cursor := rfl

/-- With every stack empty the masks are nested. -/
theorem State.reset_masksNested : State.reset.MasksNested :=
  ⟨nested_nil _, nested_nil _, nested_nil _, nested_nil _⟩

/-- Settles O38: both invariants by their clauses, the values by evaluation. -/
theorem powerOnStateAndInvariant : Obligations.PowerOnStateAndInvariant :=
  ⟨State.reset_inv, State.reset_masksNested, by decide⟩

end Sys2Proof.Machine
end

section
/-! PROOFS. Lane isolation (spec/20_memory.md R68). What an instruction computes, stores and kills in a
lane is a function of what the two states of `AgreeInLane` share: resolution, Fetch and the final mask
first, then the commit and Kill, then the frames, and the instructions by their shapes. -/

namespace Sys2Proof.Machine

/-! ### What agreement in one lane gives that lane -/

section agree
variable {l : Lane} {s s' : State}

/-- A source that resolves in both states reads the same four channels in the lane: its register there
is found from ADDR of that lane alone (R126). -/
theorem AgreeInLane.fetchLane_eq (h : AgreeInLane l s s') {o : Src} {ra ra' : Quad Nat}
    (hra : s.resolveSrc o = some ra) (hra' : s'.resolveSrc o = some ra') :
    s.fetchLane o ra l = s'.fetchLane o ra' l := by
  have hreg : s.srcIndex o l = s'.srcIndex o l :=
    State.srcIndex_congr h.cfg h.prog (h.cell .addr 0) o
  rw [(s.resolveSrc_eq_some_iff o ra).mp hra l, (s'.resolveSrc_eq_some_iff o ra').mp hra' l] at hreg
  exact State.fetchLane_congr h.cell o (Option.some.inj hreg)

/-- A destination that resolves in both states is the same register in the lane. -/
theorem AgreeInLane.dstReg_eq (h : AgreeInLane l s s') {d : Dst} {rd rd' : Quad Nat}
    (hrd : s.resolveDst d = some rd) (hrd' : s'.resolveDst d = some rd') :
    rd.get l = rd'.get l := by
  have hreg : s.dstIndex d l = s'.dstIndex d l :=
    State.dstIndex_congr h.cfg h.prog (h.cell .addr 0) d
  rw [(s.resolveDst_eq_some_iff d rd).mp hrd l, (s'.resolveDst_eq_some_iff d rd').mp hrd' l] at hreg
  exact Option.some.inj hreg

/-- The predicate of a lane reads the condition codes of that lane (R135). -/
theorem AgreeInLane.ccPass_eq (h : AgreeInLane l s s') (m : Mods) (c : Channel) :
    s.ccPass m c l = s'.ccPass m c l := by
  unfold State.ccPass
  split
  · rfl
  · rw [h.code]

/-- The final mask has the lane in both states or in neither (R134). -/
theorem AgreeInLane.covers_eq (h : AgreeInLane l s s') (m : Mods) (d : Dst) (c : Channel) :
    s.covers m d c l = s'.covers m d c l := by
  simp only [State.covers, h.live, h.ccPass_eq]

theorem AgreeInLane.pcAt_eq (h : AgreeInLane l s s') (n : Nat) : s.pcAt n = s'.pcAt n := by
  simp only [State.pcAt, State.numInstr_congr h.prog]

/-! ### The state's operations keep the agreement -/

/-- The stores and condition codes of one instruction: the lane takes the same results under the same
mask in the same register (R133, R137). -/
theorem AgreeInLane.store (h : AgreeInLane l s s') {t t' : State} {i : Nat} {m : Mods} {d : Dst}
    {rd rd' : Quad Nat} {res res' : Results} (e : StoreEffect s t i m d rd res)
    (e' : StoreEffect s' t' i m d rd' res') (hrd : rd.get l = rd'.get l)
    (hres : ∀ c, res c l = res' c l) : AgreeInLane l t t' where
  cfg := by rw [e.rest, e'.rest]; exact h.cfg
  prog := by rw [e.rest, e'.rest]; exact h.prog
  pc := by rw [e.rest, e'.rest]; exact h.pcAt_eq (i + 1)
  cell f r c := by rw [e.cell, e'.cell, hrd, h.covers_eq, hres, h.cell]
  code c := by rw [e.code, e'.code, h.covers_eq, hres, h.code]
  live := by rw [e.rest, e'.rest]; exact h.live
  kill := by rw [e.rest, e'.rest]; exact h.kill

/-- Kill takes masks that have the lane in both states or in neither, and the pc moves alike (R320,
R321). -/
theorem AgreeInLane.addKill (h : AgreeInLane l s s') {k k' : LaneMask} (hk : k.has l = k'.has l)
    (n : Nat) :
    AgreeInLane l ({ s with kill := s.kill ||| k }.goto n)
      ({ s' with kill := s'.kill ||| k' }.goto n) where
  cfg := h.cfg
  prog := h.prog
  pc := h.pcAt_eq n
  cell f r c := by
    rw [State.goto_readReg, State.goto_readReg]
    exact h.cell f r c
  code := h.code
  live := h.live
  kill := by simp [h.kill, hk]

end agree

/-! ### What an instruction did that did not fault -/

section running
variable {s t : State} {i : Nat}

/-- A frame that leaves the Run going has committed. -/
theorem instrFrame_running {body : Nat → Except FatalCode State} (hpc : s.pc = .running i)
    (hx : instrFrame s body = .next t) (ht : t.status = .running) : body i = .ok t := by
  rcases instrFrame_cases hpc hx with hok | ⟨code, -, rfl⟩
  · exact hok
  · cases ht

/-- An instruction with a destination that leaves the Run going has resolved its operands and stored
its results. -/
theorem aluFrame_running {α : Type} {legal : Bool} {m : Mods} {d : Dst} {srcs : Option α}
    {res : α → Results} (hinv : s.Inv) (hpc : s.pc = .running i)
    (hl : legal = true → d.wellFormed = true) (hx : aluFrame s legal m d srcs res = .next t)
    (ht : t.status = .running) :
    ∃ ra rd, srcs = some ra ∧ s.resolveDst d = some rd ∧ StoreEffect s t i m d rd (res ra) := by
  rcases aluFrame_cases hpc hx with ⟨hlegal, ra, rd, hra, hrd, rfl⟩ | ⟨-, rfl⟩ | ⟨-, -, rfl⟩
  · exact ⟨ra, rd, hra, hrd, s.commit_effect hinv.storage_wf i m d (hl hlegal) rd (res ra)⟩
  · cases ht
  · cases ht

/-- KIL that leaves the Run going has resolved its operand and added the live lanes that ask for it
(R320). -/
theorem execKil_running {hd : HdrReserved} {a : Src} (hpc : s.pc = .running i)
    (hx : execKil hd a s = .next t) (ht : t.status = .running) :
    ∃ ra, s.resolveSrc a = some ra ∧
      t = { s with kill := s.kill ||| (LaneMask.ofLanes (fun k => killLane (s.fetchLane a ra k))
        &&& s.execMask) }.goto (i + 1) := by
  have hok := instrFrame_running hpc hx ht
  simp only at hok
  split_ifs at hok
  split at hok
  · next ra hra => exact ⟨ra, hra, (Except.ok.inj hok).symm⟩
  · cases hok

/-- KILP that leaves the Run going has added all live lanes, or none under CC_PRED (R321). -/
theorem execKilp_running {hd : HdrReserved} {p : Bool} (hpc : s.pc = .running i)
    (hx : execKilp hd p s = .next t) (ht : t.status = .running) :
    t = { s with kill := s.kill ||| (if p then 0 else s.execMask : LaneMask) }.goto (i + 1) := by
  have hok := instrFrame_running hpc hx ht
  simp only at hok
  split at hok
  · exact (Except.ok.inj hok).symm
  · cases hok

theorem legal1_dst {m : Mods} {d : Dst} {a : Src} (h : legal1 m d a = true) :
    d.wellFormed = true :=
  legal1_tex_dst (u := true) (by simpa using h)

theorem legal2_dst {m : Mods} {d : Dst} {a b : Src} (h : legal2 m d a b = true) :
    d.wellFormed = true :=
  legal1_tex_dst h

theorem legal3_dst {m : Mods} {d : Dst} {a b c : Src} (h : legal3 m d a b c = true) :
    d.wellFormed = true :=
  legal3_tex_dst (u := true) (by simpa using h)

end running

/-! ### Two runs of one instruction -/

section twoRuns
variable {l : Lane} {s s' t t' : State} {i : Nat} {m : Mods} {d : Dst}
  (h : AgreeInLane l s s') (hinv : s.Inv) (hinv' : s'.Inv) (hpc : s.pc = .running i)
  (ht : t.status = .running) (ht' : t'.status = .running)
include h hpc ht ht'

section stores
include hinv hinv'

/-- The frame of an instruction with a destination keeps the agreement when the results in the lane
are the same. -/
theorem AgreeInLane.aluFrame {α : Type} {legal : Bool} {srcs srcs' : Option α}
    {res res' : α → Results} (hl : legal = true → d.wellFormed = true)
    (hres : ∀ ra ra', srcs = some ra → srcs' = some ra' → ∀ c, res ra c l = res' ra' c l)
    (hx : Machine.aluFrame s legal m d srcs res = .next t)
    (hx' : Machine.aluFrame s' legal m d srcs' res' = .next t') : AgreeInLane l t t' := by
  obtain ⟨ra, rd, hra, hrd, e⟩ := aluFrame_running hinv hpc hl hx ht
  obtain ⟨ra', rd', hra', hrd', e'⟩ := aluFrame_running hinv' (h.pc ▸ hpc) hl hx' ht'
  exact h.store e e' (h.dstReg_eq hrd hrd') (hres ra ra' hra hra')

theorem AgreeInLane.alu1 {a : Src} {g : Micro1} (hx : Machine.alu1 m d a g s = .next t)
    (hx' : Machine.alu1 m d a g s' = .next t') : AgreeInLane l t t' := by
  refine h.aluFrame hinv hinv' hpc ht ht' legal1_dst (fun ra ra' hra hra' c => ?_) hx hx'
  simp only [State.results1, h.fetchLane_eq hra hra']

theorem AgreeInLane.alu2 {a b : Src} {g : Micro2} (hx : Machine.alu2 m d a b g s = .next t)
    (hx' : Machine.alu2 m d a b g s' = .next t') : AgreeInLane l t t' := by
  refine h.aluFrame hinv hinv' hpc ht ht' legal2_dst (fun r r' hr hr' ch => ?_) hx hx'
  obtain ⟨ha, hb⟩ := (s.resolveSrc2_eq_some_iff a b r).mp hr
  obtain ⟨ha', hb'⟩ := (s'.resolveSrc2_eq_some_iff a b r').mp hr'
  simp only [State.results2, h.fetchLane_eq ha ha', h.fetchLane_eq hb hb']

theorem AgreeInLane.alu3 {a b c : Src} {g : Micro3} (hx : Machine.alu3 m d a b c g s = .next t)
    (hx' : Machine.alu3 m d a b c g s' = .next t') : AgreeInLane l t t' := by
  refine h.aluFrame hinv hinv' hpc ht ht' legal3_dst (fun r r' hr hr' ch => ?_) hx hx'
  obtain ⟨ha, hb, hc⟩ := (s.resolveSrc3_eq_some_iff a b c r).mp hr
  obtain ⟨ha', hb', hc'⟩ := (s'.resolveSrc3_eq_some_iff a b c r').mp hr'
  simp only [State.results3, h.fetchLane_eq ha ha', h.fetchLane_eq hb hb', h.fetchLane_eq hc hc']

end stores

/-- KIL asks of a lane what that lane's components and ExecMask bit say (R320). -/
theorem AgreeInLane.execKil {hd : HdrReserved} {a : Src} (hx : Machine.execKil hd a s = .next t)
    (hx' : Machine.execKil hd a s' = .next t') : AgreeInLane l t t' := by
  obtain ⟨ra, hra, rfl⟩ := execKil_running hpc hx ht
  obtain ⟨ra', hra', rfl⟩ := execKil_running (h.pc ▸ hpc) hx' ht'
  exact h.addKill (by simp [h.fetchLane_eq hra hra', h.live]) (i + 1)

/-- KILP asks of a lane what that lane's ExecMask bit says (R321). -/
theorem AgreeInLane.execKilp {hd : HdrReserved} {p : Bool} (hx : Machine.execKilp hd p s = .next t)
    (hx' : Machine.execKilp hd p s' = .next t') : AgreeInLane l t t' := by
  obtain rfl := execKilp_running hpc hx ht
  obtain rfl := execKilp_running (h.pc ▸ hpc) hx' ht'
  refine h.addKill ?_ (i + 1)
  cases p
  · exact h.live
  · rfl

end twoRuns

/-- Settles O44: by the shape of the instruction; the micro-operation depends on the configuration,
which the two states share, and on the operands in the lane. -/
theorem lanesDoNotObserveEachOther : Obligations.LanesDoNotObserveEachOther := by
  intro s s' t t' i ins l hinv hinv' _ _ hpc htexture hnoflow h hx hx' ht ht'
  cases shape_of ins with
  | alu1 m d a g hexec =>
    rw [hexec] at hx hx'
    exact h.alu1 hinv hinv' hpc ht ht' hx (h.cfg ▸ hx')
  | alu2 m d a b g hexec =>
    rw [hexec] at hx hx'
    exact h.alu2 hinv hinv' hpc ht ht' hx (h.cfg ▸ hx')
  | alu3 m d a b c g hexec =>
    rw [hexec] at hx hx'
    exact h.alu3 hinv hinv' hpc ht ht' hx (h.cfg ▸ hx')
  | tex1 _ _ _ _ _ _ _ _ _ _ htex => simp [htex] at htexture
  | tex3 _ _ _ _ _ _ _ _ _ _ _ _ htex => simp [htex] at htexture
  | kil hd a heq =>
    subst heq
    exact h.execKil hpc ht ht' hx hx'
  | kilp hd p heq =>
    subst heq
    exact h.execKilp hpc ht ht' hx hx'
  | flow _ _ hflow => simp [hflow] at hnoflow

end Sys2Proof.Machine
end

section
/-! PROOFS. The encoding family (spec/30_encoding.md): a record as the fields of its words, the formats
of the opcode map, the round trips of records and bytes, and the unassigned opcodes. What is said of
the decoder and the encoder is derived from `format_of` and `reads_of_decode`. -/

namespace Sys2Proof
open Machine

/-! ### Code tables -/

@[simp] theorem RegFile.toBits_ofBits : ∀ b : BitVec 4, (RegFile.ofBits b).toBits = b := by decide

@[simp] theorem Channel.toBits_ofBits : ∀ b : BitVec 2, (Channel.ofBits b).toBits = b := by decide

@[simp] theorem Selector.toBits_ofBits : ∀ b : BitVec 3, (Selector.ofBits b).toBits = b := by
  decide

@[simp] theorem SignMode.toBits_ofBits : ∀ b : BitVec 2, (SignMode.ofBits b).toBits = b := by
  decide

@[simp] theorem SatMode.toBits_ofBits : ∀ b : BitVec 2, (SatMode.ofBits b).toBits = b := by decide

@[simp] theorem CcTest.toBits_ofBits : ∀ b : BitVec 3, (CcTest.ofBits b).toBits = b := by decide

@[simp] theorem TexTarget.toBits_ofBits : ∀ b : BitVec 3, (TexTarget.ofBits b).toBits = b := by
  decide

@[simp] theorem isSome_optChannel (e : Bool) (b : BitVec 2) : (optChannel e b).isSome = e := by
  cases e <;> rfl

theorem toBits_optChannel (e : Bool) (b : BitVec 2) :
    ((optChannel e b).getD .x).toBits = if e then b else 0 := by
  cases e
  · rfl
  · exact Channel.toBits_ofBits b

/-- A bit read as a Bool is the field of that one bit. -/
theorem ofBool_getLsbD (w : Word) (k : Nat) : BitVec.ofBool (w.getLsbD k) = w.extractLsb' k 1 := by
  ext i hi
  obtain rfl : i = 0 := by omega
  simp

/-! ### Operand word A and destination word B -/

/-- Operand word A is its six fields (R83). -/
theorem wordA_fields (a : Word) :
    a.extractLsb' 24 8 ++ a.extractLsb' 8 16 ++ a.extractLsb' 6 2 ++ a.extractLsb' 5 1
      ++ a.extractLsb' 4 1 ++ a.extractLsb' 0 4 = a := by
  simp (disch := decide) only [BitVec.extractLsb'_append_extractLsb'_eq_extractLsb',
    BitVec.extractLsb'_eq_self]

/-- The mask 0xFFFFFF3F clears the third field of operand word A, bits 7:6. -/
theorem catA_and_mask (r : BitVec 8) (x : BitVec 16) (c : BitVec 2) (d i : BitVec 1) (f : BitVec 4) :
    (r ++ x ++ c ++ d ++ i ++ f) &&& 0xFFFFFF3F = r ++ x ++ 0#2 ++ d ++ i ++ f := by
  have hmask : (0xFFFFFF3F : BitVec (8 + 16 + 2 + 1 + 1 + 4)) = BitVec.allOnes 8
      ++ BitVec.allOnes 16 ++ 0#2 ++ BitVec.allOnes 1 ++ BitVec.allOnes 1 ++ BitVec.allOnes 4 := by
    decide
  simp only [hmask, BitVec.and_append, BitVec.and_allOnes, BitVec.and_zero]

/-- `relevantA` clears IND_CHAN, bits 7:6, when IND = 0 (R103). -/
theorem relevantA_fields (a : Word) : relevantA a =
    a.extractLsb' 24 8 ++ a.extractLsb' 8 16 ++ (if a.getLsbD 4 then a.extractLsb' 6 2 else 0)
      ++ a.extractLsb' 5 1 ++ a.extractLsb' 4 1 ++ a.extractLsb' 0 4 := by
  unfold relevantA
  split
  · exact (wordA_fields a).symm
  · exact (congrArg (· &&& (0xFFFFFF3F : Word)) (wordA_fields a).symm).trans (catA_and_mask ..)

theorem encodeDstA_decodeDst (a b : Word) : encodeDstA (decodeDst a b) = relevantA a := by
  simp only [encodeDstA, decodeDst, encodeA, relevantA_fields, toBits_optChannel,
    isSome_optChannel, ofBool_getLsbD, RegFile.toBits_ofBits]

theorem isSome_decodeSrc_dim (a b : Word) : (decodeSrc a b).dim.isSome = a.getLsbD 5 := by
  unfold decodeSrc
  cases a.getLsbD 5 <;> rfl

theorem encodeSrcA_decodeSrc (a b : Word) : encodeSrcA (decodeSrc a b) = relevantA a := by
  rw [encodeSrcA, isSome_decodeSrc_dim]
  simp only [decodeSrc, encodeA, relevantA_fields, toBits_optChannel, isSome_optChannel,
    ofBool_getLsbD, RegFile.toBits_ofBits]

theorem encodeDstB_decodeDst (a b : Word) : encodeDstB (decodeDst a b) = b := by
  simp (disch := decide) only [encodeDstB, decodeDst,
    BitVec.extractLsb'_append_extractLsb'_eq_extractLsb', BitVec.extractLsb'_eq_self]

/-! ### Source operand word B -/

/-- Source operand word B is its ten fields (R84). -/
theorem wordB_fields (b : Word) :
    b.extractLsb' 20 12 ++ b.extractLsb' 18 2 ++ b.extractLsb' 16 2 ++ b.extractLsb' 15 1
      ++ b.extractLsb' 14 1 ++ b.extractLsb' 12 2 ++ b.extractLsb' 9 3 ++ b.extractLsb' 6 3
      ++ b.extractLsb' 3 3 ++ b.extractLsb' 0 3 = b := by
  simp (disch := decide) only [BitVec.extractLsb'_append_extractLsb'_eq_extractLsb',
    BitVec.extractLsb'_eq_self]

section wordB
variable (x : BitVec 12) (r c : BitVec 2) (i n : BitVec 1) (g : BitVec 2)
  (sw sz sy sx : BitVec 3)

/-- The mask 0xFFFCFFFF clears DIM_IND_CHAN, bits 17:16. -/
theorem catB_and_dimIndMask :
    (x ++ r ++ c ++ i ++ n ++ g ++ sw ++ sz ++ sy ++ sx) &&& 0xFFFCFFFF =
      x ++ r ++ 0#2 ++ i ++ n ++ g ++ sw ++ sz ++ sy ++ sx := by
  have hmask : (0xFFFCFFFF : BitVec (12 + 2 + 2 + 1 + 1 + 2 + 3 + 3 + 3 + 3)) =
      BitVec.allOnes 12 ++ BitVec.allOnes 2 ++ 0#2 ++ BitVec.allOnes 1 ++ BitVec.allOnes 1
        ++ BitVec.allOnes 2 ++ BitVec.allOnes 3 ++ BitVec.allOnes 3 ++ BitVec.allOnes 3
        ++ BitVec.allOnes 3 := by decide
  simp only [hmask, BitVec.and_append, BitVec.and_allOnes, BitVec.and_zero]

/-- The mask 0x000C7FFF clears DIM_INDEX, DIM_IND_CHAN and DIM_IND, bits 31:20 and 17:15. -/
theorem catB_and_dimMask :
    (x ++ r ++ c ++ i ++ n ++ g ++ sw ++ sz ++ sy ++ sx) &&& 0x000C7FFF =
      0#12 ++ r ++ 0#2 ++ 0#1 ++ n ++ g ++ sw ++ sz ++ sy ++ sx := by
  have hmask : (0x000C7FFF : BitVec (12 + 2 + 2 + 1 + 1 + 2 + 3 + 3 + 3 + 3)) =
      0#12 ++ BitVec.allOnes 2 ++ 0#2 ++ 0#1 ++ BitVec.allOnes 1
        ++ BitVec.allOnes 2 ++ BitVec.allOnes 3 ++ BitVec.allOnes 3 ++ BitVec.allOnes 3
        ++ BitVec.allOnes 3 := by decide
  simp only [hmask, BitVec.and_append, BitVec.and_allOnes, BitVec.and_zero]

end wordB

/-- Word B of a decoded source: without DIM the second-dimension fields are 0, and with it
DIM_IND_CHAN is 0 unless DIM_IND is 1 (R84, R103). -/
theorem encodeSrcB_decodeSrc (a b : Word) : encodeSrcB (decodeSrc a b) = relevantB a b := by
  have hb := wordB_fields b
  unfold relevantB
  simp only [encodeSrcB, decodeSrc, Selector.toBits_ofBits, SignMode.toBits_ofBits, ofBool_getLsbD]
  cases hdim : a.getLsbD 5 with
  | false => exact ((congrArg (· &&& (0x000C7FFF : Word)) hb.symm).trans (catB_and_dimMask ..)).symm
  | true =>
    simp only [if_true, Option.getD_some, toBits_optChannel, isSome_optChannel, ofBool_getLsbD]
    cases hind : b.getLsbD 15 with
    | false =>
      exact ((congrArg (· &&& (0xFFFCFFFF : Word)) hb.symm).trans (catB_and_dimIndMask ..)).symm
    | true => exact hb

/-! ### The header -/

/-- HDR is its twelve fields (R81). -/
theorem wordHdr_fields (w : Word) :
    w.extractLsb' 30 2 ++ w.extractLsb' 26 4 ++ w.extractLsb' 23 3 ++ w.extractLsb' 21 2
      ++ w.extractLsb' 19 2 ++ w.extractLsb' 17 2 ++ w.extractLsb' 15 2 ++ w.extractLsb' 12 3
      ++ w.extractLsb' 11 1 ++ w.extractLsb' 10 1 ++ w.extractLsb' 8 2 ++ w.extractLsb' 0 8
      = w := by
  simp (disch := decide) only [BitVec.extractLsb'_append_extractLsb'_eq_extractLsb',
    BitVec.extractLsb'_eq_self]

section wordHdr
variable (r : BitVec 2) (u : BitVec 4) (t : BitVec 3) (pw pz py px : BitVec 2) (e : BitVec 3)
  (p k : BitVec 1) (a : BitVec 2) (op : BitVec 8)

/-- The mask 0xC07FFFFF clears TEX_TARGET and SAMPLER. -/
theorem catHdr_and_texMask :
    (r ++ u ++ t ++ pw ++ pz ++ py ++ px ++ e ++ p ++ k ++ a ++ op) &&& 0xC07FFFFF =
      r ++ 0#4 ++ 0#3 ++ pw ++ pz ++ py ++ px ++ e ++ p ++ k ++ a ++ op := by
  have hmask : (0xC07FFFFF : BitVec (2 + 4 + 3 + 2 + 2 + 2 + 2 + 3 + 1 + 1 + 2 + 8)) =
      BitVec.allOnes 2 ++ 0#4 ++ 0#3 ++ BitVec.allOnes 2 ++ BitVec.allOnes 2 ++ BitVec.allOnes 2
        ++ BitVec.allOnes 2 ++ BitVec.allOnes 3 ++ BitVec.allOnes 1 ++ BitVec.allOnes 1
        ++ BitVec.allOnes 2 ++ BitVec.allOnes 8 := by decide
  simp only [hmask, BitVec.and_append, BitVec.and_allOnes, BitVec.and_zero]

/-- The mask 0xC0000FFF clears the fields of `catHdr_and_texMask`, CC_TEST and CC_SWZ. -/
theorem catHdr_and_ccMask :
    (r ++ u ++ t ++ pw ++ pz ++ py ++ px ++ e ++ p ++ k ++ a ++ op) &&& 0xC0000FFF =
      r ++ 0#4 ++ 0#3 ++ 0#2 ++ 0#2 ++ 0#2 ++ 0#2 ++ 0#3 ++ p ++ k ++ a ++ op := by
  have hmask : (0xC0000FFF : BitVec (2 + 4 + 3 + 2 + 2 + 2 + 2 + 3 + 1 + 1 + 2 + 8)) =
      BitVec.allOnes 2 ++ 0#4 ++ 0#3 ++ 0#2 ++ 0#2 ++ 0#2 ++ 0#2 ++ 0#3 ++ BitVec.allOnes 1
        ++ BitVec.allOnes 1 ++ BitVec.allOnes 2 ++ BitVec.allOnes 8 := by decide
  simp only [hmask, BitVec.and_append, BitVec.and_allOnes, BitVec.and_zero]

/-- The mask 0x3F800000 keeps TEX_TARGET and SAMPLER only. -/
theorem catHdr_and_texOnlyMask :
    (r ++ u ++ t ++ pw ++ pz ++ py ++ px ++ e ++ p ++ k ++ a ++ op) &&& 0x3F800000 =
      0#2 ++ u ++ t ++ 0#2 ++ 0#2 ++ 0#2 ++ 0#2 ++ 0#3 ++ 0#1 ++ 0#1 ++ 0#2 ++ 0#8 := by
  have hmask : (0x3F800000 : BitVec (2 + 4 + 3 + 2 + 2 + 2 + 2 + 3 + 1 + 1 + 2 + 8)) =
      0#2 ++ BitVec.allOnes 4 ++ BitVec.allOnes 3 ++ 0#2 ++ 0#2 ++ 0#2 ++ 0#2 ++ 0#3 ++ 0#1 ++ 0#1
        ++ 0#2 ++ 0#8 := by decide
  simp only [hmask, BitVec.and_append, BitVec.and_allOnes, BitVec.and_zero]

/-- Putting TEX_TARGET and SAMPLER back into a header without them. -/
theorem catHdr_or_tex :
    ((r ++ 0#4 ++ 0#3 ++ pw ++ pz ++ py ++ px ++ e ++ p ++ k ++ a ++ op) |||
      (0#2 ++ u ++ t ++ 0#2 ++ 0#2 ++ 0#2 ++ 0#2 ++ 0#3 ++ 0#1 ++ 0#1 ++ 0#2 ++ 0#8)) =
      r ++ u ++ t ++ pw ++ pz ++ py ++ px ++ e ++ p ++ k ++ a ++ op := by
  simp only [BitVec.or_append, BitVec.or_zero, BitVec.zero_or]

end wordHdr

/-- A decoded header without a texture selection: CC_TEST and CC_SWZ are 0 unless CC_PRED is 1, and
TEX_TARGET and SAMPLER are 0 (R81, R103). -/
theorem encodeHdr_decodeMods_noTex (w : Word) :
    encodeHdr (w.extractLsb' 0 8) noTex (decodeMods w) =
      w &&& (if w.getLsbD 11 then 0xC07FFFFF else 0xC0000FFF) := by
  have hw := wordHdr_fields w
  simp only [encodeHdr, decodeMods, ofBool_getLsbD, SatMode.toBits_ofBits]
  cases hcc : w.getLsbD 11 with
  | false =>
    refine Eq.trans ?_ ((congrArg (· &&& (0xC0000FFF : Word)) hw.symm).trans
      (catHdr_and_ccMask ..)).symm
    rw [← ofBool_getLsbD w 11, hcc]
    rfl
  | true =>
    refine Eq.trans ?_ ((congrArg (· &&& (0xC07FFFFF : Word)) hw.symm).trans
      (catHdr_and_texMask ..)).symm
    simp only [if_true, Option.getD_some, Channel.toBits_ofBits, CcTest.toBits_ofBits]
    rw [← ofBool_getLsbD w 11, hcc]
    rfl

/-- A texture selection adds its two fields to the header without one. -/
theorem encodeHdr_tex (op : BitVec 8) (t : TexSel) (m : Mods) :
    encodeHdr op t m = encodeHdr op noTex m |||
      (0#2 ++ t.sampler ++ t.target.toBits ++ 0#2 ++ 0#2 ++ 0#2 ++ 0#2 ++ 0#3 ++ 0#1 ++ 0#1 ++ 0#2
        ++ 0#8) :=
  (catHdr_or_tex ..).symm

theorem encodeHdr_decodeMods_tex (w : Word) :
    encodeHdr (w.extractLsb' 0 8) (decodeTexSel w) (decodeMods w) = relevantHdr true w := by
  rw [encodeHdr_tex, encodeHdr_decodeMods_noTex, decodeTexSel, TexTarget.toBits_ofBits]
  exact congrArg (w &&& (if w.getLsbD 11 then 0xC07FFFFF else 0xC0000FFF) ||| ·)
    ((congrArg (· &&& (0x3F800000 : Word)) (wordHdr_fields w).symm).trans
      (catHdr_and_texOnlyMask ..)).symm

theorem relevantHdr_false (w : Word) :
    relevantHdr false w = w &&& (if w.getLsbD 11 then 0xC07FFFFF else 0xC0000FFF) :=
  BitVec.or_zero

/-- HDR of an instruction without a destination is five fields. -/
theorem wordPlain_fields (w : Word) :
    w.extractLsb' 30 2 ++ w.extractLsb' 12 18 ++ w.extractLsb' 11 1 ++ w.extractLsb' 8 3
      ++ w.extractLsb' 0 8 = w := by
  simp (disch := decide) only [BitVec.extractLsb'_append_extractLsb'_eq_extractLsb',
    BitVec.extractLsb'_eq_self]

/-- The mask 0xC00008FF keeps the reserved bits, CC_PRED and OPCODE. -/
theorem catPlain_and_kilpMask (h : BitVec 2) (z : BitVec 18) (p : BitVec 1) (y : BitVec 3)
    (op : BitVec 8) : (h ++ z ++ p ++ y ++ op) &&& 0xC00008FF = h ++ 0#18 ++ p ++ 0#3 ++ op := by
  have hmask : (0xC00008FF : BitVec (2 + 18 + 1 + 3 + 8)) =
      BitVec.allOnes 2 ++ 0#18 ++ BitVec.allOnes 1 ++ 0#3 ++ BitVec.allOnes 8 := by decide
  simp only [hmask, BitVec.and_append, BitVec.and_allOnes, BitVec.and_zero]

/-- The mask 0xC00000FF keeps the reserved bits and OPCODE. -/
theorem catPlain_and_plainMask (h : BitVec 2) (z : BitVec 18) (p : BitVec 1) (y : BitVec 3)
    (op : BitVec 8) : (h ++ z ++ p ++ y ++ op) &&& 0xC00000FF = h ++ 0#18 ++ 0#1 ++ 0#3 ++ op := by
  have hmask : (0xC00000FF : BitVec (2 + 18 + 1 + 3 + 8)) =
      BitVec.allOnes 2 ++ 0#18 ++ 0#1 ++ 0#3 ++ BitVec.allOnes 8 := by decide
  simp only [hmask, BitVec.and_append, BitVec.and_allOnes, BitVec.and_zero]

theorem encodeHdrPlain_false (w : Word) :
    encodeHdrPlain (w.extractLsb' 0 8) (w.extractLsb' 30 2) false = w &&& 0xC00000FF :=
  ((congrArg (· &&& (0xC00000FF : Word)) (wordPlain_fields w).symm).trans
    (catPlain_and_plainMask ..)).symm

theorem encodeHdrPlain_ccPred (w : Word) :
    encodeHdrPlain (w.extractLsb' 0 8) (w.extractLsb' 30 2) (w.getLsbD 11) = w &&& 0xC00008FF := by
  rw [encodeHdrPlain, ofBool_getLsbD]
  exact ((congrArg (· &&& (0xC00008FF : Word)) (wordPlain_fields w).symm).trans
    (catPlain_and_kilpMask ..)).symm

/-! ### The slots of an instruction's record -/

/-- What an instruction without operands uses of its record: the reserved bits and OPCODE. -/
def relevantFlow (r : Record) : Record := ⟨r.w0 &&& 0xC00000FF, 0, 0, 0, 0, 0, 0, 0, 0, 0⟩

/-- What KIL and IF use of their record. -/
def relevantSrcOnly (r : Record) : Record :=
  ⟨r.w0 &&& 0xC00000FF, 0, 0, 0, relevantA r.w4, relevantB r.w4 r.w5, 0, 0, 0, 0⟩

/-- What an instruction with a destination and one source uses of its record. -/
def relevantAlu1 (texture : Bool) (r : Record) : Record :=
  ⟨relevantHdr texture r.w0, 0, relevantA r.w2, r.w3, relevantA r.w4, relevantB r.w4 r.w5, 0, 0,
    0, 0⟩

/-- What an instruction with a destination and two sources uses of its record. -/
def relevantAlu2 (r : Record) : Record :=
  ⟨relevantHdr false r.w0, 0, relevantA r.w2, r.w3, relevantA r.w4, relevantB r.w4 r.w5,
    relevantA r.w6, relevantB r.w6 r.w7, 0, 0⟩

/-- What an instruction with a destination and three sources uses of its record. -/
def relevantAlu3 (texture : Bool) (r : Record) : Record :=
  ⟨relevantHdr texture r.w0, 0, relevantA r.w2, r.w3, relevantA r.w4, relevantB r.w4 r.w5,
    relevantA r.w6, relevantB r.w6 r.w7, relevantA r.w8, relevantB r.w8 r.w9⟩

section slots
variable (r : Record)

theorem encodeHdr_noTex_slots : encodeHdr r.opcode noTex r.mods = relevantHdr false r.w0 :=
  (encodeHdr_decodeMods_noTex r.w0).trans (relevantHdr_false r.w0).symm

theorem encodeHdr_tex_slots : encodeHdr r.opcode r.texSel r.mods = relevantHdr true r.w0 :=
  encodeHdr_decodeMods_tex r.w0

theorem encodeFlow_slots : encodeFlow r.opcode r.hdrReserved false 0 = relevantFlow r :=
  congrArg (Record.mk · 0 0 0 0 0 0 0 0 0) (encodeHdrPlain_false r.w0)

theorem encodeSrcOnly_slots : encodeSrcOnly r.opcode r.hdrReserved r.src0 = relevantSrcOnly r := by
  simp only [encodeSrcOnly, relevantSrcOnly, Record.src0, encodeSrcA_decodeSrc,
    encodeSrcB_decodeSrc, ← encodeHdrPlain_false, Record.opcode, Record.hdrReserved]

theorem encodeAlu1_slots :
    encodeAlu1 r.opcode noTex r.mods r.dst r.src0 = relevantAlu1 false r := by
  simp only [encodeAlu1, relevantAlu1, Record.dst, Record.src0, encodeHdr_noTex_slots,
    encodeDstA_decodeDst, encodeDstB_decodeDst, encodeSrcA_decodeSrc, encodeSrcB_decodeSrc]

theorem encodeTex1_slots :
    encodeAlu1 r.opcode r.texSel r.mods r.dst r.src0 = relevantAlu1 true r := by
  simp only [encodeAlu1, relevantAlu1, Record.dst, Record.src0, encodeHdr_tex_slots,
    encodeDstA_decodeDst, encodeDstB_decodeDst, encodeSrcA_decodeSrc, encodeSrcB_decodeSrc]

theorem encodeAlu2_slots :
    encodeAlu2 r.opcode noTex r.mods r.dst r.src0 r.src1 = relevantAlu2 r := by
  simp only [encodeAlu2, relevantAlu2, Record.dst, Record.src0, Record.src1, encodeHdr_noTex_slots,
    encodeDstA_decodeDst, encodeDstB_decodeDst, encodeSrcA_decodeSrc, encodeSrcB_decodeSrc]

theorem encodeAlu3_slots :
    encodeAlu3 r.opcode noTex r.mods r.dst r.src0 r.src1 r.src2 = relevantAlu3 false r := by
  simp only [encodeAlu3, relevantAlu3, Record.dst, Record.src0, Record.src1, Record.src2,
    encodeHdr_noTex_slots, encodeDstA_decodeDst, encodeDstB_decodeDst, encodeSrcA_decodeSrc,
    encodeSrcB_decodeSrc]

theorem encodeTex3_slots :
    encodeAlu3 r.opcode r.texSel r.mods r.dst r.src0 r.src1 r.src2 = relevantAlu3 true r := by
  simp only [encodeAlu3, relevantAlu3, Record.dst, Record.src0, Record.src1, Record.src2,
    encodeHdr_tex_slots, encodeDstA_decodeDst, encodeDstB_decodeDst, encodeSrcA_decodeSrc,
    encodeSrcB_decodeSrc]

end slots

/-! ### The formats of the opcode map -/

/-- `mk` gives the instructions of opcode `op`, which have no operands (R93, R100). -/
structure IsFlow (op : BitVec 8) (mk : HdrReserved → Instr) : Prop where
  decode_eq : ∀ r : Record, r.opcode = op → decode r = .ok (mk r.hdrReserved) := by
    intro r h; unfold decode; rw [h]; rfl
  encode_eq : ∀ h, encode (mk h) = encodeFlow op h false 0 := by intros; rfl
  relevant_eq : ∀ r h, relevantRecord r (mk h) = relevantFlow r := by intros; rfl
  wellFormed_eq : ∀ cfg n h, (mk h).wellFormed cfg n = hdrWellFormed h := by intros; rfl
  uses_eq : ∀ h, (mk h).dst?.isSome = false ∧ (mk h).srcs.length = 0 ∧ (mk h).isTexture = false := by
    intros; exact ⟨rfl, rfl, rfl⟩
  no_label : op ≠ 0x7C ∧ op ≠ 0x7F := by decide

/-- `mk` gives the instructions of opcode `op`, which have one source and no destination. -/
structure IsSrcOnly (op : BitVec 8) (mk : HdrReserved → Src → Instr) : Prop where
  decode_eq : ∀ r : Record, r.opcode = op → decode r = .ok (mk r.hdrReserved r.src0) := by
    intro r h; unfold decode; rw [h]; rfl
  encode_eq : ∀ h a, encode (mk h a) = encodeSrcOnly op h a := by intros; rfl
  relevant_eq : ∀ r h a, relevantRecord r (mk h a) = relevantSrcOnly r := by intros; rfl
  wellFormed_eq : ∀ cfg n h a,
    (mk h a).wellFormed cfg n = (hdrWellFormed h && a.wellFormed) := by intros; rfl
  uses_eq : ∀ h a, (mk h a).dst?.isSome = false ∧ (mk h a).srcs.length = 1 ∧
    (mk h a).isTexture = false := by intros; exact ⟨rfl, rfl, rfl⟩
  no_label : op ≠ 0x7C ∧ op ≠ 0x7F := by decide

/-- `mk` gives the instructions of opcode `op`, which have a destination and one source. -/
structure IsAlu1 (op : BitVec 8) (mk : Mods → Dst → Src → Instr) : Prop where
  decode_eq : ∀ r : Record, r.opcode = op → decode r = .ok (mk r.mods r.dst r.src0) := by
    intro r h; unfold decode; rw [h]; rfl
  encode_eq : ∀ m d a, encode (mk m d a) = encodeAlu1 op noTex m d a := by intros; rfl
  relevant_eq : ∀ r m d a, relevantRecord r (mk m d a) = relevantAlu1 false r := by intros; rfl
  wellFormed_eq : ∀ cfg n m d a,
    (mk m d a).wellFormed cfg n = (m.wellFormed && d.wellFormed && a.wellFormed) := by intros; rfl
  uses_eq : ∀ m d a, (mk m d a).dst?.isSome = true ∧ (mk m d a).srcs.length = 1 ∧
    (mk m d a).isTexture = false := by intros; exact ⟨rfl, rfl, rfl⟩
  no_label : op ≠ 0x7C ∧ op ≠ 0x7F := by decide

/-- `mk` gives the instructions of opcode `op`, which have a destination and two sources. -/
structure IsAlu2 (op : BitVec 8) (mk : Mods → Dst → Src → Src → Instr) : Prop where
  decode_eq : ∀ r : Record, r.opcode = op → decode r = .ok (mk r.mods r.dst r.src0 r.src1) := by
    intro r h; unfold decode; rw [h]; rfl
  encode_eq : ∀ m d a b, encode (mk m d a b) = encodeAlu2 op noTex m d a b := by intros; rfl
  relevant_eq : ∀ r m d a b, relevantRecord r (mk m d a b) = relevantAlu2 r := by intros; rfl
  wellFormed_eq : ∀ cfg n m d a b, (mk m d a b).wellFormed cfg n =
    (m.wellFormed && d.wellFormed && a.wellFormed && b.wellFormed) := by intros; rfl
  uses_eq : ∀ m d a b, (mk m d a b).dst?.isSome = true ∧ (mk m d a b).srcs.length = 2 ∧
    (mk m d a b).isTexture = false := by intros; exact ⟨rfl, rfl, rfl⟩
  no_label : op ≠ 0x7C ∧ op ≠ 0x7F := by decide

/-- `mk` gives the instructions of opcode `op`, which have a destination and three sources. -/
structure IsAlu3 (op : BitVec 8) (mk : Mods → Dst → Src → Src → Src → Instr) : Prop where
  decode_eq : ∀ r : Record, r.opcode = op →
      decode r = .ok (mk r.mods r.dst r.src0 r.src1 r.src2) := by
    intro r h; unfold decode; rw [h]; rfl
  encode_eq : ∀ m d a b c, encode (mk m d a b c) = encodeAlu3 op noTex m d a b c := by intros; rfl
  relevant_eq : ∀ r m d a b c, relevantRecord r (mk m d a b c) = relevantAlu3 false r := by
    intros; rfl
  wellFormed_eq : ∀ cfg n m d a b c, (mk m d a b c).wellFormed cfg n =
    (m.wellFormed && d.wellFormed && a.wellFormed && b.wellFormed && c.wellFormed) := by
    intros; rfl
  uses_eq : ∀ m d a b c, (mk m d a b c).dst?.isSome = true ∧ (mk m d a b c).srcs.length = 3 ∧
    (mk m d a b c).isTexture = false := by intros; exact ⟨rfl, rfl, rfl⟩
  no_label : op ≠ 0x7C ∧ op ≠ 0x7F := by decide

/-- `mk` gives the texture instructions of opcode `op`, which have one source (R310). -/
structure IsTex1 (op : BitVec 8) (mk : Mods → TexSel → Dst → Src → Instr) : Prop where
  decode_eq : ∀ r : Record, r.opcode = op → decode r = .ok (mk r.mods r.texSel r.dst r.src0) := by
    intro r h; unfold decode; rw [h]; rfl
  encode_eq : ∀ m t d a, encode (mk m t d a) = encodeAlu1 op t m d a := by intros; rfl
  relevant_eq : ∀ r m t d a, relevantRecord r (mk m t d a) = relevantAlu1 true r := by intros; rfl
  wellFormed_eq : ∀ cfg n m t d a, (mk m t d a).wellFormed cfg n =
    (m.wellFormed && t.wellFormed cfg.numSamplers && d.wellFormed && a.wellFormed) := by intros; rfl
  uses_eq : ∀ m t d a, (mk m t d a).dst?.isSome = true ∧ (mk m t d a).srcs.length = 1 ∧
    (mk m t d a).isTexture = true := by intros; exact ⟨rfl, rfl, rfl⟩
  no_label : op ≠ 0x7C ∧ op ≠ 0x7F := by decide

/-- `mk` gives the texture instructions of opcode `op`, which have three sources (R317). -/
structure IsTex3 (op : BitVec 8) (mk : Mods → TexSel → Dst → Src → Src → Src → Instr) : Prop where
  decode_eq : ∀ r : Record, r.opcode = op →
      decode r = .ok (mk r.mods r.texSel r.dst r.src0 r.src1 r.src2) := by
    intro r h; unfold decode; rw [h]; rfl
  encode_eq : ∀ m t d a b c, encode (mk m t d a b c) = encodeAlu3 op t m d a b c := by intros; rfl
  relevant_eq : ∀ r m t d a b c, relevantRecord r (mk m t d a b c) = relevantAlu3 true r := by
    intros; rfl
  wellFormed_eq : ∀ cfg n m t d a b c, (mk m t d a b c).wellFormed cfg n =
    (m.wellFormed && t.wellFormed cfg.numSamplers && d.wellFormed && a.wellFormed && b.wellFormed
      && c.wellFormed) := by intros; rfl
  uses_eq : ∀ m t d a b c, (mk m t d a b c).dst?.isSome = true ∧ (mk m t d a b c).srcs.length = 3 ∧
    (mk m t d a b c).isTexture = true := by intros; exact ⟨rfl, rfl, rfl⟩
  no_label : op ≠ 0x7C ∧ op ≠ 0x7F := by decide

/-- The format of an instruction: its opcode and the slots of its record. -/
inductive Format : Instr → Prop
  | flow (op : BitVec 8) (mk : HdrReserved → Instr) (hop : IsFlow op mk) (h : HdrReserved) :
    Format (mk h)
  | srcOnly (op : BitVec 8) (mk : HdrReserved → Src → Instr) (hop : IsSrcOnly op mk)
    (h : HdrReserved) (a : Src) : Format (mk h a)
  | alu1 (op : BitVec 8) (mk : Mods → Dst → Src → Instr) (hop : IsAlu1 op mk) (m : Mods) (d : Dst)
    (a : Src) : Format (mk m d a)
  | alu2 (op : BitVec 8) (mk : Mods → Dst → Src → Src → Instr) (hop : IsAlu2 op mk) (m : Mods)
    (d : Dst) (a b : Src) : Format (mk m d a b)
  | alu3 (op : BitVec 8) (mk : Mods → Dst → Src → Src → Src → Instr) (hop : IsAlu3 op mk) (m : Mods)
    (d : Dst) (a b c : Src) : Format (mk m d a b c)
  | tex1 (op : BitVec 8) (mk : Mods → TexSel → Dst → Src → Instr) (hop : IsTex1 op mk) (m : Mods)
    (t : TexSel) (d : Dst) (a : Src) : Format (mk m t d a)
  | tex3 (op : BitVec 8) (mk : Mods → TexSel → Dst → Src → Src → Src → Instr) (hop : IsTex3 op mk)
    (m : Mods) (t : TexSel) (d : Dst) (a b c : Src) : Format (mk m t d a b c)
  | kilp (h : HdrReserved) (p : Bool) : Format (.kilp h p)
  | endloop (h : HdrReserved) (label : Word) : Format (.endloop h label)
  | cal (h : HdrReserved) (label : Word) : Format (.cal h label)

/-- Every instruction has a format; the table is the opcode map (R100). -/
theorem format_of (ins : Instr) : Format ins := by
  cases ins with
  | nop h => exact .flow 0x00 .nop {} h
  | mov m d a => exact .alu1 0x01 .mov {} m d a
  | add m d a b => exact .alu2 0x10 .add {} m d a b
  | sub m d a b => exact .alu2 0x11 .sub {} m d a b
  | mul m d a b => exact .alu2 0x12 .mul {} m d a b
  | div m d a b => exact .alu2 0x13 .div {} m d a b
  | neg m d a => exact .alu1 0x14 .neg {} m d a
  | rcp m d a => exact .alu1 0x15 .rcp {} m d a
  | rsq m d a => exact .alu1 0x16 .rsq {} m d a
  | pow m d a b => exact .alu2 0x17 .pow {} m d a b
  | ex2 m d a => exact .alu1 0x18 .ex2 {} m d a
  | lg2 m d a => exact .alu1 0x19 .lg2 {} m d a
  | mad m d a b c => exact .alu3 0x1A .mad {} m d a b c
  | lrp m d a b c => exact .alu3 0x1B .lrp {} m d a b c
  | min m d a b => exact .alu2 0x1C .min {} m d a b
  | max m d a b => exact .alu2 0x1D .max {} m d a b
  | flr m d a => exact .alu1 0x20 .flr {} m d a
  | ceil m d a => exact .alu1 0x21 .ceil {} m d a
  | round m d a => exact .alu1 0x22 .round {} m d a
  | trunc m d a => exact .alu1 0x23 .trunc {} m d a
  | frc m d a => exact .alu1 0x24 .frc {} m d a
  | slt m d a b => exact .alu2 0x28 .slt {} m d a b
  | sle m d a b => exact .alu2 0x29 .sle {} m d a b
  | sge m d a b => exact .alu2 0x2A .sge {} m d a b
  | seq m d a b => exact .alu2 0x2B .seq {} m d a b
  | sne m d a b => exact .alu2 0x2C .sne {} m d a b
  | cmp m d a b c => exact .alu3 0x2E .cmp {} m d a b c
  | movc m d a b c => exact .alu3 0x2F .movc {} m d a b c
  | iadd m d a b => exact .alu2 0x30 .iadd {} m d a b
  | isub m d a b => exact .alu2 0x31 .isub {} m d a b
  | imul m d a b => exact .alu2 0x32 .imul {} m d a b
  | idiv m d a b => exact .alu2 0x33 .idiv {} m d a b
  | udiv m d a b => exact .alu2 0x34 .udiv {} m d a b
  | imod m d a b => exact .alu2 0x35 .imod {} m d a b
  | umod m d a b => exact .alu2 0x36 .umod {} m d a b
  | imin m d a b => exact .alu2 0x37 .imin {} m d a b
  | imax m d a b => exact .alu2 0x38 .imax {} m d a b
  | umin m d a b => exact .alu2 0x39 .umin {} m d a b
  | umax m d a b => exact .alu2 0x3A .umax {} m d a b
  | islt m d a b => exact .alu2 0x40 .islt {} m d a b
  | isle m d a b => exact .alu2 0x41 .isle {} m d a b
  | isge m d a b => exact .alu2 0x42 .isge {} m d a b
  | uslt m d a b => exact .alu2 0x43 .uslt {} m d a b
  | usle m d a b => exact .alu2 0x44 .usle {} m d a b
  | usge m d a b => exact .alu2 0x45 .usge {} m d a b
  | useq m d a b => exact .alu2 0x46 .useq {} m d a b
  | usne m d a b => exact .alu2 0x47 .usne {} m d a b
  | and m d a b => exact .alu2 0x48 .and {} m d a b
  | or m d a b => exact .alu2 0x49 .or {} m d a b
  | xor m d a b => exact .alu2 0x4A .xor {} m d a b
  | not m d a => exact .alu1 0x4B .not {} m d a
  | shl m d a b => exact .alu2 0x4C .shl {} m d a b
  | ishr m d a b => exact .alu2 0x4D .ishr {} m d a b
  | ushr m d a b => exact .alu2 0x4E .ushr {} m d a b
  | f2i m d a => exact .alu1 0x50 .f2i {} m d a
  | f2u m d a => exact .alu1 0x51 .f2u {} m d a
  | i2f m d a => exact .alu1 0x52 .i2f {} m d a
  | u2f m d a => exact .alu1 0x53 .u2f {} m d a
  | dp2 m d a b => exact .alu2 0x58 .dp2 {} m d a b
  | dp3 m d a b => exact .alu2 0x59 .dp3 {} m d a b
  | dp4 m d a b => exact .alu2 0x5A .dp4 {} m d a b
  | dph m d a b => exact .alu2 0x5B .dph {} m d a b
  | xpd m d a b => exact .alu2 0x5C .xpd {} m d a b
  | lit m d a => exact .alu1 0x60 .lit {} m d a
  | dst m d a b => exact .alu2 0x61 .dst {} m d a b
  | scs m d a => exact .alu1 0x62 .scs {} m d a
  | log m d a => exact .alu1 0x63 .log {} m d a
  | exp m d a => exact .alu1 0x64 .exp {} m d a
  | tex m t d a => exact .tex1 0x68 .tex {} m t d a
  | txb m t d a => exact .tex1 0x69 .txb {} m t d a
  | txl m t d a => exact .tex1 0x6A .txl {} m t d a
  | txp m t d a => exact .tex1 0x6B .txp {} m t d a
  | txd m t d a b c => exact .tex3 0x6C .txd {} m t d a b c
  | kil h a => exact .srcOnly 0x70 .kil {} h a
  | kilp h p => exact .kilp h p
  | if_ h a => exact .srcOnly 0x78 .if_ {} h a
  | else_ h => exact .flow 0x79 .else_ {} h
  | endif h => exact .flow 0x7A .endif {} h
  | bgnloop h => exact .flow 0x7B .bgnloop {} h
  | endloop h label => exact .endloop h label
  | brk h => exact .flow 0x7D .brk {} h
  | cont h => exact .flow 0x7E .cont {} h
  | cal h label => exact .cal h label
  | ret h => exact .flow 0x80 .ret {} h
  | end_ h => exact .flow 0x81 .end_ {} h
  | bgnsub h => exact .flow 0x82 .bgnsub {} h
  | endsub h => exact .flow 0x83 .endsub {} h

theorem decode_kilp {r : Record} (h : r.opcode = 0x71) :
    decode r = .ok (.kilp r.hdrReserved r.ccPredBit) := by unfold decode; rw [h]; rfl

theorem decode_endloop {r : Record} (h : r.opcode = 0x7C) :
    decode r = .ok (.endloop r.hdrReserved r.w1) := by unfold decode; rw [h]; rfl

theorem decode_cal {r : Record} (h : r.opcode = 0x7F) :
    decode r = .ok (.cal r.hdrReserved r.w1) := by unfold decode; rw [h]; rfl

/-! ### Decoding an encoded instruction -/

/-- Settles O1: by the format of the instruction; its opcode selects the reader of that format, which
finds every operand in its slot. -/
theorem decodeEncodeRoundTrip : Obligations.DecodeEncodeRoundTrip := by
  intro ins
  cases format_of ins with
  | flow op mk hop h =>
    obtain ⟨ho, hh, -⟩ := encodeFlow_fields op h false 0
    rw [hop.encode_eq, hop.decode_eq _ ho, hh]
  | srcOnly op mk hop h a =>
    obtain ⟨ho, hh, ha⟩ := encodeSrcOnly_fields op h a
    rw [hop.encode_eq, hop.decode_eq _ ho, hh, ha]
  | alu1 op mk hop m d a =>
    obtain ⟨ho, hm, -, hd, ha⟩ := encodeAlu1_fields op noTex m d a
    rw [hop.encode_eq, hop.decode_eq _ ho, hm, hd, ha]
  | alu2 op mk hop m d a b =>
    obtain ⟨ho, hm, -, hd, ha, hb⟩ := encodeAlu2_fields op noTex m d a b
    rw [hop.encode_eq, hop.decode_eq _ ho, hm, hd, ha, hb]
  | alu3 op mk hop m d a b c =>
    obtain ⟨ho, hm, -, hd, ha, hb, hc⟩ := encodeAlu3_fields op noTex m d a b c
    rw [hop.encode_eq, hop.decode_eq _ ho, hm, hd, ha, hb, hc]
  | tex1 op mk hop m t d a =>
    obtain ⟨ho, hm, ht, hd, ha⟩ := encodeAlu1_fields op t m d a
    rw [hop.encode_eq, hop.decode_eq _ ho, hm, ht, hd, ha]
  | tex3 op mk hop m t d a b c =>
    obtain ⟨ho, hm, ht, hd, ha, hb, hc⟩ := encodeAlu3_fields op t m d a b c
    rw [hop.encode_eq, hop.decode_eq _ ho, hm, ht, hd, ha, hb, hc]
  | kilp h p =>
    obtain ⟨ho, hh, hp, -⟩ := encodeFlow_fields 0x71 h p 0
    exact (decode_kilp ho).trans (by rw [hh, hp])
  | endloop h label =>
    obtain ⟨ho, hh, -⟩ := encodeFlow_fields 0x7C h false label
    exact (decode_endloop ho).trans (by rw [hh]; rfl)
  | cal h label =>
    obtain ⟨ho, hh, -⟩ := encodeFlow_fields 0x7F h false label
    exact (decode_cal ho).trans (by rw [hh]; rfl)

/-! ### What a record that decodes holds -/

section opcodes
variable (op : BitVec 8) (t : TexSel) (m : Mods) (h : HdrReserved) (p : Bool) (label : Word)
  (d : Dst) (a b c : Src)

@[simp] theorem opcode_encodeFlow : (encodeFlow op h p label).opcode = op :=
  (encodeFlow_fields op h p label).1

@[simp] theorem opcode_encodeSrcOnly : (encodeSrcOnly op h a).opcode = op :=
  (encodeSrcOnly_fields op h a).1

@[simp] theorem opcode_encodeAlu1 : (encodeAlu1 op t m d a).opcode = op :=
  (encodeAlu1_fields op t m d a).1

@[simp] theorem opcode_encodeAlu2 : (encodeAlu2 op t m d a b).opcode = op :=
  (encodeAlu2_fields op t m d a b).1

@[simp] theorem opcode_encodeAlu3 : (encodeAlu3 op t m d a b c).opcode = op :=
  (encodeAlu3_fields op t m d a b c).1

end opcodes

/-- The opcode of a record that decodes is that of its instruction. -/
theorem opcode_of_decode {r : Record} {ins : Instr} (h : decode r = .ok ins) :
    r.opcode = (encode ins).opcode := by
  unfold decode at h
  split at h
  case h_88 => cases h
  all_goals
    cases h
    simp only [encode, opcode_encodeFlow, opcode_encodeSrcOnly, opcode_encodeAlu1,
      opcode_encodeAlu2, opcode_encodeAlu3]
    apply BitVec.eq_of_toNat_eq
    assumption

/-- The instruction of a record r: by its format, the operands are those in the slots of r. -/
inductive Reads (r : Record) : Instr → Prop
  | flow (mk : HdrReserved → Instr) (hop : IsFlow r.opcode mk) : Reads r (mk r.hdrReserved)
  | srcOnly (mk : HdrReserved → Src → Instr) (hop : IsSrcOnly r.opcode mk) :
    Reads r (mk r.hdrReserved r.src0)
  | alu1 (mk : Mods → Dst → Src → Instr) (hop : IsAlu1 r.opcode mk) :
    Reads r (mk r.mods r.dst r.src0)
  | alu2 (mk : Mods → Dst → Src → Src → Instr) (hop : IsAlu2 r.opcode mk) :
    Reads r (mk r.mods r.dst r.src0 r.src1)
  | alu3 (mk : Mods → Dst → Src → Src → Src → Instr) (hop : IsAlu3 r.opcode mk) :
    Reads r (mk r.mods r.dst r.src0 r.src1 r.src2)
  | tex1 (mk : Mods → TexSel → Dst → Src → Instr) (hop : IsTex1 r.opcode mk) :
    Reads r (mk r.mods r.texSel r.dst r.src0)
  | tex3 (mk : Mods → TexSel → Dst → Src → Src → Src → Instr) (hop : IsTex3 r.opcode mk) :
    Reads r (mk r.mods r.texSel r.dst r.src0 r.src1 r.src2)
  | kilp (ho : r.opcode = 0x71) : Reads r (.kilp r.hdrReserved r.ccPredBit)
  | endloop (ho : r.opcode = 0x7C) : Reads r (.endloop r.hdrReserved r.w1)
  | cal (ho : r.opcode = 0x7F) : Reads r (.cal r.hdrReserved r.w1)

theorem Reads.of_decode {r : Record} {ins ins' : Instr} (h : decode r = .ok ins)
    (h' : decode r = .ok ins') (hr : Reads r ins') : Reads r ins := by
  rw [h, Except.ok.injEq] at h'
  exact h' ▸ hr

/-- A record that decodes reads as the instruction it decodes to. -/
theorem reads_of_decode {r : Record} {ins : Instr} (h : decode r = .ok ins) : Reads r ins := by
  have ho := opcode_of_decode h
  cases format_of ins with
  | flow op mk hop hd =>
    obtain rfl : r.opcode = op := ho.trans (by simp [hop.encode_eq])
    exact .of_decode h (hop.decode_eq r rfl) (.flow mk hop)
  | srcOnly op mk hop hd a =>
    obtain rfl : r.opcode = op := ho.trans (by simp [hop.encode_eq])
    exact .of_decode h (hop.decode_eq r rfl) (.srcOnly mk hop)
  | alu1 op mk hop m d a =>
    obtain rfl : r.opcode = op := ho.trans (by simp [hop.encode_eq])
    exact .of_decode h (hop.decode_eq r rfl) (.alu1 mk hop)
  | alu2 op mk hop m d a b =>
    obtain rfl : r.opcode = op := ho.trans (by simp [hop.encode_eq])
    exact .of_decode h (hop.decode_eq r rfl) (.alu2 mk hop)
  | alu3 op mk hop m d a b c =>
    obtain rfl : r.opcode = op := ho.trans (by simp [hop.encode_eq])
    exact .of_decode h (hop.decode_eq r rfl) (.alu3 mk hop)
  | tex1 op mk hop m t d a =>
    obtain rfl : r.opcode = op := ho.trans (by simp [hop.encode_eq])
    exact .of_decode h (hop.decode_eq r rfl) (.tex1 mk hop)
  | tex3 op mk hop m t d a b c =>
    obtain rfl : r.opcode = op := ho.trans (by simp [hop.encode_eq])
    exact .of_decode h (hop.decode_eq r rfl) (.tex3 mk hop)
  | kilp hd p =>
    have ho : r.opcode = 0x71 := ho.trans (opcode_encodeFlow ..)
    exact .of_decode h (decode_kilp ho) (.kilp ho)
  | endloop hd label =>
    have ho : r.opcode = 0x7C := ho.trans (opcode_encodeFlow ..)
    exact .of_decode h (decode_endloop ho) (.endloop ho)
  | cal hd label =>
    have ho : r.opcode = 0x7F := ho.trans (opcode_encodeFlow ..)
    exact .of_decode h (decode_cal ho) (.cal ho)

/-- A record without operands but a label, with opcode `op`. -/
theorem encodeFlow_label {r : Record} {op : BitVec 8} (ho : r.opcode = op) :
    encodeFlow op r.hdrReserved false r.w1 = { relevantFlow r with w1 := r.w1 } := by
  rw [← ho]
  exact congrArg (Record.mk · r.w1 0 0 0 0 0 0 0 0) (encodeHdrPlain_false r.w0)

/-- Settles O2: by the format that the record reads as; encoding what is in its slots keeps exactly the
bits that R103 does not ignore. -/
theorem decoderKeepsUsedBits : Obligations.DecoderKeepsUsedBits := by
  intro r ins h
  cases reads_of_decode h with
  | flow mk hop => rw [hop.encode_eq, hop.relevant_eq, encodeFlow_slots]
  | srcOnly mk hop => rw [hop.encode_eq, hop.relevant_eq, encodeSrcOnly_slots]
  | alu1 mk hop => rw [hop.encode_eq, hop.relevant_eq, encodeAlu1_slots]
  | alu2 mk hop => rw [hop.encode_eq, hop.relevant_eq, encodeAlu2_slots]
  | alu3 mk hop => rw [hop.encode_eq, hop.relevant_eq, encodeAlu3_slots]
  | tex1 mk hop => rw [hop.encode_eq, hop.relevant_eq, encodeTex1_slots]
  | tex3 mk hop => rw [hop.encode_eq, hop.relevant_eq, encodeTex3_slots]
  | kilp ho =>
    rw [encode, ← ho]
    exact congrArg (Record.mk · 0 0 0 0 0 0 0 0 0) (encodeHdrPlain_ccPred r.w0)
  | endloop ho => exact encodeFlow_label ho
  | cal ho => exact encodeFlow_label ho

/-! ### Bytes -/

/-- The ten words of a record, W0 first. -/
def Record.words (r : Record) : List Word :=
  [r.w0, r.w1, r.w2, r.w3, r.w4, r.w5, r.w6, r.w7, r.w8, r.w9]

theorem Record.bytes_eq_flatMap (r : Record) : r.bytes = r.words.flatMap wordBytes := rfl

/-- Byte 4*k + j of a list of words is byte j of word k (R63). -/
theorem getElem?_flatMap_wordBytes {j : Nat} (hj : j < 4) : ∀ (ws : List Word) (k : Nat),
    (ws.flatMap wordBytes)[4 * k + j]? = ws[k]?.map fun w => w.extractLsb' (8 * j) 8
  | [], _ => by simp
  | w :: ws, 0 => by
    obtain rfl | rfl | rfl | rfl : j = 0 ∨ j = 1 ∨ j = 2 ∨ j = 3 := by omega
    all_goals rfl
  | w :: ws, k + 1 => by
    have hcons : ((w :: ws).flatMap wordBytes)[4 * (k + 1) + j]? =
        (ws.flatMap wordBytes)[4 * k + j]? := by
      rw [show 4 * (k + 1) + j = 4 * k + j + 4 by omega]
      rfl
    rw [hcons, getElem?_flatMap_wordBytes hj ws k, List.getElem?_cons_succ]

/-- Settles O3: a record is the bytes of its words, and its bytes are read back by `takeRecord_bytes`
and the round trip of the instruction. -/
theorem serialisedRecordRoundTrip : Obligations.SerialisedRecordRoundTrip := by
  refine ⟨fun r => ⟨rfl, fun k j w hj hw => ?_⟩, fun ins rest => ?_⟩
  · rw [r.bytes_eq_flatMap, getElem?_flatMap_wordBytes hj]
    exact congrArg (Option.map _) hw
  · rw [decodeBytes, takeRecord_bytes]
    simp only [decodeEncodeRoundTrip ins]

/-! ### Unassigned opcodes -/

/-- The list of R101. -/
def UnassignedOpcode (n : Nat) : Prop :=
  (0x02 ≤ n ∧ n ≤ 0x0F) ∨ n = 0x1E ∨ n = 0x1F ∨ (0x25 ≤ n ∧ n ≤ 0x27) ∨ n = 0x2D ∨
    (0x3B ≤ n ∧ n ≤ 0x3F) ∨ n = 0x4F ∨ (0x54 ≤ n ∧ n ≤ 0x57) ∨ (0x5D ≤ n ∧ n ≤ 0x5F) ∨
    (0x65 ≤ n ∧ n ≤ 0x67) ∨ (0x6D ≤ n ∧ n ≤ 0x6F) ∨ (0x72 ≤ n ∧ n ≤ 0x77) ∨ 0x84 ≤ n

/-- No arm of the decoder is for an opcode of the list. -/
theorem decode_of_unassigned {r : Record} (h : UnassignedOpcode r.opcode.toNat) :
    decode r = .error (.unknownOpcode r.opcode) := by
  unfold UnassignedOpcode at h
  unfold decode
  split
  case h_88 => rfl
  all_goals omega

/-- Every opcode outside the list, all below 0x84, has an arm of the decoder. -/
theorem decode_of_assigned {r : Record} (h : ¬UnassignedOpcode r.opcode.toNat) :
    ∃ ins, decode r = .ok ins := by
  unfold UnassignedOpcode at h
  unfold decode
  generalize r.opcode.toNat = n at h ⊢
  have hn : n < 0x84 := by omega
  -- the numbers in the list contradict h, the others select their arm
  interval_cases n
  all_goals first
    | omega
    | exact ⟨_, rfl⟩

/-- Settles O4: the two halves of the list, and the step at a record that is rejected. -/
theorem unassignedOpcodeFaults : Obligations.UnassignedOpcodeFaults :=
  fun _ => ⟨decode_of_unassigned, decode_of_assigned,
    fun _ _ hs hpc hr h => step_of_reject hs hpc hr (decode_of_unassigned h)⟩

/-! ### The test vectors -/

/-- Settles O5: each record is read slot by slot. -/
theorem specWordsDecode : Obligations.SpecWordsDecode := ⟨rfl, rfl, rfl, rfl⟩

end Sys2Proof
end

section
/-! PROOFS. The field checks of R102 (spec/30_encoding.md R102, spec/60_exceptions.md R357): on the bits of
a record they are the checks on the decoded instruction, and failing one is the only way an
instruction takes ILLEGAL_ENCODING. -/

namespace Sys2Proof
open Machine

/-! ### The checks on the codes of the fields -/

theorem RegFile.legalSrc_eq_false : ∀ b : BitVec 4,
    (RegFile.ofBits b).legalSrc = false ↔ b.toNat = 0 ∨ 8 ≤ b.toNat := by decide

theorem RegFile.legalDst_eq_false : ∀ b : BitVec 4,
    (RegFile.ofBits b).legalDst = false ↔ b.toNat = 2 ∨ 6 ≤ b.toNat := by decide

theorem RegFile.hasDim_eq_false : ∀ b : BitVec 4,
    (RegFile.ofBits b).hasDim = false ↔ b.toNat ≠ 2 ∧ b.toNat ≠ 7 := by decide

theorem Selector.legal_eq_false : ∀ b : BitVec 3,
    (Selector.ofBits b).legal = false ↔ 6 ≤ b.toNat := by decide

theorem SatMode.ofBits_eq_illegal : ∀ b : BitVec 2, SatMode.ofBits b = .illegal ↔ b = 3 := by
  decide

theorem hdrWellFormed_eq_false (h : HdrReserved) : hdrWellFormed h = false ↔ h ≠ 0 := by
  simp [hdrWellFormed]

theorem Mods.wellFormed_eq_false (m : Mods) :
    m.wellFormed = false ↔ m.reserved ≠ 0 ∨ m.sat = .illegal := by
  unfold Mods.wellFormed
  cases m.sat <;> simp

theorem TexSel.wellFormed_eq_false (n : Nat) (t : TexSel) : t.wellFormed n = false ↔
    t.target.toBits = 0 ∨ 6 ≤ t.target.toBits.toNat ∨ n ≤ t.sampler.toNat := by
  obtain ⟨target, sampler⟩ := t
  cases target with
  | illegal low => cases low <;> simp [TexSel.wellFormed, TexTarget.toBits]
  | _ => simp [TexSel.wellFormed, TexTarget.toBits]

/-! ### The checks on the words of a record -/

theorem Src.wellFormed_eq_false (o : Src) : o.wellFormed = false ↔
    o.reservedA ≠ 0 ∨ o.file.legalSrc = false ∨ (o.dim.isSome = true ∧ o.file.hasDim = false) ∨
      o.reservedB ≠ 0 ∨ o.swz.x.legal = false ∨ o.swz.y.legal = false ∨ o.swz.z.legal = false ∨
      o.swz.w.legal = false := by
  simp only [Src.wellFormed, Bool.and_eq_false_iff, Bool.or_eq_false_iff, beq_eq_false_iff_ne,
    Option.isNone_eq_false_iff]
  tauto

theorem Dst.wellFormed_eq_false (o : Dst) : o.wellFormed = false ↔
    o.reservedA ≠ 0 ∨ o.file.legalDst = false ∨ o.dim = true ∨ o.reservedB ≠ 0 := by
  simp only [Dst.wellFormed, Bool.and_eq_false_iff, beq_eq_false_iff_ne, Bool.not_eq_false',
    or_assoc]

theorem decodeSrc_wellFormed_eq_false (a b : Word) :
    (decodeSrc a b).wellFormed = false ↔ illegalSource a b := by
  rw [Src.wellFormed_eq_false, isSome_decodeSrc_dim]
  simp only [decodeSrc, illegalSource, RegFile.legalSrc_eq_false, RegFile.hasDim_eq_false,
    Selector.legal_eq_false, or_assoc]

theorem decodeDst_wellFormed_eq_false (a b : Word) :
    (decodeDst a b).wellFormed = false ↔ illegalDestination a b := by
  simp only [Dst.wellFormed_eq_false, decodeDst, illegalDestination, RegFile.legalDst_eq_false,
    or_assoc]

theorem decodeMods_wellFormed_eq_false (w : Word) : (decodeMods w).wellFormed = false ↔
    w.extractLsb' 30 2 ≠ 0 ∨ w.extractLsb' 8 2 = 3 := by
  rw [Mods.wellFormed_eq_false, decodeMods, SatMode.ofBits_eq_illegal]

theorem decodeTexSel_wellFormed_eq_false (n : Nat) (w : Word) :
    (decodeTexSel w).wellFormed n = false ↔ w.extractLsb' 23 3 = 0 ∨
      6 ≤ (w.extractLsb' 23 3).toNat ∨ n ≤ (w.extractLsb' 26 4).toNat := by
  rw [TexSel.wellFormed_eq_false, decodeTexSel, TexTarget.toBits_ofBits]

section illegalRecord
variable {r : Record} {ins : Instr} {k : Nat} {tex : Bool} (numSamplers n : Nat)

/-- One of the first k source slots of the record fails a check. -/
def Record.illegalSrcs (r : Record) (k : Nat) : Prop :=
  (0 < k ∧ r.src0.wellFormed = false) ∨ (1 < k ∧ r.src1.wellFormed = false) ∨
    (2 < k ∧ r.src2.wellFormed = false)

theorem Record.illegalSrcs_zero (r : Record) : ¬r.illegalSrcs 0 := by simp [Record.illegalSrcs]

theorem Record.illegalSrcs_one (r : Record) : r.illegalSrcs 1 ↔ r.src0.wellFormed = false := by
  simp [Record.illegalSrcs]

theorem Record.illegalSrcs_two (r : Record) :
    r.illegalSrcs 2 ↔ r.src0.wellFormed = false ∨ r.src1.wellFormed = false := by
  simp [Record.illegalSrcs]

theorem Record.illegalSrcs_three (r : Record) : r.illegalSrcs 3 ↔
    r.src0.wellFormed = false ∨ r.src1.wellFormed = false ∨ r.src2.wellFormed = false := by
  simp [Record.illegalSrcs]

/-- `illegalRecord` in terms of the operands in the slots of the record. -/
theorem illegalRecord_slots : illegalRecord numSamplers n r ins ↔
    r.hdrReserved ≠ 0 ∨
    (ins.dst?.isSome = true ∧ (r.w0.extractLsb' 8 2 = 3 ∨ r.dst.wellFormed = false)) ∨
    r.illegalSrcs ins.srcs.length ∨
    (ins.isTexture = true ∧ r.texSel.wellFormed numSamplers = false) ∨
    (r.opcode = 0x7C ∧ n ≤ r.w1.toNat) ∨ (r.opcode = 0x7F ∧ n < r.w1.toNat) := by
  simp only [Record.illegalSrcs, Record.dst, Record.src0, Record.src1, Record.src2, Record.texSel,
    decodeDst_wellFormed_eq_false, decodeSrc_wellFormed_eq_false, decodeTexSel_wellFormed_eq_false,
    or_assoc]
  rfl

/-- The checks on the record of an instruction with a destination. -/
theorem illegalRecord_of_dst (huses : ins.dst?.isSome = true ∧ ins.srcs.length = k ∧
    ins.isTexture = tex) (hop : r.opcode ≠ 0x7C ∧ r.opcode ≠ 0x7F) :
    illegalRecord numSamplers n r ins ↔
      r.mods.wellFormed = false ∨ (tex = true ∧ r.texSel.wellFormed numSamplers = false) ∨
        r.dst.wellFormed = false ∨ r.illegalSrcs k := by
  obtain ⟨hdst, rfl, rfl⟩ := huses
  rw [illegalRecord_slots, Record.mods, decodeMods_wellFormed_eq_false]
  simp only [hdst, hop.1, hop.2, true_and, false_and, or_false, or_assoc, Record.hdrReserved]
  refine or_congr_right (or_congr_right ?_)
  rw [← or_assoc, or_comm]

/-- The checks on the record of an instruction without a destination and without a label. -/
theorem illegalRecord_of_no_dst (huses : ins.dst?.isSome = false ∧ ins.srcs.length = k ∧
    ins.isTexture = false) (hop : r.opcode ≠ 0x7C ∧ r.opcode ≠ 0x7F) :
    illegalRecord numSamplers n r ins ↔ hdrWellFormed r.hdrReserved = false ∨ r.illegalSrcs k := by
  obtain ⟨hdst, rfl, htex⟩ := huses
  rw [illegalRecord_slots, hdrWellFormed_eq_false]
  simp only [hdst, htex, hop.1, hop.2, Bool.false_eq_true, false_and, or_false, false_or]

/-- The checks on the record of an ENDLOOP. -/
theorem illegalRecord_endloop (hop : r.opcode = 0x7C) (h : HdrReserved) (label : Word) :
    illegalRecord numSamplers n r (.endloop h label) ↔
      hdrWellFormed r.hdrReserved = false ∨ n ≤ r.w1.toNat := by
  simp [illegalRecord_slots, hdrWellFormed_eq_false, hop, Instr.dst?, Instr.srcs, Instr.isTexture,
    Record.illegalSrcs_zero]

/-- The checks on the record of a CAL. -/
theorem illegalRecord_cal (hop : r.opcode = 0x7F) (h : HdrReserved) (label : Word) :
    illegalRecord numSamplers n r (.cal h label) ↔
      hdrWellFormed r.hdrReserved = false ∨ n < r.w1.toNat := by
  simp [illegalRecord_slots, hdrWellFormed_eq_false, hop, Instr.dst?, Instr.srcs, Instr.isTexture,
    Record.illegalSrcs_zero]

end illegalRecord

/-- The field checks on a decoded instruction are those of R102 on the bits of its record. -/
theorem illegalRecord_iff {r : Record} {ins : Instr} (h : decode r = .ok ins) (cfg : Cfg) (n : Nat) :
    illegalRecord cfg.numSamplers n r ins ↔ ins.wellFormed cfg n = false := by
  cases reads_of_decode h with
  | flow mk hop =>
    rw [illegalRecord_of_no_dst _ _ (hop.uses_eq _) hop.no_label, hop.wellFormed_eq]
    simp only [r.illegalSrcs_zero, or_false]
  | srcOnly mk hop =>
    rw [illegalRecord_of_no_dst _ _ (hop.uses_eq _ _) hop.no_label, hop.wellFormed_eq]
    simp only [r.illegalSrcs_one, Bool.and_eq_false_iff]
  | alu1 mk hop =>
    rw [illegalRecord_of_dst _ _ (hop.uses_eq _ _ _) hop.no_label, hop.wellFormed_eq]
    simp only [r.illegalSrcs_one, Bool.and_eq_false_iff, or_assoc, Bool.false_eq_true, false_and,
      false_or]
  | alu2 mk hop =>
    rw [illegalRecord_of_dst _ _ (hop.uses_eq _ _ _ _) hop.no_label, hop.wellFormed_eq]
    simp only [r.illegalSrcs_two, Bool.and_eq_false_iff, or_assoc, Bool.false_eq_true, false_and,
      false_or]
  | alu3 mk hop =>
    rw [illegalRecord_of_dst _ _ (hop.uses_eq _ _ _ _ _) hop.no_label, hop.wellFormed_eq]
    simp only [r.illegalSrcs_three, Bool.and_eq_false_iff, or_assoc, Bool.false_eq_true, false_and,
      false_or]
  | tex1 mk hop =>
    rw [illegalRecord_of_dst _ _ (hop.uses_eq _ _ _ _) hop.no_label, hop.wellFormed_eq]
    simp only [r.illegalSrcs_one, Bool.and_eq_false_iff, or_assoc, true_and]
  | tex3 mk hop =>
    rw [illegalRecord_of_dst _ _ (hop.uses_eq _ _ _ _ _ _) hop.no_label, hop.wellFormed_eq]
    simp only [r.illegalSrcs_three, Bool.and_eq_false_iff, or_assoc, true_and]
  | kilp ho =>
    have hno : r.opcode ≠ 0x7C ∧ r.opcode ≠ 0x7F := by rw [ho]; decide
    rw [illegalRecord_of_no_dst (k := 0) _ _ ⟨rfl, rfl, rfl⟩ hno, Instr.wellFormed]
    simp only [r.illegalSrcs_zero, or_false]
  | endloop ho =>
    rw [illegalRecord_endloop _ _ ho, Instr.wellFormed]
    simp only [Bool.and_eq_false_iff, decide_eq_false_iff_not, not_lt]
  | cal ho =>
    rw [illegalRecord_cal _ _ ho, Instr.wellFormed]
    simp only [Bool.and_eq_false_iff, decide_eq_false_iff_not, not_le]

end Sys2Proof

namespace Sys2Proof.Machine

/-! ### Taking ILLEGAL_ENCODING -/

section raises
variable {s : State} {i : Nat}

theorem raiseFatal_inj {code code' : FatalCode} :
    s.raiseFatal code i = s.raiseFatal code' i ↔ code = code' := by
  refine ⟨fun h => ?_, fun h => h ▸ rfl⟩
  have hstatus := congrArg State.status h
  cases hstatus
  rfl

/-- The outcome x of an instruction's phases is ILLEGAL_ENCODING exactly where the checks P fail, and a
completed instruction keeps the Run going. -/
structure Checks (x : Except FatalCode State) (P : Prop) : Prop where
  illegal_iff : x = .error .illegalEncoding ↔ ¬P
  running : ∀ t, x = .ok t → t.status = .running

theorem Checks.ok {t : State} (ht : t.status = .running) : Checks (.ok t) True :=
  ⟨by simp, fun _ h => by cases h; exact ht⟩

theorem Checks.error {code : FatalCode} (hc : code ≠ .illegalEncoding) :
    Checks (.error code) True :=
  ⟨by simpa using hc, fun _ h => by cases h⟩

/-- A check before the rest of the instruction. -/
theorem Checks.check {x : Except FatalCode State} {P Q : Prop} [Decidable P] (h : Checks x Q) :
    Checks (if P then x else .error .illegalEncoding) (P ∧ Q) := by
  by_cases hP : P
  · simpa [hP] using h
  · simp only [hP, if_false, false_and]
    exact ⟨by simp, fun _ h => by cases h⟩

/-- A choice between two ways to go on. -/
theorem Checks.ite {x y : Except FatalCode State} {P Q : Prop} [Decidable P] (hx : Checks x Q)
    (hy : Checks y Q) : Checks (if P then x else y) Q := by
  split
  · exact hx
  · exact hy

/-- An instruction takes ILLEGAL_ENCODING exactly where its checks fail. -/
theorem Checks.instrFrame {body : Nat → Except FatalCode State} {P : Prop} (h : Checks (body i) P)
    (hpc : s.pc = .running i) :
    Machine.instrFrame s body = .next (s.raiseFatal .illegalEncoding i) ↔ ¬P := by
  rw [← h.illegal_iff]
  refine ⟨fun hx => ?_, instrFrame_error hpc⟩
  rcases instrFrame_cases hpc hx with hb | ⟨code, hb, heq⟩
  · cases h.running _ hb
  · rw [hb, raiseFatal_inj.mp heq]

/-- A return does not touch Status (R176). -/
theorem State.returnTo_status {e : CallEntry} {t : State} (h : s.returnTo e = some t) :
    t.status = s.status := by
  unfold State.returnTo at h
  split at h
  · cases h
    rfl
  · cases h

variable (hs : s.status = .running) (hpc : s.pc = .running i)
include hs hpc

theorem aluFrame_illegal_iff {α : Type} {legal : Bool} {m : Mods} {d : Dst} {srcs : Option α}
    {res : α → Results} :
    aluFrame s legal m d srcs res = .next (s.raiseFatal .illegalEncoding i) ↔ legal = false := by
  refine (Checks.instrFrame (.check (Q := True) ?_) hpc).trans (by simp)
  split
  · exact .ok (by simpa using hs)
  · exact .error (by decide)

theorem texFrame_illegal_iff {α : Type} {legal : Bool} {m : Mods} {d : Dst} {srcs : Option α}
    {req : α → SamplerReq} :
    texFrame s legal m d srcs req = .next (s.raiseFatal .illegalEncoding i) ↔ legal = false := by
  refine (Checks.instrFrame (.check (Q := True) ?_) hpc).trans (by simp)
  split
  · exact .ite (.ok (by simpa using hs)) (.ok (by simpa using hs))
  · exact .error (by decide)

theorem execKil_illegal_iff (h : HdrReserved) (a : Src) :
    execKil h a s = .next (s.raiseFatal .illegalEncoding i) ↔
      (hdrWellFormed h && a.wellFormed) = false := by
  refine (Checks.instrFrame (.check (Q := True) ?_) hpc).trans (by simp [hdrLegal, srcLegal])
  split
  · exact .ok hs
  · exact .error (by decide)

theorem execKilp_illegal_iff (h : HdrReserved) (p : Bool) :
    execKilp h p s = .next (s.raiseFatal .illegalEncoding i) ↔ hdrWellFormed h = false := by
  refine (Checks.instrFrame (.check (Q := True) ?_) hpc).trans (by simp [hdrLegal])
  exact .ok hs

omit hs in
/-- A control-flow instruction whose only field check is the header's. -/
theorem flowFrame_illegal_iff {h : HdrReserved} {body : Nat → Except FatalCode State}
    (hbody : Checks (body i) True) :
    flowFrame h s body = .next (s.raiseFatal .illegalEncoding i) ↔ hdrWellFormed h = false :=
  (Checks.instrFrame (.check hbody) hpc).trans (by simp [hdrLegal])

omit hs in
/-- A control-flow instruction with one more field check P. -/
theorem flowFrame_check_illegal_iff {h : HdrReserved} {P : Prop} [Decidable P]
    {body : Nat → Except FatalCode State} (hbody : Checks (body i) True) :
    flowFrame h s (fun i => if P then body i else .error .illegalEncoding) =
      .next (s.raiseFatal .illegalEncoding i) ↔ (hdrWellFormed h && decide P) = false :=
  (Checks.instrFrame (.check (.check hbody)) hpc).trans (by simp [hdrLegal])

theorem execIf_illegal_iff (h : HdrReserved) (a : Src) :
    execIf h a s = .next (s.raiseFatal .illegalEncoding i) ↔
      (hdrWellFormed h && a.wellFormed) = false := by
  refine (flowFrame_check_illegal_iff hpc ?_).trans (by rw [Bool.decide_eq_true, srcLegal])
  split
  · exact .error (by decide)
  · exact .ite (.error (by decide)) (.ok hs)

theorem execElse_illegal_iff (h : HdrReserved) :
    execElse h s = .next (s.raiseFatal .illegalEncoding i) ↔ hdrWellFormed h = false := by
  refine flowFrame_illegal_iff hpc ?_
  split
  · exact .error (by decide)
  · exact .ok hs

theorem execEndif_illegal_iff (h : HdrReserved) :
    execEndif h s = .next (s.raiseFatal .illegalEncoding i) ↔ hdrWellFormed h = false := by
  refine flowFrame_illegal_iff hpc ?_
  split
  · exact .error (by decide)
  · exact .ok hs

theorem execBgnloop_illegal_iff (h : HdrReserved) :
    execBgnloop h s = .next (s.raiseFatal .illegalEncoding i) ↔ hdrWellFormed h = false :=
  flowFrame_illegal_iff hpc (.ite (.error (by decide)) (.ok hs))

theorem execEndloop_illegal_iff (h : HdrReserved) (label : Word) :
    execEndloop h label s = .next (s.raiseFatal .illegalEncoding i) ↔
      (hdrWellFormed h && decide (label.toNat < s.numInstr)) = false := by
  refine flowFrame_check_illegal_iff hpc ?_
  split
  · exact .ite (.ok hs) (.ok hs)
  · exact .error (by decide)

theorem execCal_illegal_iff (h : HdrReserved) (label : Word) :
    execCal h label s = .next (s.raiseFatal .illegalEncoding i) ↔
      (hdrWellFormed h && decide (label.toNat ≤ s.numInstr)) = false :=
  flowFrame_check_illegal_iff hpc (.ite (.ite (.error (by decide)) (.ok hs)) (.ok hs))

theorem execRet_illegal_iff (h : HdrReserved) :
    execRet h s = .next (s.raiseFatal .illegalEncoding i) ↔ hdrWellFormed h = false := by
  refine flowFrame_illegal_iff hpc (.ite (.ok hs) ?_)
  split
  · exact .ok hs
  · split
    · rename_i t ht
      exact .ok ((State.returnTo_status ht).trans hs)
    · exact .error (by decide)

/-- An instruction takes ILLEGAL_ENCODING exactly when it is not well-formed (R102, R357). -/
theorem exec_illegal_iff (ins : Instr) :
    exec ins s = .next (s.raiseFatal .illegalEncoding i) ↔
      ins.wellFormed s.cfg s.numInstr = false := by
  cases shape_of ins with
  | alu1 m d a g hexec hwf => rw [hexec, hwf]; exact aluFrame_illegal_iff hs hpc
  | alu2 m d a b g hexec hwf => rw [hexec, hwf]; exact aluFrame_illegal_iff hs hpc
  | alu3 m d a b c g hexec hwf => rw [hexec, hwf]; exact aluFrame_illegal_iff hs hpc
  | tex1 m t d a req hexec hwf => rw [hexec, hwf]; exact texFrame_illegal_iff hs hpc
  | tex3 m t d a b c req hexec hwf => rw [hexec, hwf]; exact texFrame_illegal_iff hs hpc
  | kil h a heq => rw [heq]; exact execKil_illegal_iff hs hpc h a
  | kilp h p heq => rw [heq]; exact execKilp_illegal_iff hs hpc h p
  | flow hdst htex hflow =>
    cases ins with
    | nop h => exact flowFrame_illegal_iff hpc (.ok hs)
    | if_ h a => exact execIf_illegal_iff hs hpc h a
    | else_ h => exact execElse_illegal_iff hs hpc h
    | endif h => exact execEndif_illegal_iff hs hpc h
    | bgnloop h => exact execBgnloop_illegal_iff hs hpc h
    | endloop h label => exact execEndloop_illegal_iff hs hpc h label
    | brk h => exact flowFrame_illegal_iff hpc (.ok hs)
    | cont h => exact flowFrame_illegal_iff hpc (.ok hs)
    | cal h label => exact execCal_illegal_iff hs hpc h label
    | ret h => exact execRet_illegal_iff hs hpc h
    | end_ h => exact flowFrame_illegal_iff hpc (.ok hs)
    | bgnsub h => exact flowFrame_illegal_iff hpc (.ok hs)
    | endsub h => exact flowFrame_illegal_iff hpc (.ok hs)
    | _ => cases hflow

end raises

/-- Settles O33: `exec_illegal_iff` for the instruction, and `illegalRecord_iff` for the bits of a record
it is decoded from. -/
theorem illegalEncodingExactly : Obligations.IllegalEncodingExactly :=
  fun s _ ins hs hpc => ⟨exec_illegal_iff hs hpc ins, fun _ hdec =>
    (exec_illegal_iff hs hpc ins).trans (illegalRecord_iff hdec s.cfg s.numInstr).symm⟩

end Sys2Proof.Machine
end

section
/-! PROOFS. The float literals of the assembly (spec/30_encoding.md R112) are correctly rounded: a
quotient cut off with a sticky bit stands for the exact quotient. -/

namespace Sys2Proof.Machine

theorem froundFinite_zero (neg : Bool) (e : ℤ) : froundFinite neg 0 e = fzero neg := if_pos rfl

theorem roundsTo_zero (z : Bool) : RoundsTo 0 z (fzero z) := by
  rw [RoundsTo, if_pos rfl]

/-- Twice the quotient of a by b, and one more where the division leaves a remainder: the significand
with a sticky bit. -/
def stickyQuotient (a b : Nat) : Nat := 2 * (a / b) + if a % b = 0 then 0 else 1

/-- The significand with a sticky bit stands for twice the exact quotient. -/
theorem standsFor_stickyQuotient {a b : Nat} (hb : 0 < b) (hq : 2 ^ 25 ≤ 2 * (a / b)) :
    StandsFor (2 * a / b) (stickyQuotient a b) := by
  have hbR : (0 : ℝ) < b := by exact_mod_cast hb
  have hdiv := Nat.div_add_mod a b
  have hmod := Nat.mod_lt a hb
  unfold stickyQuotient
  generalize a / b = q at *
  generalize a % b = rem at *
  have ha : (a : ℝ) = b * q + rem := by exact_mod_cast hdiv.symm
  have hquot : (2 * a / b : ℝ) = 2 * q + 2 * rem / b := by
    rw [ha]
    field_simp
  by_cases hrem : rem = 0
  · left
    rw [hquot, if_pos hrem, hrem]
    push_cast
    ring
  · right
    rw [if_neg hrem, hquot]
    refine ⟨by omega, by omega, ?_⟩
    have hpos : (0 : ℝ) < rem := by exact_mod_cast Nat.pos_of_ne_zero hrem
    have hlt : (rem : ℝ) < b := by exact_mod_cast hmod
    have hlow : 0 < 2 * (rem : ℝ) / b := by positivity
    have hhigh : 2 * (rem : ℝ) / b < 2 := by
      rw [div_lt_iff₀ hbR]
      linarith
    push_cast
    rw [abs_lt]
    constructor <;> linarith

theorem stickyQuotient_zero (b : Nat) : stickyQuotient 0 b = 0 := by simp [stickyQuotient]

/-- A ratio whose quotient is computed to 25 bits before the sticky bit, at least, is rounded
correctly. -/
theorem froundFinite_stickyQuotient (neg : Bool) {num den s : Nat} (hden : 0 < den)
    (hq : 2 ^ 24 ≤ num * 2 ^ s / den) :
    RoundsTo ((if neg then -1 else 1) * ((num : ℝ) / den)) neg
      (froundFinite neg (stickyQuotient (num * 2 ^ s) den) (-(s : ℤ) - 1)) := by
  have hbig : 2 ^ 25 ≤ 2 * (num * 2 ^ s / den) := by omega
  have hne : stickyQuotient (num * 2 ^ s) den ≠ 0 := by
    unfold stickyQuotient
    omega
  have hround := froundFinite_roundsTo (e := -(s : ℤ) - 1) neg neg hne
    (standsFor_stickyQuotient hden hbig)
  have hvalue : (2 * ((num * 2 ^ s : ℕ) : ℝ) / den) * (2 : ℝ) ^ (-(s : ℤ) - 1) = num / den := by
    rw [zpow_sub₀ two_ne_zero, zpow_neg, zpow_natCast]
    push_cast
    field_simp
  rwa [mul_assoc, hvalue] at hround

/-- The scale that `ratioToFloat` takes from the divisor leaves a quotient of 64 bits or more. -/
theorem le_scaled_quotient {num den : Nat} (hnum : 0 < num) (hden : 0 < den) :
    2 ^ 24 ≤ num * 2 ^ (Nat.log2 den + 65) / den := by
  rw [Nat.le_div_iff_mul_le hden]
  calc 2 ^ 24 * den ≤ 2 ^ 24 * 2 ^ (Nat.log2 den + 1) :=
        Nat.mul_le_mul_left _ Nat.lt_log2_self.le
    _ = 2 ^ (24 + (Nat.log2 den + 1)) := (pow_add ..).symm
    _ ≤ 2 ^ (Nat.log2 den + 65) := Nat.pow_le_pow_right (by norm_num) (by omega)
    _ ≤ num * 2 ^ (Nat.log2 den + 65) := Nat.le_mul_of_pos_left _ hnum

theorem ratioToFloat_eq (neg : Bool) (num den : Nat) : ratioToFloat neg num den =
    froundFinite neg (stickyQuotient (num * 2 ^ (Nat.log2 den + 65)) den)
      (-((Nat.log2 den + 65 : ℕ) : ℤ) - 1) := rfl

/-- A ratio is rounded correctly. -/
theorem ratioToFloat_roundsTo (neg : Bool) (num : Nat) {den : Nat} (hden : 0 < den) :
    RoundsTo ((if neg then -1 else 1) * ((num : ℝ) / den)) neg (ratioToFloat neg num den) := by
  rw [ratioToFloat_eq]
  rcases Nat.eq_zero_or_pos num with rfl | hnum
  · rw [zero_mul, stickyQuotient_zero, froundFinite_zero]
    simpa using roundsTo_zero neg
  · exact froundFinite_stickyQuotient neg hden (le_scaled_quotient hnum hden)

/-- An exact significand is rounded correctly. -/
theorem froundFinite_roundsTo_exact (neg : Bool) (m : Nat) (e : ℤ) :
    RoundsTo ((if neg then -1 else 1) * (m : ℝ) * (2 : ℝ) ^ e) neg (froundFinite neg m e) := by
  rcases Nat.eq_zero_or_pos m with rfl | hm
  · rw [froundFinite_zero]
    simpa using roundsTo_zero neg
  · exact froundFinite_roundsTo neg neg hm.ne' (.inl rfl)

/-- Settles O56: a literal without a decimal fraction is an integer, rounded once; one with a fraction
is a ratio. -/
theorem literalCorrectlyRounded : Obligations.LiteralCorrectlyRounded := by
  intro neg digits exp10
  rcases le_or_gt 0 exp10 with hexp | hexp
  · obtain ⟨k, rfl⟩ := Int.eq_ofNat_of_zero_le hexp
    have hround := froundFinite_roundsTo_exact neg (digits * 10 ^ k) 0
    have hvalue : (if neg then -1 else 1) * ((digits * 10 ^ k : ℕ) : ℝ) * (2 : ℝ) ^ (0 : ℤ) =
        (if neg then -1 else 1) * (digits : ℝ) * (10 : ℝ) ^ (k : ℤ) := by
      push_cast
      rw [zpow_zero, mul_one, zpow_natCast, mul_assoc]
    rw [hvalue] at hround
    rwa [Literal.word, if_pos hexp]
  · obtain ⟨k, rfl⟩ := Int.exists_eq_neg_ofNat hexp.le
    have hround := ratioToFloat_roundsTo neg digits (den := 10 ^ k) (by positivity)
    have hvalue : (if neg then -1 else 1) * ((digits : ℝ) / (10 ^ k : ℕ)) =
        (if neg then -1 else 1) * (digits : ℝ) * (10 : ℝ) ^ (-(k : ℤ)) := by
      push_cast
      rw [zpow_neg, zpow_natCast, div_eq_mul_inv, mul_assoc]
    rw [hvalue] at hround
    rwa [Literal.word, if_neg (not_le.mpr hexp), neg_neg, Int.toNat_natCast]

end Sys2Proof.Machine
end

section
/-! PROOFS. The operand unit (spec/40_operand_fetch_store.md): which register an operand names and what
it takes when there is none, Fetch with its sign modes, the store with its mask, and what a lane outside
ExecMask keeps. -/

namespace Sys2Proof.Machine

/-! ### The register of an operand (R126 to R128, R132) -/

/-- A checked index is the register it names, inside a file of n registers. -/
theorem checkedIndex_eq_some_iff {i : ℤ} {n r : ℕ} :
    (if 0 ≤ i ∧ i < n then some i.toNat else none) = some r ↔ (r : ℤ) = i ∧ r < n := by
  split_ifs with h
  · rw [Option.some.injEq]; omega
  · simp only [false_iff]; omega

/-- A source without a second dimension. -/
theorem State.srcIndex_eq_some_iff_of_dim_none (s : State) {o : Src} (l : Lane) (r : ℕ)
    (hd : o.dim = none) : s.srcIndex o l = some r ↔
      (r : ℤ) = s.baseIndex o.index o.ind l ∧ r < s.fileSize o.file := by
  rw [State.srcIndex, hd]
  exact checkedIndex_eq_some_iff

/-- A source with a second dimension: both indices are checked, and the outer one counts strides. -/
theorem State.srcIndex_eq_some_iff_of_dim_some (s : State) {o : Src} {d : DimIndex} (l : Lane)
    (r : ℕ) (hd : o.dim = some d) : s.srcIndex o l = some r ↔ ∃ i k : ℕ,
      (i : ℤ) = s.baseIndex o.index o.ind l ∧ (k : ℤ) = d.index.toInt + s.indirect d.ind l ∧
      i < s.stride o.file ∧ k < s.fileSize o.file / s.stride o.file ∧
      r = k * s.stride o.file + i := by
  simp only [State.srcIndex, hd]
  generalize s.baseIndex o.index o.ind l = i
  generalize d.index.toInt + s.indirect d.ind l = k
  split_ifs with h
  · obtain ⟨hi, hin, hk, hkn⟩ := h
    obtain ⟨i, rfl⟩ := Int.eq_ofNat_of_zero_le hi
    obtain ⟨k, rfl⟩ := Int.eq_ofNat_of_zero_le hk
    constructor
    · intro hr
      exact ⟨i, k, rfl, rfl, by omega, by omega, (Option.some.inj hr).symm⟩
    · rintro ⟨i', k', hi', hk', -, -, rfl⟩
      obtain rfl := Int.ofNat_inj.mp hi'
      obtain rfl := Int.ofNat_inj.mp hk'
      rfl
  · constructor
    · intro hr
      cases hr
    · rintro ⟨i', k', rfl, rfl, hin, hkn, -⟩
      exact absurd ⟨by omega, by omega, by omega, by omega⟩ h

/-- A destination that is not discarded. -/
theorem State.dstIndex_eq_some_iff (s : State) {o : Dst} (l : Lane) (r : ℕ)
    (hf : o.file ≠ .null) : s.dstIndex o l = some r ↔
      (r : ℤ) = s.baseIndex o.index o.ind l ∧ r < s.fileSize o.file := by
  unfold State.dstIndex
  split
  · contradiction
  · exact checkedIndex_eq_some_iff

/-- Settles O35: the equations of `srcIndex` and `dstIndex`, with the file sizes and strides written
out. -/
theorem operandIndexRule : Obligations.OperandIndexRule :=
  fun s l => ⟨fun _ r hd => s.srcIndex_eq_some_iff_of_dim_none l r hd,
    fun _ _ r hd => s.srcIndex_eq_some_iff_of_dim_some l r hd,
    fun _ r hf => s.dstIndex_eq_some_iff l r hf,
    fun _ hf => by simp [State.dstIndex_null hf l]⟩

/-! ### An operand outside its file (R128, R352) -/

/-- Some operand lies outside its file exactly when some operand does not resolve. -/
theorem State.operandOutside_iff (s : State) (ins : Instr) : s.operandOutside ins ↔
    (∃ o ∈ ins.srcs, s.resolveSrc o = none) ∨
      ∃ d, ins.dst? = some d ∧ s.resolveDst d = none := by
  simp only [State.operandOutside, State.resolveSrc_eq_none_iff, State.resolveDst_eq_none_iff]

/-- IF is the one control-flow instruction with an operand (R165). -/
theorem Instr.eq_if_of_mem_srcs {ins : Instr} {o : Src} (hflow : ins.isFlow = true)
    (ho : o ∈ ins.srcs) : ∃ h, ins = .if_ h o := by
  cases ins with
  | if_ h a => exact ⟨h, by rw [List.mem_singleton.mp ho]⟩
  | nop | else_ | endif | bgnloop | endloop | brk | cont | cal | ret | end_ | bgnsub | endsub =>
    simp [Instr.srcs] at ho
  | _ => cases hflow

section outside
variable {s : State} {i : ℕ} (hpc : s.pc = .running i)
include hpc

theorem execKil_outside {h : HdrReserved} {a : Src}
    (hwf : (hdrWellFormed h && a.wellFormed) = true) (ha : s.resolveSrc a = none) :
    execKil h a s = .next (s.raiseFatal .indexOutOfBounds i) :=
  instrFrame_error hpc (by simp only [hdrLegal, srcLegal, hwf, ha, if_true])

/-- IF checks its operand before it looks for room on CondStack (R165, R361). -/
theorem execIf_outside {h : HdrReserved} {a : Src}
    (hwf : (hdrWellFormed h && a.wellFormed) = true) (ha : s.resolveSrc a = none) :
    execIf h a s = .next (s.raiseFatal .indexOutOfBounds i) := by
  obtain ⟨hh, hsrc⟩ := Bool.and_eq_true_iff.mp hwf
  exact flowFrame_error hpc (by simpa [hdrWellFormed] using hh) (by simp [srcLegal, hsrc, ha])

theorem exec_outside {ins : Instr} (hwf : ins.wellFormed s.cfg s.numInstr = true)
    (hout : s.operandOutside ins) : exec ins s = .next (s.raiseFatal .indexOutOfBounds i) := by
  rw [State.operandOutside_iff] at hout
  cases shape_of ins with
  | alu1 m d a g hexec hlegal hdst hsrcs =>
    rw [hexec]
    exact aluFrame_outside hpc (hlegal .. ▸ hwf) (by simpa [hdst, hsrcs] using hout)
  | alu2 m d a b g hexec hlegal hdst hsrcs =>
    rw [hexec]
    exact aluFrame_outside hpc (hlegal .. ▸ hwf)
      (by simpa [hdst, hsrcs, State.resolveSrc2_eq_none_iff] using hout)
  | alu3 m d a b c g hexec hlegal hdst hsrcs =>
    rw [hexec]
    exact aluFrame_outside hpc (hlegal .. ▸ hwf)
      (by simpa [hdst, hsrcs, State.resolveSrc3_eq_none_iff] using hout)
  | tex1 m t d a req hexec hlegal hreq hdst hsrcs =>
    rw [hexec]
    exact texFrame_outside hpc (hlegal .. ▸ hwf) (by simpa [hdst, hsrcs] using hout)
  | tex3 m t d a b c req hexec hlegal hreq hdst hsrcs =>
    rw [hexec]
    exact texFrame_outside hpc (hlegal .. ▸ hwf)
      (by simpa [hdst, hsrcs, State.resolveSrc3_eq_none_iff] using hout)
  | kil h a heq =>
    subst heq
    exact execKil_outside hpc hwf (by simpa [Instr.srcs, Instr.dst?] using hout)
  | kilp h p heq =>
    subst heq
    simp [Instr.srcs, Instr.dst?] at hout
  | flow hdst htex hflow =>
    obtain ⟨o, ho, hnone⟩ : ∃ o ∈ ins.srcs, s.resolveSrc o = none := by simpa [hdst] using hout
    obtain ⟨h, rfl⟩ := Instr.eq_if_of_mem_srcs hflow ho
    exact execIf_outside hpc hwf hnone

end outside

/-- Settles O34: by the shape of the instruction; every frame resolves its operands before it does
anything else. -/
theorem operandOutsideFaults : Obligations.OperandOutsideFaults :=
  fun _ _ _ hpc hwf hout => exec_outside hpc hwf hout

/-! ### The order of float values -/

theorem abs_forderKey_le {x : Word} (hx : isNaN x = false) : |forderKey x| ≤ 0x7F800000 := by
  rw [abs_forderKey]
  exact_mod_cast (isNaN_false_iff x).mp hx

theorem HasValue.isNaN_eq {x : Word} {v : EReal} (h : HasValue x v) : isNaN x = false :=
  ((hasValue_iff x v).mp h).1

/-- The comparison `flt` compares values (R193). -/
theorem flt_iff_of_hasValue {x y : Word} {v w : EReal} (hx : HasValue x v) (hy : HasValue y w) :
    flt x y = true ↔ v < w := by
  obtain ⟨hxn, rfl⟩ := (hasValue_iff x v).mp hx
  obtain ⟨hyn, rfl⟩ := (hasValue_iff y w).mp hy
  simp [flt, fordered, hxn, hyn, keyValue_lt_iff (abs_forderKey_le hxn) (abs_forderKey_le hyn)]

/-- The comparison `feq` compares values (R193). -/
theorem feq_iff_of_hasValue {x y : Word} {v w : EReal} (hx : HasValue x v) (hy : HasValue y w) :
    feq x y = true ↔ v = w := by
  have hlt := flt_iff_of_hasValue hx hy
  have hgt := flt_iff_of_hasValue hy hx
  have hnx := hx.isNaN_eq
  have hny := hy.isNaN_eq
  simp only [flt, feq, fordered, hnx, hny, Bool.not_false, Bool.and_self, Bool.true_and,
    decide_eq_true_eq, beq_iff_eq] at hlt hgt ⊢
  rw [eq_iff_le_not_lt, eq_iff_le_not_lt, ← not_lt, ← not_lt, hlt, hgt]

/-- A comparison with a NaN fails (R193). -/
theorem flt_eq_false_of_isNaN {x y : Word} (h : isNaN x = true ∨ isNaN y = true) :
    flt x y = false := by
  rcases h with h | h <;> simp [flt, fordered, h]

theorem feq_eq_false_of_isNaN {x y : Word} (h : isNaN x = true ∨ isNaN y = true) :
    feq x y = false := by
  rcases h with h | h <;> simp [feq, fordered, h]

theorem hasValue_K_ZERO : HasValue K_ZERO 0 := by
  have h : fview K_ZERO = .fin false 0 (-149) := by decide
  simp only [HasValue, h]
  norm_num

theorem hasValue_K_ONE : HasValue K_ONE 1 := by
  have h : fview K_ONE = .fin false (2 ^ 23) (-23) := by decide
  simp only [HasValue, h]
  norm_num

theorem hasValue_K_MONE : HasValue K_MONE (-1) := by
  have h : fview K_MONE = .fin true (2 ^ 23) (-23) := by decide
  simp only [HasValue, h]
  norm_num

/-! ### Sign modes and Fetch (R125, R129 to R131) -/

theorem fmag_applySign (m : SignMode) (x : Word) : fmag (applySign m x) = fmag x := by
  rw [← extract_eq_fmag, ← extract_eq_fmag]
  congr 1
  have hsign : K_SIGN.extractLsb' 0 31 = 0#31 := by decide
  have hnsign : K_NSIGN.extractLsb' 0 31 = BitVec.allOnes 31 := by decide
  cases m with
  | keep => rfl
  | toggle => rw [applySign, BitVec.extractLsb'_xor, hsign, BitVec.xor_zero]
  | clear => rw [applySign, BitVec.extractLsb'_and, hnsign, BitVec.and_allOnes]
  | set => rw [applySign, BitVec.extractLsb'_or, hsign, BitVec.or_zero]

theorem fsign_applySign (m : SignMode) (x : Word) : fsign (applySign m x) = match m with
    | .keep => fsign x
    | .toggle => !fsign x
    | .clear => false
    | .set => true := by
  cases m <;> simp [applySign, fsign, K_SIGN, K_NSIGN]

theorem forderKey_applySign (m : SignMode) (x : Word) : forderKey (applySign m x) = match m with
    | .keep => forderKey x
    | .toggle => -forderKey x
    | .clear => |forderKey x|
    | .set => -|forderKey x| := by
  rw [abs_forderKey, forderKey_eq, fsign_applySign, fmag_applySign, forderKey_eq]
  cases m <;> cases fsign x <;> simp

theorem isNaN_applySign (m : SignMode) (x : Word) : isNaN (applySign m x) = isNaN x := by
  rw [Bool.eq_iff_iff, isNaN_iff, isNaN_iff, fmag_applySign]

theorem keyUnits_neg (k : ℤ) : keyUnits (-k) = -keyUnits k := by
  rcases lt_trichotomy k 0 with h | rfl | h
  · rw [keyUnits, keyUnits, if_neg (by omega), if_pos h, Int.natAbs_neg, neg_neg]
  · simp [keyUnits, funits_zero]
  · rw [keyUnits, keyUnits, if_pos (by omega), if_neg (by omega), Int.natAbs_neg]

/-- The opposite key stands for the opposite value. -/
theorem keyValue_neg (k : ℤ) : keyValue (-k) = -keyValue k := by
  unfold keyValue
  rcases lt_or_ge (-0x7F800000) k with hlow | hlow
  · rcases lt_or_ge k 0x7F800000 with hhigh | hhigh
    · rw [if_neg (by omega), if_neg (by omega), if_neg (by omega), if_neg (by omega), keyUnits_neg,
        ← EReal.coe_neg]
      push_cast
      rw [neg_mul]
    · rw [if_neg (by omega), if_pos (by omega), if_pos hhigh, EReal.neg_top]
  · rw [if_pos (by omega), if_neg (by omega), if_pos hlow, EReal.neg_bot]

/-- The absolute key stands for the absolute value. -/
theorem keyValue_abs {k : ℤ} (hk : |k| ≤ 0x7F800000) :
    keyValue |k| = max (keyValue k) (-keyValue k) := by
  have hle := (keyValue_lt_iff hk (b := -k) (by rwa [abs_neg])).not
  have hge := (keyValue_lt_iff (a := -k) (by rwa [abs_neg]) hk).not
  rw [not_lt, not_lt, keyValue_neg] at hle hge
  rcases le_total 0 k with h | h
  · rw [abs_of_nonneg h, max_eq_left (hle.mpr (by omega))]
  · rw [abs_of_nonpos h, max_eq_right (hge.mpr (by omega)), keyValue_neg]

/-- A sign mode acts on a value as on a key. -/
theorem HasValue.applySign {x : Word} {v : EReal} (h : HasValue x v) (m : SignMode) :
    HasValue (Machine.applySign m x) (match m with
      | .keep => v
      | .toggle => -v
      | .clear => max v (-v)
      | .set => -max v (-v)) := by
  obtain ⟨hx, rfl⟩ := (hasValue_iff x v).mp h
  have habs := keyValue_abs (abs_forderKey_le hx)
  refine (hasValue_iff _ _).mpr ⟨by rw [isNaN_applySign, hx], ?_⟩
  rw [forderKey_applySign]
  cases m with
  | keep => rfl
  | toggle => exact (keyValue_neg _).symm
  | clear => exact habs.symm
  | set => exact (habs ▸ keyValue_neg _).symm

/-- A channel of an immediate is the same in every lane (R27). -/
theorem State.readReg_imm (s : State) {k : ℕ} {v : Chans Word} (h : s.prog.imms[k]? = some v)
    (c : Channel) (l : Lane) : s.readReg .imm k c l = v.get c := by
  simp only [State.readReg, h]

section select
variable (s : State) {o : Src} {c : Channel} (ra : Quad ℕ) (l : Lane)

theorem State.select_chan {k : Channel} (h : o.swz.get c = .chan k) :
    s.select o ra c l = s.readReg o.file (ra.get l) k l := by
  simp only [State.select, h]

theorem State.select_zero (h : o.swz.get c = .zero) : s.select o ra c l = 0 := by
  simp only [State.select, h]
  rfl

theorem State.select_one (h : o.swz.get c = .one) : s.select o ra c l = 0x3F800000 := by
  simp only [State.select, h]
  rfl

end select

/-- Settles O46: a sign mode acts on the key of a value, and Fetch goes by its selector. -/
theorem signModeRule : Obligations.SignModeRule := by
  refine ⟨fun x => ⟨⟨rfl, rfl, rfl, rfl⟩, fun v h => ?_⟩, fun s k v h l => ?_,
    fun s o ra c l v hv => ?_⟩
  · exact ⟨h.applySign .toggle, h.applySign .clear, h.applySign .set⟩
  · exact ⟨s.readReg_imm h .x l, s.readReg_imm h .y l, s.readReg_imm h .z l, s.readReg_imm h .w l⟩
  · have hsel : s.select o ra c l = v := by
      rcases hv with ⟨k, hk, rfl⟩ | ⟨hz, rfl⟩ | ⟨ho, rfl⟩
      · exact s.select_chan ra l hk
      · exact s.select_zero ra l hz
      · exact s.select_one ra l ho
    refine ⟨?_, s.fetchLane_get o ra l c⟩
    rw [State.fetch, hsel]
    cases o.sign <;> rfl

/-! ### Saturation (R136) -/

section minMax
variable {x y : Word} {v w : EReal} (hx : HasValue x v) (hy : HasValue y w)
include hx hy

theorem fmin2_of_lt (h : v < w) : fmin2 x y = x :=
  if_pos ((flt_iff_of_hasValue hx hy).mpr h)

theorem fmin2_of_le (h : w ≤ v) : fmin2 x y = y :=
  if_neg fun hlt => h.not_gt ((flt_iff_of_hasValue hx hy).mp hlt)

theorem fmax2_of_lt (h : w < v) : fmax2 x y = x :=
  if_pos ((flt_iff_of_hasValue hy hx).mpr h)

theorem fmax2_of_le (h : v ≤ w) : fmax2 x y = y :=
  if_neg fun hlt => h.not_gt ((flt_iff_of_hasValue hy hx).mp hlt)

end minMax

/-- Where its first operand is a NaN, `fmax2` answers the second. -/
theorem fmax2_of_isNaN {x : Word} (y : Word) (hx : isNaN x = true) : fmax2 x y = y :=
  if_neg (by simp [fgt, flt_eq_false_of_isNaN (.inr hx)])

section clamp
/-! Both saturation modes are a clamp between a lower bound and 1; a NaN takes the lower bound. -/

variable {x lo : Word} {v w : EReal} (hlo : HasValue lo w)
include hlo

theorem clamp_of_isNaN (hw : w < 1) (hx : isNaN x = true) : fmin2 (fmax2 x lo) K_ONE = lo := by
  rw [fmax2_of_isNaN lo hx, fmin2_of_lt hlo hasValue_K_ONE hw]

variable (hx : HasValue x v)
include hx

theorem clamp_of_le (hw : w < 1) (h : v ≤ w) : fmin2 (fmax2 x lo) K_ONE = lo := by
  rw [fmax2_of_le hx hlo h, fmin2_of_lt hlo hasValue_K_ONE hw]

theorem clamp_of_lt_of_lt (hv : w < v) (hv' : v < 1) : fmin2 (fmax2 x lo) K_ONE = x := by
  rw [fmax2_of_lt hx hlo hv, fmin2_of_lt hx hasValue_K_ONE hv']

theorem clamp_of_one_le (hw : w < 1) (h : 1 ≤ v) : fmin2 (fmax2 x lo) K_ONE = K_ONE := by
  rw [fmax2_of_lt hx hlo (hw.trans_le h), fmin2_of_le hx hasValue_K_ONE h]

end clamp

theorem ereal_neg_one_lt_one : (-1 : EReal) < 1 := by
  have h : ((-1 : ℝ) : EReal) < (1 : ℝ) := EReal.coe_lt_coe_iff.mpr (by norm_num)
  simpa using h

/-- Settles O47: the lemmas of the clamp, with the lower bound 0 or -1. -/
theorem saturationRule : Obligations.SaturationRule := by
  intro x
  have h0 : (0 : EReal) < 1 := zero_lt_one
  have h1 := ereal_neg_one_lt_one
  refine ⟨rfl, fun hx => ⟨clamp_of_isNaN hasValue_K_ZERO h0 hx,
    clamp_of_isNaN hasValue_K_MONE h1 hx⟩, fun v hx => ⟨?_, ?_, ?_, ?_, ?_, ?_⟩⟩
  · exact clamp_of_le hasValue_K_ZERO hx h0
  · exact clamp_of_lt_of_lt hasValue_K_ZERO hx
  · exact clamp_of_one_le hasValue_K_ZERO hx h0
  · exact clamp_of_le hasValue_K_MONE hx h1
  · exact clamp_of_lt_of_lt hasValue_K_MONE hx
  · exact clamp_of_one_le hasValue_K_MONE hx h1

/-! ### Condition codes and the final mask (R122, R134, R135, R137) -/

theorem ccCode_of_isNaN {w : Word} (h : isNaN w = true) : ccCode w = .un := by
  simp [ccCode, fgt, flt_eq_false_of_isNaN (.inl h), flt_eq_false_of_isNaN (.inr h),
    feq_eq_false_of_isNaN (.inl h)]

section code
variable {w : Word} {v : EReal} (hw : HasValue w v)
include hw

theorem ccCode_of_pos (h : 0 < v) : ccCode w = .gt :=
  if_pos ((flt_iff_of_hasValue hasValue_K_ZERO hw).mpr h)

theorem ccCode_of_not_pos (h : ¬0 < v) :
    ccCode w = if feq w K_ZERO then .eq else if flt w K_ZERO then .lt else .un :=
  if_neg fun hgt => h ((flt_iff_of_hasValue hasValue_K_ZERO hw).mp hgt)

theorem ccCode_of_zero (h : v = 0) : ccCode w = .eq := by
  rw [ccCode_of_not_pos hw (by simp [h]), if_pos ((feq_iff_of_hasValue hw hasValue_K_ZERO).mpr h)]

theorem ccCode_of_neg (h : v < 0) : ccCode w = .lt := by
  rw [ccCode_of_not_pos hw h.not_gt,
    if_neg fun heq => h.ne ((feq_iff_of_hasValue hw hasValue_K_ZERO).mp heq),
    if_pos ((flt_iff_of_hasValue hw hasValue_K_ZERO).mpr h)]

end code

/-- The predicate passes where there is none, or where its test holds of the selected code (R135). -/
theorem State.ccPass_iff (s : State) (m : Mods) (c : Channel) (l : Lane) : s.ccPass m c l = true ↔
    ∀ p, m.ccPred = some p → ccTest p.test ((s.cc.get (p.swz.get c)).get l) = true := by
  unfold State.ccPass
  cases m.ccPred <;> simp

/-- The final mask is the meet of write mask, ExecMask and predicate (R134). -/
theorem State.covers_iff (s : State) (m : Mods) (d : Dst) (c : Channel) (l : Lane) :
    s.covers m d c l = true ↔
      inWriteMask d c = true ∧ s.execMask.has l = true ∧ s.ccPass m c l = true := by
  rw [State.covers, Bool.and_eq_true, Bool.and_eq_true, and_assoc]

/-- Settles O48: the code by the order of values, the tests code by code, and the final mask by its
three parts. -/
theorem conditionCodeRule : Obligations.ConditionCodeRule := by
  refine ⟨fun w => ⟨ccCode_of_isNaN, fun v hw => ⟨ccCode_of_pos hw, ccCode_of_zero hw,
    ccCode_of_neg hw⟩⟩, fun k => by cases k <;> decide, fun s m d c l => ?_⟩
  rw [State.covers_iff, State.ccPass_iff]
  cases c <;> rfl

/-! ### A lane outside ExecMask (R134, R137, R320, R321) -/

/-- Lane l of the register cells, of the condition codes and of Kill is the same in s and t. -/
structure LaneKept (l : Lane) (s t : State) : Prop where
  cell : ∀ f r c, t.readReg f r c l = s.readReg f r c l
  code : ∀ c, (t.cc.get c).get l = (s.cc.get c).get l
  kill : t.kill.has l = s.kill.has l

/-- A store covers no cell of a dead lane. -/
theorem State.covers_of_dead (s : State) {l : Lane} (hl : s.execMask.has l = false) (m : Mods)
    (d : Dst) (c : Channel) : s.covers m d c l = false := by
  simp [State.covers, hl]

theorem StoreEffect.laneKept {s t : State} {i : ℕ} {m : Mods} {d : Dst} {rd : Quad ℕ}
    {res : Results} (h : StoreEffect s t i m d rd res) {l : Lane}
    (hl : s.execMask.has l = false) : LaneKept l s t where
  cell f r c := by simp [h.cell, s.covers_of_dead hl]
  code c := by simp [h.code, s.covers_of_dead hl]
  kill := by rw [h.rest]

/-- The control-flow instructions keep every lane. -/
theorem FlowEffect.laneKept {s t : State} {i : ℕ} (h : FlowEffect s i t) (l : Lane) :
    LaneKept l s t where
  cell f r c := by cases h <;> rfl
  code c := by cases h <;> rfl
  kill := by rw [h.kill_eq]

/-- Every instruction keeps a lane that is not live. -/
theorem ExecEffect.laneKept {s t : State} {i : ℕ} {ins : Instr} (h : ExecEffect s i ins t)
    (hinv : s.Inv) {l : Lane} (hl : s.execMask.has l = false) : LaneKept l s t := by
  cases h with
  | fatal code => exact ⟨by simp, by simp, by simp⟩
  | store m d rd res hdst htex hd =>
    exact (s.commit_effect hinv.storage_wf i m d hd rd res).laneKept hl
  | texture m d rd req hdst htex hd =>
    have hkept := ((s.issue req).commit_effect hinv.storage_wf i m d hd rd
      (s.response req)).laneKept hl
    exact ⟨by simpa using hkept.cell, hkept.code, hkept.kill⟩
  | await req => exact ⟨by simp, by simp, by simp⟩
  | kill k hdst hflow hk =>
    have hkl : k.has l = false := by
      by_contra hlive
      simp [hk l (by simpa using hlive)] at hl
    exact ⟨fun f r c => by cases f <;> rfl, fun c => rfl, by simp [hkl]⟩
  | flow hflow t ht => exact ht.laneKept l

/-- Settles O43: each thing an instruction can do keeps a lane outside ExecMask. -/
theorem deadLanesUnchanged : Obligations.DeadLanesUnchanged := by
  intro s t i ins l hinv hpc hexec hl
  have hkept := (exec_effect ins hpc hexec).laneKept hinv hl
  exact ⟨hkept.cell, hkept.code, hkept.kill⟩

/-! ### The round trip of MOV (R138) -/

/-- A fetch with the identity swizzle and no modifier reads the register. -/
theorem State.fetch_identity (s : State) {o : Src}
    (hswz : o.swz = ⟨.chan .x, .chan .y, .chan .z, .chan .w⟩) (hsign : o.sign = .keep)
    (hcomp : o.complement = false) (ra : Quad ℕ) (c : Channel) (l : Lane) :
    s.fetch o ra c l = s.readReg o.file (ra.get l) c l := by
  have hchan : o.swz.get c = .chan c := by rw [hswz]; cases c <;> rfl
  simp [State.fetch, s.select_chan ra l hchan, hsign, hcomp, applySign]

/-- With the full write mask, all lanes live and no predicate, a store covers every cell. -/
theorem State.covers_of_full (s : State) {m : Mods} {d : Dst} (hmask : d.writeMask = 0xF)
    (hlive : s.execMask = 0xF) (hpred : m.ccPred = none) (c : Channel) (l : Lane) :
    s.covers m d c l = true := by
  rw [State.covers_iff, State.ccPass_iff, inWriteMask, hmask, hlive]
  exact ⟨by cases c <;> rfl, by revert l; decide, by simp [hpred]⟩

/-- Settles O45: MOV stores what it fetched in every cell of the destination. -/
theorem movRoundTrip : Obligations.MovRoundTrip := by
  intro s i m d a o rd ra hready hsat hpred hmask hlive hnull hfile hswz hsign hcomp
  obtain ⟨t, hexec, heff⟩ := alu1_effect hready (comp1 fun x => x)
  refine ⟨t, hexec, fun c l => ?_⟩
  calc t.fetch o rd c l
      = t.readReg d.file (rd.get l) c l := by rw [t.fetch_identity hswz hsign hcomp, hfile]
    _ = saturate m.sat (s.fetch a ra c l) := by
        rw [heff.cell, if_pos ⟨hnull, rfl, rfl, s.covers_of_full hmask hlive hpred c l⟩]
        simp [comp1]
    _ = s.fetch a ra c l := by rw [hsat]; rfl

end Sys2Proof.Machine
end

section
/-! PROOFS. The control-flow family (spec/41_exec_mask_flow.md): the masks stay nested in their
stacks under every step, and what each instruction of the execution-mask stack machine does, from
the ways its frame can end. -/

namespace Sys2Proof

/-! ### Flipping a mask within the one its IF saved (R166) -/

/-- The lanes of a branch and those its ELSE makes live are disjoint. -/
theorem LaneMask.and_flip (m n : LaneMask) : n &&& (~~~n &&& m) = 0 :=
  LaneMask.ext_has fun l => by cases hn : n.has l <;> simp [hn]

/-- They are together the lanes that the IF saved. -/
theorem LaneMask.or_flip {m n : LaneMask} (h : LaneMask.sub n m) : n ||| (~~~n &&& m) = m := by
  rw [← h]
  exact LaneMask.ext_has fun l => by cases hn : n.has l <;> simp [hn]

/-- A second ELSE flips back. -/
theorem LaneMask.flip_flip {m n : LaneMask} (h : LaneMask.sub n m) :
    ~~~(~~~n &&& m) &&& m = n := by
  rw [← h]
  exact LaneMask.ext_has fun l => by cases hn : n.has l <;> simp [hn]

end Sys2Proof

namespace Sys2Proof.Machine

/-! ### Masks nested in their stacks (R165 to R176) -/

/-- The current mask is replaced by a submask of the top entry, which stays. -/
theorem nested_of_sub_top {st : List LaneMask} {m n top : LaneMask} (h : nested st m)
    (htop : st.getLast? = some top) (hn : LaneMask.sub n top) : nested st n := by
  obtain ⟨below, rfl⟩ := List.getLast?_eq_some_iff.mp htop
  exact nested_top h hn

/-- The top entry is taken off the stack and becomes the current mask. -/
theorem nested_dropLast {st : List LaneMask} {m top : LaneMask} (h : nested st m)
    (htop : st.getLast? = some top) : nested st.dropLast top := by
  obtain ⟨below, rfl⟩ := List.getLast?_eq_some_iff.mp htop
  rw [List.dropLast_concat]
  exact nested_pop h

/-- Each move narrows a mask, pushes one, or goes back to a saved one, and ELSE, whose new mask is
no submask of the old one, stays within the entry that its IF saved. -/
theorem FlowEffect.masksNested {s t : State} {i : Nat} (ht : FlowEffect s i t)
    (h : s.MasksNested) : t.MasksNested := by
  cases ht with
  | advance | halt => exact { h with }
  | enterIf cond => exact { h with cond := nested_push h.cond (LaneMask.and_sub_left _ _) }
  | flip top htop =>
    exact { h with cond := nested_of_sub_top h.cond htop (LaneMask.and_sub_right _ _) }
  | leaveIf top htop => exact { h with cond := nested_dropLast h.cond htop }
  | enterLoop =>
    exact { h with
      loop := nested_push h.loop (LaneMask.sub_refl _)
      cont := nested_push h.cont (LaneMask.sub_refl _) }
  | again label top htop =>
    exact { h with cont := nested_of_sub_top h.cont htop (LaneMask.sub_refl _) }
  | leaveLoop loopTop contTop hloop hcont =>
    exact { h with loop := nested_dropLast h.loop hloop, cont := nested_dropLast h.cont hcont }
  | breakLanes => exact { h with loop := nested_narrow h.loop (LaneMask.and_sub_left _ _) }
  | continueLanes => exact { h with cont := nested_narrow h.cont (LaneMask.and_sub_left _ _) }
  | call =>
    exact ⟨nested_push h.cond (LaneMask.sub_refl _), nested_push h.loop (LaneMask.sub_refl _),
      nested_push h.cont (LaneMask.sub_refl _), nested_push h.func (LaneMask.sub_refl _)⟩
  | returnLanes | returnHalt =>
    exact { h with func := nested_narrow h.func (LaneMask.and_sub_left _ _) }
  | returnCall _ e _ cond loop cont func hcond hloop hcont hfunc =>
    exact ⟨nested_take h.cond hcond, nested_take h.loop hloop, nested_take h.cont hcont,
      nested_dropLast h.func hfunc⟩

/-- Outside the moves of the control-flow instructions nothing touches the masks or the stacks. -/
theorem ExecEffect.masksNested {s t : State} {i : Nat} {ins : Instr} (ht : ExecEffect s i ins t)
    (h : s.MasksNested) : t.MasksNested := by
  cases ht with
  | fatal | await | kill => exact { h with }
  | store | texture =>
    exact ⟨by simpa using h.cond, by simpa using h.loop, by simpa using h.cont,
      by simpa using h.func⟩
  | flow hflow t ht => exact ht.masksNested h

theorem StepEffect.masksNested {s t : State} (ht : StepEffect s t) (h : s.MasksNested) :
    t.MasksNested := by
  cases ht with
  | hold | finish | runOff | unknown => exact { h with }
  | instr _ _ _ _ _ _ _ t _ ht => exact ht.masksNested h

/-- Settles O40: each thing a step can do keeps each of the four masks nested. -/
theorem stepKeepsMasksNested : Obligations.StepKeepsMasksNested :=
  fun _ _ h hstep => (step_effect hstep).masksNested h

/-! ### Field checks beside the header's (R102) -/

section checks
variable {s : State} {i : Nat} {h : HdrReserved} {P : Prop} [Decidable P]
  {body : Nat → Except FatalCode State}

/-- A header bit set or a failed check P, and the instruction takes ILLEGAL_ENCODING. -/
theorem flowFrame_check_illegal (hpc : s.pc = .running i) (hbad : h ≠ 0 ∨ ¬P) :
    flowFrame h s (fun i => if P then body i else .error .illegalEncoding) =
      .next (s.raiseFatal .illegalEncoding i) := by
  by_cases hh : h = 0
  · exact flowFrame_error hpc hh (if_neg (hbad.resolve_left (not_not_intro hh)))
  · exact flowFrame_illegal hpc hh

theorem flowFrame_check_ok {t : State} (hpc : s.pc = .running i) (hh : h = 0) (hP : P)
    (hb : body i = .ok t) :
    flowFrame h s (fun i => if P then body i else .error .illegalEncoding) = .next t :=
  flowFrame_ok hpc hh ((if_pos hP).trans hb)

theorem flowFrame_check_error {code : FatalCode} (hpc : s.pc = .running i) (hh : h = 0) (hP : P)
    (hb : body i = .error code) :
    flowFrame h s (fun i => if P then body i else .error .illegalEncoding) =
      .next (s.raiseFatal code i) :=
  flowFrame_error hpc hh ((if_pos hP).trans hb)

end checks

/-! ### IF, ELSE and ENDIF (R165 to R167) -/

/-- Cond after an IF, lane by lane: the lanes whose operand is not the all-zero pattern. -/
theorem State.condMask_and_trueLanes (s : State) (a : Src) (ra : Quad Nat) :
    s.condMask &&& s.trueLanes a ra =
      LaneMask.ofLanes fun l => s.condMask.has l && s.fetch a ra .x l != 0 :=
  LaneMask.ext_has fun l => by simp [State.trueLanes]

section branches
variable {s t : State} {i : Nat} (hpc : s.pc = .running i)
include hpc

/-- An IF that leaves the Run going has pushed Cond and narrowed it. -/
theorem execIf_running {h : HdrReserved} {a : Src} (hx : execIf h a s = .next t)
    (ht : t.status = .running) :
    t.condStack = s.condStack ++ [s.condMask] ∧ LaneMask.sub t.condMask s.condMask := by
  rcases flowFrame_cases hpc hx with ⟨-, hb⟩ | ⟨code, rfl⟩
  · split_ifs at hb
    all_goals split at hb
    all_goals cases hb
    exact ⟨rfl, LaneMask.and_sub_left _ _⟩
  · cases ht

theorem execElse_next {below : List LaneMask} {top : LaneMask}
    (hstack : s.condStack = below ++ [top]) :
    execElse 0 s =
      .next { s with condMask := ~~~s.condMask &&& top, pc := s.pcAt (i + 1) } :=
  flowFrame_ok hpc rfl (by rw [hstack, List.getLast?_concat]; rfl)

theorem execEndif_next {below : List LaneMask} {top : LaneMask}
    (hstack : s.condStack = below ++ [top]) :
    execEndif 0 s =
      .next { s with condMask := top, condStack := below, pc := s.pcAt (i + 1) } :=
  flowFrame_ok hpc rfl (by rw [hstack, List.getLast?_concat, List.dropLast_concat]; rfl)

end branches

/-- Settles O25: the field checks, the operand and the room on CondStack, in the order of IF. -/
theorem ifResult : Obligations.IfResult := by
  refine ⟨IsSrcOnly.decode_eq {}, fun s i h a hpc => ?_⟩
  simp only [exec]
  refine ⟨fun hbad => ?_, fun hh hwf => ⟨fun hout => ?_, fun ra hra => ?_⟩⟩
  · exact flowFrame_check_illegal hpc (by simpa [srcLegal] using hbad)
  · exact execIf_outside hpc (by simp [hh, hwf, hdrWellFormed])
      ((s.resolveSrc_eq_none_iff a).mpr hout)
  · have hres := (s.resolveSrc_eq_some_iff a ra).mpr hra
    refine ⟨fun hfull => flowFrame_check_error hpc hh hwf ?_,
      fun hroom => flowFrame_check_ok hpc hh hwf ?_⟩
    · simp only [hres, (stackFull_eq_true _ _).mpr hfull, if_true]
    · simp only [hres, (stackFull_eq_false _ _).mpr hroom, s.condMask_and_trueLanes]
      rfl

/-- Settles O26: an empty CondStack has no last entry; a non-empty one is what lies below its top,
and the top. -/
theorem elseEndifResult : Obligations.ElseEndifResult := by
  refine ⟨fun r => ⟨IsFlow.decode_eq {} r, IsFlow.decode_eq {} r⟩, fun s i hpc =>
    ⟨fun h hh => ?_, fun hempty => ?_, fun below top hstack => ?_⟩⟩
  · exact ⟨flowFrame_illegal hpc hh, flowFrame_illegal hpc hh⟩
  · exact ⟨flowFrame_error hpc rfl (by rw [hempty]; rfl),
      flowFrame_error hpc rfl (by rw [hempty]; rfl)⟩
  · exact ⟨execElse_next hpc hstack, execEndif_next hpc hstack⟩

/-! ### The branches of an IF partition its live lanes (R166, R167, R178) -/

/-- Settles O32: the IF leaves the old Cond on top of its stack and a submask of it in Cond; each
ELSE flips within that top, and the ENDIF takes it back. -/
theorem ifElseEndifLaw : Obligations.IfElseEndifLaw := by
  intro s t u u' v v' w w' i j k n a hs hif ht _ hu hum hust helse hv hvm hvst helse' hw hwst hendif
  obtain ⟨hstack, hsub⟩ := execIf_running hs hif ht
  have hus : u.condStack = s.condStack ++ [s.condMask] := hust.trans hstack
  cases (execElse_next hu hus).symm.trans helse
  cases (execElse_next hv (hvst.trans hus)).symm.trans helse'
  cases (execEndif_next hw (hwst.trans hstack)).symm.trans hendif
  simp only [hvm, hum, and_true]
  exact ⟨LaneMask.and_flip _ _, LaneMask.or_flip hsub, hust, LaneMask.flip_flip hsub⟩

/-! ### The markers and END (R162 to R164, R177) -/

/-- Settles O24: none of the four has a way to end but its move and the header check. -/
theorem nopMarkersAndEnd : Obligations.NopMarkersAndEnd := by
  refine ⟨fun r => ⟨IsFlow.decode_eq {} r, IsFlow.decode_eq {} r, IsFlow.decode_eq {} r,
    IsFlow.decode_eq {} r⟩, fun s i hpc => ?_⟩
  simp only [exec]
  exact ⟨flowFrame_ok hpc rfl rfl, flowFrame_ok hpc rfl rfl, flowFrame_ok hpc rfl rfl,
    flowFrame_ok hpc rfl rfl, fun _ hh => ⟨flowFrame_illegal hpc hh, flowFrame_illegal hpc hh,
      flowFrame_illegal hpc hh, flowFrame_illegal hpc hh⟩⟩

/-! ### Loops (R168 to R171) -/

/-- Settles O27: the two stacks are looked at together, before either is pushed. -/
theorem bgnloopResult : Obligations.BgnloopResult := by
  refine ⟨IsFlow.decode_eq {}, fun s i hpc => ?_⟩
  simp only [exec]
  refine ⟨fun h hh => flowFrame_illegal hpc hh, fun hfull => flowFrame_error hpc rfl (if_pos ?_),
    fun hloop hcont => flowFrame_ok hpc rfl (if_neg ?_)⟩
  · simpa [stackFull] using hfull
  · simp [stackFull, hloop, hcont]

/-- Settles O28: behind the header and label checks, the tops of both stacks and then the lanes that
are live with Cont restored decide. -/
theorem endloopResult : Obligations.EndloopResult := by
  refine ⟨fun _ => decode_endloop, fun s i h label hpc => ?_⟩
  simp only [exec]
  refine ⟨fun hbad => flowFrame_check_illegal hpc (by simpa using hbad), fun hh hlabel =>
    ⟨fun hempty => flowFrame_check_error hpc hh hlabel ?_,
      fun loops loopTop conts contTop hloop hcont =>
        ⟨fun hlive => flowFrame_check_ok hpc hh hlabel ?_,
          fun hdead => flowFrame_check_ok hpc hh hlabel ?_⟩⟩⟩
  · rcases hempty with hempty | hempty
    · rw [hempty]; rfl
    · rw [hempty]; cases s.loopStack.getLast? <;> rfl
  · rw [hloop, hcont, List.getLast?_concat, List.getLast?_concat]
    exact if_pos hlive
  · rw [hloop, hcont, List.getLast?_concat, List.getLast?_concat, List.dropLast_concat,
      List.dropLast_concat]
    exact if_neg (not_not_intro hdead)

/-- Settles O29: neither has a way to end but its move and the header check. -/
theorem brkContResult : Obligations.BrkContResult := by
  refine ⟨fun r => ⟨IsFlow.decode_eq {} r, IsFlow.decode_eq {} r⟩, fun s i hpc => ?_⟩
  simp only [exec]
  exact ⟨fun _ hh => ⟨flowFrame_illegal hpc hh, flowFrame_illegal hpc hh⟩,
    flowFrame_ok hpc rfl rfl, flowFrame_ok hpc rfl rfl⟩

/-! ### Calls (R175, R176) -/

/-- One of the five stacks of a CAL holds MAX_NEST entries (R175). -/
theorem State.anyStackFull_iff (s : State) : s.anyStackFull = true ↔
    s.cfg.maxNest ≤ s.callStack.length ∨ s.cfg.maxNest ≤ s.condStack.length ∨
      s.cfg.maxNest ≤ s.loopStack.length ∨ s.cfg.maxNest ≤ s.contStack.length ∨
      s.cfg.maxNest ≤ s.funcStack.length := by
  simp [State.anyStackFull, stackFull_eq_true, or_assoc]

/-- Settles O30: behind the header and label checks, a live lane decides whether the call is taken,
and only then the five stacks are looked at. -/
theorem calResult : Obligations.CalResult := by
  refine ⟨fun _ => decode_cal, fun s i h label hpc => ?_⟩
  simp only [exec]
  refine ⟨fun hbad => flowFrame_check_illegal hpc (by simpa using hbad), fun hh hlabel =>
    ⟨fun hdead => flowFrame_check_ok hpc hh hlabel (if_neg (not_not_intro hdead)),
      fun hlive hfull => flowFrame_check_error hpc hh hlabel ((if_pos hlive).trans (if_pos ?_)),
      fun hlive hroom => flowFrame_check_ok hpc hh hlabel ((if_pos hlive).trans (if_neg ?_))⟩⟩
  · exact s.anyStackFull_iff.mpr hfull
  · exact mt s.anyStackFull_iff.mp hroom

/-- A return restores the masks at the recorded depths and the top of FuncStack (R176). -/
theorem State.returnTo_eq_some {s : State} {e : CallEntry} {calls : List CallEntry}
    {funcs : List LaneMask} {cond loop cont func : LaneMask} (hcall : s.callStack = calls ++ [e])
    (hfunc : s.funcStack = funcs ++ [func]) (hcond : s.condStack[e.condDepth]? = some cond)
    (hloop : s.loopStack[e.loopDepth]? = some loop)
    (hcont : s.contStack[e.contDepth]? = some cont) :
    s.returnTo e = some { s with
      callStack := calls, funcMask := func, funcStack := funcs
      condMask := cond, condStack := s.condStack.take e.condDepth
      loopMask := loop, loopStack := s.loopStack.take e.loopDepth
      contMask := cont, contStack := s.contStack.take e.contDepth
      pc := s.pcAt e.retPc } := by
  rw [State.returnTo, hcond, hloop, hcont, hfunc, hcall, List.getLast?_concat,
    List.dropLast_concat, List.dropLast_concat]
  rfl

/-- A mask that the callee has popped cannot be restored (R176). -/
theorem State.returnTo_eq_none {s : State} {e : CallEntry}
    (h : s.condStack.length ≤ e.condDepth ∨ s.loopStack.length ≤ e.loopDepth ∨
      s.contStack.length ≤ e.contDepth) : s.returnTo e = none := by
  simp only [← List.getElem?_eq_none_iff] at h
  unfold State.returnTo
  split
  · next hcond hloop hcont hfunc => simp [hcond, hloop, hcont] at h
  · rfl

/-- Settles O31: Func without the live lanes decides first, then the top of CallStack, then whether
the masks of that call can be restored. -/
theorem retResult : Obligations.RetResult := by
  refine ⟨IsFlow.decode_eq {}, fun s i hpc => ?_⟩
  simp only [exec]
  refine ⟨fun h hh => flowFrame_illegal hpc hh,
    fun hfunc => flowFrame_ok hpc rfl (if_pos hfunc), fun hfunc hempty => ?_,
    fun hfunc calls e funcs funcTop hcall hfuncs => ⟨fun hpopped => ?_,
      fun cond loop cont hcond hloop hcont => ?_⟩⟩
  · refine flowFrame_ok hpc rfl ((if_neg (not_not_intro hfunc)).trans ?_)
    rw [hempty]
    rfl
  · refine flowFrame_error hpc rfl ((if_neg (not_not_intro hfunc)).trans ?_)
    simp only [hcall, List.getLast?_concat, State.returnTo_eq_none hpopped]
  · refine flowFrame_ok hpc rfl ((if_neg (not_not_intro hfunc)).trans ?_)
    simp only [hcall, List.getLast?_concat, State.returnTo_eq_some hcall hfuncs hcond hloop hcont]

end Sys2Proof.Machine
end

section
/-! PROOFS. The float ALU (spec/42_float_alu.md): the componentwise instructions, the divisions, the
set-on-compare instructions and the selects, each by the format of its record and the frame it runs
in. -/

namespace Sys2Proof.Machine

/-! ### From a format and a frame to the effect (R194) -/

section computes
variable {op : BitVec 8}

/-- An opcode with one source whose meaning is the frame over `g` computes `g`. -/
theorem IsAlu1.computes {mk : Mods → Dst → Src → Instr} (hop : IsAlu1 op mk)
    {g : Cfg → Chans Word → Channel → Option Word}
    (hexec : ∀ m d a s, exec (mk m d a) s = alu1 m d a (g s.cfg) s) : Computes1 op mk g :=
  ⟨hop.decode_eq, fun s _ m d a _ _ h => hexec m d a s ▸ alu1_effect h (g s.cfg)⟩

/-- An opcode with two sources whose meaning is the frame over `g` computes `g`. -/
theorem IsAlu2.computes {mk : Mods → Dst → Src → Src → Instr} (hop : IsAlu2 op mk)
    {g : Cfg → Chans Word → Chans Word → Channel → Option Word}
    (hexec : ∀ m d a b s, exec (mk m d a b) s = alu2 m d a b (g s.cfg) s) : Computes2 op mk g :=
  ⟨hop.decode_eq, fun s _ m d a b _ _ _ h => hexec m d a b s ▸ alu2_effect h (g s.cfg)⟩

/-- An opcode with three sources whose meaning is the frame over `g` computes `g`. -/
theorem IsAlu3.computes {mk : Mods → Dst → Src → Src → Src → Instr} (hop : IsAlu3 op mk)
    {g : Cfg → Chans Word → Chans Word → Chans Word → Channel → Option Word}
    (hexec : ∀ m d a b e s, exec (mk m d a b e) s = alu3 m d a b e (g s.cfg) s) :
    Computes3 op mk g :=
  ⟨hop.decode_eq, fun s _ m d a b e _ _ _ _ h => hexec m d a b e s ▸ alu3_effect h (g s.cfg)⟩

end computes

/-! ### Move, arithmetic and rounding (R200 to R219) -/

/-- Settles O10: each opcode has the one-source format, and its meaning is the frame over its
formula. -/
theorem floatUnaryResults : Obligations.FloatUnaryResults := by
  refine ⟨?mov, ?neg, ?ex2, ?lg2, ?flr, ?ceil, ?round, ?trunc, ?frc⟩
  all_goals exact IsAlu1.computes {} fun _ _ _ _ => rfl

/-- Settles O11: each opcode has the format of its two or three sources, and its meaning is the
frame over its formula. -/
theorem floatArithmeticResults : Obligations.FloatArithmeticResults := by
  refine ⟨?add, ?sub, ?mul, ?pow, ?min, ?max, ?mad, ?lrp⟩
  case mad | lrp => exact IsAlu3.computes {} fun _ _ _ _ _ _ => rfl
  all_goals exact IsAlu2.computes {} fun _ _ _ _ _ => rfl

/-! ### Divisions (R195, R204, R206, R207) -/

/-- Settles O12: the divisions are the frame over the divide primitive, which leaves the lane of a
zero divisor out. -/
theorem floatDivisionResults : Obligations.FloatDivisionResults :=
  ⟨IsAlu2.computes {} fun _ _ _ _ _ => rfl, IsAlu1.computes {} fun _ _ _ _ => rfl,
    IsAlu1.computes {} fun _ _ _ _ => rfl⟩

/-! ### Set on compare, and selects (R220 to R225, R280) -/

/-- MOVC's test of a pattern is a test of its number (R280). -/
theorem comp3_select_truth : comp3 (fun x y z => if x ≠ 0 then y else z) =
    fun a b e c => some (if (a.get c).toNat ≠ 0 then b.get c else e.get c) := by
  funext a b e c
  have htruth : a.get c ≠ 0 ↔ (a.get c).toNat ≠ 0 := BitVec.toNat_ne
  exact congrArg some (if_congr htruth rfl rfl)

/-- Settles O13: the comparisons and CMP are the frame over their formula; MOVC by
`comp3_select_truth`. -/
theorem compareAndSelectResults : Obligations.CompareAndSelectResults := by
  refine ⟨?slt, ?sle, ?sge, ?seq, ?sne, ?cmp, ?movc⟩
  case cmp => exact IsAlu3.computes {} fun _ _ _ _ _ _ => rfl
  case movc =>
    exact IsAlu3.computes {} fun m d a b e s => congrArg (alu3 m d a b e · s) comp3_select_truth
  all_goals exact IsAlu2.computes {} fun _ _ _ _ _ => rfl

end Sys2Proof.Machine
end

section
/-! PROOFS. The float format and the comparisons (spec/42_float_alu.md R190, R193): the value of a
pattern by its fields, and the six comparisons from the order of the values. -/

namespace Sys2Proof.Machine

/-! ### The format (R190) -/

theorem fview_of_exponent_zero {x : Word} (h : (fexponent x).toNat = 0) :
    fview x = .fin (fsign x) (ffraction x).toNat (-149) := by
  simp [fview, h]

theorem fview_of_exponent_between {x : Word} (h0 : 0 < (fexponent x).toNat)
    (h255 : (fexponent x).toNat < 255) :
    fview x = .fin (fsign x) (2 ^ 23 + (ffraction x).toNat) ((fexponent x).toNat - 150) := by
  simp [fview, h0.ne', h255.ne]

theorem fvalue_of_fview_fin {x : Word} {neg : Bool} {m : ℕ} {e : ℤ} (h : fview x = .fin neg m e) :
    fvalue x = some ((if neg then -1 else 1) * (m : ℚ) * (2 : ℚ) ^ e) := by
  simp [fvalue, h]

theorem isNaN_iff_fields (x : Word) :
    isNaN x = true ↔ (fexponent x).toNat = 255 ∧ (ffraction x).toNat ≠ 0 := by
  rw [isNaN_iff, fexponent_toNat, ffraction_toNat]
  have := fmag_lt x
  omega

theorem isInf_iff_fields (x : Word) :
    isInf x = true ↔ (fexponent x).toNat = 255 ∧ (ffraction x).toNat = 0 := by
  rw [isInf_iff, fexponent_toNat, ffraction_toNat]
  have := fmag_lt x
  omega

theorem fview_of_isInf {x : Word} (h : isInf x = true) : fview x = .inf (fsign x) :=
  fview_inf ((isInf_iff x).mp h)

theorem fview_of_isNaN {x : Word} (h : isNaN x = true) : fview x = .nan :=
  fview_nan ((isNaN_iff x).mp h)

/-- Settles O49: one clause for each range of the exponent field. -/
theorem floatFormat : Obligations.FloatFormat := by
  intro x
  refine ⟨isNaN_iff_fields x, fun hexp hfrac => ?inf, fun hexp => ?subnormal,
    fun hpos hlt => ?normal⟩
  case inf =>
    have hinf := fview_of_isInf ((isInf_iff_fields x).mpr ⟨hexp, hfrac⟩)
    rw [HasValue, hinf]
    rfl
  case subnormal =>
    rw [fvalue_of_fview_fin (fview_of_exponent_zero hexp), zpow_neg, ← div_eq_mul_inv]
    rfl
  case normal =>
    have hscale : ((2 : ℚ) ^ 23 + (ffraction x).toNat) * 2 ^ (((fexponent x).toNat : ℤ) - 150) =
        (1 + (ffraction x).toNat / 2 ^ 23) * 2 ^ (((fexponent x).toNat : ℤ) - 127) := by
      rw [show ((fexponent x).toNat : ℤ) - 127 = (fexponent x).toNat - 150 + (23 : ℕ) by ring,
        zpow_add₀ two_ne_zero, zpow_natCast]
      ring
    rw [fvalue_of_fview_fin (fview_of_exponent_between hpos hlt)]
    rw [Nat.cast_add, Nat.cast_pow, Nat.cast_ofNat, mul_assoc, hscale, ← mul_assoc]
    rfl

/-! ### The comparisons (R193) -/

theorem fle_eq_false_of_isNaN {x y : Word} (h : isNaN x = true ∨ isNaN y = true) :
    fle x y = false := by
  rcases h with h | h <;> simp [fle, fordered, h]

/-- Of two patterns that are no NaN, one is at most the other where the other is not below it. -/
theorem fle_eq_not_flt {x y : Word} (hx : isNaN x = false) (hy : isNaN y = false) :
    fle x y = !flt y x := by
  simp only [fle, flt, fordered, hx, hy, Bool.not_false, Bool.and_self, Bool.true_and,
    ← decide_not, not_lt]

theorem fle_iff_of_hasValue {x y : Word} {v w : EReal} (hx : HasValue x v) (hy : HasValue y w) :
    fle x y = true ↔ v ≤ w := by
  rw [fle_eq_not_flt hx.isNaN_eq hy.isNaN_eq, Bool.not_eq_true', ← Bool.not_eq_true,
    flt_iff_of_hasValue hy hx, not_lt]

theorem fne_iff_of_hasValue {x y : Word} {v w : EReal} (hx : HasValue x v) (hy : HasValue y w) :
    fne x y = true ↔ v ≠ w := by
  rw [fne, Bool.not_eq_true', ← Bool.not_eq_true, feq_iff_of_hasValue hx hy]

/-- Settles O50: with a NaN no comparison but `fne` holds; without one each compares the values. -/
theorem comparisonsByValue : Obligations.ComparisonsByValue := by
  intro a b
  refine ⟨fun hnan => ?unordered, fun p q ha hb => ?ordered⟩
  case unordered =>
    have heq := feq_eq_false_of_isNaN hnan
    exact ⟨by rw [fne, heq, Bool.not_false], flt_eq_false_of_isNaN hnan,
      fle_eq_false_of_isNaN hnan, flt_eq_false_of_isNaN hnan.symm,
      fle_eq_false_of_isNaN hnan.symm, heq⟩
  case ordered =>
    exact ⟨flt_iff_of_hasValue ha hb, fle_iff_of_hasValue ha hb, flt_iff_of_hasValue hb ha,
      fle_iff_of_hasValue hb ha, feq_iff_of_hasValue ha hb, fne_iff_of_hasValue ha hb⟩

end Sys2Proof.Machine
end

section
/-! PROOFS. Correct rounding (spec/42_float_alu.md R192): the exact sum, product, quotient and root
of finite values, and that packing them rounds the exact result once. -/

namespace Sys2Proof.Machine

/-! ### Finite values with their sign (R190) -/

/-- The number (-1)^neg * m * 2^e. -/
def finValue (neg : Bool) (m : ℕ) (e : ℤ) : ℚ := (if neg then -1 else 1) * (m : ℚ) * (2 : ℚ) ^ e

/-- v is the finite number p, and `neg` is its sign, which a zero has too. -/
def FloatView.IsFinite (v : FloatView) (neg : Bool) (p : ℚ) : Prop :=
  ∃ m e, v = .fin neg m e ∧ finValue neg m e = p

theorem cast_finValue (neg : Bool) (m : ℕ) (e : ℤ) :
    ((finValue neg m e : ℚ) : ℝ) = (if neg then -1 else 1) * (m : ℝ) * (2 : ℝ) ^ e := by
  cases neg <;> simp [finValue]

/-- The sign of a product or quotient is the product of the signs. -/
theorem sign_bne {K : Type} [Field K] (s t : Bool) : (if (s != t) then (-1 : K) else 1) =
    (if s then -1 else 1) * (if t then -1 else 1) := by
  cases s <;> cases t <;> simp

theorem finValue_eq_signedInt (neg : Bool) (m : ℕ) (e : ℤ) :
    finValue neg m e = (signedInt neg m : ℚ) * (2 : ℚ) ^ e := by
  cases neg <;> simp [finValue, signedInt]

theorem finValue_eq_zero_iff {neg : Bool} {m : ℕ} {e : ℤ} : finValue neg m e = 0 ↔ m = 0 := by
  cases neg <;> simp [finValue, zpow_ne_zero]

/-- The numbers below zero have the sign bit set and a significand that is not zero. -/
theorem finValue_neg_iff {neg : Bool} {m : ℕ} {e : ℤ} :
    finValue neg m e < 0 ↔ neg = true ∧ m ≠ 0 := by
  have hpos : (0 : ℚ) < 2 ^ e := zpow_pos two_pos e
  cases neg
  · have : (0 : ℚ) ≤ m * 2 ^ e := by positivity
    simpa [finValue] using this
  · simp [finValue, hpos, Nat.pos_iff_ne_zero]

theorem finValue_not (neg : Bool) (m : ℕ) (e : ℤ) : finValue (!neg) m e = -finValue neg m e := by
  cases neg <;> simp [finValue]

theorem finValue_mul (s t : Bool) (m n : ℕ) (e f : ℤ) :
    finValue (s != t) (m * n) (e + f) = finValue s m e * finValue t n f := by
  rw [finValue, finValue, finValue, sign_bne, zpow_add₀ two_ne_zero]
  push_cast
  ring

/-- A value as a multiple of a smaller power of two. -/
theorem finValue_rescale (neg : Bool) (m : ℕ) {e g : ℤ} (h : g ≤ e) :
    finValue neg (m * 2 ^ (e - g).toNat) g = finValue neg m e := by
  have hpow : (2 : ℚ) ^ (e - g).toNat * 2 ^ g = 2 ^ e := by
    rw [← zpow_natCast, ← zpow_add₀ two_ne_zero]
    congr 1
    omega
  rw [finValue, finValue, ← hpow]
  push_cast
  ring

theorem signedInt_natAbs (z : ℤ) : signedInt (decide (z < 0)) z.natAbs = z := by
  by_cases h : z < 0
  · simp only [signedInt, h, decide_true, if_true]
    omega
  · simp only [signedInt, h, decide_false, Bool.false_eq_true, if_false]
    omega

theorem fvalue_eq_some_iff {x : Word} {p : ℚ} :
    fvalue x = some p ↔ ∃ neg, (fview x).IsFinite neg p := by
  unfold fvalue FloatView.IsFinite finValue
  cases fview x <;> simp

/-- A view's sign is the sign bit of its pattern. -/
theorem sign_of_fview_fin {x : Word} {neg : Bool} {m : ℕ} {e : ℤ} (h : fview x = .fin neg m e) :
    neg = fsign x := by
  have hlt := (fvalue_isSome_iff x).mp ⟨_, fvalue_eq_some_iff.mpr ⟨neg, m, e, h, rfl⟩⟩
  obtain ⟨m', e', h', -⟩ := fview_fin hlt
  rw [h, FloatView.fin.injEq] at h'
  exact h'.1

theorem significand_lt_of_fview_fin {x : Word} {neg : Bool} {m : ℕ} {e : ℤ}
    (h : fview x = .fin neg m e) : m < 2 ^ 24 := by
  have hlt := (fvalue_isSome_iff x).mp ⟨_, fvalue_eq_some_iff.mpr ⟨neg, m, e, h, rfl⟩⟩
  obtain ⟨m', e', h', -, -, hm, -⟩ := fview_fin hlt
  rw [h, FloatView.fin.injEq] at h'
  exact h'.2.1 ▸ hm

theorem isFinite_of_fvalue {x : Word} {p : ℚ} (h : fvalue x = some p) :
    (fview x).IsFinite (fsign x) p := by
  obtain ⟨neg, m, e, hv, hp⟩ := fvalue_eq_some_iff.mp h
  obtain rfl := sign_of_fview_fin hv
  exact ⟨m, e, hv, hp⟩

/-! ### The exact operations (R192) -/

section exact
variable {v w : FloatView} {s t : Bool} {p q : ℚ}

theorem FloatView.IsFinite.neg (hv : v.IsFinite s p) : v.neg.IsFinite (!s) (-p) := by
  obtain ⟨m, e, rfl, rfl⟩ := hv
  exact ⟨m, e, rfl, finValue_not s m e⟩

theorem FloatView.IsFinite.mul (hv : v.IsFinite s p) (hw : w.IsFinite t q) :
    (v.mul w).IsFinite (s != t) (p * q) := by
  obtain ⟨m, e, rfl, rfl⟩ := hv
  obtain ⟨n, f, rfl, rfl⟩ := hw
  exact ⟨m * n, e + f, rfl, finValue_mul s t m n e f⟩

/-- The exact sum; where it is zero it is negative only if both operands are. -/
theorem FloatView.IsFinite.add (hv : v.IsFinite s p) (hw : w.IsFinite t q) :
    ∃ u, (v.add w).IsFinite u (p + q) ∧ (p + q = 0 → u = (s && t)) := by
  obtain ⟨m, e, rfl, rfl⟩ := hv
  obtain ⟨n, f, rfl, rfl⟩ := hw
  simp only [FloatView.add]
  have hp := finValue_rescale s m (min_le_left e f)
  have hq := finValue_rescale t n (min_le_right e f)
  generalize min e f = g at *
  rw [finValue_eq_signedInt] at hp hq
  generalize signedInt s (m * 2 ^ (e - g).toNat) = a at *
  generalize signedInt t (n * 2 ^ (f - g).toNat) = b at *
  have hsum : finValue s m e + finValue t n f = ((a + b : ℤ) : ℚ) * 2 ^ g := by
    rw [← hp, ← hq]
    push_cast
    ring
  rw [hsum]
  split_ifs with hzero
  · exact ⟨s && t, ⟨0, g, rfl, by simp [hzero, finValue]⟩, fun _ => rfl⟩
  · refine ⟨decide (a + b < 0), ⟨_, g, rfl, ?_⟩, fun h => absurd h ?_⟩
    · rw [finValue_eq_signedInt, signedInt_natAbs]
    · exact mul_ne_zero (Int.cast_ne_zero.mpr hzero) (zpow_ne_zero _ two_ne_zero)

/-- Packing a finite value rounds it once. -/
theorem FloatView.IsFinite.roundsTo (hv : v.IsFinite s p) {z : Bool} (hz : p = 0 → s = z)
    (nan : Word) : RoundsTo (p : ℝ) z (fpack nan v) := by
  obtain ⟨m, e, rfl, rfl⟩ := hv
  by_cases hm : m = 0
  · have hzero := finValue_eq_zero_iff (neg := s) (e := e) |>.mpr hm
    rw [hzero, Rat.cast_zero, fpack, hm, froundFinite_zero, hz hzero]
    exact roundsTo_zero z
  · rw [cast_finValue]
    exact froundFinite_roundsTo s z hm (.inl rfl)

end exact

/-- Settles O51: the exact operation on the values, then one rounding. -/
theorem arithmeticCorrectlyRounded : Obligations.ArithmeticCorrectlyRounded := by
  intro a b c p q r ha hb hc
  have hfa := isFinite_of_fvalue ha
  have hfb := isFinite_of_fvalue hb
  have hfc := isFinite_of_fvalue hc
  obtain ⟨u, hadd, hu⟩ := hfa.add hfb
  obtain ⟨v, hsub, hv⟩ := hfa.add hfb.neg
  obtain ⟨w, hfma, hw⟩ := (hfa.mul hfb).add hfc
  rw [sub_eq_add_neg]
  exact ⟨hadd.roundsTo hu _, hsub.roundsTo hv _, (hfa.mul hfb).roundsTo (fun _ => rfl) _,
    hfma.roundsTo hw _⟩

/-! ### Division -/

/-- The quotient by a number that is not zero, cut off with a sticky bit. -/
theorem FloatView.div_fin (s t : Bool) (m : ℕ) {n : ℕ} (e f : ℤ) (hn : n ≠ 0) :
    (FloatView.fin s m e).div (.fin t n f) =
      .fin (s != t) (stickyQuotient (m * 2 ^ 64) n) (e - f - 65) := by
  simp [FloatView.div, hn, stickyQuotient]

/-- The quotient of two significands is computed to 25 bits before the sticky bit, at least. -/
theorem le_two_mul_scaled_quotient {m n : ℕ} (hm : m ≠ 0) (hn0 : n ≠ 0) (hn : n < 2 ^ 24) :
    2 ^ 25 ≤ 2 * (m * 2 ^ 64 / n) := by
  have hquot : 2 ^ 24 ≤ m * 2 ^ 64 / n := by
    rw [Nat.le_div_iff_mul_le (Nat.pos_of_ne_zero hn0)]
    omega
  omega

theorem finValue_div (s t : Bool) (m : ℕ) {n : ℕ} (e f : ℤ) (hn : n ≠ 0) :
    ((finValue s m e / finValue t n f : ℚ) : ℝ) =
      (if (s != t) then -1 else 1) * (2 * ((m * 2 ^ 64 : ℕ) : ℝ) / n) * (2 : ℝ) ^ (e - f - 65) := by
  have hnR : (n : ℝ) ≠ 0 := by exact_mod_cast hn
  have hpow : (2 : ℝ) ^ e = 2 ^ (e - f - 65) * 2 ^ 65 * 2 ^ f := by
    rw [← zpow_natCast, ← zpow_add₀ two_ne_zero, ← zpow_add₀ two_ne_zero]
    congr 1
    push_cast
    ring
  have hf : (2 : ℝ) ^ f ≠ 0 := zpow_ne_zero _ two_ne_zero
  have ht : (if t then (-1 : ℝ) else 1) ≠ 0 := by cases t <;> norm_num
  have hsq : (if t then (-1 : ℝ) else 1) ^ 2 = 1 := by cases t <;> norm_num
  rw [Rat.cast_div, cast_finValue, cast_finValue, sign_bne, hpow]
  generalize (if t then (-1 : ℝ) else 1) = u at *
  push_cast
  field_simp
  rw [hsq]
  norm_num

/-- Division by a number that is not zero is rounded once. -/
theorem fdiv_roundsTo {a b : Word} {p q : ℚ} (ha : fvalue a = some p) (hb : fvalue b = some q)
    (hq : q ≠ 0) : RoundsTo ((p / q : ℚ) : ℝ) (fsign a != fsign b) (fdiv a b) := by
  obtain ⟨m, e, hva, rfl⟩ := isFinite_of_fvalue ha
  obtain ⟨n, f, hvb, rfl⟩ := isFinite_of_fvalue hb
  have hn : n ≠ 0 := fun h => hq (finValue_eq_zero_iff.mpr h)
  rw [fdiv, hva, hvb, FloatView.div_fin _ _ _ _ _ hn, fpack]
  by_cases hm : m = 0
  · rw [finValue_eq_zero_iff.mpr hm, zero_div, Rat.cast_zero, hm, zero_mul, stickyQuotient_zero,
      froundFinite_zero]
    exact roundsTo_zero _
  · have hbits := le_two_mul_scaled_quotient hm hn (significand_lt_of_fview_fin hvb)
    have hstands := standsFor_stickyQuotient (Nat.pos_of_ne_zero hn) hbits
    rw [finValue_div _ _ _ _ _ hn]
    refine froundFinite_roundsTo _ _ ?_ hstands
    unfold stickyQuotient
    omega

/-! ### Square root -/

/-- Twice a root and one more where it is not exact: the significand with a sticky bit. -/
def stickyRoot (num root : ℕ) : ℕ := 2 * root + if root * root = num then 0 else 1

/-- The significand with a sticky bit stands for twice the exact root. -/
theorem standsFor_stickyRoot {num root : ℕ} (hle : root * root ≤ num)
    (hlt : num < (root + 1) * (root + 1)) (hbits : 2 ^ 25 ≤ 2 * root) :
    StandsFor (2 * √(num : ℝ)) (stickyRoot num root) := by
  unfold stickyRoot
  by_cases hexact : root * root = num
  · left
    rw [if_pos hexact, ← hexact, Nat.cast_mul, Real.sqrt_mul_self (Nat.cast_nonneg root)]
    push_cast
    ring
  · right
    rw [if_neg hexact]
    have hlow : (root : ℝ) < √num := by
      rw [Real.lt_sqrt (Nat.cast_nonneg root), sq]
      exact_mod_cast lt_of_le_of_ne hle hexact
    have hhigh : √(num : ℝ) < root + 1 := by
      rw [Real.sqrt_lt' (by positivity), sq]
      exact_mod_cast hlt
    refine ⟨by omega, by omega, ?_⟩
    push_cast
    rw [abs_lt]
    constructor <;> linarith

/-- The significand that the square root takes at an even exponent. -/
def evenSignificand (m : ℕ) (e : ℤ) : ℕ := if e % 2 ≠ 0 then 2 * m else m

theorem finValue_evenSignificand (m : ℕ) (e : ℤ) :
    finValue false m e = (evenSignificand m e : ℚ) * (2 : ℚ) ^ (2 * (e / 2)) := by
  unfold evenSignificand
  split_ifs with hodd
  · have hpow : (2 : ℚ) ^ e = 2 ^ (2 * (e / 2)) * 2 := by
      rw [← zpow_add_one₀ two_ne_zero]
      congr 1
      omega
    simp [finValue, hpow]
    ring
  · rw [show 2 * (e / 2) = e by omega]
    simp [finValue]

/-- The root of a positive number, computed to 44 bits and a sticky bit. -/
theorem FloatView.sqrt_fin {m : ℕ} (e : ℤ) (hm : m ≠ 0) :
    (FloatView.fin false m e).sqrt =
      .fin false (stickyRoot (evenSignificand m e * 2 ^ 60)
        (isqrt (evenSignificand m e * 2 ^ 60) 44 0)) (e / 2 - 31) := by
  have hexp : (if decide (e % 2 ≠ 0) then e - 1 else e) / 2 = e / 2 := by
    split_ifs with hodd
    · have := of_decide_eq_true hodd
      omega
    · rfl
  have hsig : (if decide (e % 2 ≠ 0) then 2 * m else m) = evenSignificand m e := by
    simp only [decide_eq_true_eq, evenSignificand]
  rw [FloatView.sqrt, if_neg hm, if_neg Bool.false_ne_true]
  dsimp only
  rw [hexp, hsig, stickyRoot]

/-- The root of a scaled significand fits in its 44 bits, and has 25 of them at least. -/
theorem isqrt_scaled_spec {k : ℕ} (hk0 : k ≠ 0) (hk : k < 2 ^ 25) :
    let root := isqrt (k * 2 ^ 60) 44 0
    root * root ≤ k * 2 ^ 60 ∧ k * 2 ^ 60 < (root + 1) * (root + 1) ∧ 2 ^ 25 ≤ 2 * root := by
  obtain ⟨hle, hlt⟩ := isqrt_spec (k * 2 ^ 60) 44 0 (by omega) (by omega)
  refine ⟨hle, hlt, ?_⟩
  generalize isqrt (k * 2 ^ 60) 44 0 = root at *
  by_contra hsmall
  have hroot : root + 1 ≤ 2 ^ 24 := by omega
  have hsq := Nat.mul_le_mul hroot hroot
  omega

theorem sqrt_finValue (m : ℕ) (e : ℤ) : √((finValue false m e : ℚ) : ℝ) =
    2 * √((evenSignificand m e * 2 ^ 60 : ℕ) : ℝ) * (2 : ℝ) ^ (e / 2 - 31) := by
  have hnum : √((evenSignificand m e * 2 ^ 60 : ℕ) : ℝ) = √(evenSignificand m e : ℝ) * 2 ^ 30 := by
    rw [Nat.cast_mul, Real.sqrt_mul (Nat.cast_nonneg _),
      show ((2 ^ 60 : ℕ) : ℝ) = (2 ^ 30) ^ 2 by norm_num, Real.sqrt_sq (by positivity)]
  have hpow : (2 : ℝ) ^ (e / 2) = 2 ^ (e / 2 - 31) * 2 ^ 31 := by
    rw [← zpow_natCast, ← zpow_add₀ two_ne_zero]
    congr 1
    push_cast
    ring
  rw [finValue_evenSignificand, hnum]
  push_cast
  rw [Real.sqrt_mul (Nat.cast_nonneg _), mul_comm 2 (e / 2), zpow_mul, zpow_ofNat,
    Real.sqrt_sq (by positivity), hpow]
  ring

/-- The square root of a number that is not negative is rounded once; a zero keeps its sign. -/
theorem fsqrt_roundsTo {a : Word} {p : ℚ} (ha : fvalue a = some p) (hp : 0 ≤ p) :
    RoundsTo √(p : ℝ) (fsign a) (fsqrt a) := by
  obtain ⟨m, e, hva, rfl⟩ := isFinite_of_fvalue ha
  rw [fsqrt, hva]
  by_cases hm : m = 0
  · rw [finValue_eq_zero_iff.mpr hm, Rat.cast_zero, Real.sqrt_zero, FloatView.sqrt, if_pos hm,
      fpack, froundFinite_zero]
    exact roundsTo_zero _
  · have hsign : fsign a = false := by
      by_contra hneg
      exact hp.not_gt (finValue_neg_iff.mpr ⟨by simpa using hneg, hm⟩)
    have hk0 : evenSignificand m e ≠ 0 := by
      unfold evenSignificand
      split_ifs <;> omega
    have hk : evenSignificand m e < 2 ^ 25 := by
      have := significand_lt_of_fview_fin hva
      unfold evenSignificand
      split_ifs <;> omega
    obtain ⟨hle, hlt, hbits⟩ := isqrt_scaled_spec hk0 hk
    rw [hsign, FloatView.sqrt_fin e hm, fpack, sqrt_finValue]
    have hround := froundFinite_roundsTo (e := e / 2 - 31) false false (by unfold stickyRoot; omega)
      (standsFor_stickyRoot hle hlt hbits)
    simpa using hround

/-- Settles O52: quotient and root are cut off with a sticky bit, then rounded once. -/
theorem divisionAndRootCorrectlyRounded : Obligations.DivisionAndRootCorrectlyRounded :=
  fun _ _ _ _ ha hb => ⟨fdiv_roundsTo ha hb, fsqrt_roundsTo ha⟩

end Sys2Proof.Machine
end

section
/-! PROOFS. The special cases of the float operations (spec/42_float_alu.md R192): what the exact
operations answer for NaN, infinite and zero operands, and how the answer is packed. -/

namespace Sys2Proof.Machine

/-! ### Packing a NaN and an infinity -/

theorem isNaN_fpack {v : FloatView} (h : v = .nan) (op : NanOp) (operands : List Word) :
    isNaN (fpack (nanOf op operands) v) = true := by
  rw [h]
  exact isNaN_nanOf op operands

/-- An infinity is the infinity of its sign. -/
theorem finf_fsign {x : Word} (h : isInf x = true) : finf (fsign x) = x :=
  word_eq_of_sign_mag (fsign_withSign _ (by norm_num))
    ((fmag_withSign _ (by norm_num)).trans ((isInf_iff x).mp h).symm)

/-- A pattern with a finite value, and when that value is zero. -/
theorem fview_of_fvalue {x : Word} {p : ℚ} (h : fvalue x = some p) :
    ∃ m e, fview x = .fin (fsign x) m e ∧ (m = 0 ↔ p = 0) := by
  obtain ⟨m, e, hv, rfl⟩ := isFinite_of_fvalue h
  exact ⟨m, e, hv, finValue_eq_zero_iff.symm⟩

theorem fview_of_fvalue_zero {x : Word} (h : fvalue x = some 0) :
    ∃ e, fview x = .fin (fsign x) 0 e := by
  obtain ⟨m, e, hv, hzero⟩ := fview_of_fvalue h
  obtain rfl := hzero.mpr rfl
  exact ⟨e, hv⟩

/-! ### A NaN operand -/

namespace FloatView

theorem add_eq_nan {v w : FloatView} (h : v = .nan ∨ w = .nan) : v.add w = .nan := by
  rcases h with rfl | rfl
  · rfl
  · cases v <;> rfl

theorem mul_eq_nan {v w : FloatView} (h : v = .nan ∨ w = .nan) : v.mul w = .nan := by
  rcases h with rfl | rfl
  · rfl
  · cases v <;> rfl

theorem div_eq_nan {v w : FloatView} (h : v = .nan ∨ w = .nan) : v.div w = .nan := by
  rcases h with rfl | rfl
  · rfl
  · cases v <;> rfl

theorem neg_eq_nan {v : FloatView} (h : v = .nan) : v.neg = .nan := by rw [h]; rfl

end FloatView

section nan
variable {a b : Word} (h : isNaN a = true ∨ isNaN b = true)
include h

theorem fview_nan_of_isNaN_or : fview a = .nan ∨ fview b = .nan :=
  h.imp fview_of_isNaN fview_of_isNaN

theorem isNaN_fadd_of_isNaN : isNaN (fadd a b) = true :=
  isNaN_fpack (FloatView.add_eq_nan (fview_nan_of_isNaN_or h)) _ _

theorem isNaN_fsub_of_isNaN : isNaN (fsub a b) = true :=
  isNaN_fpack (FloatView.add_eq_nan ((fview_nan_of_isNaN_or h).imp id FloatView.neg_eq_nan)) _ _

theorem isNaN_fmul_of_isNaN : isNaN (fmul a b) = true :=
  isNaN_fpack (FloatView.mul_eq_nan (fview_nan_of_isNaN_or h)) _ _

theorem isNaN_fdiv_of_isNaN : isNaN (fdiv a b) = true :=
  isNaN_fpack (FloatView.div_eq_nan (fview_nan_of_isNaN_or h)) _ _

/-- A NaN factor makes the fused multiply-add a NaN. -/
theorem isNaN_ffma_of_isNaN_factor (c : Word) : isNaN (ffma a b c) = true :=
  isNaN_fpack (FloatView.add_eq_nan (.inl (FloatView.mul_eq_nan (fview_nan_of_isNaN_or h)))) _ _

/-- A NaN second factor or summand makes the fused multiply-add a NaN. -/
theorem isNaN_ffma_of_isNaN_summand (c : Word) : isNaN (ffma c a b) = true :=
  isNaN_fpack (FloatView.add_eq_nan ((fview_nan_of_isNaN_or h).imp
    (fun ha => FloatView.mul_eq_nan (.inr ha)) id)) _ _

end nan

theorem isNaN_fsqrt_of_isNaN {a : Word} (h : isNaN a = true) : isNaN (fsqrt a) = true :=
  isNaN_fpack (by rw [fview_of_isNaN h]; rfl) _ _

theorem isNaN_fintegral_of_isNaN (mode : IntegralMode) {a : Word} (h : isNaN a = true) :
    isNaN (fintegral mode a) = true := by
  rw [fintegral, fview_of_isNaN h]
  exact isNaN_nanOf _ _

/-! ### An infinite operand -/

section infinite
variable {a b : Word} (ha : isInf a = true)
include ha

section twoInfinities
variable (hb : isInf b = true)
include hb

theorem isNaN_fadd_of_isInf (hs : fsign a ≠ fsign b) : isNaN (fadd a b) = true :=
  isNaN_fpack (by rw [fview_of_isInf ha, fview_of_isInf hb, FloatView.add, if_neg hs]) _ _

theorem fadd_of_isInf (hs : fsign a = fsign b) : fadd a b = a := by
  rw [fadd, fview_of_isInf ha, fview_of_isInf hb, FloatView.add, if_pos hs, fpack, finf_fsign ha]

theorem isNaN_fsub_of_isInf (hs : fsign a = fsign b) : isNaN (fsub a b) = true :=
  isNaN_fpack (by
    rw [fview_of_isInf ha, fview_of_isInf hb, FloatView.neg, FloatView.add, if_neg (by simp [hs])])
    _ _

theorem fsub_of_isInf (hs : fsign a ≠ fsign b) : fsub a b = a := by
  rw [fsub, fview_of_isInf ha, fview_of_isInf hb, FloatView.neg, FloatView.add,
    if_pos (Bool.eq_not.mpr hs), fpack, finf_fsign ha]

theorem isNaN_fdiv_of_isInf : isNaN (fdiv a b) = true :=
  isNaN_fpack (by rw [fview_of_isInf ha, fview_of_isInf hb, FloatView.div]) _ _

end twoInfinities

/-- An infinity and a finite number: the sums, differences and quotients. -/
theorem infinite_finite_results {q : ℚ} (hb : fvalue b = some q) :
    fadd a b = a ∧ fadd b a = a ∧ fsub a b = a ∧ fsub b a = finf (!fsign a) ∧
      fdiv a b = finf (fsign a != fsign b) ∧ fdiv b a = fzero (fsign b != fsign a) := by
  obtain ⟨n, f, hvb, -⟩ := fview_of_fvalue hb
  simp only [fadd, fsub, fdiv, fview_of_isInf ha, hvb, FloatView.add, FloatView.neg, FloatView.div,
    fpack, finf_fsign ha, froundFinite_zero, and_self]

/-- The product of an infinity and a zero is a NaN, on either side. -/
theorem mul_eq_nan_of_isInf_of_zero (hb : fvalue b = some 0) :
    (fview a).mul (fview b) = .nan ∧ (fview b).mul (fview a) = .nan := by
  obtain ⟨f, hvb⟩ := fview_of_fvalue_zero hb
  simp only [fview_of_isInf ha, hvb, FloatView.mul, if_true, and_self]

/-- The product of an infinity and a number that is not zero is an infinity, on either side. -/
theorem mul_eq_inf_of_isInf (hb : isInf b = true ∨ ∃ q, fvalue b = some q ∧ q ≠ 0) :
    (fview a).mul (fview b) = .inf (fsign a != fsign b) ∧
      (fview b).mul (fview a) = .inf (fsign b != fsign a) := by
  rw [fview_of_isInf ha]
  rcases hb with hb | ⟨q, hb, hq⟩
  · rw [fview_of_isInf hb]
    exact ⟨rfl, rfl⟩
  · obtain ⟨n, f, hvb, hn⟩ := fview_of_fvalue hb
    simp only [hvb, FloatView.mul, if_neg (mt hn.mp hq), and_self]

/-- The root of an infinity. -/
theorem fsqrt_of_isInf :
    (fsign a = false → fsqrt a = a) ∧ (fsign a = true → isNaN (fsqrt a) = true) := by
  have hv := fview_of_isInf ha
  refine ⟨fun hs => ?_, fun hs => isNaN_fpack ?_ _ _⟩
  · rw [fsqrt, hv, FloatView.sqrt, hs, if_neg Bool.false_ne_true, fpack, ← hs, finf_fsign ha]
  · rw [hv, FloatView.sqrt, hs, if_pos rfl]

end infinite

/-! ### The fused multiply-add with an infinite product or summand -/

theorem ffma_of_product_inf {a b c : Word} {s : Bool} (hprod : (fview a).mul (fview b) = .inf s)
    (hc : isInf c = true ∨ ∃ r, fvalue c = some r) :
    if isInf c = true ∧ fsign c ≠ s then isNaN (ffma a b c) = true else ffma a b c = finf s := by
  split_ifs with hopposed
  · refine isNaN_fpack ?_ _ _
    rw [hprod, fview_of_isInf hopposed.1, FloatView.add, if_neg hopposed.2.symm]
  · rw [ffma, hprod]
    rcases hc with hc | ⟨r, hc⟩
    · have hs : s = fsign c := by
        by_contra hne
        exact hopposed ⟨hc, Ne.symm hne⟩
      rw [fview_of_isInf hc, FloatView.add, if_pos hs, fpack]
    · obtain ⟨m, e, hvc, -⟩ := fview_of_fvalue hc
      rw [hvc, FloatView.add, fpack]

/-- A finite product leaves an infinite summand as it is. -/
theorem ffma_of_isInf_summand {a b c : Word} {p q : ℚ} (ha : fvalue a = some p)
    (hb : fvalue b = some q) (hc : isInf c = true) : ffma a b c = c := by
  obtain ⟨m, e, hprod, -⟩ := (isFinite_of_fvalue ha).mul (isFinite_of_fvalue hb)
  rw [ffma, hprod, fview_of_isInf hc, FloatView.add, fpack, finf_fsign hc]

/-! ### Zero divisors and negative radicands -/

theorem isNaN_fdiv_zero_zero {a b : Word} (ha : fvalue a = some 0) (hb : fvalue b = some 0) :
    isNaN (fdiv a b) = true := by
  obtain ⟨e, hva⟩ := fview_of_fvalue_zero ha
  obtain ⟨f, hvb⟩ := fview_of_fvalue_zero hb
  exact isNaN_fpack (by rw [hva, hvb, FloatView.div, if_pos rfl, if_pos rfl]) _ _

theorem fdiv_by_zero {a b : Word} {p : ℚ} (ha : fvalue a = some p) (hp : p ≠ 0)
    (hb : fvalue b = some 0) : fdiv a b = finf (fsign a != fsign b) := by
  obtain ⟨m, e, hva, hm⟩ := fview_of_fvalue ha
  obtain ⟨f, hvb⟩ := fview_of_fvalue_zero hb
  rw [fdiv, hva, hvb, FloatView.div, if_pos rfl, if_neg (mt hm.mp hp), fpack]

theorem isNaN_fsqrt_of_neg {a : Word} {p : ℚ} (ha : fvalue a = some p) (hp : p < 0) :
    isNaN (fsqrt a) = true := by
  obtain ⟨m, e, hva, rfl⟩ := isFinite_of_fvalue ha
  obtain ⟨hs, hm⟩ := finValue_neg_iff.mp hp
  exact isNaN_fpack (by rw [hva, FloatView.sqrt, if_neg hm, if_pos hs]) _ _

/-- Settles O53: one lemma for each combination of operands. -/
theorem floatSpecialCases : Obligations.FloatSpecialCases := by
  intro a b
  refine ⟨fun h => ⟨isNaN_fadd_of_isNaN h, isNaN_fsub_of_isNaN h, isNaN_fmul_of_isNaN h,
      isNaN_fdiv_of_isNaN h, fun c => ⟨isNaN_ffma_of_isNaN_factor h c,
        isNaN_ffma_of_isNaN_summand h c⟩⟩,
    fun h => ⟨isNaN_fsqrt_of_isNaN h, isNaN_fintegral_of_isNaN _ h, isNaN_fintegral_of_isNaN _ h,
      isNaN_fintegral_of_isNaN _ h, fun _ => isNaN_fintegral_of_isNaN _ h⟩,
    fun ha hb => ⟨isNaN_fadd_of_isInf ha hb, fun hs => ⟨isNaN_fsub_of_isInf ha hb hs,
      fadd_of_isInf ha hb hs⟩, isNaN_fdiv_of_isInf ha hb⟩,
    fun ha hb => ?zeroTimesInf, isNaN_fdiv_zero_zero, fun p ha hp => fdiv_by_zero ha hp,
    fun p => isNaN_fsqrt_of_neg, fsub_of_isInf, fun ha q => infinite_finite_results ha,
    fun ha hb => ?infTimesNumber, fun ha hb c => ?zeroTimesInfPlus,
    fun p q ha hb c => ffma_of_isInf_summand ha hb, fsqrt_of_isInf⟩
  case zeroTimesInf =>
    obtain ⟨hab, hba⟩ := mul_eq_nan_of_isInf_of_zero ha hb
    exact ⟨isNaN_fpack hab _ _, isNaN_fpack hba _ _⟩
  case infTimesNumber =>
    obtain ⟨hab, hba⟩ := mul_eq_inf_of_isInf ha hb
    refine ⟨by rw [fmul, hab, fpack], by rw [fmul, hba, fpack], fun c hc => ?_⟩
    have hfab := ffma_of_product_inf hab hc
    have hfba := ffma_of_product_inf hba hc
    rw [bne_comm] at hfba
    split_ifs at hfab hfba ⊢ with hopposed
    · exact ⟨hfab, hfba⟩
    · exact ⟨hfab, by rw [hfba, bne_comm]⟩
  case zeroTimesInfPlus =>
    obtain ⟨hab, hba⟩ := mul_eq_nan_of_isInf_of_zero ha hb
    exact ⟨isNaN_fpack (FloatView.add_eq_nan (.inl hab)) _ _,
      isNaN_fpack (FloatView.add_eq_nan (.inl hba)) _ _⟩

end Sys2Proof.Machine
end

section
/-! PROOFS. Rounding to an integral value (spec/42_float_alu.md R192): a finite number is an
integral magnitude and a fraction of a power of two, each direction keeps or raises the magnitude, and
what it answers is again a binary32 number. -/

namespace Sys2Proof.Machine

/-! ### An integer below 2^24 is packed exactly -/

section integer
variable (neg : Bool) {n : ℕ}

/-- A positive integer of up to 24 bits, shifted up to a full significand. -/
theorem full_significand (hn0 : n ≠ 0) (hn : n < 2 ^ 24) : Nat.log2 n < 24 ∧
    2 ^ 23 ≤ n * 2 ^ (23 - Nat.log2 n) ∧ n * 2 ^ (23 - Nat.log2 n) < 2 ^ 24 := by
  have hlog : Nat.log2 n < 24 := (Nat.log2_lt hn0).mpr hn
  refine ⟨hlog, ?_, ?_⟩
  · calc 2 ^ 23 = 2 ^ Nat.log2 n * 2 ^ (23 - Nat.log2 n) := by rw [← pow_add]; congr 1; omega
      _ ≤ n * 2 ^ (23 - Nat.log2 n) := Nat.mul_le_mul_right _ (Nat.log2_self_le hn0)
  · calc n * 2 ^ (23 - Nat.log2 n) < 2 ^ (Nat.log2 n + 1) * 2 ^ (23 - Nat.log2 n) :=
          Nat.mul_lt_mul_of_pos_right Nat.lt_log2_self (by positivity)
      _ = 2 ^ 24 := by rw [← pow_add]; congr 1; omega

/-- The pattern of a positive integer of up to 24 bits: its significand is shifted, not rounded. -/
theorem froundFinite_integer (hn0 : n ≠ 0) (hn : n < 2 ^ 24) : froundFinite neg n 0 =
    withSign neg ((Nat.log2 n + 126) * 2 ^ 23 + n * 2 ^ (23 - Nat.log2 n)) := by
  obtain ⟨hlog, -, hsig⟩ := full_significand hn0 hn
  rw [froundFinite, if_neg hn0]
  dsimp only
  rw [show max ((Nat.log2 n : ℤ) + 0 - 23) (-149) = Nat.log2 n - 23 by omega,
    if_pos (show (Nat.log2 n : ℤ) - 23 ≤ 0 by omega),
    show ((0 : ℤ) - (Nat.log2 n - 23)).toNat = 23 - Nat.log2 n by omega,
    show ((Nat.log2 n : ℤ) - 23 + 149).toNat = Nat.log2 n + 126 by omega, if_neg (by omega)]

variable (hn : n < 2 ^ 24)
include hn

theorem fsign_froundFinite_integer : fsign (froundFinite neg n 0) = neg := by
  by_cases hn0 : n = 0
  · rw [hn0, froundFinite_zero]
    exact fsign_withSign neg (by norm_num)
  · obtain ⟨hlog, -, hsig⟩ := full_significand hn0 hn
    rw [froundFinite_integer neg hn0 hn]
    exact fsign_withSign neg (by omega)

theorem fvalue_froundFinite_integer :
    fvalue (froundFinite neg n 0) = some (signedInt neg n : ℚ) := by
  by_cases hn0 : n = 0
  · have hmag : fmag (fzero neg) = 0 := fmag_withSign neg (by norm_num)
    rw [hn0, froundFinite_zero, fvalue_eq (by rw [hmag]; norm_num), hmag, funits_zero]
    cases neg <;> simp [signedInt]
  · obtain ⟨hlog, hfull, hsig⟩ := full_significand hn0 hn
    rw [froundFinite_integer neg hn0 hn, fvalue_eq (by rw [fmag_withSign neg (by omega)]; omega),
      fsign_withSign neg (by omega), fmag_withSign neg (by omega), funits_mag hsig.le (.inr hfull)]
    have hunits : ((n * 2 ^ (23 - Nat.log2 n) * 2 ^ (Nat.log2 n + 126) : ℕ) : ℚ) * 2 ^ (-149 : ℤ) =
        n := by
      rw [mul_assoc, ← pow_add, show 23 - Nat.log2 n + (Nat.log2 n + 126) = 149 by omega, zpow_neg]
      push_cast
      field_simp
    rw [mul_assoc, hunits]
    cases neg <;> simp [signedInt]

end integer

/-! ### Integral magnitude and fraction -/

/-- The number (-1)^neg * (q + r / 2^k). -/
def splitValue (neg : Bool) (q r k : ℕ) : ℚ := (if neg then -1 else 1) * (q + r / 2 ^ k)

/-- The integral magnitude that a rounding direction takes. -/
def roundedMag (mode : IntegralMode) (neg : Bool) (q r k : ℕ) : ℕ :=
  if roundsUp mode neg q r k then q + 1 else q

/-- A finite pattern split in integral magnitude and fraction, and each direction's answer. -/
theorem fintegral_of_fvalue {x : Word} {p : ℚ} (h : fvalue x = some p) :
    ∃ q r k : ℕ, r < 2 ^ k ∧ p = splitValue (fsign x) q r k ∧ ∀ mode,
      fvalue (fintegral mode x) = some (signedInt (fsign x) (roundedMag mode (fsign x) q r k) : ℚ) ∧
      fsign (fintegral mode x) = fsign x := by
  obtain ⟨m, e, hv, rfl⟩ := isFinite_of_fvalue h
  rcases le_or_gt 0 e with he | he
  · obtain ⟨j, rfl⟩ := Int.eq_ofNat_of_zero_le he
    have hint : finValue (fsign x) m (j : ℤ) = (signedInt (fsign x) (m * 2 ^ j) : ℚ) := by
      cases fsign x <;> simp [finValue, signedInt]
    refine ⟨m * 2 ^ j, 0, 0, by simp, ?_, fun mode => ?_⟩
    · rw [hint]
      cases fsign x <;> simp [splitValue, signedInt]
    · have hkeep : roundsUp mode (fsign x) (m * 2 ^ j) 0 0 = false := by
        cases mode <;> simp [roundsUp]
      have hx : fintegral mode x = x := by rw [fintegral, hv]; exact if_pos he
      rw [hx, h, hint, roundedMag, hkeep, if_neg Bool.false_ne_true]
      exact ⟨rfl, rfl⟩
  · obtain ⟨k, rfl⟩ := Int.exists_eq_neg_ofNat he.le
    have hm := significand_lt_of_fview_fin hv
    have hk : 2 ≤ 2 ^ k := Nat.le_self_pow (by omega) 2
    have hhalf : m / 2 ^ k ≤ m / 2 := Nat.div_le_div_left hk two_pos
    refine ⟨m / 2 ^ k, m % 2 ^ k, k, Nat.mod_lt _ (by positivity), ?_, fun mode => ?_⟩
    · have hsplit : (m : ℚ) = 2 ^ k * (m / 2 ^ k : ℕ) + (m % 2 ^ k : ℕ) := by
        exact_mod_cast (Nat.div_add_mod m (2 ^ k)).symm
      rw [finValue, splitValue, mul_assoc, hsplit, zpow_neg, zpow_natCast]
      field_simp
    · have hx : fintegral mode x =
          froundFinite (fsign x) (roundedMag mode (fsign x) (m / 2 ^ k) (m % 2 ^ k) k) 0 := by
        rw [fintegral, hv]
        dsimp only
        rw [if_neg (not_le.mpr he), integralMag, if_neg (not_le.mpr he), neg_neg, Int.toNat_natCast]
        rfl
      have hsmall : roundedMag mode (fsign x) (m / 2 ^ k) (m % 2 ^ k) k < 2 ^ 24 := by
        unfold roundedMag
        split_ifs <;> omega
      rw [hx]
      exact ⟨fvalue_froundFinite_integer _ hsmall, fsign_froundFinite_integer _ hsmall⟩

/-! ### Each direction by value -/

section directions
variable {neg : Bool} {q r k : ℕ}

theorem splitValue_false : splitValue false q r k = q + r / 2 ^ k := by simp [splitValue]

theorem splitValue_not : splitValue (!neg) q r k = -splitValue neg q r k := by
  cases neg <;> simp [splitValue]

theorem splitValue_true : splitValue true q r k = -(q + r / 2 ^ k) := by
  rw [← splitValue_false, ← splitValue_not, Bool.not_false]

theorem signedInt_false (n : ℕ) : signedInt false n = n := rfl

theorem signedInt_true (n : ℕ) : signedInt true n = -n := rfl

theorem signedInt_not (n : ℕ) : signedInt (!neg) n = -signedInt neg n := by
  cases neg <;> simp [signedInt]

/-- The distance to an integer of the same sign is the distance of the magnitudes. -/
theorem abs_splitValue_sub (n : ℕ) :
    |splitValue neg q r k - signedInt neg n| = |(q + r / 2 ^ k : ℚ) - n| := by
  cases neg
  · rw [splitValue_false, signedInt_false, Int.cast_natCast]
  · rw [splitValue_true, signedInt_true, Int.cast_neg, Int.cast_natCast, ← abs_neg]
    congr 1
    ring

theorem abs_splitValue : |splitValue neg q r k| = q + r / 2 ^ k := by
  have h := abs_splitValue_sub (neg := neg) (q := q) (r := r) (k := k) 0
  have h0 : signedInt neg 0 = 0 := by cases neg <;> rfl
  rw [h0, Int.cast_zero, sub_zero, Nat.cast_zero, sub_zero] at h
  rw [h, abs_of_nonneg (by positivity)]

theorem abs_signedInt (n : ℕ) : |(signedInt neg n : ℚ)| = n := by
  cases neg <;> simp [signedInt]

section proper
variable (hr : r < 2 ^ k)
include hr

theorem fraction_lt_one : (r / 2 ^ k : ℚ) < 1 := by
  rw [div_lt_one (by positivity)]
  exact_mod_cast hr

theorem floor_splitValue :
    ⌊splitValue neg q r k⌋ = signedInt neg (roundedMag .floor neg q r k) := by
  have hlt := fraction_lt_one hr
  have hge : (0 : ℚ) ≤ r / 2 ^ k := by positivity
  rw [Int.floor_eq_iff]
  cases neg with
  | false =>
    have hmag : roundedMag .floor false q r k = q := rfl
    rw [hmag, splitValue_false, signedInt_false]
    push_cast
    constructor <;> linarith
  | true =>
    rw [splitValue_true, signedInt_true]
    by_cases hr0 : r = 0
    · simp [roundedMag, roundsUp, hr0]
    · have hmag : roundedMag .floor true q r k = q + 1 := by simp [roundedMag, roundsUp, hr0]
      have hpos : (0 : ℚ) < r / 2 ^ k := by positivity
      rw [hmag]
      push_cast
      constructor <;> linarith

/-- The ceiling is the floor on the other side of zero. -/
theorem ceil_splitValue :
    ⌈splitValue neg q r k⌉ = signedInt neg (roundedMag .ceil neg q r k) := by
  have hmirror : roundedMag .ceil neg q r k = roundedMag .floor (!neg) q r k := rfl
  rw [hmirror, ← neg_neg (splitValue neg q r k), ← splitValue_not, Int.ceil_neg,
    floor_splitValue hr, signedInt_not, neg_neg]

/-- Truncation is the floor of a positive number and the ceiling of a negative one. -/
theorem trunc_splitValue :
    (if 0 ≤ splitValue neg q r k then ⌊splitValue neg q r k⌋ else ⌈splitValue neg q r k⌉) =
      signedInt neg (roundedMag .trunc neg q r k) := by
  have hmag : (0 : ℚ) ≤ q + r / 2 ^ k := by positivity
  cases neg with
  | false =>
    rw [if_pos (splitValue_false ▸ hmag), floor_splitValue hr]
    rfl
  | true =>
    have hceil : ⌈splitValue true q r k⌉ = signedInt true (roundedMag .trunc true q r k) :=
      ceil_splitValue hr
    rw [← hceil]
    split_ifs with hp
    · have hzero : splitValue true q r k = 0 :=
        le_antisymm (splitValue_true ▸ neg_nonpos.mpr hmag) hp
      rw [hzero, Int.floor_zero, Int.ceil_zero]
    · rfl

end proper

/-! ### Nearest, and its ties -/

theorem half_le_fraction_iff : (1 : ℚ) / 2 ≤ r / 2 ^ k ↔ 2 ^ k ≤ 2 * r := by
  rw [div_le_div_iff₀ two_pos (by positivity), one_mul, mul_comm (r : ℚ)]
  exact_mod_cast Iff.rfl

theorem fraction_le_half_iff : (r / 2 ^ k : ℚ) ≤ 1 / 2 ↔ 2 * r ≤ 2 ^ k := by
  rw [div_le_div_iff₀ (by positivity) two_pos, one_mul, mul_comm (r : ℚ)]
  exact_mod_cast Iff.rfl

theorem fraction_eq_half_iff : (r / 2 ^ k : ℚ) = 1 / 2 ↔ 2 * r = 2 ^ k := by
  rw [le_antisymm_iff, le_antisymm_iff, half_le_fraction_iff, fraction_le_half_iff]

/-- The distance of the magnitudes: the fraction, or what it lacks to the next integer. -/
theorem nearest_distance (ties : RoundTies) (hr : r < 2 ^ k) :
    |splitValue neg q r k - signedInt neg (roundedMag (.nearest ties) neg q r k)| =
      if roundsUp (.nearest ties) neg q r k then 1 - (r / 2 ^ k : ℚ) else r / 2 ^ k := by
  have hlt := fraction_lt_one hr
  rw [abs_splitValue_sub, roundedMag]
  split_ifs
  · rw [show (q + r / 2 ^ k : ℚ) - (q + 1 : ℕ) = -(1 - r / 2 ^ k) by push_cast; ring, abs_neg,
      abs_of_pos (by linarith)]
  · rw [add_sub_cancel_left, abs_of_nonneg (by positivity)]

/-- Nearest raises the magnitude only from one half on. -/
theorem half_le_fraction_of_roundsUp {ties : RoundTies}
    (h : roundsUp (.nearest ties) neg q r k = true) : (1 : ℚ) / 2 ≤ r / 2 ^ k := by
  rw [half_le_fraction_iff]
  simp only [roundsUp, Bool.or_eq_true, Bool.and_eq_true, decide_eq_true_eq, beq_iff_eq] at h
  rcases h with habove | ⟨htie, -⟩
  · exact habove.le
  · exact htie.ge

/-- Nearest keeps the magnitude only up to one half. -/
theorem fraction_le_half_of_not_roundsUp {ties : RoundTies}
    (h : roundsUp (.nearest ties) neg q r k = false) : (r / 2 ^ k : ℚ) ≤ 1 / 2 := by
  rw [fraction_le_half_iff]
  simp only [roundsUp, Bool.or_eq_false_iff, decide_eq_false_iff_not, not_lt] at h
  exact h.1

theorem nearest_distance_le (ties : RoundTies) (hr : r < 2 ^ k) :
    |splitValue neg q r k - signedInt neg (roundedMag (.nearest ties) neg q r k)| ≤ 1 / 2 := by
  rw [nearest_distance ties hr]
  split_ifs with hup
  · linarith [half_le_fraction_of_roundsUp hup]
  · exact fraction_le_half_of_not_roundsUp (Bool.eq_false_of_not_eq_true hup)

/-- Only a fraction of one half is as near to both integers. -/
theorem tie_of_nearest_distance {ties : RoundTies} (hr : r < 2 ^ k)
    (h : |splitValue neg q r k - signedInt neg (roundedMag (.nearest ties) neg q r k)| = 1 / 2) :
    2 * r = 2 ^ k := by
  rw [nearest_distance ties hr] at h
  apply fraction_eq_half_iff.mp
  split_ifs at h <;> linarith

section tie
variable (htie : 2 * r = 2 ^ k)
include htie

theorem nearestEven_of_tie : Even (signedInt neg (roundedMag (.nearest .even) neg q r k)) := by
  have hmag : Even (roundedMag (.nearest .even) neg q r k) := by
    simp only [roundedMag, roundsUp, htie, Nat.even_iff]
    split_ifs with h <;> simp at h <;> omega
  cases neg
  · exact (Int.even_coe_nat _).mpr hmag
  · exact ((Int.even_coe_nat _).mpr hmag).neg

/-- The numbers half way: one half above q in magnitude. -/
theorem abs_splitValue_of_tie : |splitValue neg q r k| = q + 1 / 2 := by
  rw [abs_splitValue, fraction_eq_half_iff.mpr htie]

theorem nearestAway_of_tie : |splitValue neg q r k| <
    |(signedInt neg (roundedMag (.nearest .away) neg q r k) : ℚ)| := by
  have hmag : roundedMag (.nearest .away) neg q r k = q + 1 := by simp [roundedMag, roundsUp, htie]
  rw [abs_splitValue_of_tie htie, abs_signedInt, hmag]
  push_cast
  linarith

theorem nearestHalfUp_of_tie : splitValue neg q r k <
    signedInt neg (roundedMag (.nearest .halfUp) neg q r k) := by
  have hhalf := fraction_eq_half_iff.mpr htie
  cases neg with
  | false =>
    have hmag : roundedMag (.nearest .halfUp) false q r k = q + 1 := by
      simp [roundedMag, roundsUp, htie]
    rw [splitValue_false, signedInt_false, hhalf, hmag]
    push_cast
    linarith
  | true =>
    have hmag : roundedMag (.nearest .halfUp) true q r k = q := by
      simp [roundedMag, roundsUp, htie]
    rw [splitValue_true, signedInt_true, hhalf, hmag]
    push_cast
    linarith

end tie

end directions

/-! ### The rounding functions -/

theorem fintegral_of_isInf (mode : IntegralMode) {x : Word} (h : isInf x = true) :
    fintegral mode x = x := by
  rw [fintegral, fview_of_isInf h]

/-- Settles O54: the pattern is split in magnitude and fraction; then one lemma for each
direction. -/
theorem integralRoundingByValue : Obligations.IntegralRoundingByValue := by
  intro x
  refine ⟨fun h => ⟨fintegral_of_isInf _ h, fintegral_of_isInf _ h, fintegral_of_isInf _ h,
    fun _ => fintegral_of_isInf _ h⟩, fun p hp => ?_⟩
  obtain ⟨q, r, k, hr, rfl, hmode⟩ := fintegral_of_fvalue hp
  obtain ⟨hfloor, hfloorSign⟩ := hmode .floor
  obtain ⟨hceil, hceilSign⟩ := hmode .ceil
  obtain ⟨htrunc, htruncSign⟩ := hmode .trunc
  rw [← floor_splitValue hr] at hfloor
  rw [← ceil_splitValue hr] at hceil
  rw [← trunc_splitValue hr] at htrunc
  refine ⟨hfloor, hceil, htrunc, hfloorSign, hceilSign, htruncSign, fun ties => ?_⟩
  obtain ⟨hround, hroundSign⟩ := hmode (.nearest ties)
  refine ⟨_, hround, hroundSign, nearest_distance_le ties hr, fun hdist => ?_⟩
  have htie := tie_of_nearest_distance hr hdist
  cases ties with
  | even => exact nearestEven_of_tie htie
  | away => exact nearestAway_of_tie htie
  | halfUp => exact nearestHalfUp_of_tie htie

end Sys2Proof.Machine
end

section
/-! PROOFS. The integer, bitwise and conversion ALU (spec/43_int_bitwise_alu.md): each opcode by the
format of its record and the formula of one lane; the conversions to integers by truncation, those
from integers by rounding once. -/

namespace Sys2Proof.Machine

/-! ### From the formula of one lane to the effect (R194, R244) -/

section lanes
variable {op : BitVec 8} {mk : Mods → Dst → Src → Src → Instr} (hop : IsAlu2 op mk)
include hop

/-- An opcode whose meaning takes `f` in each lane computes every formula that agrees with `f`. -/
theorem IsAlu2.computes_each2 {f g : Word → Word → Word}
    (hexec : ∀ m d a b s, exec (mk m d a b) s = alu2 m d a b (comp2 f) s)
    (hlane : ∀ x y, f x y = g x y) : Computes2 op mk (each2 g) := by
  obtain rfl : f = g := funext₂ hlane
  exact IsAlu2.computes hop hexec

/-- An opcode whose lane answers nothing for a zero divisor, and `g` for every other, leaves the
lanes of a zero divisor out. -/
theorem IsAlu2.computes_each2Unless {f : Word → Word → Option Word} {g : Word → Word → Word}
    (hexec : ∀ m d a b s, exec (mk m d a b) s = alu2 m d a b (comp2Masked f) s)
    (hzero : ∀ x, f x 0 = none) (hlane : ∀ {x y}, y ≠ 0 → f x y = some (g x y)) :
    Computes2 op mk (each2Unless (fun _ y => y = 0) g) := by
  have hcomp (cfg : Cfg) : comp2Masked f = each2Unless (fun _ y => y = 0) g cfg := by
    funext a b c
    unfold comp2Masked each2Unless
    split_ifs with hy
    · rw [hy, hzero]
    · exact hlane hy
  exact IsAlu2.computes hop fun m d a b s =>
    (hexec m d a b s).trans (congrArg (alu2 m d a b · s) (hcomp s.cfg))

end lanes

/-! ### Arithmetic, division and comparison (R241 to R262) -/

/-- The difference modulo 2^32 is that of the unsigned values (R242). -/
theorem sub_eq_ofInt (x y : Word) : x - y = BitVec.ofInt 32 ((x.toNat : ℤ) - y.toNat) := by
  apply BitVec.eq_of_toNat_eq
  rw [BitVec.toNat_sub, BitVec.toNat_ofInt]
  omega

/-- The product modulo 2^32 is that of the unsigned values (R243). -/
theorem mul_eq_ofNat (x y : Word) : x * y = BitVec.ofNat 32 (x.toNat * y.toNat) := by
  apply BitVec.eq_of_toNat_eq
  rw [BitVec.toNat_mul, BitVec.toNat_ofNat]

/-- Settles O14: sum, difference and product of bit vectors are those of their unsigned values
modulo 2^32; minimum and maximum compare as the statement does. -/
theorem integerArithmeticResults : Obligations.IntegerArithmeticResults := by
  refine ⟨?iadd, ?isub, ?imul, ?imin, ?imax, ?umin, ?umax⟩
  case iadd => exact IsAlu2.computes_each2 {} (fun _ _ _ _ _ => rfl) BitVec.add_def
  case isub => exact IsAlu2.computes_each2 {} (fun _ _ _ _ _ => rfl) sub_eq_ofInt
  case imul => exact IsAlu2.computes_each2 {} (fun _ _ _ _ _ => rfl) mul_eq_ofNat
  all_goals exact IsAlu2.computes {} fun _ _ _ _ _ => rfl

theorem udivLane_eq {a b : Word} (hb : b ≠ 0) : udivLane a b = some (BitVec.udiv a b) := by
  rw [udivLane, if_neg hb]
  exact congrArg some (BitVec.udiv_def ..).symm

theorem umodLane_eq {a b : Word} (hb : b ≠ 0) : umodLane a b = some (BitVec.umod a b) := by
  rw [umodLane, if_neg hb]
  exact congrArg some (BitVec.umod_def ..).symm

/-- Settles O15: each lane answers nothing for a zero divisor and the quotient or remainder of bit
vectors for every other. -/
theorem integerDivisionResults : Obligations.IntegerDivisionResults :=
  ⟨IsAlu2.computes_each2Unless {} (fun _ _ _ _ _ => rfl) (fun _ => if_pos rfl) idivLane_eq,
    IsAlu2.computes_each2Unless {} (fun _ _ _ _ _ => rfl) (fun _ => if_pos rfl) udivLane_eq,
    IsAlu2.computes_each2Unless {} (fun _ _ _ _ _ => rfl) (fun _ => if_pos rfl) imodLane_eq,
    IsAlu2.computes_each2Unless {} (fun _ _ _ _ _ => rfl) (fun _ => if_pos rfl) umodLane_eq⟩

/-- The result of a set-on-compare is all ones where the comparison holds, else zero (R240). -/
theorem intBool_decide {p q : Prop} [Decidable p] [Decidable q] (h : p ↔ q) :
    intBool (decide p) = if q then 0xFFFFFFFF else 0 := by
  simp only [intBool, decide_eq_true_eq, h, K_ALL, K_ZERO]

/-- Settles O16: each lane is `intBool` of its comparison; equality of patterns is equality of their
numbers. -/
theorem integerCompareResults : Obligations.IntegerCompareResults := by
  refine ⟨?islt, ?isle, ?isge, ?uslt, ?usle, ?usge, ?useq, ?usne⟩
  case useq =>
    exact IsAlu2.computes_each2 {} (fun _ _ _ _ _ => rfl) fun _ _ => intBool_decide BitVec.toNat_inj
  case usne =>
    exact IsAlu2.computes_each2 {} (fun _ _ _ _ _ => rfl) fun _ _ =>
      intBool_decide BitVec.toNat_inj.not
  all_goals
    exact IsAlu2.computes_each2 {} (fun _ _ _ _ _ => rfl) fun _ _ => intBool_decide Iff.rfl

/-! ### Bitwise and shift (R265 to R271) -/

/-- A shift left multiplies by a power of two, modulo 2^32 (R269). -/
theorem shlLane_eq (x y : Word) : shlLane x y = x <<< (y &&& 31) := by
  rw [BitVec.shiftLeft_eq', and_31_toNat]
  apply BitVec.eq_of_toNat_eq
  rw [shlLane, BitVec.toNat_ofNat, BitVec.toNat_shiftLeft, Nat.shiftLeft_eq]

/-- An arithmetic shift right is the floor of a quotient by a power of two (R270). -/
theorem ishrLane_eq (x y : Word) : ishrLane x y = x.sshiftRight (y &&& 31).toNat := by
  rw [ishrLane, and_31_toNat, BitVec.sshiftRight, Int.shiftRight_eq_div_pow]

/-- A logical shift right is a quotient by a power of two (R271). -/
theorem ushrLane_eq (x y : Word) : ushrLane x y = x >>> (y &&& 31) := by
  rw [BitVec.ushiftRight_eq', and_31_toNat]
  have hlt : x.toNat / 2 ^ shiftCount y < 2 ^ 32 := (Nat.div_le_self _ _).trans_lt x.isLt
  apply BitVec.eq_of_toNat_eq
  rw [ushrLane, BitVec.toNat_ofNat, Nat.mod_eq_of_lt hlt, BitVec.toNat_ushiftRight,
    Nat.shiftRight_eq_div_pow]

/-- Settles O17: the bitwise operations are those of bit vectors; each shift by its lane. -/
theorem bitwiseAndShiftResults : Obligations.BitwiseAndShiftResults := by
  refine ⟨?and, ?or, ?xor, ?not, ?shl, ?ishr, ?ushr⟩
  case not => exact IsAlu1.computes {} fun _ _ _ _ => rfl
  case shl => exact IsAlu2.computes_each2 {} (fun _ _ _ _ _ => rfl) shlLane_eq
  case ishr => exact IsAlu2.computes_each2 {} (fun _ _ _ _ _ => rfl) ishrLane_eq
  case ushr => exact IsAlu2.computes_each2 {} (fun _ _ _ _ _ => rfl) ushrLane_eq
  all_goals exact IsAlu2.computes {} fun _ _ _ _ _ => rfl

/-! ### Conversions (R275 to R278) -/

/-- Settles O18: each opcode has the one-source format, and its meaning is the frame over its
conversion. -/
theorem conversionResults : Obligations.ConversionResults := by
  refine ⟨?f2i, ?f2u, ?i2f, ?u2f⟩
  all_goals exact IsAlu1.computes {} fun _ _ _ _ => rfl

theorem integralMag_nonneg (mode : IntegralMode) (neg : Bool) (m j : ℕ) :
    integralMag mode neg m (j : ℤ) = m * 2 ^ j := by
  rw [integralMag, if_pos (Int.natCast_nonneg j), Int.toNat_natCast]

/-- Truncation drops the bits below the point; at the exponent 0 there are none. -/
theorem integralMag_trunc_neg (neg : Bool) (m k : ℕ) :
    integralMag .trunc neg m (-(k : ℤ)) = m / 2 ^ k := by
  cases k with
  | zero => exact (integralMag_nonneg .trunc neg m 0).trans (by norm_num)
  | succ k =>
    rw [integralMag, if_neg (by omega), neg_neg, Int.toNat_natCast]
    exact if_neg Bool.false_ne_true

/-- A value with a non-negative exponent is an integer. -/
theorem finValue_nonneg_exponent (neg : Bool) (m j : ℕ) :
    finValue neg m (j : ℤ) = (signedInt neg (m * 2 ^ j) : ℚ) := by
  cases neg <;> simp [finValue, signedInt]

/-- A value with a negative exponent, split at the point. -/
theorem finValue_neg_exponent (neg : Bool) (m k : ℕ) :
    finValue neg m (-(k : ℤ)) = splitValue neg (m / 2 ^ k) (m % 2 ^ k) k := by
  have hsplit : (m : ℚ) = 2 ^ k * (m / 2 ^ k : ℕ) + (m % 2 ^ k : ℕ) := by
    exact_mod_cast (Nat.div_add_mod m (2 ^ k)).symm
  rw [finValue, splitValue, mul_assoc, hsplit, zpow_neg, zpow_natCast]
  field_simp

/-- The truncation of a finite pattern is that of its value. -/
theorem truncInt?_of_fvalue {x : Word} {p : ℚ} (h : fvalue x = some p) :
    truncInt? x = some (if 0 ≤ p then ⌊p⌋ else ⌈p⌉) := by
  obtain ⟨m, e, hv, rfl⟩ := isFinite_of_fvalue h
  rw [truncInt?, hv]
  rcases le_total 0 e with he | he
  · obtain ⟨j, rfl⟩ := Int.eq_ofNat_of_zero_le he
    simp only [finValue_nonneg_exponent, Int.floor_intCast, Int.ceil_intCast, ite_self,
      integralMag_nonneg]
  · obtain ⟨k, rfl⟩ := Int.exists_eq_neg_ofNat he
    rw [finValue_neg_exponent, trunc_splitValue (Nat.mod_lt _ (by positivity))]
    exact congrArg (fun n => some (signedInt (fsign x) n)) (integralMag_trunc_neg _ m k)

/-- A NaN or an infinity has no truncation. -/
theorem truncInt?_eq_none {x : Word} (h : isNaN x = true ∨ isInf x = true) :
    truncInt? x = none := by
  rcases h with h | h
  · rw [truncInt?, fview_of_isNaN h]
  · rw [truncInt?, fview_of_isInf h]

/-- An integer is rounded once; zero is positive. -/
theorem froundFinite_int_roundsTo (z : ℤ) :
    RoundsTo (z : ℝ) false (froundFinite (decide (z < 0)) z.natAbs 0) := by
  have hfin : (FloatView.fin (decide (z < 0)) z.natAbs 0).IsFinite (decide (z < 0)) (z : ℚ) :=
    ⟨_, _, rfl, by rw [finValue_eq_signedInt, signedInt_natAbs, zpow_zero, mul_one]⟩
  have hzero : (z : ℚ) = 0 → decide (z < 0) = false := fun h => by
    rw [Int.cast_eq_zero.mp h]
    rfl
  exact Rat.cast_intCast (α := ℝ) z ▸ hfin.roundsTo hzero 0

/-- Settles O55: the truncation of a pattern is that of its value; an integer is rounded once. -/
theorem conversionsByValue : Obligations.ConversionsByValue := by
  refine ⟨fun x p hp => ?finite, fun x hx => ?special, fun a => ⟨?signed, ?unsigned⟩⟩
  case finite =>
    have htrunc := truncInt?_of_fvalue hp
    exact ⟨by rw [f2i, htrunc], by rw [f2u, htrunc]⟩
  case special =>
    have hnone := truncInt?_eq_none hx
    exact ⟨by rw [f2i, hnone], by rw [f2u, hnone]⟩
  case signed => exact froundFinite_int_roundsTo a.toInt
  case unsigned => exact froundFinite_int_roundsTo (a.toNat : ℤ)

end Sys2Proof.Machine
end

section
/-! PROOFS. The vector and composite instructions (spec/44_vector_composite.md): each opcode by the
format of its record and the formula of one lane, which gives every destination channel from several
source channels. -/

namespace Sys2Proof.Machine

/-! ### From the channels of a lane formula to the effect (R290) -/

/-- A lane formula is given by its four destination channels. -/
theorem eq_perChannel (g : Channel → Option Word) : g = perChannel (g .x) (g .y) (g .z) (g .w) := by
  funext c
  cases c <;> rfl

section perChannel
variable {op : BitVec 8}

/-- An opcode with one source whose meaning is the frame over `f` computes the channels of `f`. -/
theorem IsAlu1.computes_perChannel {mk : Mods → Dst → Src → Instr} (hop : IsAlu1 op mk)
    (f : Micro1) (hexec : ∀ m d a s, exec (mk m d a) s = alu1 m d a f s) :
    Computes1 op mk fun _ v => perChannel (f v .x) (f v .y) (f v .z) (f v .w) :=
  IsAlu1.computes hop fun m d a s =>
    (hexec m d a s).trans (congrArg (alu1 m d a · s) (funext fun v => eq_perChannel (f v)))

/-- An opcode with two sources whose meaning is the frame over `f` computes the channels of `f`. -/
theorem IsAlu2.computes_perChannel {mk : Mods → Dst → Src → Src → Instr} (hop : IsAlu2 op mk)
    (f : Micro2) (hexec : ∀ m d a b s, exec (mk m d a b) s = alu2 m d a b f s) :
    Computes2 op mk fun _ v w => perChannel (f v w .x) (f v w .y) (f v w .z) (f v w .w) :=
  IsAlu2.computes hop fun m d a b s =>
    (hexec m d a b s).trans
      (congrArg (alu2 m d a b · s) (funext₂ fun v w => eq_perChannel (f v w)))

end perChannel

/-! ### Dot products, cross product and composites (R291 to R300) -/

/-- Settles O19: a dot product is the frame over one scalar for all channels; each of the others is
the frame over the four channels of its lane formula. -/
theorem vectorAndCompositeResults : Obligations.VectorAndCompositeResults := by
  refine ⟨?dp2, ?dp3, ?dp4, ?dph, ?xpd, ?lit, ?dst, ?scs, ?log, ?exp⟩
  case dp2 | dp3 | dp4 | dph => exact IsAlu2.computes {} fun _ _ _ _ _ => rfl
  case xpd =>
    exact IsAlu2.computes_perChannel {} (fun v w c => some ((crossLane v w).get c))
      fun _ _ _ _ _ => rfl
  case lit =>
    exact IsAlu1.computes_perChannel {} (fun v c => some ((litLane v).get c)) fun _ _ _ _ => rfl
  case dst =>
    exact IsAlu2.computes_perChannel {} (fun v w c => some ((dstLane v w).get c))
      fun _ _ _ _ _ => rfl
  case scs =>
    exact IsAlu1.computes_perChannel {} (fun v c => some ((scsLane v).get c)) fun _ _ _ _ => rfl
  case log => exact IsAlu1.computes_perChannel {} logLane fun _ _ _ _ => rfl
  case exp =>
    exact IsAlu1.computes_perChannel {} (fun v c => some ((expLane v).get c)) fun _ _ _ _ => rfl

end Sys2Proof.Machine
end

section
/-! PROOFS. The texture instructions and the lane discards (spec/45_texture_kill.md): a texture
frame with legal operands sends its request and stores the answer or waits at its place; one request
for each texture instruction that does not fault and none for any other; and what KIL and KILP add
to Kill. -/

namespace Sys2Proof.Machine

/-! ### The texture frame at the Sampler port (R310 to R312, R388) -/

section texture
variable {α : Type} {s t : State} {i : Nat} {legal : Bool} {m : Mods} {d : Dst} {srcs : Option α}
  {req : α → SamplerReq} (hpc : s.pc = .running i)
include hpc

/-- With legal operands inside their files the frame issues its request and stores the response, or
it waits on it for ever (R310, R388). -/
theorem texFrame_effect (hwf : s.storageWf = true) (hl : legal = true) {ra : α}
    (hs : srcs = some ra) (hd : d.wellFormed = true) {rd : Quad Nat}
    (hrd : s.resolveDst d = some rd) :
    (¬s.silent → ∃ t, texFrame s legal m d srcs req = .next t ∧
      StoreEffect (s.requested (req ra)) t i m d rd (s.response (req ra))) ∧
    (s.silent → texFrame s legal m d srcs req = .next (s.stuckOn (req ra))) :=
  ⟨fun hanswer => ⟨_, texFrame_next hpc hl hs hrd hanswer,
      (s.requested (req ra)).commit_effect hwf i m d hd rd _⟩,
    fun hsilent => texFrame_await hpc hl hs hrd hsilent⟩

/-- An answered texture frame that leaves the Run going has issued one request, whatever the masks
(R312). -/
theorem texFrame_answered (h : texFrame s legal m d srcs req = .next t) (ht : t.status = .running)
    (hanswer : ¬s.silent) : (∃ q, t.requests = s.requests ++ [q]) ∧
      t.samplerTick = s.samplerTick + 1 ∧ t.samplerPending = none := by
  rcases texFrame_cases hpc h with
    ⟨-, ra, rd, -, -, ⟨-, rfl⟩ | ⟨hsilent, -⟩⟩ | ⟨-, rfl⟩ | ⟨-, -, rfl⟩
  · exact ⟨⟨req ra, by simp⟩, by simp, by simp⟩
  · exact absurd hsilent hanswer
  · cases ht
  · cases ht

/-- An unanswered texture frame that leaves the Run going changes nothing but the request on the
port, and does the same again from there (R388). -/
theorem texFrame_stuck (h : texFrame s legal m d srcs req = .next t) (ht : t.status = .running)
    (hsilent : s.silent) :
    (∃ q, t = s.await q) ∧ texFrame t legal m d srcs req = .next t := by
  rcases texFrame_cases hpc h with
    ⟨hl, ra, rd, hra, hrd, ⟨hanswer, -⟩ | ⟨-, rfl⟩⟩ | ⟨-, rfl⟩ | ⟨-, -, rfl⟩
  · exact absurd hsilent hanswer
  · exact ⟨⟨req ra, rfl⟩, texFrame_await (s := s.await (req ra)) hpc hl hra hrd hsilent⟩
  · cases ht
  · cases ht

/-- An instruction whose meaning, here and from any wait of this state, is one texture frame: while
the Run goes on, it has issued one request, or is stuck on one. -/
theorem texFrame_oneRequest {ins : Instr} (hframe : exec ins s = texFrame s legal m d srcs req)
    (hawait : ∀ q, exec ins (s.await q) = texFrame (s.await q) legal m d srcs req)
    (hexec : exec ins s = .next t) (ht : t.status = .running) :
    (¬s.silent → (∃ q, t.requests = s.requests ++ [q]) ∧
      t.samplerTick = s.samplerTick + 1 ∧ t.samplerPending = none) ∧
    (s.silent → (∃ q, t = s.stuckOn q) ∧ exec ins t = .next t) := by
  rw [hframe] at hexec
  refine ⟨texFrame_answered hpc hexec ht, fun hsilent => ?_⟩
  obtain ⟨⟨q, rfl⟩, hagain⟩ := texFrame_stuck hpc hexec ht hsilent
  exact ⟨⟨q, rfl⟩, (hawait q).trans hagain⟩

end texture

/-! ### The five texture instructions (R313 to R317) -/

section samples
variable {op : BitVec 8} (coords : (Lane → Chans Word) → Lane → Chans Word)
  (lod : (Lane → Chans Word) → Lane → Word) (explicitLod : Bool)

/-- An opcode with one source whose meaning is the texture frame over the coordinates and the bias
of its operand samples with the request of those. -/
theorem IsTex1.samples {mk : Mods → TexSel → Dst → Src → Instr} (hop : IsTex1 op mk)
    (hexec : ∀ m tx d a s, exec (mk m tx d a) s =
      texFrame s (legal1 m d a && texLegal s tx) m d (s.resolveSrc a) fun ra =>
        texRequest tx (coords (s.fetchLane a ra)) (lod (s.fetchLane a ra)) explicitLod) :
    Samples1 op mk fun tx v => requestOf tx (coords v) (lod v) explicitLod := by
  refine ⟨hop.decode_eq, fun s i m tx d a rd ra h htx => ?_⟩
  have hlegal : (legal1 m d a && texLegal s tx) = true := by
    simp [legal1, modsLegal, dstLegal, srcLegal, texLegal, h.mods, h.dst, htx,
      h.srcs (a, ra) (by simp)]
  have hra := (s.resolveSrc_eq_some_iff a ra).mpr (h.src_regs (a, ra) (by simp))
  have hrd := (s.resolveDst_eq_some_iff d rd).mpr h.dst_regs
  simp only [hexec, texRequest_eq htx]
  exact texFrame_effect h.pc h.inv.storage_wf hlegal hra h.dst hrd

/-- The same with three sources, of which the first gives the request. -/
theorem IsTex3.samples {mk : Mods → TexSel → Dst → Src → Src → Src → Instr} (hop : IsTex3 op mk)
    (hexec : ∀ m tx d a b e s, exec (mk m tx d a b e) s =
      texFrame s (legal3 m d a b e && texLegal s tx) m d (s.resolveSrc3 a b e) fun r =>
        texRequest tx (coords (s.fetchLane a r.1)) (lod (s.fetchLane a r.1)) explicitLod) :
    Samples3 op mk fun tx v => requestOf tx (coords v) (lod v) explicitLod := by
  refine ⟨hop.decode_eq, fun s i m tx d a b e rd ra rb re h htx => ?_⟩
  have hlegal : (legal3 m d a b e && texLegal s tx) = true := by
    simp [legal3, legal2, legal1, modsLegal, dstLegal, srcLegal, texLegal, h.mods, h.dst, htx,
      h.srcs (a, ra) (by simp), h.srcs (b, rb) (by simp), h.srcs (e, re) (by simp)]
  have hsrcs : s.resolveSrc3 a b e = some (ra, rb, re) := by
    simp only [State.resolveSrc3_eq_some_iff, State.resolveSrc_eq_some_iff]
    exact ⟨h.src_regs (a, ra) (by simp), h.src_regs (b, rb) (by simp),
      h.src_regs (e, re) (by simp)⟩
  have hrd := (s.resolveDst_eq_some_iff d rd).mpr h.dst_regs
  simp only [hexec, texRequest_eq htx]
  exact texFrame_effect h.pc h.inv.storage_wf hlegal hsrcs h.dst hrd

end samples

/-- Settles O20: each opcode has the texture format of its sources, and its meaning is the texture
frame over its coordinates, its bias and its control flag. -/
theorem textureResults : Obligations.TextureResults := by
  refine ⟨?tex, ?txb, ?txl, ?txp, ?txd⟩
  case tex => exact IsTex1.samples id (fun _ _ => 0) false {} fun _ _ _ _ _ => rfl
  case txb => exact IsTex1.samples id (fun v l => (v l).w) false {} fun _ _ _ _ _ => rfl
  case txl => exact IsTex1.samples id (fun v l => (v l).w) true {} fun _ _ _ _ _ => rfl
  case txp =>
    exact IsTex1.samples (fun v l => projectLane (v l)) (fun _ _ => 0) false {} fun _ _ _ _ _ => rfl
  case txd => exact IsTex3.samples id (fun _ _ => 0) false {} fun _ _ _ _ _ _ _ => rfl

/-! ### One request for each texture instruction (R312, R388) -/

/-- t holds the record of the Sampler port of s. -/
structure SamePort (s t : State) : Prop where
  requests : t.requests = s.requests
  samplerTick : t.samplerTick = s.samplerTick
  samplerPending : t.samplerPending = s.samplerPending

/-- The control-flow instructions do not reach the Sampler port. -/
theorem FlowEffect.samePort {s t : State} {i : Nat} (h : FlowEffect s i t) : SamePort s t := by
  cases h <;> exact ⟨rfl, rfl, rfl⟩

/-- An instruction outside the texture group issues nothing, and neither does one that faults: of
the two effects that use the port, both keep the Run going. -/
theorem ExecEffect.samePort {s t : State} {i : Nat} {ins : Instr} (h : ExecEffect s i ins t)
    (hs : s.status = .running) (hno : ins.isTexture = false ∨ t.status ≠ .running) :
    SamePort s t := by
  cases h with
  | fatal | kill => exact ⟨rfl, rfl, rfl⟩
  | store => exact ⟨by simp, by simp, by simp⟩
  | texture m d rd req hdst htex => simp [htex, hs] at hno
  | await req htex => simp [htex, hs] at hno
  | flow hflow t ht => exact ht.samePort

/-- A texture instruction that leaves the Run going has issued one request, or is stuck on one. -/
theorem exec_texture_running {s t : State} {i : Nat} {ins : Instr} (hpc : s.pc = .running i)
    (htexture : ins.isTexture = true) (hexec : exec ins s = .next t) (ht : t.status = .running) :
    (¬s.silent → (∃ req, t.requests = s.requests ++ [req]) ∧
      t.samplerTick = s.samplerTick + 1 ∧ t.samplerPending = none) ∧
    (s.silent → (∃ req, t = s.stuckOn req) ∧ exec ins t = .next t) := by
  cases shape_of ins with
  | tex1 m tx d a req hframe _ hreq =>
    exact texFrame_oneRequest hpc (hframe s) (fun q => hreq s q ▸ hframe (s.await q)) hexec ht
  | tex3 m tx d a b c req hframe _ hreq =>
    exact texFrame_oneRequest hpc (hframe s) (fun q => hreq s q ▸ hframe (s.await q)) hexec ht
  | kil _ _ heq | kilp _ _ heq => subst heq; cases htexture
  | alu1 | alu2 | alu3 | flow => simp_all

/-- Settles O21: the texture frame uses the port once, and no other effect of an instruction
does. -/
theorem oneSamplerRequestEach : Obligations.OneSamplerRequestEach := by
  intro s t i ins hs hpc hexec
  refine ⟨fun htexture => exec_texture_running hpc htexture hexec, fun hno => ?_⟩
  have hport := (exec_effect ins hpc hexec).samePort hs hno
  exact ⟨hport.requests, hport.samplerTick, hport.samplerPending⟩

/-! ### Lane discard (R320, R321) -/

section discard
variable {s : State} {i : Nat} {h : HdrReserved} (hpc : s.pc = .running i)
include hpc

theorem execKil_illegal {a : Src} (hbad : (hdrWellFormed h && a.wellFormed) = false) :
    execKil h a s = .next (s.raiseFatal .illegalEncoding i) :=
  instrFrame_error hpc (by simp [hdrLegal, srcLegal, hbad])

theorem execKil_next {a : Src} (hlegal : (hdrWellFormed h && a.wellFormed) = true)
    {ra : Quad Nat} (hra : s.resolveSrc a = some ra) :
    execKil h a s = .next { s with
      kill := s.kill ||| (LaneMask.ofLanes (fun l => killLane (s.fetchLane a ra l)) &&& s.execMask)
      pc := s.pcAt (i + 1) } :=
  instrFrame_ok hpc (by simp only [hdrLegal, srcLegal, hlegal, hra, if_true]; rfl)

theorem execKilp_illegal {p : Bool} (hbad : h ≠ 0) :
    execKilp h p s = .next (s.raiseFatal .illegalEncoding i) :=
  instrFrame_error hpc (if_neg (by simpa [hdrLegal, hdrWellFormed] using hbad))

theorem execKilp_next (p : Bool) :
    execKilp 0 p s = .next { s with
      kill := s.kill ||| (if p then 0 else s.execMask : LaneMask), pc := s.pcAt (i + 1) } :=
  instrFrame_ok hpc rfl

end discard

/-- Kill after a KIL, lane by lane: the lanes it had, and the live ones with a component less than
zero (R320). -/
theorem State.kill_or_killLanes (s : State) (a : Src) (ra : Quad Nat) :
    s.kill ||| (LaneMask.ofLanes (fun l => killLane (s.fetchLane a ra l)) &&& s.execMask) =
      LaneMask.ofLanes fun l => s.kill.has l || (s.execMask.has l &&
        (flt (s.fetch a ra .x l) 0 || flt (s.fetch a ra .y l) 0 ||
          flt (s.fetch a ra .z l) 0 || flt (s.fetch a ra .w l) 0)) := by
  refine LaneMask.ext_has fun l => ?_
  rw [LaneMask.has_or, LaneMask.has_and, LaneMask.has_ofLanes, LaneMask.has_ofLanes, Bool.and_comm]
  rfl

/-- Settles O22: the field checks, the operand and the lanes of KIL; the header check and the lanes
of KILP, which under CC_PRED are none. -/
theorem discardResults : Obligations.DiscardResults := by
  refine ⟨⟨IsSrcOnly.decode_eq {}, fun s i h a hpc => ?_⟩, fun _ => decode_kilp,
    fun s i h hpc => ?_⟩
  · refine ⟨fun hbad => execKil_illegal hpc (Bool.and_eq_false_iff.mpr
        (by simpa [hdrWellFormed] using hbad)),
      fun hh hwf => ?_⟩
    have hlegal : (hdrWellFormed h && a.wellFormed) = true := by simp [hh, hwf, hdrWellFormed]
    refine ⟨fun hout => execKil_outside hpc hlegal ((s.resolveSrc_eq_none_iff a).mpr hout),
      fun ra hra => ?_⟩
    rw [← s.kill_or_killLanes]
    exact execKil_next hpc hlegal ((s.resolveSrc_eq_some_iff a ra).mpr hra)
  · refine ⟨fun hh p => execKilp_illegal hpc hh, ?_, execKilp_next hpc false⟩
    have hnone : s.kill ||| (0 : LaneMask) = s.kill := BitVec.or_zero
    have hnext := execKilp_next hpc true
    rwa [if_pos rfl, hnone] at hnext

end Sys2Proof.Machine
end

section
/-! PROOFS. The run family (spec/46_run_interp.md): the step loop and the placing of a record, Bind and
its checks on the bits of a declaration, the interpolation set-up, Run up to its first instruction, and
the invariant of the machine under the host's operations. -/

namespace Sys2Proof.Machine

/-! ### The step loop -/

/-- No record stands at or past NumInstr (R334). -/
theorem State.instrs_eq_none {s : State} {i : Nat} (h : s.numInstr ≤ i) :
    s.prog.instrs[i]? = none :=
  List.getElem?_eq_none h

/-- Settles O6: the case of the step loop where the record at the pc decodes. -/
theorem stepRunsDecodedInstruction : Obligations.StepRunsDecodedInstruction :=
  fun _ _ _ _ hs hpc hr hdec => step_of_decode hs hpc hr hdec

/-- Settles O7: the cases of the step loop that run no instruction. -/
theorem stepLoopAroundInstructions : Obligations.StepLoopAroundInstructions :=
  fun _ => ⟨fun hs hpc => step_finish hs hpc,
    fun _ hs hpc hi => step_runOff hs hpc (State.instrs_eq_none hi), fun hs => step_hold hs⟩

/-- Settles O8: each case of the step loop answers a next state, the one that runs an instruction
because the pc is then running. -/
theorem stepAlwaysAnswersNext : Obligations.StepAlwaysAnswersNext := by
  intro s
  by_cases hs : s.status = .running
  · cases hpc : s.pc with
    | halted => exact ⟨_, step_finish hs hpc⟩
    | running i =>
      cases hr : s.prog.instrs[i]? with
      | none => exact ⟨_, step_runOff hs hpc hr⟩
      | some r =>
        cases hdec : decode r with
        | ok ins =>
          rw [step_of_decode hs hpc hr hdec]
          exact exec_next ins hpc
        | error e => exact ⟨_, step_of_reject hs hpc hr hdec⟩
  · exact ⟨_, step_hold hs⟩

/-! ### Placing a record -/

section place
variable {s : State} {i : Nat} (r : Record)

/-- At a pc inside the program the record takes the place of the one there. -/
theorem State.placeRecord_inside (hpc : s.pc = .running i) (hi : i < s.numInstr) :
    s.placeRecord r = { s with
      prog := { s.prog with instrs := s.prog.instrs.set i r }, status := .running } := by
  simp [State.placeRecord, hpc, hi]

/-- Elsewhere the record becomes the whole program. -/
theorem State.placeRecord_outside
    (hpc : s.pc = .halted ∨ ∃ i, s.pc = .running i ∧ s.numInstr ≤ i) :
    s.placeRecord r = { s with
      prog := { s.prog with instrs := [r] }, pc := .running 0, status := .running } := by
  rcases hpc with hpc | ⟨i, hpc, hi⟩
  · simp [State.placeRecord, hpc]
  · simp [State.placeRecord, hpc, Nat.not_lt.mpr hi]

/-- The pc is inside the program, or it is not. -/
theorem State.pc_inside_or_outside (s : State) : (∃ i, s.pc = .running i ∧ i < s.numInstr) ∨
    (s.pc = .halted ∨ ∃ i, s.pc = .running i ∧ s.numInstr ≤ i) := by
  cases hpc : s.pc with
  | halted => exact .inr (.inl rfl)
  | running i =>
    rcases Nat.lt_or_ge i s.numInstr with hi | hi
    · exact .inl ⟨i, rfl, hi⟩
    · exact .inr (.inr ⟨i, rfl, hi⟩)

/-- A record that has been placed is the one a Run fetches next. -/
theorem State.placeRecord_fetch (s : State) : (s.placeRecord r).status = .running ∧
    ∃ i, (s.placeRecord r).pc = .running i ∧ (s.placeRecord r).prog.instrs[i]? = some r := by
  rcases s.pc_inside_or_outside with ⟨i, hpc, hi⟩ | hout
  · rw [State.placeRecord_inside r hpc hi]
    exact ⟨rfl, i, hpc, List.getElem?_set_self hi⟩
  · rw [State.placeRecord_outside r hout]
    exact ⟨rfl, 0, rfl, rfl⟩

end place

/-- Settles O9: both placements as equations, and the step that fetches what was placed. -/
theorem placedRecordRunsNext : Obligations.PlacedRecordRunsNext := by
  intro s r
  obtain ⟨hs, i, hpc, hr⟩ := s.placeRecord_fetch r
  exact ⟨fun _ => State.placeRecord_inside r, State.placeRecord_outside r, ⟨i, hpc, hr⟩,
    fun _ hdec => step_of_decode hs hpc hr hdec⟩

/-! ### The bits of a declaration (R331) -/

theorem RegFile.ofBits_eq_input : ∀ b : BitVec 4, RegFile.ofBits b = .input ↔ b = 2 := by decide

theorem Interp.ofBits_eq_illegal : ∀ b : BitVec 2, Interp.ofBits b = .illegal ↔ b = 3 := by decide

/-- The file codes without a file (R86). -/
def RegFile.isUnassigned : RegFile → Bool
  | .unassigned _ => true
  | .null | .temp | .input | .output | .addr | .pred | .imm | .const => false

theorem RegFile.isUnassigned_ofBits : ∀ b : BitVec 4,
    RegFile.isUnassigned (RegFile.ofBits b) = true ↔ 8 ≤ b.toNat := by
  decide

section declBits
variable (r : DeclRecord)

theorem decodeDecl_file_eq_input :
    (decodeDecl r).file = .input ↔ r.dw0.extractLsb' 0 4 = 2 :=
  RegFile.ofBits_eq_input _

theorem decodeDecl_reserved_ne_zero : (decodeDecl r).reserved ≠ 0 ↔ 1024 ≤ r.dw0.toNat := by
  have hlt := r.dw0.isLt
  have hval : (decodeDecl r).reserved.toNat = r.dw0.toNat / 1024 := by
    simp only [decodeDecl, BitVec.extractLsb'_toNat, Nat.shiftRight_eq_div_pow]
    omega
  rw [← BitVec.toNat_ne_iff_ne, hval]
  simp only [BitVec.ofNat_eq_ofNat, BitVec.toNat_ofNat]
  omega

theorem decodeDecl_first_toNat : (decodeDecl r).first.toNat = r.dw1.toNat % 65536 := by
  simp [decodeDecl, BitVec.extractLsb'_toNat]

theorem decodeDecl_last_toNat : (decodeDecl r).last.toNat = r.dw1.toNat / 65536 := by
  have hlt := r.dw1.isLt
  simp only [decodeDecl, BitVec.extractLsb'_toNat, Nat.shiftRight_eq_div_pow]
  omega

theorem decodeDecl_mask_bit (c : Channel) :
    (decodeDecl r).mask.getLsbD c.toNat = r.dw0.getLsbD (4 + c.toNat) := by
  simp [decodeDecl, c.toNat_lt]

/-- The checks of Bind on the bits of a declaration (R330 step 3). -/
theorem declFault_eq (cfg : Cfg) : declFault cfg r =
    if 1024 ≤ r.dw0.toNat ∨ r.dw0.extractLsb' 8 2 = 3 ∨ 8 ≤ (r.dw0.extractLsb' 0 4).toNat then
      some .illegalEncoding
    else if r.dw0.extractLsb' 0 4 = 2 ∧
        (r.dw1.toNat / 65536 < r.dw1.toNat % 65536 ∨ cfg.numInput ≤ r.dw1.toNat / 65536) then
      some .indexOutOfBounds
    else none := by
  have hfields : declFault cfg r =
      if (decodeDecl r).reserved ≠ 0 ∨ (decodeDecl r).interp = .illegal ∨
          RegFile.isUnassigned (decodeDecl r).file = true then some .illegalEncoding
      else if (decodeDecl r).file = .input ∧
          ((decodeDecl r).last.toNat < (decodeDecl r).first.toNat ∨
            cfg.numInput ≤ (decodeDecl r).last.toNat) then some .indexOutOfBounds
      else none := rfl
  have hinterp : (decodeDecl r).interp = .illegal ↔ r.dw0.extractLsb' 8 2 = 3 :=
    Interp.ofBits_eq_illegal _
  have hfile : RegFile.isUnassigned (decodeDecl r).file = true ↔
      8 ≤ (r.dw0.extractLsb' 0 4).toNat :=
    RegFile.isUnassigned_ofBits _
  simp only [hfields, decodeDecl_reserved_ne_zero, hinterp, hfile, decodeDecl_file_eq_input,
    decodeDecl_first_toNat, decodeDecl_last_toNat]

/-- An Input declaration that passed Bind stays inside the Input file. -/
theorem decodeDecl_last_lt {cfg : Cfg} (hok : declFault cfg r = none)
    (hfile : (decodeDecl r).file = .input) : (decodeDecl r).last.toNat < cfg.numInput := by
  rw [declFault_eq] at hok
  rw [decodeDecl_file_eq_input] at hfile
  rw [decodeDecl_last_toNat]
  split_ifs at hok with hbad hrange
  simp only [hfile, true_and, not_or, not_le] at hrange
  exact hrange.2

end declBits

/-! ### Bind -/

/-- A program passes the checks of Bind when its immediates fit and each declaration is sound. -/
theorem bindFault_eq_none_iff (cfg : Cfg) (p : Prog) : bindFault cfg p = none ↔
    p.imms.length ≤ cfg.maxImm ∧ ∀ r ∈ p.decls, declFault cfg r = none := by
  unfold bindFault
  split_ifs with himm
  · simp [himm]
  · simp [Nat.not_lt.mp himm]

/-- The first bad declaration gives the code (log 15). -/
theorem bindFault_first_bad {cfg : Cfg} {p : Prog} {before after : List DeclRecord}
    {r : DeclRecord} {code : FatalCode} (himm : p.imms.length ≤ cfg.maxImm)
    (hp : p.decls = before ++ r :: after) (hbefore : ∀ q ∈ before, declFault cfg q = none)
    (hr : declFault cfg r = some code) : bindFault cfg p = some code := by
  have hnone : before.findSome? (declFault cfg) = none := List.findSome?_eq_none_iff.mpr hbefore
  rw [bindFault, if_neg (Nat.not_lt.mpr himm), hp, List.findSome?_append, hnone]
  simp [hr]

section bind
variable {s : State} {p : Prog} (hs : s.status ≠ .running)
include hs

/-- A program that does not fit is refused (R358). -/
theorem hostBind_bindError
    (hbig : s.cfg.maxInstr < p.instrs.length ∨ s.cfg.maxDecl < p.decls.length) :
    hostBind p s = .refused .bindError := by
  rw [hostBind, whenNotRunning_idle hs, if_pos hbig]

/-- A program that fits and fails a check records the fatal error (R330, R354). -/
theorem hostBind_fault (hinstr : p.instrs.length ≤ s.cfg.maxInstr)
    (hdecl : p.decls.length ≤ s.cfg.maxDecl) {code : FatalCode}
    (hfault : bindFault s.cfg p = some code) :
    hostBind p s = .next { s with status := .faulted code .bind } := by
  rw [hostBind, whenNotRunning_idle hs, if_neg (by omega), hfault]

/-- A program that fits and passes every check becomes the bound one (R330). -/
theorem hostBind_success (hinstr : p.instrs.length ≤ s.cfg.maxInstr)
    (hdecl : p.decls.length ≤ s.cfg.maxDecl) (hok : bindFault s.cfg p = none) :
    hostBind p s = .next { s with prog := p, pc := .halted, status := .idle } := by
  rw [hostBind, whenNotRunning_idle hs, if_neg (by omega), hok]

end bind

/-- Settles O57: the outcomes of Bind one by one, then the checks on the bits of a declaration. -/
theorem bindRule : Obligations.BindRule := by
  refine ⟨fun s p => ⟨fun hs => whenNotRunning_running hs _, fun hs =>
    ⟨hostBind_bindError hs, fun hinstr hdecl => ⟨fun himm => ?_, fun himm => ⟨fun hall => ?_, ?_⟩⟩⟩⟩,
    fun cfg r => declFault_eq r cfg⟩
  · exact hostBind_fault hs hinstr hdecl (if_pos himm)
  · exact hostBind_success hs hinstr hdecl ((bindFault_eq_none_iff _ _).mpr ⟨himm, hall⟩)
  · intro before r after code hp hbefore hr
    exact hostBind_fault hs hinstr hdecl (bindFault_first_bad himm hp hbefore hr)

/-! ### The interpolation set-up -/

/-- Setting up a declaration is a sequence of writes to the registers it declares, so what each of
them keeps is kept. -/
theorem setupDecl_induction {motive : State → Prop} {s : State} (r : DeclRecord) (hs : motive s)
    (hwrite : ∀ (t : State) (i : Nat) (c : Channel) (l : Lane) (v : Word), motive t →
      (decodeDecl r).file = .input → i ≤ (decodeDecl r).last.toNat →
      motive (t.writeReg .input i c l v)) :
    motive (setupDecl s r) := by
  unfold setupDecl
  dsimp only
  split_ifs with hfile
  · refine List.foldlRecOn _ _ hs fun t ht i hi => ?_
    have hlast : i ≤ (decodeDecl r).last.toNat := by
      rw [List.mem_range'_1] at hi
      omega
    refine List.foldlRecOn _ _ ht fun t ht c _ => ?_
    split_ifs
    · exact List.foldlRecOn _ _ ht fun t ht l _ => hwrite t i c l _ ht hfile hlast
    · exact ht
  · exact hs

/-- The set-up is a sequence of writes to declared Input registers. -/
theorem State.interpSetup_induction {motive : State → Prop} {s : State} (hs : motive s)
    (hwrite : ∀ (t : State) (r : DeclRecord) (i : Nat) (c : Channel) (l : Lane) (v : Word),
      motive t → r ∈ s.prog.decls → (decodeDecl r).file = .input →
      i ≤ (decodeDecl r).last.toNat → motive (t.writeReg .input i c l v)) :
    motive s.interpSetup := by
  unfold State.interpSetup
  split_ifs
  · exact List.foldlRecOn _ _ hs fun t ht r hr =>
      setupDecl_induction r ht fun t i c l v ht => hwrite t r i c l v ht hr
  · exact hs

/-- The set-up changes only the Input file. -/
theorem State.interpSetup_frame (s : State) :
    s.interpSetup = { s with input := s.interpSetup.input } := by
  refine State.interpSetup_induction (motive := fun t => t = { s with input := t.input }) rfl ?_
  intro t _ i c l v ht _ _ _
  rw [ht]
  rfl

/-- The set-up keeps the stores canonical. -/
theorem State.interpSetup_storageWf {s : State} (h : s.storageWf = true) :
    s.interpSetup.storageWf = true :=
  State.interpSetup_induction (motive := fun t => t.storageWf = true) h
    fun t _ i c l v ht _ _ _ => t.writeReg_storageWf ht .input i c l v

/-- The set-up of a bound program keeps the invariant: its declarations passed Bind, so no write
leaves the Input file. -/
theorem State.Inv.interpSetup {s : State} (h : s.Inv) : s.interpSetup.Inv := by
  have hok : ∀ r ∈ s.prog.decls, declFault s.cfg r = none := by
    have hfits := h.prog_fits
    simp only [State.progFits, Bool.and_eq_true, Option.isNone_iff_eq_none] at hfits
    exact ((bindFault_eq_none_iff _ _).mp hfits.2).2
  have hbounded : s.interpSetup.storageBounded = true ∧ s.interpSetup.cfg = s.cfg := by
    refine State.interpSetup_induction
      (motive := fun t => t.storageBounded = true ∧ t.cfg = s.cfg) ⟨h.storage_bounded, rfl⟩ ?_
    intro t r i c l v ⟨ht, hcfg⟩ hr hfile hi
    refine ⟨t.writeReg_storageBounded ht .input i (fun _ => ?_) c l v, by simpa using hcfg⟩
    have hlast := decodeDecl_last_lt r (hok r hr) hfile
    rw [State.fileSize, hcfg]
    omega
  have hwf := State.interpSetup_storageWf h.storage_wf
  have hb := hbounded.1
  rw [s.interpSetup_frame] at hwf hb ⊢
  exact { h with storage_wf := hwf, storage_bounded := hb }

/-- The plane of one Input channel at the four pixels of the quad (R338). -/
def State.plane (s : State) (i : Nat) (c : Channel) : Quad Word :=
  let a := s.a0.read (vectorCellNo i c)
  let dx := s.dadx.read (vectorCellNo i c)
  let dy := s.dady.read (vectorCellNo i c)
  let base := fadd (fadd a (fmul dx s.quadX)) (fmul dy s.quadY)
  ⟨base, fadd base dx, fadd base dy, fadd (fadd base dx) dy⟩

theorem State.linear_eq_plane (s : State) (i : Nat) (c : Channel) (l : Lane) :
    s.linear i c l = (s.plane i c).get l := by
  fin_cases l <;> rfl

/-- The value of a lane by the code of the mode; code 3 counts as constant (log 20). -/
theorem State.interp_ofBits (s : State) (b : BitVec 2) (i : Nat) (c : Channel) (l : Lane) :
    s.interp (Interp.ofBits b) i c l =
      if b = 1 then (s.plane i c).get l
      else if b = 2 then fdiv ((s.plane i c).get l) (s.quadW.get l)
      else s.a0.read (vectorCellNo i c) := by
  have hcode : b = 0 ∨ b = 1 ∨ b = 2 ∨ b = 3 := by revert b; decide
  rw [← s.linear_eq_plane]
  rcases hcode with rfl | rfl | rfl | rfl <;> rfl

/-- The state before the last declaration is set up: that of the set-up of the earlier ones, with the
whole program bound. -/
theorem State.interpSetup_concat {s : State} {before : List DeclRecord} {r : DeclRecord}
    (hstage : s.prog.stage = .fragment) (hdecls : s.prog.decls = before ++ [r]) :
    s.interpSetup = setupDecl
      { { s with prog := { s.prog with decls := before } }.interpSetup with prog := s.prog } r := by
  have hcomm := foldl_setupDecl_comm (fun t => { t with prog := s.prog })
    (fun _ _ _ _ _ => rfl) (fun _ m _ _ _ => by cases m <;> rfl) before
    { s with prog := { s.prog with decls := before } }
  rw [State.interpSetup, if_pos hstage, hdecls, List.foldl_append, List.foldl_cons,
    List.foldl_nil, State.interpSetup, if_pos hstage]
  exact congrArg (setupDecl · r) hcomm

/-- Settles O59: without an effect outside the Fragment stage and without declarations; else the last
declaration sets up its cells on the state that the earlier ones leave, whose coefficients are those
of s. -/
theorem interpolationRule : Obligations.InterpolationRule := by
  intro s hwf
  refine ⟨fun hstage => if_neg hstage, fun hnil => ?_, fun before r hstage hdecls i c l => ?_⟩
  · simp [State.interpSetup, hnil]
  intro first last maskBit earlier a dx dy base lin
  have hframe : earlier = { s with
      prog := { s.prog with decls := before }, input := earlier.input } :=
    State.interpSetup_frame _
  have hearlier : earlier.storageWf = true := State.interpSetup_storageWf hwf
  have hlast := setupDecl_spec r { earlier with prog := s.prog } hearlier
  have hmode : ∀ m, State.interp { earlier with prog := s.prog } m i c l = s.interp m i c l := by
    intro m
    rw [hframe]
    cases m <;> rfl
  have hbit : (decodeDecl r).mask.getLsbD c.toNat = r.dw0.getLsbD maskBit := by
    rw [decodeDecl_mask_bit]
    cases c <;> rfl
  have hcells : ((decodeDecl r).file = .input ∧ (decodeDecl r).first.toNat ≤ i ∧
      i ≤ (decodeDecl r).last.toNat ∧ (decodeDecl r).mask.getLsbD c.toNat = true) ↔
      (r.dw0.extractLsb' 0 4 = 2 ∧ first ≤ i ∧ i ≤ last ∧ r.dw0.getLsbD maskBit = true) := by
    rw [decodeDecl_file_eq_input, decodeDecl_first_toNat, decodeDecl_last_toNat, hbit]
  have hvalue : s.interp (decodeDecl r).interp i c l =
      if r.dw0.extractLsb' 8 2 = 1 then lin.get l
      else if r.dw0.extractLsb' 8 2 = 2 then fdiv (lin.get l) (s.quadW.get l)
      else a :=
    s.interp_ofBits _ i c l
  rw [State.interpSetup_concat hstage hdecls, ← hvalue, ← hmode]
  split_ifs with hdeclared
  · exact hlast.set i c l (hcells.mpr hdeclared)
  · exact hlast.keep i c l fun hcell => hdeclared (hcells.mp hcell)

/-! ### Run -/

/-- The state in which Run starts the interpolation set-up (R332 steps 1 and 2). -/
def State.runStart (s : State) : State := { s.runReset with status := .running }

/-- The set-up neither reads nor writes what the Run reset changes, so the two commute. -/
theorem State.interpSetup_runStart (s : State) :
    s.runStart.interpSetup = s.interpSetup.runStart := by
  by_cases hstage : s.prog.stage = .fragment
  · have hcomm := foldl_setupDecl_comm State.runStart (fun _ _ _ _ _ => rfl)
      (fun _ m _ _ _ => by cases m <;> rfl) s.prog.decls s
    rw [show s.interpSetup = s.prog.decls.foldl setupDecl s from if_pos hstage, ← hcomm]
    exact if_pos hstage
  · rw [show s.interpSetup = s from if_neg hstage]
    exact if_neg hstage

/-- Settles O58: the Run reset after the set-up, which changes only the Input file. -/
theorem runStartRule : Obligations.RunStartRule := by
  refine fun s => ⟨fun hs => whenNotRunning_running hs _, fun hs => ?_⟩
  calc hostRun s = .next (s.runStart.interpSetup.goto 0) := whenNotRunning_idle hs _
    _ = .next (s.interpSetup.runStart.goto 0) := by rw [State.interpSetup_runStart]
    _ = _ := by rw [s.interpSetup_frame]; rfl

/-! ### The invariant under the host's operations -/

/-- An accepted host operation was not asked for during a Run and answers what it does. -/
theorem whenNotRunning_eq_next {α : Type} {s : State} {o : Host.Outcome α Fault Refusal} {a : α}
    (h : whenNotRunning s o = .next a) : s.status ≠ .running ∧ o = .next a := by
  by_cases hs : s.status = .running
  · rw [whenNotRunning_running hs] at h
    cases h
  · exact ⟨hs, by rwa [whenNotRunning_idle hs] at h⟩

section hostInv
variable {s t : State} (h : s.Inv)
include h

/-- A fatal error at Bind keeps the program, and success binds one that fits and passed the checks. -/
theorem State.Inv.hostBind {p : Prog} (ht : hostBind p s = .next t) : t.Inv := by
  obtain ⟨-, ht⟩ := whenNotRunning_eq_next ht
  split_ifs at ht with hbig
  split at ht
  · cases ht
    exact { h with status_agrees := rfl }
  · rename_i hok
    cases ht
    have hfits : p.instrs.length ≤ s.cfg.maxInstr ∧ p.decls.length ≤ s.cfg.maxDecl := by omega
    exact { h with
      prog_fits := by simp [State.progFits, hfits, hok]
      pc_in_range := fun i hi => by cases hi
      status_agrees := rfl }

/-- The Run reset keeps the invariant: the stacks are empty. -/
theorem State.Inv.runStart : s.runStart.Inv :=
  { h with
    status_agrees := rfl
    cond_depth := Nat.zero_le _, loop_depth := Nat.zero_le _, cont_depth := Nat.zero_le _
    call_depth := Nat.zero_le _, func_depth := rfl
    ret_pc := fun e he => by cases he
    out_cursor := rfl }

/-- The start of a Run is the reset, the set-up and a transfer to index 0, which keep the invariant. -/
theorem State.Inv.hostRun (ht : hostRun s = .next t) : t.Inv := by
  obtain ⟨-, ht⟩ := whenNotRunning_eq_next ht
  cases ht
  have hrunning : s.runStart.interpSetup.status = .running := by
    rw [State.interpSetup_runStart]
    rfl
  exact h.runStart.interpSetup.goto hrunning 0

/-- The cell written lies inside its file. -/
theorem State.Inv.hostWriteReg {f : RegFile} {i : Nat} {c : Channel} {l : Lane} {v : Word}
    (ht : hostWriteReg f i c l v s = .next t) : t.Inv := by
  obtain ⟨-, ht⟩ := whenNotRunning_eq_next ht
  split_ifs at ht with hreach
  cases ht
  have hi : i < s.fileSize f := by simpa using (Bool.and_eq_true_iff.mp hreach).2
  have hwf := s.writeReg_storageWf h.storage_wf f i c l v
  have hb := s.writeReg_storageBounded h.storage_bounded f i (fun _ => hi) c l v
  rw [s.writeReg_frame] at hwf hb ⊢
  exact { h with storage_wf := hwf, storage_bounded := hb }

/-- The constant written lies inside the constant buffers. -/
theorem State.Inv.hostWriteConst {i : Nat} {c : Channel} {v : Word}
    (ht : hostWriteConst i c v s = .next t) : t.Inv := by
  obtain ⟨-, ht⟩ := whenNotRunning_eq_next ht
  split_ifs at ht with hi
  cases ht
  have hwf := (State.storageWf_iff s).mp h.storage_wf
  have hb := (State.storageBounded_iff s).mp h.storage_bounded
  have hcell : vectorCellNo i c < 4 * (s.cfg.numConstBufs * s.cfg.constStride) :=
    vectorCellNo_lt hi c
  exact { h with
    storage_wf := by simp [State.storageWf_iff, CellMap.write_wf, hwf]
    storage_bounded := by simp [State.storageBounded_iff, CellMap.write_below, hcell, hb] }

/-- The invariant does not speak of CC. -/
theorem State.Inv.hostWriteCc {c : Channel} {l : Lane} {code : BitVec 2}
    (ht : hostWriteCc c l code s = .next t) : t.Inv := by
  obtain ⟨-, ht⟩ := whenNotRunning_eq_next ht
  cases ht
  exact { h with }

/-- The invariant does not speak of the quad position. -/
theorem State.Inv.hostWriteQuad {x y : Word} {w : Quad Word}
    (ht : hostWriteQuad x y w s = .next t) : t.Inv := by
  obtain ⟨-, ht⟩ := whenNotRunning_eq_next ht
  cases ht
  exact { h with }

/-- The coefficients written are those of a channel of the Input file. -/
theorem State.Inv.hostWriteCoef {i : Nat} {c : Channel} {a dx dy : Word}
    (ht : hostWriteCoef i c a dx dy s = .next t) : t.Inv := by
  obtain ⟨-, ht⟩ := whenNotRunning_eq_next ht
  split_ifs at ht with hi
  cases ht
  have hwf := (State.storageWf_iff s).mp h.storage_wf
  have hb := (State.storageBounded_iff s).mp h.storage_bounded
  have hcell := vectorCellNo_lt hi c
  exact { h with
    storage_wf := by simp [State.storageWf_iff, CellMap.write_wf, hwf]
    storage_bounded := by simp [State.storageBounded_iff, CellMap.write_below, hcell, hb] }

end hostInv

/-- Settles O39: each operation by its own lemma. -/
theorem hostOperationsKeepInvariant : Obligations.HostOperationsKeepInvariant :=
  fun _ _ h => ⟨fun _ => h.hostBind, h.hostRun, fun _ _ _ _ _ => h.hostWriteReg,
    fun _ _ _ => h.hostWriteConst, fun _ _ _ => h.hostWriteCc, fun _ _ _ => h.hostWriteQuad,
    fun _ _ _ _ _ => h.hostWriteCoef⟩

end Sys2Proof.Machine
end

section
/-! PROOFS. The exceptions family (spec/60_exceptions.md): what an instruction does to Status, and from
it that a fatal error is precise and final. -/

namespace Sys2Proof.Machine

/-! ### Fatal errors are precise and final (R355, R362) -/

/-- The control-flow instructions keep Status. -/
theorem FlowEffect.status_eq {s t : State} {i : Nat} (h : FlowEffect s i t) :
    t.status = s.status := by
  cases h <;> rfl

/-- An instruction keeps Status, or all it does is to take a fatal error at its own index (R355). -/
theorem ExecEffect.status_cases {s t : State} {i : Nat} {ins : Instr} (h : ExecEffect s i ins t) :
    t.status = s.status ∨ ∃ code, t = s.raiseFatal code i := by
  cases h with
  | fatal code => exact .inr ⟨code, rfl⟩
  | store | texture => exact .inl (by simp)
  | await | kill => exact .inl rfl
  | flow hflow t ht => exact .inl ht.status_eq

/-- A step of a Run that ends in Faulted took the fatal error at the pc and did nothing else: of the
other things a step can do, one ends the Run in Done and the rest keep Status. -/
theorem StepEffect.faulted {s t : State} (h : StepEffect s t) (hs : s.status = .running)
    {code : FatalCode} {place : FaultAt} (hf : t.status = .faulted code place) :
    ∃ i, s.pc = .running i ∧ place = .instr i ∧ t = s.raiseFatal code i := by
  cases h with
  | hold hidle => exact absurd hs hidle
  | finish hs hpc => cases hf
  | runOff hs i hpc hnone => simp [hs] at hf
  | instr hs i hpc r hr ins hdec t hexec ht =>
    rcases ht.status_cases with hkeep | ⟨code', rfl⟩
    · simp [hkeep, hs] at hf
    · cases hf
      exact ⟨i, hpc, rfl, rfl⟩
  | unknown hs i hpc r hr e hdec =>
    cases hf
    exact ⟨i, hpc, rfl, rfl⟩

/-- Settles O36: the fault is precise by what a step can do, and final because a step without a Run in
progress holds the state. -/
theorem fatalErrorIsPrecise : Obligations.FatalErrorIsPrecise := by
  intro s t code place hs hstep hf
  obtain ⟨i, hpc, hplace, ht⟩ := (step_effect hstep).faulted hs hf
  have hidle : t.status ≠ .running := by simp [hf]
  exact ⟨i, hpc, hplace, ht, step_hold hidle⟩

end Sys2Proof.Machine
end
